-- ==== Sys2Proof/Word.lean ====
section
/-! DEFINITION. The word types of the D1200 and the numbers of its units (00 R6, 01 R17 to R21). -/
namespace Sys2Proof

/-- One byte. -/
abbrev Byte := BitVec 8
/-- A register of control space (R6). -/
abbrev Word32 := BitVec 32
/-- A scalar register of the control stream (R90). -/
abbrev Word64 := BitVec 64
/-- The 64 bytes of a comb line, byte 0 in the low bits (R221). -/
abbrev Line := BitVec 512
/-- A device physical address (R22). -/
abbrev Addr := BitVec 48

/-- A logical core, region times 50 plus rank (R18). -/
abbrev CoreNo := Fin 1200
/-- A thread group of a core (R155). -/
abbrev GroupNo := Fin 16
/-- A core site, region times 54 plus row times 6 plus column (R17). -/
abbrev SiteNo := Fin 1296
/-- A slice, die times 1,296 plus site (R20). -/
abbrev SliceNo := Fin 2592
/-- A region footprint (R17). -/
abbrev RegionNo := Fin 24
/-- A link (R21). -/
abbrev LinkNo := Fin 48
/-- An HBM stack (R21). -/
abbrev StackNo := Fin 12
/-- A host core (R21). -/
abbrev HostNo := Fin 16
/-- A feed: 0 is FEED_A, 1 is FEED_B (R26). -/
abbrev FeedNo := Fin 2

end Sys2Proof
end

