-- ==== Sys2Proof/Syntax.lean ====
section
/-! DEFINITION. The commands of the D1200 block: the 277 rows of the table of operations and events, with their operands. -/
namespace Sys2Proof

/-- Who makes a control-space access (R24, R390): a host core, the management processor or the debug port. -/
inductive By
  | host (h : HostNo)
  | mp
  | debug
  deriving DecidableEq, Repr

/-- The fields of a long control word beyond opcode and engine (R91, R94): `low` is [45:0], the engine's own. -/
structure LongWord where
  tag : BitVec 5
  flags : BitVec 7
  rdaFirst : BitVec 7
  rdaCount : BitVec 7
  rdbFirst : BitVec 7
  rdbCount : BitVec 7
  wrFirst : BitVec 7
  wrCount : BitVec 7
  desc : BitVec 6
  ka : BitVec 5
  kb : BitVec 5
  low : BitVec 46
  deriving DecidableEq, Repr

/-- The fields of a thread word beyond its opcode (R159). -/
structure ThreadWord where
  dst : BitVec 6
  a : BitVec 6
  b : BitVec 6
  c : BitVec 6
  p : BitVec 3
  n : Bool
  m : BitVec 28
  deriving DecidableEq, Repr

/-- A requester at a home slice: agents 0 to 1,215 are the caches of R231, 1,216 stands for every engine without one;
with the regulator's master and class (R303). `debug` marks the debug port, whose reach its level bounds (R24, R469). -/
structure Requester where
  agent : Fin 1217
  master : Fin 1205
  cls : BitVec 3
  debug : Bool := false
  deriving DecidableEq, Repr

/-- What befalls an access of a home to its stack: a first read that is bad with a good retry, two bad reads (R298), or write data
with bad parity (R297; log 11). -/
inductive HbmStrike
  | once | twice | parity
  deriving DecidableEq, Repr

/-- Bits that have changed in a stored byte since it was last written: byte 64 is the check byte, bit 8 the parity bit
(R238, R239; log 11). -/
structure Upset where
  byte : Fin 65
  flip : BitVec 9
  deriving DecidableEq, Repr

/-- One lane's part of an atomic request: byte offset in the line, operand, compare value (R178, R179). -/
structure AtomLane where
  off : Nat
  val : Word64
  cmp : Word64 := 0
  deriving DecidableEq, Repr

/-- A row of matrix results or accumulator memory found uncorrectable: entry and column (R152; log 11). -/
structure AccUpset where
  entry : Fin 512
  column : Fin 32
  deriving DecidableEq, Repr

/-- What a fault of the array has done to a row of a pass (R145, R152; log 15): bits changed in the sums of its columns, bits
changed in the result of the checksum column, and a column whose accumulator entry is found uncorrectable. -/
structure RowUpset where
  cells : List (Fin 32 × Word32) := []
  check : Word32 := 0
  acc : Option (Fin 32) := none
  deriving DecidableEq, Repr

/-- A transport packet: the fields of its header and its payload (R324). `fields` is 0x14 to 0x1F. -/
structure Packet where
  dst : BitVec 16
  src : BitVec 16
  typ : Byte
  hop : Byte := 32
  dgen : Byte := 0
  sgen : Byte := 0
  len : BitVec 13 := 0
  vc : BitVec 2 := 0
  rsv : Bool := false
  tag : BitVec 16 := 0
  seq : Word32 := 0
  crc : Word32 := 0
  fields : BitVec 96 := 0
  payload : List Byte := []
  deriving DecidableEq, Repr

/-- What training a link came to: its lane maps, three bits for each logical lane, and the receive lanes out of service (R314,
R338; log 11). -/
structure LaneMaps where
  rx : BitVec 12 := 0x688
  tx : BitVec 12 := 0x688
  bad : BitVec 5 := 0
  deriving DecidableEq, Repr

/-- A waggle box (R366). -/
inductive BoxId
  | h2c (c : CoreNo)
  | c2h (c : CoreNo)
  | h2m (i : Fin 4)
  | m2h (i : Fin 4)
  | m2r (n : RegionNo)
  | r2m (n : RegionNo)
  deriving DecidableEq, Repr

/-- Who works on a box: a requester of control space, or the region controller whose box it is (R366). -/
inductive Boxer
  | via (b : By)
  | controller
  deriving DecidableEq, Repr

/-- What is asked of the post service (R373): to post a message, to withdraw one by its handle, or, after a box's EMPTY event or
a domain's power-up, to try a box again. -/
inductive PostOp
  | post (box : BoxId) (hdr : Word32) (data : BitVec 512)
  | withdraw (handle : Nat)
  | retry (box : BoxId)
  deriving DecidableEq, Repr


/-- Where a management request comes from (R466, R470, R484): the management port, a device that sent MFRAME packets, or the
debug port. -/
inductive FrameSrc
  | port
  | device (dev : BitVec 16)
  | debug
  deriving DecidableEq, Repr

/-- OTP bits that a write fails to set: they read back as they were (R454; log 11). -/
structure OtpMiss where
  policy : Byte := 0
  hash : BitVec 512 := 0
  enrolled : Bool := false
  lifecycle : BitVec 3 := 0
  purgeDone : Bool := false
  deriving DecidableEq, Repr

/-- How a freeze is asked for (R474). -/
inductive FreezeVia
  | pin
  | jtag
  | ctl (b : By) (v : Word32)
  deriving DecidableEq, Repr

/-- A path whose drop per ampere is checked: a feed, or a footprint's compute rail (R420, R421). -/
inductive SupplyPath
  | feed (f : FeedNo)
  | vertical (n : RegionNo)
  deriving DecidableEq, Repr

/-- A temperature sensor (R432): a tower sensor by layer and footprint, a link die's, a stack's. -/
inductive SensorId
  | tower (layer : Fin 4) (n : RegionNo)
  | linkDie (d : Fin 4)
  | stack (st : StackNo)
  deriving DecidableEq, Repr

/-- The comparators of a sensor (R434). -/
inductive Threshold
  | warning
  | throttle
  | shutdown
  deriving DecidableEq, Repr

/-- A footprint's load at a cross-check (R438; log 11): the powers of its comb rail groups in mW, its compute current in 10 mA. -/
structure FpLoad where
  n : RegionNo
  comb0 : Nat
  comb1 : Nat
  compute : Nat
  deriving DecidableEq, Repr

/-- What the tests and trainings of one start come to (R396 to R409; log 11): everything that the hardware finds out as it
starts, each list naming the units that fail. -/
structure StartRun where
  /-- rails up, crystal good and datum clock locked -/
  rails : Bool := true
  /-- the entropy source passes its start-up test -/
  entropy : Bool := true
  /-- the learned list in the NVM has no valid copy -/
  learnedLost : Bool := false
  phases : List (Fin 288) := []
  /-- the essential base-die units pass -/
  base : Bool := true
  ports : List (Fin 96) := []
  /-- UCIe ports, by link die, whose loopback fails; they are essential -/
  ucie : List (Fin 4) := []
  hosts : List HostNo := []
  slices : List SliceNo := []
  /-- a stack reads 105 °C or more in the first millisecond of step 5 -/
  hot : Bool := false
  retrained : List StackNo := []
  /-- stacks that fail training -/
  untrained : List StackNo := []
  sites : List SiteNo := []
  /-- sites that end the swarm trial failed -/
  trial : List SiteNo := []
  /-- the Linux image in the carve-out is the one recorded -/
  linuxKept : Bool := true
  /-- the runtime answers -/
  answers : Bool := true
  /-- what the words of a raised anti-rollback counter read back before one reads back right -/
  arbReads : List Word64 := []
  /-- milliseconds from the start of step 1 -/
  ms : Word32 := 0
  deriving DecidableEq, Repr

/-- A request to the loader (R120; log 11): the image, the logical cores in the order of its image cores, where its sections are
placed in HBM, and the cores whose bank never loads. -/
structure LoadRequest where
  image : List Byte
  map : List CoreNo
  places : List (Nat × Addr) := []
  census : BitVec 3 := 0
  failing : List CoreNo := []
  deriving DecidableEq, Repr

/-- What a command of the management port or the debug port carries besides its own fields (R485, R486): its source, its request
id, the nonce and the signature. -/
structure Signed where
  src : FrameSrc
  id : Word32
  nonce : BitVec 256
  sig : List Byte
  deriving DecidableEq, Repr

/-- The resources that Redfish serves (R483). -/
inductive Resource
  | chassis
  | processors
  | memory
  | networkPorts
  | thermal
  | logServices
  | status
  deriving DecidableEq, Repr

/-- The commands of the block: one constructor for each row of the table of operations and events. -/
inductive Instr
  /-- ADDK (R96): scalar add of ka and kb or an immediate into kd. -/
  | addk (c : CoreNo) (kd ka kb : BitVec 5) (useImm : Bool) (imm : Word64)
  /-- SUBK (R96): scalar subtract of kb or an immediate from ka into kd. -/
  | subk (c : CoreNo) (kd ka kb : BitVec 5) (useImm : Bool) (imm : Word64)
  /-- LDK (R98): loads 8 bytes through L1 into kd after alignment, region-table and memory checks. -/
  | ldk (c : CoreNo) (kd ka : BitVec 5) (region : BitVec 6) (imm : Word64)
  /-- STK (R98): stores kb as 8 bytes through L1 after alignment and region-table checks. -/
  | stk (c : CoreNo) (ka kb : BitVec 5) (region : BitVec 6) (imm : Word64)
  /-- B (R96): unconditional relative branch of the control stream. -/
  | b (c : CoreNo) (off : BitVec 16)
  /-- BC (R96): conditional relative branch comparing ka with kb or a sign-extended 48-bit immediate. -/
  | bc (c : CoreNo) (ka kb : BitVec 5) (cond : BitVec 3) (useImm : Bool) (cmp : BitVec 48) (off : BitVec 16)
  /-- LOOP (R97): loop head that exits when kd is zero and otherwise decrements kd. -/
  | loop (c : CoreNo) (kd : BitVec 5) (off : BitVec 16)
  /-- MOVE (R195): issues a DMA descriptor to the core DMA engine under its page claim. -/
  | move (c : CoreNo) (w : LongWord)
  /-- MOVE_CHANNEL_START (R197): A MOVE starts on its channel, runs form, zero, region and tile-buffer checks, and begins its bursts. -/
  | moveChannelStart (c : CoreNo) (tag : BitVec 5) (slots : Nat := 1)
  /-- MOVE_FAULT_RAISE (R213): once all issued bursts of a failed MOVE have ended, the fault of the lowest failed burst is raised. -/
  | moveFaultRaise (c : CoreNo) (tag : BitVec 5)
  /-- MMA (R125): issues one matrix-array pass of M rows against a stationary tile. -/
  | mma (c : CoreNo) (w : LongWord)
  /-- CONV (R140): issues a sequence of chained passes computing a convolution from an unexpanded map. -/
  | conv (c : CoreNo) (w : LongWord)
  /-- ACCX_DRAIN (R149): moves accumulator entries into the register block of a target thread group. -/
  | accxDrain (c : CoreNo) (w : LongWord) (upset : Option AccUpset)
  /-- ACCX_STORE (R150): converts accumulator entries and stores them into the tile buffer. -/
  | accxStore (c : CoreNo) (w : LongWord) (upset : Option AccUpset)
  /-- ACCX_LOAD (R150): loads tile-buffer elements into accumulator entries. -/
  | accxLoad (c : CoreNo) (w : LongWord)
  /-- ARRAY_PASS_START (R130): an array pass starts its weight load and stream once earlier array work allows. -/
  | arrayPassStart (c : CoreNo) (tag : BitVec 5) (cycle : Nat)
  /-- STREAM_SLOT_ARRIVAL (R136): A stream-feed line arrives at the input queue and is held or discarded by its timing. -/
  | streamSlotArrival (c : CoreNo) (tag : BitVec 5) (cycle : Nat)
  /-- CHECKSUM_PACKET_ARRIVAL (R204): the stream-feed move delivers its 512-byte checksum packet to the array. -/
  | checksumPacketArrival (c : CoreNo) (tag : BitVec 5)
  /-- ARRAY_ROW_COMMIT (R134): A checked row is committed to accumulator memory, waiting in the output queue when blocked. -/
  | arrayRowCommit (c : CoreNo) (tag : BitVec 5) (m : Fin 512) (u : RowUpset) (blocked : Bool)
  /-- ARRAY_ROW_REPLAY (R145): A row that failed its row check is replayed once after the pass's last line. -/
  | arrayRowReplay (c : CoreNo) (tag : BitVec 5) (m : Fin 512) (u : RowUpset)
  /-- ARRAY_PASS_END (R131): the pass decides its column checks and feed outcome and pulses or faults. -/
  | arrayPassEnd (c : CoreNo) (tag : BitVec 5) (flips : List (Fin 32 × Word32))
  /-- LAUNCH (R156): issues a kernel of 16 thread groups under a launch descriptor. -/
  | launch (c : CoreNo) (w : LongWord)
  /-- KERNEL_GROUP_START (R157): A group slot of a launched kernel starts with its state initialised. -/
  | kernelGroupStart (c : CoreNo) (g : GroupNo)
  /-- KERNEL_COMPLETE (R158): all groups have exited and all writes and copies have landed, so the LAUNCH pulses. -/
  | kernelComplete (c : CoreNo)
  /-- CRED (R266): sends rows of tile-buffer elements as reduce contributions to their home slices. -/
  | cred (c : CoreNo) (w : LongWord)
  /-- CFIN (R268): converts reduce-state or exact lines into a destination format, optionally clearing them. -/
  | cfin (c : CoreNo) (w : LongWord)
  /-- UPD (R276): runs the optimiser update over a range of chunks of an owned shard. -/
  | upd (c : CoreNo) (w : LongWord)
  /-- UPD_CHUNK_PASS (R281): an update engine runs a verify, weight-only or full pass on one chunk. -/
  | updChunkPass (c : CoreNo) (tag : BitVec 5) (chunk : Word32)
  /-- KILL (R247): drops the lines of a range without write-back and adds a dead range. -/
  | kill (c : CoreNo) (w : LongWord)
  /-- REVIVE (R249): removes overlapping dead-range entries at issue. -/
  | revive (c : CoreNo) (w : LongWord)
  /-- FLUSH_KEEP (R233): writes back every dirty or owned line of a range and leaves it clean. -/
  | flushKeep (c : CoreNo) (w : LongWord)
  /-- FLUSH_INVALIDATE (R233): writes back and invalidates every line of a range. -/
  | flushInvalidate (c : CoreNo) (w : LongWord)
  /-- COLL_ALL_REDUCE (R351): collective all-reduce across a group. -/
  | collAllReduce (c : CoreNo) (w : LongWord)
  /-- COLL_REDUCE_SCATTER (R351): collective reduce-scatter across a group. -/
  | collReduceScatter (c : CoreNo) (w : LongWord)
  /-- COLL_ALL_GATHER (R351): collective all-gather across a group. -/
  | collAllGather (c : CoreNo) (w : LongWord)
  /-- COLL_ALL_TO_ALL (R351): collective all-to-all exchange of blocks. -/
  | collAllToAll (c : CoreNo) (w : LongWord)
  /-- COLL_BROADCAST (R351): broadcast from a root rank to the group. -/
  | collBroadcast (c : CoreNo) (w : LongWord)
  /-- COLL_SHARD_GATHER (R354): fetches chunks of a shard from its owner into the local replica. -/
  | collShardGather (c : CoreNo) (w : LongWord)
  /-- COLL_ACCEPT (R348): the collective engine accepts a COLL, checks it and assigns its group sequence number. -/
  | collAccept (c : CoreNo) (tag : BitVec 5)
  /-- WAITC (R99): stalls the control stream until an arrival counter passes a wrap-safe threshold. -/
  | waitc (c : CoreNo) (ctr : BitVec 4) (ka : BitVec 5) (imm : Word32)
  /-- SIGC (R100): adds an increment to an arrival counter of a core of the program. -/
  | sigc (c : CoreNo) (release : Bool) (target : BitVec 11) (ctr : BitVec 4) (inc : BitVec 16)
  /-- SIGC_RELEASE_SEND (R100): A release SIGC sends once earlier long instructions, stores and copies have completed. -/
  | sigcReleaseSend (c : CoreNo)
  /-- SIGC_ARRIVAL (R101): A counter increment arrives at its target core and is added. -/
  | sigcArrival (idx : Nat)
  /-- SWITCH (R109): requests a swap of the instruction banks to an entry offset. -/
  | switch (c : CoreNo) (entry : BitVec 15)
  /-- SWITCH_TAKES_EFFECT (R109): once fetched words retire and no kernel or MOVE blocks it, the banks swap. -/
  | switchTakesEffect (c : CoreNo)
  /-- FENCE (R102): stalls the stream until masked tags complete, optionally as a memory fence. -/
  | fence (c : CoreNo) (mem : Bool) (mask : Word32)
  /-- TRAP (R102): faults the core with code 0x21 and the trap code. -/
  | trap (c : CoreNo) (code : BitVec 16)
  /-- HALT (R102): stops issue and waits to enter HALTED. -/
  | halt (c : CoreNo)
  /-- CORE_ENTER_HALTED (R115): with no tag in flight and no group running, the core enters HALTED. -/
  | coreEnterHalted (c : CoreNo)
  /-- SCOREBOARD_ISSUE (R103): A stalled long instruction issues once its hazards clear and its queue has room. -/
  | scoreboardIssue (c : CoreNo)
  /-- EVENT_PULSE (R104): an engine signals completion of an instruction, freeing its tag and page sets. -/
  | eventPulse (c : CoreNo) (tag : BitVec 5)
  /-- CORE_ENTER_FAULTED (R116): once only faulted tags remain in flight, the core enters FAULTED. -/
  | coreEnterFaulted (c : CoreNo)
  /-- WATCHDOG_EXPIRED (R117): A stall reaches the watchdog bound and the core faults with 0x20. -/
  | watchdogExpired (c : CoreNo)
  /-- CORE_START (R115): CORE_CTL.start starts or resumes the core. -/
  | coreStart (by_ : By) (c : CoreNo) (v : Word32)
  /-- CORE_HALT_REQUEST (R115): CORE_CTL.halt_req asks a running core to halt at an instruction boundary. -/
  | coreHaltRequest (by_ : By) (c : CoreNo) (v : Word32)
  /-- CORE_IMEM_DATA_ACCESS (R108): transfers one instruction-memory word, invalidating the standby bank or refusing the active bank. -/
  | coreImemDataAccess (by_ : By) (c : CoreNo) (wr : Option Word32)
  /-- CORE_DESC_DATA_ACCESS (R107): transfers one descriptor-memory word and advances the address. -/
  | coreDescDataAccess (by_ : By) (c : CoreNo) (wr : Option Word32)
  /-- CORE_KREG_ACCESS (R122): reads or writes half of a selected scalar register outside RUN. -/
  | coreKregAccess (by_ : By) (c : CoreNo) (hi : Bool) (wr : Option Word32)
  /-- CORE_ARRIVE_WRITE (R101): writes an arrival counter, combining with same-cycle increments. -/
  | coreArriveWrite (by_ : By) (c : CoreNo) (ctr : BitVec 4) (v : Word32) (same : List Nat)
  /-- REGION_TABLE_WRITE (R114): writes a region-table word, refused in RUN or FAULTED. -/
  | regionTableWrite (by_ : By) (c : CoreNo) (entry : BitVec 6) (word : BitVec 2) (v : Word32)
  /-- CORE_ACC_DATA_ACCESS (R153): transfers an accumulator entry outside RUN and advances the address. -/
  | coreAccDataAccess (by_ : By) (c : CoreNo) (wr : Option Word32)
  /-- CORE_FPCTL_WRITE (R72): sets rounding, flush and census settings for later instructions. -/
  | coreFpctlWrite (by_ : By) (c : CoreNo) (v : Word32)
  /-- CORE_SEED_WRITE (R83): writes half of the core's random seed for later instructions. -/
  | coreSeedWrite (by_ : By) (c : CoreNo) (hi : Bool) (v : Word32)
  /-- REGISTER_WRITE (R27): A control-space write to a register with no behaviour of its own, decoded to one outcome. Without a value
  it is a read, which R27 decodes the same way and the table gives no row of its own (log 52). -/
  | registerWrite (by_ : By) (size : BitVec 4) (addr : Addr) (v : Option Word32)
  /-- IADD (R162): thread integer add. -/
  | iadd (c : CoreNo) (g : GroupNo) (w : ThreadWord)
  /-- ISUB (R162): thread integer subtract. -/
  | isub (c : CoreNo) (g : GroupNo) (w : ThreadWord)
  /-- IMUL (R162): thread integer multiply, low 32 bits. -/
  | imul (c : CoreNo) (g : GroupNo) (w : ThreadWord)
  /-- IMAD (R162): thread integer multiply-add, low 32 bits. -/
  | imad (c : CoreNo) (g : GroupNo) (w : ThreadWord)
  /-- IMIN (R162): thread signed minimum. -/
  | imin (c : CoreNo) (g : GroupNo) (w : ThreadWord)
  /-- IMAX (R162): thread signed maximum. -/
  | imax (c : CoreNo) (g : GroupNo) (w : ThreadWord)
  /-- UMIN (R162): thread unsigned minimum. -/
  | umin (c : CoreNo) (g : GroupNo) (w : ThreadWord)
  /-- UMAX (R162): thread unsigned maximum. -/
  | umax (c : CoreNo) (g : GroupNo) (w : ThreadWord)
  /-- AND (R162): thread bitwise and. -/
  | andT (c : CoreNo) (g : GroupNo) (w : ThreadWord)
  /-- OR (R162): thread bitwise or. -/
  | orT (c : CoreNo) (g : GroupNo) (w : ThreadWord)
  /-- XOR (R162): thread bitwise xor. -/
  | xorT (c : CoreNo) (g : GroupNo) (w : ThreadWord)
  /-- SHL (R162): thread shift left. -/
  | shl (c : CoreNo) (g : GroupNo) (w : ThreadWord)
  /-- SHR (R162): thread logical shift right. -/
  | shr (c : CoreNo) (g : GroupNo) (w : ThreadWord)
  /-- SRA (R162): thread arithmetic shift right. -/
  | sra (c : CoreNo) (g : GroupNo) (w : ThreadWord)
  /-- MOV (R162): thread move of a register, uniform or immediate. -/
  | mov (c : CoreNo) (g : GroupNo) (w : ThreadWord)
  /-- SEL (R162): thread select by predicate. -/
  | sel (c : CoreNo) (g : GroupNo) (w : ThreadWord)
  /-- ICMP (R162): thread integer compare into a predicate. -/
  | icmp (c : CoreNo) (g : GroupNo) (w : ThreadWord)
  /-- IADD64 (R162): thread 64-bit add on a register pair. -/
  | iadd64 (c : CoreNo) (g : GroupNo) (w : ThreadWord)
  /-- FADD (R60): thread FP32 add. -/
  | fadd (c : CoreNo) (g : GroupNo) (w : ThreadWord)
  /-- FSUB (R60): thread FP32 subtract. -/
  | fsub (c : CoreNo) (g : GroupNo) (w : ThreadWord)
  /-- FMUL (R60): thread FP32 multiply. -/
  | fmul (c : CoreNo) (g : GroupNo) (w : ThreadWord)
  /-- FFMA (R60): thread FP32 fused multiply-add. -/
  | ffma (c : CoreNo) (g : GroupNo) (w : ThreadWord)
  /-- FMIN (R60): thread FP32 minimumNumber. -/
  | fmin (c : CoreNo) (g : GroupNo) (w : ThreadWord)
  /-- FMAX (R60): thread FP32 maximumNumber. -/
  | fmax (c : CoreNo) (g : GroupNo) (w : ThreadWord)
  /-- FABS (R162): thread FP32 absolute value. -/
  | fabs (c : CoreNo) (g : GroupNo) (w : ThreadWord)
  /-- FCMP (R162): thread FP32 compare into a predicate. -/
  | fcmp (c : CoreNo) (g : GroupNo) (w : ThreadWord)
  /-- FDIV (R60): thread FP32 divide. -/
  | fdiv (c : CoreNo) (g : GroupNo) (w : ThreadWord)
  /-- FSQRT (R60): thread FP32 square root. -/
  | fsqrt (c : CoreNo) (g : GroupNo) (w : ThreadWord)
  /-- FRCP (R60): thread approximate reciprocal. -/
  | frcp (c : CoreNo) (g : GroupNo) (w : ThreadWord)
  /-- FRSQ (R60): thread approximate reciprocal square root. -/
  | frsq (c : CoreNo) (g : GroupNo) (w : ThreadWord)
  /-- FEX2 (R60): thread approximate base-2 exponential. -/
  | fex2 (c : CoreNo) (g : GroupNo) (w : ThreadWord)
  /-- FLG2 (R60): thread approximate base-2 logarithm. -/
  | flg2 (c : CoreNo) (g : GroupNo) (w : ThreadWord)
  /-- CVT (R182): thread format conversion with rounding, saturation and census counting. -/
  | cvt (c : CoreNo) (g : GroupNo) (w : ThreadWord)
  /-- CVT_MX (R183): converts 32 lanes of FP32 into one microscaling block. -/
  | cvtMx (c : CoreNo) (g : GroupNo) (w : ThreadWord)
  /-- RNG_U32 (R184): writes a 32-bit counter-based draw for a logical element. -/
  | rngU32 (c : CoreNo) (g : GroupNo) (w : ThreadWord)
  /-- BMASK (R86): writes 32 Bernoulli mask bits from 16-bit draws. -/
  | bmask (c : CoreNo) (g : GroupNo) (w : ThreadWord)
  /-- SHFL (R185): thread lane shuffle. -/
  | shfl (c : CoreNo) (g : GroupNo) (w : ThreadWord)
  /-- VOTE (R162): group vote over a predicate of the active lanes. -/
  | vote (c : CoreNo) (g : GroupNo) (w : ThreadWord)
  /-- WRU (R162): writes a uniform from the lowest active lane. -/
  | wru (c : CoreNo) (g : GroupNo) (w : ThreadWord)
  /-- LD (R171): thread load from a region, after per-lane alignment, bound and permission checks. -/
  | ld (c : CoreNo) (g : GroupNo) (w : ThreadWord)
  /-- ST (R172): thread store to a region. -/
  | st (c : CoreNo) (g : GroupNo) (w : ThreadWord)
  /-- LDT (R174): thread load from the tile buffer. -/
  | ldt (c : CoreNo) (g : GroupNo) (w : ThreadWord)
  /-- STT (R174): thread store to the tile buffer. -/
  | stt (c : CoreNo) (g : GroupNo) (w : ThreadWord)
  /-- ATOM (R178): thread atomic sent as one request per line to home slices. -/
  | atom (c : CoreNo) (g : GroupNo) (w : ThreadWord)
  /-- CPYA (R175): starts an asynchronous copy into the tile buffer or L1. -/
  | cpya (c : CoreNo) (g : GroupNo) (w : ThreadWord)
  /-- CPYA_COMPLETE (R175): A copy has landed and adds one to its arrival counter. -/
  | cpyaComplete (c : CoreNo) (idx : Nat)
  /-- KERNEL_FENCE (R189): thread acquire, release or sequentially consistent fence. -/
  | kernelFence (c : CoreNo) (g : GroupNo) (w : ThreadWord)
  /-- BRX (R166): divergent branch pushing join and else entries on the mask stack. -/
  | brx (c : CoreNo) (g : GroupNo) (w : ThreadWord)
  /-- JOIN (R167): pops the mask stack and continues at the popped word. -/
  | join (c : CoreNo) (g : GroupNo) (w : ThreadWord)
  /-- JMP (R167): thread jump with the active mask unchanged. -/
  | jmp (c : CoreNo) (g : GroupNo) (w : ThreadWord)
  /-- BAR (R169): arrives at a barrier, completing it or parking the path. -/
  | bar (c : CoreNo) (g : GroupNo) (w : ThreadWord)
  /-- KERNEL_WAITC (R176): A group waits for an arrival counter to reach a threshold. -/
  | kernelWaitc (c : CoreNo) (g : GroupNo) (w : ThreadWord)
  /-- KERNEL_SIGC (R176): A group adds an increment to a counter of its own core. -/
  | kernelSigc (c : CoreNo) (g : GroupNo) (w : ThreadWord)
  /-- EXIT (R168): removes the executing lanes and may complete barriers or exit the group. -/
  | exit (c : CoreNo) (g : GroupNo) (w : ThreadWord)
  /-- COMB_READ (R239): A home slice serves a whole-line read with parity and syndrome checks. -/
  | combRead (q : Requester) (ln : BitVec 42) (upsets : List Upset)
  /-- COMB_WRITE (R238): A home slice applies a write, updating check bytes and directory state. -/
  | combWrite (q : Requester) (ln : BitVec 42) (mask : BitVec 64) (data : Line) (upsets : List Upset)
  /-- HOST_OWNERSHIP_REQUEST (R233): A host core requests exclusive ownership of a line. -/
  | hostOwnershipRequest (h : HostNo) (ln : BitVec 42)
  /-- HOST_WRITE_BACK (R233): A host owner writes a line back to its home. -/
  | hostWriteBack (h : HostNo) (ln : BitVec 42) (data : Line)
  /-- MISS_FILL_COMPLETE (R233): an HBM fetch returns to a miss register and its waiters are served. -/
  | missFillComplete (ln : BitVec 42) (strike : Option HbmStrike := none)
  /-- INVALIDATION_ACK (R232): A sharer's acknowledgement of an invalidation arrives at the home. -/
  | invalidationAck (ln : BitVec 42) (sharer : BitVec 12)
  /-- HOST_RECALL_RESPONSE (R233): A recalled host owner returns the line data to the home. -/
  | hostRecallResponse (h : HostNo) (ln : BitVec 42) (modified : Option Line)
  /-- REQUEST_REISSUE (R236): A refused requester reissues after its back-off. -/
  | requestReissue (agent : Fin 1217) (ln : BitVec 42)
  /-- PATROL_SCRUB_VISIT (R243): patrol scrub reads and checks one line position of a slice. -/
  | patrolScrubVisit (n : SliceNo) (missed : Bool) (upsets : List Upset)
  /-- SLICE_WAKE (R240): A slice wakes, clears its valid bits and starts its wake sweep. -/
  | sliceWake (n : SliceNo)
  /-- WAKE_SWEEP_COMPLETE (R240): A slice's wake or split sweep finishes zeroing invalid lines. -/
  | wakeSweepComplete (n : SliceNo)
  /-- SPLIT_CHANGE (R225): A write of scratch_ways changes the split, evicting and invalidating lines. -/
  | splitChange (by_ : By) (ways : BitVec 5)
  /-- ATOMIC_APPLY (R179): A home slice applies one atomic request to a line. -/
  | atomicApply (q : Requester) (ln : BitVec 42) (op : BitVec 6) (width : BitVec 4) (lanes : List AtomLane)
  /-- REDUCE_CONTRIBUTION (R257): A home slice applies a non-exact contribution to a line in reduce state. -/
  | reduceContribution (q : Requester) (ln : BitVec 42) (op : BitVec 3) (fmt : BitVec 2) (elems : List (Nat × Word32))
  /-- EXACT_CONTRIBUTION (R264): A home slice applies a contribution to an exact accumulator group. -/
  | exactContribution (q : Requester) (ln : BitVec 42) (fmt : BitVec 2) (e : BitVec 9) (elems : List (Nat × Word32))
  /-- REDUCE_WAY_WAIT_TIMEOUT (R262): A contribution waiting 2^20 comb cycles for a reduce way sets way_wait. -/
  | reduceWayWaitTimeout (ln : BitVec 42)
  /-- GREQ_RECEIVED (R286): the owner reads a chunk with two tag readings and answers GDATA, GSUPER or GCORRUPT. -/
  | greqReceived (p : Packet) (superseded : Bool)
  /-- GDATA_RECEIVED (R286): the receiver writes the chunk and its replica tag, or the stale marker on mismatch. -/
  | gdataReceived (p : Packet)
  /-- GSUPER_RECEIVED (R354): A superseded answer schedules a repeat request or marks the chunk stale. -/
  | gsuperReceived (p : Packet)
  /-- GCORRUPT_RECEIVED (R354): A corrupt answer marks the replica chunk stale. -/
  | gcorruptReceived (p : Packet)
  /-- GREQ_RETRY (R354): the engine sends a GREQ again 10 µs after a GSUPER. -/
  | greqRetry (tag : BitVec 16)
  /-- DIGEST_SWEEP_PERIOD (R287): A sweep period starts checking every shard chunk from shard 0. -/
  | digestSweepPeriod
  /-- DIGEST_SWEEP_CHUNK (R287): an update engine checks one chunk's digests for the sweep. -/
  | digestSweepChunk
  /-- HBM_READ (R298): A controller reads a granule, retrying once on a parity or on-die failure. -/
  | hbmRead (q : Requester) (ln : BitVec 42) (good retryGood : Bool) (ecc : Nat)
  /-- HBM_WRITE (R297): A controller writes data after checking every byte's parity. -/
  | hbmWrite (q : Requester) (ln : BitVec 42) (mask : BitVec 64) (data : Line) (parityGood : Bool)
  /-- HBM_TEMP_READ (R300): every 1 ms the controller reads stack temperature and sets refresh and throttle. -/
  | hbmTempRead (st : StackNo) (temp : Byte)
  /-- HBM_PATROL_READ (R302): patrol reads and checks one granule of a stack. -/
  | hbmPatrolRead (st : StackNo) (expired good retryGood : Bool) (ecc : Nat)
  /-- SELF_REFRESH_ENTRY (R301): A stack enters self-refresh once issued requests complete. -/
  | selfRefreshEntry (st : StackNo)
  /-- REGULATOR_WINDOW_BOUNDARY (R304): master byte counts reset and pending budget changes take effect. -/
  | regulatorWindowBoundary
  /-- REQUEST_ADMISSION (R304): the regulator admits a request at a priority level and counts it. -/
  | requestAdmission (id : Nat) (master : Fin 1205) (cls : BitVec 3) (telemetry : Bool) (deadline : Option (BitVec 12)) (ln : BitVec 42 := 0)
  /-- DEADLINE_EXPIRY (R305): A request's deadline expires and it is dropped or raised to urgent. -/
  | deadlineExpiry (id : Nat)
  /-- REQUEST_AGEING (R304): A low-level request waiting 4,096 base cycles rises to level 2. -/
  | requestAgeing (id : Nat)
  /-- RESERVATION_ADMISSION (R307): setting a reservation's enable requests admission, decided at once. -/
  | reservationAdmission (by_ : By) (idx : Fin 32) (v : Word32)
  /-- LANE_SWAP (R314): A failing logical lane moves to the spare through request and acknowledgement. -/
  | laneSwap (l : LinkNo) (lane : Fin 4) (index : BitVec 16)
  /-- FLIT_RECEIVED (R318): A flit is received, checked, accepted or discarded, and its ack and credits used. -/
  | flitReceived (l : LinkNo) (slot : Nat) (uncorr : BitVec 2) (flit : BitVec 2048)
  /-- REPLAY_TIMEOUT (R318): the oldest unacknowledged flit waits 2 µs and the sender replays from it. -/
  | replayTimeout (l : LinkNo)
  /-- RECOVER_ENTRY (R319): repeated replays or lost alignment put the link into RECOVER. -/
  | recoverEntry (l : LinkNo)
  /-- RECOVER_TIMEOUT (R319): A RECOVER not complete in 1 ms takes the link DOWN. -/
  | recoverTimeout (l : LinkNo)
  /-- CUT_THROUGH_TIMEOUT (R323): A packet waiting 10 ms for egress credit is abandoned. -/
  | cutThroughTimeout (l : LinkNo) (vc : BitVec 2) (cls : Bool := false)
  /-- PACKET_RECEIVED (R326): A transport packet is delivered locally, checked and dispatched by type. -/
  | packetReceived (l : LinkNo) (p : Packet)
  /-- PACKET_FORWARD (R330): A packet not for this device is routed and forwarded or discarded. -/
  | packetForward (l : LinkNo) (cls : Bool) (p : Packet)
  /-- LINK_ENABLE (R338): LNK_CTL.enable starts or stops link training. -/
  | linkEnable (by_ : By) (l : LinkNo) (v : Word32)
  /-- EQUALISATION_LOCK (R338): training locks four lanes or fails and the link moves on. -/
  | equalisationLock (l : LinkNo) (lanes : Option LaneMaps)
  /-- ALIGN_LOCK (R338): FEC and deskew lock and identities are exchanged, making the link ACTIVE. -/
  | alignLock (l : LinkNo) (dev : BitVec 16) (lnk : BitVec 6) (gen : Byte)
  /-- DOWN_RETRY (R338): firmware retries training 10 s after DOWN. -/
  | downRetry (l : LinkNo)
  /-- LINK_ADAPTATION (R340): every 100 ms a receiver adapts equalisation and counts corrected symbols. -/
  | linkAdaptation (l : LinkNo) (c0 c1 c2 c3 : Word32)
  /-- ETH_FRAME_RECEIVED (R335): an Ethernet port answers ARP or ND, accepts a frame, or discards it. -/
  | ethFrameReceived (l : LinkNo) (frame : List Byte)
  /-- EACK_RECEIVED (R336): an end-to-end acknowledgement advances a context and adjusts its window. -/
  | eackReceived (p : Packet)
  /-- EACK_TIMER (R336): 2 µs after the first unacknowledged packet the receiver sends an EACK. -/
  | eackTimer (peer : BitVec 12) (vc : BitVec 2)
  /-- RETRANSMISSION_TIMEOUT (R336): the sender retransmits from the oldest packet and may fail the context. -/
  | retransmissionTimeout (peer : BitVec 12) (vc : BitVec 2)
  /-- READY_RECEIVED (R350): A peer's READY arrives, enabling DATA or faulting on hash mismatch. -/
  | readyReceived (p : Packet)
  /-- DATA_RECEIVED (R351): collective data are written or applied as contributions. -/
  | dataReceived (p : Packet)
  /-- DONE_RECEIVED (R355): A receiver's DONE arrives and the COLL may pulse. -/
  | doneReceived (p : Packet)
  /-- ABORT_RECEIVED (R356): an ABORT faults the collective with 0x30. -/
  | abortReceived (p : Packet)
  /-- COLLECTIVE_TIMEOUT (R356): no packet for the timeout faults the collective with 0x2F and sends ABORT. -/
  | collectiveTimeout (c : CoreNo) (tag : BitVec 5)
  /-- LNK_RT_DATA_ACCESS (R328): transfers a routing entry to all five copies and advances the index. -/
  | lnkRtDataAccess (by_ : By) (wr : Option Word32)
  /-- SEQ_RESET (R359): clears the sequence number of a group. -/
  | seqReset (by_ : By) (v : Word32)
  /-- CTX_RESET (R359): resets the four contexts of a peer, faulting their operations. -/
  | ctxReset (by_ : By) (v : Word32)
  /-- BYPASS_OPEN (R342): opens the traverse bypass switches. -/
  | bypassOpen (by_ : By)
  /-- BYPASS_CLOSE (R342): disables links 46 and 47 and closes the bypass. -/
  | bypassClose (by_ : By)
  /-- MAILBOX_DATA_WRITE (R369): writes a payload word of a waggle box. -/
  | mailboxDataWrite (by_ : Boxer) (box : BoxId) (idx : Fin 16) (v : Word32)
  /-- MAILBOX_SEND (R369): A header write fills an empty box and raises the receiver event. -/
  | mailboxSend (by_ : Boxer) (box : BoxId) (v : Word32)
  /-- MAILBOX_RELEASE (R369): A release empties a non-privileged box and raises the sender event. -/
  | mailboxRelease (by_ : Boxer) (box : BoxId)
  /-- MAILBOX_ACK (R369): an acknowledgement stores a code and empties a privileged box. -/
  | mailboxAck (by_ : Boxer) (box : BoxId) (v : Word32)
  /-- MBX_CCNT_WRITE (R372): configures the core-end counters and area, refusing illegal settings. -/
  | mbxCcntWrite (by_ : By) (c : CoreNo) (reg : Fin 3) (v : Word32)
  /-- POST (R373): the post service delivers, holds or refuses a message to a box. -/
  | post (op : PostOp)
  /-- CRYSTAL_GOOD (R375): 16 good windows declare the crystal good and lead to trim and PLL lock. -/
  | crystalGood
  /-- CRYSTAL_TRIP (R376): the crystal monitor trips, stopping clocks and moving MP to the RC oscillator. -/
  | crystalTrip
  /-- DROOP_CROSSING (R379): A droop detector raises a footprint's swallow level. -/
  | droopCrossing (n : RegionNo) (rail : Fin 3) (deep : Bool)
  /-- DROOP_RELEASE (R379): after 64 slowed cycles above threshold the swallow level drops. -/
  | droopRelease (n : RegionNo) (rail : Fin 3) (edges : Nat)
  /-- PERIPHERAL_GATE (R381): CLK_PERIPH_EN gates or ungates a management peripheral. -/
  | peripheralGate (by_ : By) (v : Word32)
  /-- COLD_RESET (R382): resets the whole module except NVM, OTP and kept records. -/
  | coldReset (by_ : By) (v : Word32)
  /-- WARM_RESET (R382): resets everything except the always-on domain, crystal and root PLL. -/
  | warmReset (by_ : By) (v : Word32)
  /-- LAYER_RESET (R386): accepts a layer reset, refusing new crossing requests and draining. -/
  | layerReset (by_ : By) (v : Word32)
  /-- LAYER_DRAIN_END (R386): the drain empties or times out and remaining requests are abandoned with 0x0B. -/
  | layerDrainEnd
  /-- LAYER_RESET_RELEASE (R386): after 1 µs in reset the layer is released and reports losses. -/
  | layerResetRelease
  /-- LAYER_READY (R386): the layer becomes ready, after HBM restore for the base layer. -/
  | layerReady (retrained : List StackNo) (dead : Bool)
  /-- REGION_RESET (R383): applies core reset to each core of a region and clears its controller state. -/
  | regionReset (by_ : By) (v : Word32)
  /-- CORE_RESET (R383): stops a core, starts the wait for outstanding requests and aborts its collectives. -/
  | coreReset (by_ : By) (v : Word32)
  /-- CORE_RESET_COMPLETE (R383): after outstanding requests return or time out, the core resets to EMPTY. -/
  | coreResetComplete (c : CoreNo)
  /-- RESET_N_ASSERT (R514): RESET_N low for 10 µs starts a cold reset and holds the device in reset. -/
  | resetNAssert
  /-- RESET_N_RELEASE (R514): RESET_N release lets start-up begin when PWR_EN is high. -/
  | resetNRelease
  /-- ALWAYS_ON_READY (R515): the always-on domain becomes ready after a feed comes into range. -/
  | alwaysOnReady
  /-- START_UP (R396): runs start-up steps 1 to 9 to ready, degraded or failed. -/
  | startUp (r : StartRun)
  /-- HOST_BOOT_TIMEOUT (R396): host boot not complete in 10 s fails start-up with reason 0x06. -/
  | hostBootTimeout
  /-- PROGRAM_LOAD (R120): the loader verifies, maps, relocates and swarm-loads a program image. -/
  | programLoad (q : LoadRequest)
  /-- SWARM_SEND (R412): the injector sends every list entry as a chunk packet. -/
  | swarmSend (by_ : By) (v : Word32)
  /-- SWARM_TALLY (R413): OR-reduces every region's missing chunks into the union buffer. -/
  | swarmTally (by_ : By) (v : Word32)
  /-- SWARM_DIGEST_CHECK (R413): each region hashes enabled standby banks and marks them done or failed. -/
  | swarmDigestCheck (by_ : By) (v : Word32)
  /-- CHUNK_PACKET_RECEIVED (R412): A region controller writes or discards a swarm chunk packet. -/
  | chunkPacketReceived (n : RegionNo) (idx : Nat) (crcOk : Bool)
  /-- RGN_SWARM_SEC_WRITE (R418): enables a site for a section, clearing its received chunks. -/
  | rgnSwarmSecWrite (by_ : By) (site : SiteNo) (v : Word32)
  /-- LEARNED_LIST_WRITE (R403): MP writes a new learned-list entry to the NVM within 1 s. -/
  | learnedListWrite (ok : Bool)
  /-- FEED_OUT_OF_RANGE (R419): A feed outside 44 to 60 V is disconnected and logged. -/
  | feedOutOfRange (f : FeedNo) (volts : BitVec 10)
  /-- FEED_RECONNECT (R419): A feed within range for 100 ms is reconnected. -/
  | feedReconnect (f : FeedNo) (volts : BitVec 10)
  /-- FEED_INTEGRITY_CHECK (R420): every 1 ms MP checks each feed's drop per ampere against its baseline. -/
  | feedIntegrityCheck (f : FeedNo) (volts amps : BitVec 10) (drop : Nat)
  /-- VERTICAL_SUPPLY_CHECK (R421): MP checks each compute rail's vertical drop and caps throttle on a fault. -/
  | verticalSupplyCheck (n : RegionNo) (drop amps : Nat)
  /-- BASELINE_CAPTURE (R422): MP captures and stores the drop-per-ampere baselines. -/
  | baselineCapture (p : SupplyPath) (base : BitVec 16)
  /-- PHASE_FAIL (R423): A regulator phase fails and its group takes the outcome of R424. -/
  | phaseFail (n : RegionNo) (ph : Fin 12)
  /-- SLEEP_COMPUTE (R427): puts a footprint's compute rail to sleep or wakes it. -/
  | sleepCompute (by_ : By) (n : RegionNo) (sleep : Bool)
  /-- SLEEP_COMB0 (R427): writes back and puts a comb-0 rail group to sleep or wakes it. -/
  | sleepComb0 (by_ : By) (n : RegionNo) (sleep : Bool)
  /-- SLEEP_COMB1 (R427): writes back and puts a comb-1 rail group to sleep or wakes it. -/
  | sleepComb1 (by_ : By) (n : RegionNo) (sleep : Bool)
  /-- HEADROOM_RECHECK (R428): every 10 µs a waiting footprint rechecks headroom and may start its ramp. -/
  | headroomRecheck (n : RegionNo) (sum : Nat)
  /-- HEADROOM_TIMEOUT (R428): after 10 ms waiting, neighbours are lowered and the ramp proceeds. -/
  | headroomTimeout (n : RegionNo)
  /-- RAMP_END (R428): A power ramp finishes and pending requests apply. -/
  | rampEnd (n : RegionNo) (g : Fin 3)
  /-- STANDBY_ENTRY (R430): retaining standby puts stacks in self-refresh and removes other rails. -/
  | standbyEntry
  /-- STANDBY_EXIT (R430): leaving standby performs a warm reset. -/
  | standbyExit
  /-- CURRENT_SAMPLE (R431): every 1 ms MP writes each domain's mean current. -/
  | currentSample (cur : List (Fin 90 × BitVec 20))
  /-- THM_TEMP_READ (R433): A read returns the last conversion and starts a new one. -/
  | thmTempRead (by_ : By) (x : SensorId)
  /-- CONVERSION_COMPLETE (R433): A sensor conversion completes and seq advances. -/
  | conversionComplete (x : SensorId) (temp : BitVec 16)
  /-- COMPARATOR_TRIP (R434): A warning, throttle or shutdown comparator trips. -/
  | comparatorTrip (x : SensorId) (th : Threshold)
  /-- COMPARATOR_RELEASE (R434): A comparator releases below its hysteresis. -/
  | comparatorRelease (x : SensorId) (th : Threshold)
  /-- THROTTLE_STEP_RAISE (R435): while tripped, the footprint's step rises every 1 ms. -/
  | throttleStepRaise (n : RegionNo)
  /-- THROTTLE_STEP_FALL (R435): after release below 100 °C, the step falls every 10 ms. -/
  | throttleStepFall (n : RegionNo) (below : Bool)
  /-- THERMAL_SHUTDOWN (R436): removes every rail except management and enters THERMAL-OFF. -/
  | thermalShutdown (by_ : By) (v : Word32)
  /-- THERMAL_RESTART (R437): after sensors stay below 85 °C for 1 s, MP cold-resets unless held. -/
  | thermalRestart
  /-- THERMAL_RELEASE (R437): A write of release clears held. -/
  | thermalRelease (by_ : By) (v : Word32)
  /-- THERMAL_CROSS_CHECK (R438): every 1 ms MP estimates comb temperatures and may distrust a sensor. -/
  | thermalCrossCheck (loads : List FpLoad)
  /-- WEAR_SAVE (R440): MP saves wear counts and tracker state to the NVM hourly and at orderly shutdown. -/
  | wearSave
  /-- TOKEN (R471): A debug unlock token is checked and accepted or refused. -/
  | token (src : FrameSrc) (id : Word32) (t : List Byte)
  /-- DEBUG_LOCK (R469): SEC_DBG_CTL.lock returns the debug level to LOCKED. -/
  | debugLock (by_ : By) (v : Word32)
  /-- DEBUG_LEVEL_SET (R471): in BLANK the debug port sets any level without a token. -/
  | debugLevelSet (by_ : By) (v : Word32)
  /-- FREEZE_REQUEST (R474): A freeze request stops new HBM requests and puts stacks in self-refresh. -/
  | freezeRequest (via : FreezeVia)
  /-- FREEZE_CLOCK_STOP (R475): after the last stack confirms, logic clocks stop and links go DISABLED. -/
  | freezeClockStop
  /-- MEASUREMENT_EXTEND (R462): extends M7 with the 64 bytes in SEC_MEAS_EXT. -/
  | measurementExtend (by_ : By) (v : Word32)
  /-- ENTROPY_RESTART (R465): restarts the entropy source and its start-up test. -/
  | entropyRestart (by_ : By) (v : Word32) (pass : Bool)
  /-- ENTROPY_HEALTH_FAIL (R465): A health test fails and output is withheld. -/
  | entropyHealthFail
  /-- ENTROPY_BLOCK_READ (R480): A read of word 15 consumes the block. -/
  | entropyBlockRead (by_ : By)
  /-- NONCE (R485): returns a 32-byte nonce good for one command for 60 s. -/
  | nonce (src : FrameSrc) (id : Word32)
  /-- ATTEST (R464): returns a signed attestation report for a verifier nonce. -/
  | attest (src : FrameSrc) (id : Word32) (nonce : BitVec 512)
  /-- LOG_READ (R485): returns up to 44 event-log entries from a sequence number. -/
  | logRead (src : FrameSrc) (id : Word32) (seq : Word32)
  /-- FW_BEGIN (R485): verifies a slot header and erases the slot that did not boot. -/
  | fwBegin (src : FrameSrc) (id : Word32) (header : List Byte) (nvmOk : Bool)
  /-- FW_WRITE (R485): writes component data into the slot being updated. -/
  | fwWrite (src : FrameSrc) (id : Word32) (off : Nat) (data : List Byte) (nvmOk : Bool)
  /-- FW_COMMIT (R461): writes the slot header last and verifies the slot. -/
  | fwCommit (src : FrameSrc) (id : Word32) (nvmOk : Bool)
  /-- FW_UPDATE_TIMEOUT (R485): 60 s without a frame abandons an update. -/
  | fwUpdateTimeout
  /-- ENROL (R467): enrols an owner key and policy and enters DEPLOYED. -/
  | enrol (q : Signed) (key : List Byte) (policy : Byte) (miss : OtpMiss)
  /-- RETURN (R468): enters RETURNED and purges owner state. -/
  | returnDevice (q : Signed) (miss : OtpMiss)
  /-- CAD_REMOVE (R408): removes owner-named learned entries at the next cold start. -/
  | cadRemove (q : Signed) (entries : List (Nat × Nat × Nat))
  /-- CFG_WRITE (R392): writes a signed configuration block copy. -/
  | cfgWrite (src : FrameSrc) (id : Word32) (block : BitVec 2048) (sig : List Byte) (nvmOk : Bool)
  /-- CONTROL_WARM_RESET (R486): signed control action 1: warm reset. -/
  | controlWarmReset (q : Signed)
  /-- CONTROL_COLD_RESET (R486): signed control action 2: cold reset. -/
  | controlColdReset (q : Signed)
  /-- CONTROL_ENTER_STANDBY (R486): signed control action 3: enter STANDBY. -/
  | controlEnterStandby (q : Signed)
  /-- CONTROL_LEAVE_STANDBY (R486): signed control action 4: leave STANDBY. -/
  | controlLeaveStandby (q : Signed)
  /-- CONTROL_THERMAL_RELEASE (R486): signed control action 5: thermal release. -/
  | controlThermalRelease (q : Signed)
  /-- CONTROL_RECAPTURE_BASELINES (R486): signed control action 6: recapture supply baselines. -/
  | controlRecaptureBaselines (q : Signed)
  /-- CONTROL_FULL_TRAINING (R486): signed control action 7: full training at the next cold start. -/
  | controlFullTraining (q : Signed)
  /-- FRAGMENT_TIMEOUT (R484): fragments of a request id that stop for 1 s are discarded. -/
  | fragmentTimeout
  /-- REDFISH_REQUEST (R483): serves a read-only Redfish GET or HEAD and refuses other methods. -/
  | redfishRequest (read : Bool) (r : Resource)
  /-- MP_WATCHDOG_EXPIRY (R481): MP unserved for 1 s forces a cold reset with cause 0x05. -/
  | mpWatchdogExpiry
  /-- LOG_COPY (R490): MP copies a log entry to the NVM ring, erasing a sector when full. -/
  | logCopy (nvmOk : Bool)
  /-- LOG_SELECT (R500): A write of MGT_LOG_SEL loads an entry into MGT_LOG_DATA. -/
  | logSelect (by_ : By) (v : Word32)
  /-- STEP_INT_CLEAR (R500): writing 1 to flag clears flag, source and count. -/
  | stepIntClear (by_ : By) (v : Word32)
  /-- REGULATOR_HEALTH_CHECK (R498): every 10 ms MP checks all phases and marks suspects. -/
  | regulatorHealthCheck (readings : List (Fin 288 × BitVec 16 × Byte))
  /-- BACKGROUND_WORK_DROPPED (R499): an unfinished activity at its next period drops work and counts it. -/
  | backgroundWorkDropped (idx : Fin 8)
  /-- COMMIT_GATE (R37): the runtime all-reduces flags and census and issues or withholds UPD. -/
  | commitGate (c : Fin 8) (flags : Bool) (census : Nat)
  /-- RECOVER_COMPLETE (R319): codeword and lane realignment in RECOVER completes and the link returns to ACTIVE with its replay buffer intact. -/
  | recoverComplete (l : LinkNo)
  /-- LOSS_OF_SIGNAL (R338): loss of signal on two lanes of a link in ACTIVE or RECOVER takes it DOWN, discards buffered packets and sets LNK_CAUSE.down. -/
  | lossOfSignal (l : LinkNo)
  /-- MANAGEMENT_FRAME_FRAGMENT (R484): A management frame arrives that is a non-final fragment, is malformed, carries an unknown command code or finds MP busy, and MP stores it or answers with status 1, 2 or 6. -/
  | managementFrameFragment (src : FrameSrc) (frame : List Byte)
  /-- MANAGEMENT_PORT_FRAME (R482): A frame on the 25GBASE-R management port is an ARP, Neighbour Solicitation or ICMP echo answered by the port, or another frame that is discarded. -/
  | managementPortFrame (frame : List Byte)
  /-- EFFECTIVE_LIMIT_ENFORCEMENT (R425): every 1 µs the footprint's compute clock divider chooses the share of core-clock edges to swallow that keeps the 10 µs average rail current within the effective limit, and counts the swallowed edges in CLK_SWALLOW[n]. -/
  | effectiveLimitEnforcement (n : RegionNo) (edges : Nat)
  deriving DecidableEq, Repr

end Sys2Proof
end

