-- ==== Sys2Proof/Decode.lean ====
section
/-! DEFINITION. The commands that a word of the table's bits spells. The table gives no row any bits, so no word spells a
command; the encodings of control words and thread words are Machine/Encoding.lean's. -/
namespace Sys2Proof

/-- The command that a word spells by the bits of the table of commands: none, since no row has bits (log 1). -/
def decodeTableWord (nbits w : Nat) : Option Instr :=
  match nbits, w with
  | _, _ => none

end Sys2Proof
end

