-- ==== Sys2Proof/Machine/Keccak.lean ====
section
/-! DEFINITION. The hash functions of the security block: SHA3-512 and SHAKE256 over the Keccak permutation of 24 rounds (PRESUMED from
the standard that the spec names, FIPS 202; log 13). A digest is a number whose least significant byte is the digest's byte 0. -/
namespace Sys2Proof.Machine

/-- The places of the 24 lanes that are rotated, in the order of the walk from place 1: from (x, y) to (y, 2x + 3y). -/
def keccakWalk : Nat → Nat → Nat → List Nat
  | 0, _, _ => []
  | n + 1, x, y => (x + 5 * y) :: keccakWalk n y ((2 * x + 3 * y) % 5)

/-- The rotation of the lane at a place: the triangular number of its step on the walk; lane 0 is not rotated. -/
def keccakTurn (place : Nat) : Nat :=
  match (keccakWalk 24 1 0).findIdx? fun p => p == place with
  | some k => (k + 1) * (k + 2) / 2 % 64
  | none => 0

/-- The next state of the 8-bit shift register whose bits make the round constants: its polynomial is x^8 + x^6 + x^5 + x^4 + 1. -/
def keccakShift (r : Nat) : Nat := if r < 128 then 2 * r else (2 * r) % 256 ^^^ 0x71

/-- A round constant from the register's state before the round, and the state after it: bit 2^j - 1 is the register's `j`-th bit. -/
def keccakConst (r : Nat) : BitVec 64 × Nat :=
  (List.range 7).foldl (fun acc j => (acc.1 ||| BitVec.ofNat 64 (acc.2 % 2 * 2 ^ (2 ^ j - 1)), keccakShift acc.2)) (0, r)

/-- A lane of the state. -/
def lane (a : List (BitVec 64)) (n : Nat) : BitVec 64 := a.getD n 0

/-- One round: the parity of the columns, the rotations with the permutation of lanes, the rows' non-linear step, the constant. -/
def keccakRound (a : List (BitVec 64)) (rc : BitVec 64) : List (BitVec 64) :=
  let c := (List.range 5).map fun x => lane a x ^^^ lane a (x + 5) ^^^ lane a (x + 10) ^^^ lane a (x + 15) ^^^ lane a (x + 20)
  let d := (List.range 5).map fun x => lane c ((x + 4) % 5) ^^^ (lane c ((x + 1) % 5)).rotateLeft 1
  let t := (List.range 25).map fun n => (lane a n ^^^ lane d (n % 5)).rotateLeft (keccakTurn n)
  let b := (List.range 25).map fun n => lane t ((n % 5 + 3 * (n / 5)) % 5 + 5 * (n % 5))
  (List.range 25).map fun n =>
    let x := n % 5
    let y := n / 5
    let v := lane b n ^^^ (~~~ lane b ((x + 1) % 5 + 5 * y) &&& lane b ((x + 2) % 5 + 5 * y))
    if n = 0 then v ^^^ rc else v

/-- `n` rounds from a state of the register of the round constants. -/
def keccakRounds : Nat → Nat → List (BitVec 64) → List (BitVec 64)
  | 0, _, a => a
  | n + 1, r, a => keccakRounds n (keccakConst r).2 (keccakRound a (keccakConst r).1)

/-- The permutation. -/
def keccakF (a : List (BitVec 64)) : List (BitVec 64) := keccakRounds 24 1 a

/-- The number whose bytes, least significant first, a list holds. -/
def bytesNat : List Byte → Nat
  | [] => 0
  | b :: r => b.toNat + 256 * bytesNat r

/-- Absorbs one block of the rate. -/
def absorb (a : List (BitVec 64)) (block : List Byte) : List (BitVec 64) :=
  let v := bytesNat block
  keccakF ((List.range 25).map fun n => lane a n ^^^ BitVec.ofNat 64 (v / 2 ^ (64 * n)))

/-- The state after every whole block of a message, and the bytes left over; `n` bounds the blocks. -/
def absorbAll (rate : Nat) : Nat → List (BitVec 64) → List Byte → List (BitVec 64) × List Byte
  | 0, a, m => (a, m)
  | n + 1, a, m => if m.length < rate then (a, m) else absorbAll rate n (absorb a (m.take rate)) (m.drop rate)

/-- The sponge: absorbs a message padded with a domain byte and the final bit, and answers the first 25 lanes as a number. -/
def sponge (rate domain : Nat) (m : List Byte) : Nat :=
  let p := absorbAll rate (m.length / rate) (List.replicate 25 0) m
  let last := p.2 ++ [BitVec.ofNat 8 domain] ++ List.replicate (rate - p.2.length - 1) (0 : Byte)
  let fin := absorb p.1 ((last.take (rate - 1)) ++ [last.getD (rate - 1) 0 ||| 0x80])
  fin.foldr (fun l acc => l.toNat + 2 ^ 64 * acc) 0

/-- SHA3-512 (R455, R456, R462). -/
def sha3 (m : List Byte) : BitVec 512 := BitVec.ofNat 512 (sponge 72 0x06 m)

/-- The first 32 bytes of SHAKE256 (R463). -/
def shake (m : List Byte) : BitVec 256 := BitVec.ofNat 256 (sponge 136 0x1F m)

end Sys2Proof.Machine
end

