-- ==== Sys2Proof/Config.lean ====
section
/-! DEFINITION. The free values: what the spec leaves open. Every constant here is opaque: nothing in Lean can
evaluate it, so a statement that holds holds for every value of it. -/
namespace Sys2Proof.Config

/-- The bytes a memory holds after a loss or an undefined start, by the loss's number and the address (R444; log 4). -/
opaque unspecByte : Nat → Nat → BitVec 8
/-- A fresh 32-bit free value; the counter `free` of State names it (log 4). -/
opaque freeWord : Nat → BitVec 32
/-- The result of a conversion to INT32 of a NaN or an infinity, by the source format's code, the rounding mode's code and the operand: one
value wherever it is computed (R60, R182; log 4). -/
opaque cvtInt32 : Nat → Nat → BitVec 32 → BitVec 32
/-- A fresh 256-bit free value of the entropy source (R465, R470; log 4). -/
opaque freeBits256 : Nat → BitVec 256
/-- A fresh 512-bit free value (log 4). -/
opaque freeBits512 : Nat → BitVec 512
/-- The choice of an approximate reciprocal within its bound of one ulp: 0, 1 or 2 (R60; log 10). -/
opaque rcpPick : BitVec 32 → Nat
/-- The choice of an approximate reciprocal square root within its bound of one ulp (R60; log 10). -/
opaque rsqPick : BitVec 32 → Nat
/-- The approximate reciprocal square root of -0, which the table of special values leaves out (R60; log 10). -/
opaque rsqMinusZero : BitVec 32
/-- The approximate reciprocal where the exact one lies beyond the format (R60; log 10). -/
opaque rcpOver : BitVec 32 → BitVec 32
/-- The choice of an approximate base-2 exponential within its bound of two ulp (R60; log 10). -/
opaque ex2Pick : BitVec 32 → Nat
/-- The approximate base-2 exponential where the result is no normal number, which the rule does not bound (R60; log 10). -/
opaque ex2 : BitVec 32 → BitVec 32
/-- The choice of an approximate base-2 logarithm within its bound of two ulp (R60; log 10). -/
opaque lg2Pick : BitVec 32 → Nat
/-- The approximate base-2 logarithm where the result is no normal number, which the rule does not bound (R60; log 10). -/
opaque lg2 : BitVec 32 → BitVec 32
/-- The pseudo-LRU victim of a full set, by the free counter: an index into the candidate ways (R234; log 9). -/
opaque victimPick : Nat → Nat
/-- The public key of an ML-DSA-87 key pair by its seed (R463; log 12). -/
opaque publicKey : BitVec 256 → List (BitVec 8)
/-- The HashML-DSA-87 signature over a message under a context string, by the seed of the key and a free-value number for
what the signer draws (R455; log 12). -/
opaque sign : BitVec 256 → String → List (BitVec 8) → Nat → List (BitVec 8)
/-- Whether a signature verifies under a context string and the key whose SHA3-512 is given (R455; log 12). -/
opaque verify : String → BitVec 512 → List (BitVec 8) → List (BitVec 8) → Bool
/-- How many messages more than one the post service holds, as its configuration sets it (R373; log 23). -/
opaque postMore : Nat

/-- The code of the event that a warning trip, or a link die's throttle trip, logs: the tables of codes name none (R434; log 4). -/
opaque warningEvent : Nat

/-- The MAC address that the management port derives from the serial number (R482; log 4). -/
opaque serialMac : BitVec 128 → BitVec 48
/-- The address that DHCP or SLAAC gives the management port (R482; log 4). -/
opaque leased : Bool → BitVec 128

end Sys2Proof.Config
end

