-- ==== Sys2Proof/Machine/Bits.lean ====
section
/-! DEFINITION. Bit fields, byte order, parity and the sparse tables that State is built of. -/
namespace Sys2Proof.Machine

/-- Field [hi:lo] of a number read as bits (conventions of chapter 00). -/
def bitsOf (x hi lo : Nat) : Nat := (x >>> lo) % 2 ^ (hi + 1 - lo)

/-- One bit of a number. -/
def bitOf (x i : Nat) : Bool := x.testBit i

/-- 1 or 0. -/
def b2n (b : Bool) : Nat := if b then 1 else 0

/-- The value at `pos` up to `w` bits, shifted into its place. -/
def fieldAt (v w pos : Nat) : Nat := (v % 2 ^ w) <<< pos

/-- `x` with the `w` bits at `pos` replaced by those of `v`. -/
def setField (x v w pos : Nat) : Nat := x - fieldAt (x >>> pos) w pos + fieldAt v w pos

/-- Two's complement reading of the low `w` bits. -/
def toSigned (w x : Nat) : Int :=
  let y := x % 2 ^ w
  if w ≠ 0 ∧ y ≥ 2 ^ (w - 1) then (y : Int) - (2 ^ w : Nat) else (y : Int)

/-- Two's complement writing into `w` bits. -/
def ofSigned (w : Nat) (x : Int) : Nat := (x % ((2 ^ w : Nat) : Int)).toNat

/-- The little-endian number of a list of bytes. -/
def leNat : List (BitVec 8) → Nat
  | [] => 0
  | b :: r => b.toNat + 256 * leNat r

/-- The `n` low bytes of a number, little-endian. -/
def leBytes : Nat → Nat → List (BitVec 8)
  | 0, _ => []
  | n + 1, x => BitVec.ofNat 8 x :: leBytes n (x / 256)

/-- Number of ones among the low `n` bits. -/
def popCount : Nat → Nat → Nat
  | 0, _ => 0
  | n + 1, x => x % 2 + popCount n (x / 2)

/-- The odd parity bit of a byte: the nine bits together hold an odd number of ones (R238). -/
def oddParity (b : Nat) : Bool := popCount 8 b % 2 == 0

/-- Byte `i` of a line. -/
def lineByte (d : Line) (i : Nat) : Byte := BitVec.ofNat 8 (d.toNat >>> (8 * i))

/-- A line with byte `i` replaced. -/
def setLineByte (d : Line) (i : Nat) (b : Byte) : Line :=
  BitVec.ofNat 512 (setField d.toNat b.toNat 8 (8 * i))

/-- The bytes of a line, byte 0 first. -/
def lineBytes (d : Line) : List Byte := leBytes 64 d.toNat

/-- The line of 64 bytes, byte 0 first. -/
def lineOf (l : List Byte) : Line := BitVec.ofNat 512 (leNat (l.take 64))

/-- A line with `n` bytes from `off` replaced by those of `v`. -/
def setLineBytes (d : Line) (off n : Nat) (v : Nat) : Line :=
  BitVec.ofNat 512 (setField d.toNat v (8 * n) (8 * off))

/-- `n` bytes of a line from `off`, as a number. -/
def getLineBytes (d : Line) (off n : Nat) : Nat := bitsOf d.toNat (8 * (off + n) - 1) (8 * off)

/-- A line with the bytes that `mask` names replaced by those of `v`. -/
def maskLine (d v : Line) (mask : BitVec 64) : Line :=
  BitVec.ofNat 512 (leNat ((List.range 64).map fun i => if mask.getLsbD i then lineByte v i else lineByte d i))

/-- Rounded-up quotient. -/
def ceilDiv (a b : Nat) : Nat := (a + b - 1) / b

/-! ### Sparse tables

A table holds entries by number, in rising order; a number with no entry reads as a default. -/

/-- Entry `k`, or the default. -/
def tblGet {α : Type} (d : α) : List (Nat × α) → Nat → α
  | [], _ => d
  | (a, v) :: r, k => if a = k then v else tblGet d r k

/-- Sets entry `k`, keeping the entries in rising order. -/
def tblPut {α : Type} : List (Nat × α) → Nat → α → List (Nat × α)
  | [], k, v => [(k, v)]
  | (a, w) :: r, k, v =>
    if a = k then (k, v) :: r else if k < a then (k, v) :: (a, w) :: r else (a, w) :: tblPut r k v

/-- Removes entry `k`. -/
def tblDel {α : Type} : List (Nat × α) → Nat → List (Nat × α)
  | [], _ => []
  | (a, w) :: r, k => if a = k then r else (a, w) :: tblDel r k

/-- Changes entry `k` by `f`. -/
def tblMod {α : Type} (d : α) (t : List (Nat × α)) (k : Nat) (f : α → α) : List (Nat × α) :=
  tblPut t k (f (tblGet d t k))

/-- Keys in rising order. -/
def tblKeys {α : Type} (t : List (Nat × α)) : List Nat := t.map Prod.fst

/-- Whether the keys of a table rise strictly. -/
def tblSorted {α : Type} : List (Nat × α) → Bool
  | [] => true
  | [_] => true
  | (a, _) :: (b, w) :: r => decide (a < b) && tblSorted ((b, w) :: r)

/-- Replaces element `i` of a list, extending it with the default. -/
def listSet {α : Type} (d : α) : List α → Nat → α → List α
  | [], 0, v => [v]
  | [], i + 1, v => d :: listSet d [] i v
  | _ :: r, 0, v => v :: r
  | x :: r, i + 1, v => x :: listSet d r i v

/-- Adds one, stopping at 0xFFFF_FFFF (saturating counters of control space). -/
def satInc (c : Word32) (n : Nat) : Word32 :=
  if c.toNat + n ≥ 2 ^ 32 then 0xFFFFFFFF#32 else BitVec.ofNat 32 (c.toNat + n)

/-- Adds a number to a counter that wraps. -/
def wrapInc (c : Word32) (n : Nat) : Word32 := BitVec.ofNat 32 (c.toNat + n)

end Sys2Proof.Machine
end

