-- ==== Sys2Proof/Machine/Formats.lean ====
section
/-! DEFINITION. Number formats, rounding and conversions (chapter 03, R43 to R71, R521). Every value is held exactly
until the one rounding the rule names. -/
namespace Sys2Proof.Machine

/-- The floating-point formats of R43. -/
inductive Fmt
  | fp32 | bf16 | fp16 | e4m3 | e5m2 | e3m2 | e2m3 | e2m1
  deriving DecidableEq, Repr

/-- The rounding modes of R50 after DYN is resolved. -/
inductive RM
  | rne | rtz | rup | rdn | sr4
  deriving DecidableEq, Repr

/-- Exponent bits (R43). -/
def Fmt.ebits : Fmt → Nat
  | .fp32 => 8 | .bf16 => 8 | .fp16 => 5 | .e4m3 => 4 | .e5m2 => 5 | .e3m2 => 3 | .e2m3 => 2 | .e2m1 => 2
/-- Mantissa bits (R43). -/
def Fmt.mbits : Fmt → Nat
  | .fp32 => 23 | .bf16 => 7 | .fp16 => 10 | .e4m3 => 3 | .e5m2 => 2 | .e3m2 => 2 | .e2m3 => 3 | .e2m1 => 1
/-- Bias (R43). -/
def Fmt.bias : Fmt → Nat
  | .fp32 => 127 | .bf16 => 127 | .fp16 => 15 | .e4m3 => 7 | .e5m2 => 15 | .e3m2 => 3 | .e2m3 => 1 | .e2m1 => 1
/-- Width in bits (R43). -/
def Fmt.width (f : Fmt) : Nat := f.ebits + f.mbits + 1
/-- Bits of the largest finite magnitude (R43, R44). -/
def Fmt.maxBits : Fmt → Nat
  | .fp32 => 0x7F7FFFFF | .bf16 => 0x7F7F | .fp16 => 0x7BFF | .e4m3 => 0x7E | .e5m2 => 0x7B
  | .e3m2 => 0x1F | .e2m3 => 0x1F | .e2m1 => 0x7
/-- Canonical NaN; the formats without one answer 0 and are never asked (R44). -/
def Fmt.nanBits : Fmt → Nat
  | .fp32 => 0x7FC00000 | .bf16 => 0x7FC0 | .fp16 => 0x7E00 | .e4m3 => 0x7F | .e5m2 => 0x7E
  | .e3m2 => 0 | .e2m3 => 0 | .e2m1 => 0
/-- Bits of positive infinity, where the format has one (R44). -/
def Fmt.infBits : Fmt → Option Nat
  | .fp32 => some 0x7F800000 | .bf16 => some 0x7F80 | .fp16 => some 0x7C00 | .e5m2 => some 0x7C
  | _ => none
/-- The sign bit in place. -/
def Fmt.signBit (f : Fmt) (neg : Bool) : Nat := if neg then 2 ^ (f.width - 1) else 0

/-- What an encoding stands for: a NaN, an infinity, or the finite value (-1)^neg · sig · 2^exp. -/
inductive FV
  | nan
  | inf (neg : Bool)
  | fin (neg : Bool) (sig : Nat) (exp : Int)
  deriving DecidableEq, Repr

/-- Decodes an encoding of a format (R43, R44). -/
def Fmt.decode (f : Fmt) (bits : Nat) : FV :=
  let x := bits % 2 ^ f.width
  let neg := x.testBit (f.width - 1)
  let e := (x >>> f.mbits) % 2 ^ f.ebits
  let m := x % 2 ^ f.mbits
  let top := 2 ^ f.ebits - 1
  if f = .e4m3 ∧ e = top ∧ m = 7 then .nan
  else if f.infBits.isSome ∧ e = top then (if m = 0 then .inf neg else .nan)
  else if e = 0 then .fin neg m (1 - (f.bias : Int) - f.mbits)
  else .fin neg (m + 2 ^ f.mbits) ((e : Int) - f.bias - f.mbits)

/-- Whether an encoding is a subnormal: exponent field zero, mantissa not zero. -/
def Fmt.isSubnormal (f : Fmt) (bits : Nat) : Bool :=
  (bits >>> f.mbits) % 2 ^ f.ebits == 0 && bits % 2 ^ f.mbits != 0

/-- Floor of log2 of num/den · 2^exp, for num and den above zero. -/
def log2Floor (num den : Nat) (exp : Int) : Int :=
  let l : Int := (Nat.log2 num : Int) - (Nat.log2 den : Int)
  let ge := if l ≥ 0 then num ≥ den <<< l.toNat else num <<< (-l).toNat ≥ den
  (if ge then l else l - 1) + exp

/-- num/den · 2^exp divided by 2^u, as a pair numerator and denominator. -/
def scaleBy (num den : Nat) (exp u : Int) : Nat × Nat :=
  if exp ≥ u then (num <<< (exp - u).toNat, den) else (num, den <<< (u - exp).toNat)

/-- Whether rounding q + r/d moves one step away from zero (R50, R52). -/
def roundsAway (rm : RM) (neg : Bool) (draw q r d : Nat) : Bool :=
  match rm with
  | .rne => decide (2 * r > d) || (decide (2 * r = d) && q % 2 == 1)
  | .rtz => false
  | .rup => !neg && r != 0
  | .rdn => neg && r != 0
  | .sr4 => decide (draw < (32 * r / d + 1) / 2)

/-- Rounds num/den · 2^exp to an integer multiple of 2^u: the multiple and whether it differs. -/
def roundAt (rm : RM) (neg : Bool) (draw num den : Nat) (exp u : Int) : Nat × Bool :=
  let nd := scaleBy num den exp u
  let q := nd.1 / nd.2
  let r := nd.1 % nd.2
  (if roundsAway rm neg draw q r nd.2 then q + 1 else q, r != 0)

/-- The unit of spacing of a format at a magnitude: the exponent of its last place (R52). -/
def Fmt.ulpExp (f : Fmt) (num den : Nat) (exp : Int) : Int :=
  let lo := 1 - (f.bias : Int) - f.mbits
  if num = 0 then lo else max (log2Floor num den exp - f.mbits) lo

/-- Magnitude bits of q · 2^u, where 2^u is the spacing at that place; a carry past the mantissa moves to the next
exponent by itself. -/
def Fmt.packMag (f : Fmt) (q : Nat) (u : Int) : Nat :=
  ((u + f.mbits + f.bias).toNat <<< f.mbits) + q - 2 ^ f.mbits

/-- The sticky bits of CORE_FPSTAT (R72). -/
def flInvalid : BitVec 7 := 1
/-- overflow -/
def flOverflow : BitVec 7 := 2
/-- underflow -/
def flUnderflow : BitVec 7 := 4
/-- inexact -/
def flInexact : BitVec 7 := 8
/-- int_sat -/
def flIntSat : BitVec 7 := 16
/-- mx_special -/
def flMxSpecial : BitVec 7 := 32
/-- ftz_applied -/
def flFtz : BitVec 7 := 64

/-- What a rounding or conversion leaves: the bits, the CORE_FPSTAT bits and whether the census counts it. -/
structure FOut where
  bits : Nat
  flags : BitVec 7 := 0
  counted : Bool := false
  deriving DecidableEq, Repr

/-- An exact value about to be rounded: NaN, infinity, or (-1)^neg · num/den · 2^exp. -/
inductive XV
  | nan
  | inf (neg : Bool)
  | rat (neg : Bool) (num den : Nat) (exp : Int)
  deriving DecidableEq, Repr

/-- A decoded value as an exact one. -/
def FV.toX : FV → XV
  | .nan => .nan
  | .inf n => .inf n
  | .fin n s e => .rat n s 1 e

/-- Overflow of a finite value in a floating-point target (R54, R59). -/
def Fmt.overflowOut (f : Fmt) (rm : RM) (sat neg : Bool) : FOut :=
  let fl := flOverflow ||| flInexact
  let mx : FOut := { bits := f.maxBits + f.signBit neg, flags := fl }
  match f, f.infBits with
  | .fp16, some i => { bits := i + f.signBit neg, flags := fl, counted := true }
  | .e4m3, _ => if sat then mx else { bits := f.nanBits, flags := fl ||| flInvalid }
  | _, some i =>
    if sat then mx else
    let toMax := match rm with
      | .rtz => true | .rup => neg | .rdn => !neg | .rne => false | .sr4 => false
    if toMax then mx else { bits := i + f.signBit neg, flags := fl }
  | _, none => mx

/-- Rounds an exact finite value into a format: overflow, underflow and flushing as R49, R54 and R56 give. A flushed result is tiny, and it
differs from the exact one. -/
def Fmt.roundRat (f : Fmt) (rm : RM) (sat ftzOut : Bool) (draw : Nat) (neg : Bool) (num den : Nat) (exp : Int) : FOut :=
  let u := f.ulpExp num den exp
  let qr := roundAt rm neg draw num den exp u
  let mag := if qr.1 = 0 then 0 else f.packMag qr.1 u
  if mag > f.maxBits then f.overflowOut rm sat neg
  else
    let tiny := decide (mag < 2 ^ f.mbits)
    let fl := (if qr.2 then flInexact else 0) ||| (if tiny && qr.2 then flUnderflow else 0)
    if ftzOut && tiny && mag != 0 then { bits := f.signBit neg, flags := fl ||| flInexact ||| flUnderflow ||| flFtz }
    else { bits := mag + f.signBit neg, flags := fl }

/-- Conversion into a floating-point format with every special case of R54 and R521. -/
def Fmt.convert (f : Fmt) (rm : RM) (sat ftzOut : Bool) (draw : Nat) (v : XV) : FOut :=
  match v with
  | .nan => { bits := f.nanBits, counted := decide (f = .fp16) }
  | .inf neg =>
    match f, f.infBits with
    | .fp16, some i => { bits := i + f.signBit neg, counted := true }
    | .e4m3, _ =>
      if sat then { bits := f.maxBits + f.signBit neg, flags := flOverflow ||| flInexact }
      else { bits := f.nanBits, flags := flInvalid }
    | _, some i => { bits := i + f.signBit neg }
    | _, none => { bits := f.maxBits + f.signBit neg }
  | .rat neg num den exp => f.roundRat rm sat ftzOut draw neg num den exp

/-- Conversion into INT8 (R54, R521): rounds to an integer and saturates. -/
def toInt8 (rm : RM) (draw : Nat) (v : XV) : FOut :=
  match v with
  | .nan => { bits := 0, flags := flIntSat }
  | .inf neg => { bits := if neg then 0x80 else 0x7F, flags := flIntSat }
  | .rat neg num den exp =>
    let qr := roundAt rm neg draw num den exp 0
    let i : Int := if neg then -(qr.1 : Int) else qr.1
    if i > 127 then { bits := 0x7F, flags := flIntSat ||| flInexact }
    else if i < -128 then { bits := 0x80, flags := flIntSat ||| flInexact }
    else { bits := ofSigned 8 i, flags := if qr.2 then flInexact else 0 }

/-! ### Arithmetic of the vector path (R60, R61) -/

/-- A signed exact integer multiple of 2^exp. -/
def signedOf (neg : Bool) (sig : Nat) : Int := if neg then -(sig : Int) else (sig : Int)

/-- An FP32 operand after ftz_in (R49): its value and whether it was flushed. -/
def readOp (ftzIn : Bool) (bits : Nat) : FV × BitVec 7 :=
  if ftzIn && Fmt.fp32.isSubnormal bits then (.fin (bits.testBit 31) 0 0, flFtz) else (Fmt.fp32.decode bits, 0)

/-- The canonical NaN, with `invalid` when no operand was a NaN (R45, R72). -/
def nanOut (invalid : Bool) (fl : BitVec 7) : FOut :=
  { bits := Fmt.fp32.nanBits, flags := fl ||| (if invalid then flInvalid else 0) }

/-- An infinity of FP32. -/
def infOut (neg : Bool) (fl : BitVec 7) : FOut := { bits := 0x7F800000 + Fmt.fp32.signBit neg, flags := fl }

/-- Rounds an exact sum s · 2^e; an exact zero of differing signs is +0, or -0 under RDN (R61). -/
def roundSum (rm : RM) (ftzOut : Bool) (fl : BitVec 7) (sameSign : Option Bool) (s : Int) (e : Int) : FOut :=
  if s = 0 then
    let neg := match sameSign with | some n => n | none => decide (rm = .rdn)
    { bits := Fmt.fp32.signBit neg, flags := fl }
  else
    let o := Fmt.fp32.roundRat rm false ftzOut 0 (decide (s < 0)) s.natAbs 1 e
    { o with flags := o.flags ||| fl }

/-- The exact sum of two finite values, as a multiple of a power of two. -/
def exactAdd (n1 : Bool) (s1 : Nat) (e1 : Int) (n2 : Bool) (s2 : Nat) (e2 : Int) : Int × Int :=
  let e := min e1 e2
  (signedOf n1 (s1 <<< (e1 - e).toNat) + signedOf n2 (s2 <<< (e2 - e).toNat), e)

/-- The sign kept by a zero sum: that of both operands when they agree (R61). -/
def zeroSign (n1 n2 : Bool) : Option Bool := if n1 = n2 then some n1 else none

/-- FADD; FSUB gives the second operand with its sign changed (R60). -/
def fpAdd (rm : RM) (ftzIn ftzOut negB : Bool) (a b : Nat) : FOut :=
  let x := readOp ftzIn a
  let y := readOp ftzIn b
  let fl := x.2 ||| y.2
  match x.1, y.1 with
  | .nan, _ => nanOut false fl
  | _, .nan => nanOut false fl
  | .inf n, .inf m => if n = (m != negB) then infOut n fl else nanOut true fl
  | .inf n, _ => infOut n fl
  | _, .inf m => infOut (m != negB) fl
  | .fin n s e, .fin m t g =>
    let r := exactAdd n s e (m != negB) t g
    roundSum rm ftzOut fl (zeroSign n (m != negB)) r.1 r.2

/-- FMUL (R60). -/
def fpMul (rm : RM) (ftzIn ftzOut : Bool) (a b : Nat) : FOut :=
  let x := readOp ftzIn a
  let y := readOp ftzIn b
  let fl := x.2 ||| y.2
  match x.1, y.1 with
  | .nan, _ => nanOut false fl
  | _, .nan => nanOut false fl
  | .inf n, .inf m => infOut (n != m) fl
  | .inf n, .fin m t _ => if t = 0 then nanOut true fl else infOut (n != m) fl
  | .fin n s _, .inf m => if s = 0 then nanOut true fl else infOut (n != m) fl
  | .fin n s e, .fin m t g =>
    let o := Fmt.fp32.roundRat rm false ftzOut 0 (n != m) (s * t) 1 (e + g)
    { o with flags := o.flags ||| fl }

/-- FFMA: a · b + c with one rounding (R60). -/
def fpFma (rm : RM) (ftzIn ftzOut : Bool) (a b c : Nat) : FOut :=
  let x := readOp ftzIn a
  let y := readOp ftzIn b
  let z := readOp ftzIn c
  let fl := x.2 ||| y.2 ||| z.2
  let addInf (p : Bool) : FOut := match z.1 with
    | .nan => nanOut false fl
    | .inf m => if p = m then infOut p fl else nanOut true fl
    | .fin _ _ _ => infOut p fl
  let invalidProduct : FOut := match z.1 with
    | .nan => nanOut false fl
    | _ => nanOut true fl
  match x.1, y.1 with
  | .nan, _ => nanOut false fl
  | _, .nan => nanOut false fl
  | .inf n, .inf m => addInf (n != m)
  | .inf n, .fin m t _ => if t = 0 then invalidProduct else addInf (n != m)
  | .fin n s _, .inf m => if s = 0 then invalidProduct else addInf (n != m)
  | .fin n s e, .fin m t g =>
    match z.1 with
    | .nan => nanOut false fl
    | .inf k => infOut k fl
    | .fin k u h =>
      let r := exactAdd (n != m) (s * t) (e + g) k u h
      roundSum rm ftzOut fl (zeroSign (n != m) k) r.1 r.2

/-- FDIV (R60): division of a finite value that is not zero by zero gives an infinity and sets no bit. -/
def fpDiv (rm : RM) (ftzIn ftzOut : Bool) (a b : Nat) : FOut :=
  let x := readOp ftzIn a
  let y := readOp ftzIn b
  let fl := x.2 ||| y.2
  match x.1, y.1 with
  | .nan, _ => nanOut false fl
  | _, .nan => nanOut false fl
  | .inf _, .inf _ => nanOut true fl
  | .inf n, .fin m _ _ => infOut (n != m) fl
  | .fin n _ _, .inf m => { bits := Fmt.fp32.signBit (n != m), flags := fl }
  | .fin n s e, .fin m t g =>
    if t = 0 then (if s = 0 then nanOut true fl else infOut (n != m) fl)
    else
      let o := Fmt.fp32.roundRat rm false ftzOut 0 (n != m) s t (e - g)
      { o with flags := o.flags ||| fl }

/-- Floor of the square root, by its bits from the highest down. -/
def isqrtAux : Nat → Nat → Nat → Nat
  | 0, _, r => r
  | k + 1, n, r => let r' := r + 2 ^ k
                   isqrtAux k n (if r' * r' ≤ n then r' else r)

/-- Floor of the square root of a number below 2^(2·128). -/
def isqrt (n : Nat) : Nat := isqrtAux 128 n 0

/-- FSQRT (R60). The root of the significand, scaled by an even power of two, with a sticky bit below it, rounds as the
exact root does. -/
def fpSqrt (rm : RM) (ftzIn ftzOut : Bool) (a : Nat) : FOut :=
  let x := readOp ftzIn a
  match x.1 with
  | .nan => nanOut false x.2
  | .inf n => if n then nanOut true x.2 else infOut false x.2
  | .fin n s e =>
    if s = 0 then { bits := Fmt.fp32.signBit n, flags := x.2 }
    else if n then nanOut true x.2
    else
      let odd := (e % 2).toNat
      let m := s <<< (odd + 80)
      let r := isqrt m
      let sticky := if r * r = m then 0 else 1
      let o := Fmt.fp32.roundRat rm false ftzOut 0 false (2 * r + sticky) 1 ((e - odd) / 2 - 40 - 1)
      { o with flags := o.flags ||| x.2 }

/-- A result of the vector path that no rounding made, after ftz_out (R49). -/
def flushResult (ftzOut : Bool) (bits : Nat) (fl : BitVec 7) : FOut :=
  if ftzOut && Fmt.fp32.isSubnormal bits then
    { bits := Fmt.fp32.signBit (bits.testBit 31), flags := fl ||| flFtz ||| flInexact ||| flUnderflow }
  else { bits := bits, flags := fl }

/-- An FP32 operand's bits after ftz_in. -/
def flushOp (ftzIn : Bool) (bits : Nat) : Nat :=
  if ftzIn && Fmt.fp32.isSubnormal bits then Fmt.fp32.signBit (bits.testBit 31) else bits

/-- Order of FP32 encodings that are not NaN, with -0 below +0: the sign and magnitude as an integer. -/
def orderKey (bits : Nat) : Int :=
  let m : Int := ((bits % 2 ^ 31 : Nat) : Int)
  if bits.testBit 31 then -m - 1 else m

/-- FMIN and FMAX: minimumNumber and maximumNumber (R60). -/
def fpMinMax (isMax ftzIn ftzOut : Bool) (a b : Nat) : FOut :=
  let x := flushOp ftzIn a
  let y := flushOp ftzIn b
  let fl := (readOp ftzIn a).2 ||| (readOp ftzIn b).2
  match Fmt.fp32.decode x, Fmt.fp32.decode y with
  | .nan, .nan => nanOut false fl
  | .nan, _ => flushResult ftzOut y fl
  | _, .nan => flushResult ftzOut x fl
  | _, _ =>
    let less := decide (orderKey x < orderKey y)
    flushResult ftzOut (if less != isMax then x else y) fl

/-- Outcome of a comparison: `none` when unordered; -0 equals +0 (R60). -/
def fpOrder (ftzIn : Bool) (a b : Nat) : Option Ordering :=
  let x := flushOp ftzIn a
  let y := flushOp ftzIn b
  match Fmt.fp32.decode x, Fmt.fp32.decode y with
  | .nan, _ => none
  | _, .nan => none
  | _, _ =>
    if x % 2 ^ 31 = 0 ∧ y % 2 ^ 31 = 0 then some .eq else some (compare (orderKey x) (orderKey y))

/-- The values of FP32 within `n` units in the last place of the exact num/den · 2^exp, as magnitude bits (R60). They are
sought among the multiples of half that unit, since below a power of two the spacing halves. -/
def withinUlps (n num den : Nat) (exp : Int) : List Nat :=
  let u := Fmt.fp32.ulpExp num den exp
  let lo : Int := -149
  let nd := scaleBy num den exp (u - 1)
  let c := nd.1 / nd.2
  let near (x : Nat) : Bool := decide (x * nd.2 ≤ nd.1 + 2 * n * nd.2) && decide (nd.1 ≤ x * nd.2 + 2 * n * nd.2)
  let fine (x : Nat) : Bool := decide (u > lo) && decide (x < 2 ^ 24)
  let held (x : Nat) : Bool := fine x || (x % 2 == 0 && (decide (x < 2 ^ 25) || x % 4 == 0))
  let mag (x : Nat) : Nat :=
    if x = 0 then 0 else if fine x then Fmt.fp32.packMag x (u - 1) else Fmt.fp32.packMag (x / 2) u
  (((List.range (4 * n + 1)).map fun k => c + k - 2 * n).filter fun x => near x && held x).map mag |>.eraseDups

/-- An approximate result within `n` ulp of the exact num/den · 2^exp (R60): the pick chooses among the values of the
format that are that near. `tooBig` is the result where the exact one is beyond the format. -/
def approxWithin (n : Nat) (ftzOut : Bool) (pick : Nat) (tooBig : Nat) (fl : BitVec 7) (neg : Bool) (num den : Nat) (exp : Int) : FOut :=
  let u := Fmt.fp32.ulpExp num den exp
  let nd := scaleBy num den exp u
  let cands := withinUlps n num den exp
  let mag := cands.getD (pick % cands.length) 0
  let inexact := !(nd.1 % nd.2 == 0 && mag == Fmt.fp32.packMag (nd.1 / nd.2) u)
  if mag > Fmt.fp32.maxBits then { bits := tooBig % 2 ^ 32, flags := fl ||| flOverflow ||| flInexact }
  else
    let o := flushResult ftzOut (mag + Fmt.fp32.signBit neg) fl
    { o with flags := o.flags ||| (if inexact then flInexact else 0)
        ||| (if inexact && decide (mag < 2 ^ 23) then flUnderflow else 0) }

/-- FRCP (R60). -/
def fpRcp (ftzIn ftzOut : Bool) (a : Nat) : FOut :=
  let x := readOp ftzIn a
  let w := BitVec.ofNat 32 a
  match x.1 with
  | .nan => nanOut false x.2
  | .inf n => { bits := Fmt.fp32.signBit n, flags := x.2 }
  | .fin n s e =>
    if s = 0 then infOut n x.2
    else approxWithin 1 ftzOut (Config.rcpPick w) (Config.rcpOver w).toNat x.2 n 1 s (-e)

/-- FRSQ (R60). The reciprocal root of s · 2^e is taken to 80 further bits, with a sticky bit. -0 has no row in the
table of special values and its result is a free value (log 10). -/
def fpRsq (ftzIn ftzOut : Bool) (a : Nat) : FOut :=
  let x := readOp ftzIn a
  let w := BitVec.ofNat 32 a
  match x.1 with
  | .nan => nanOut false x.2
  | .inf n => if n then nanOut true x.2 else { bits := 0, flags := x.2 }
  | .fin n s e =>
    if s = 0 then (if n then { bits := Config.rsqMinusZero.toNat, flags := x.2 } else infOut false x.2)
    else if n then nanOut true x.2
    else
      let odd := (e % 2).toNat
      let m := (2 ^ 200) / (s <<< odd)
      let r := isqrt m
      let sticky := if r * r * (s <<< odd) = 2 ^ 200 then 0 else 1
      approxWithin 1 ftzOut (Config.rsqPick w) (Config.rcpOver w).toNat x.2 false (2 * r + sticky) 1 (-((e - odd) / 2) - 100 - 1)

/-- 2 to the power of bits · 2^-160, times 2^200 and truncated: the product of the repeated square roots of 2 that the bits
name. `r` is the root of the step before, `n` the bits left. -/
def pow2Frac : Nat → Nat → Nat → Nat → Nat
  | 0, _, _, acc => acc
  | n + 1, r, bits, acc =>
    let q := isqrtAux 202 (r * 2 ^ 200) 0
    pow2Frac n q bits (if bits.testBit n then acc * q / 2 ^ 200 else acc)

/-- FEX2 (R60): special values fixed. Where the result is a normal number it lies within 2 ulp of the exact power; beyond,
the rule bounds nothing and the result is a free value (log 10). -/
def fpEx2 (ftzIn ftzOut : Bool) (a : Nat) : FOut :=
  let x := readOp ftzIn a
  let w := BitVec.ofNat 32 (flushOp ftzIn a)
  match x.1 with
  | .nan => nanOut false x.2
  | .inf n => if n then { bits := 0, flags := x.2 } else infOut false x.2
  | .fin n s e =>
    let fixed : Int := signedOf n (s <<< (e + 160).toNat)
    let k := fixed / (2 ^ 160 : Nat)
    let f := (fixed % (2 ^ 160 : Nat)).toNat
    if k ≥ 128 then { bits := (Config.ex2 w).toNat, flags := x.2 ||| flOverflow ||| flInexact }
    else if k < -126 then
      let o := flushResult ftzOut (Config.ex2 w).toNat x.2
      { o with flags := o.flags ||| (if f = 0 ∧ k ≥ -149 then 0 else flInexact ||| flUnderflow) }
    else
      let m := 2 * pow2Frac 160 (2 ^ 201) f (2 ^ 200) + (if f = 0 then 0 else 1)
      approxWithin 2 ftzOut (Config.ex2Pick w) (Config.ex2 w).toNat x.2 false m 1 (k - 201)

/-- The first `n` bits of the base-2 logarithm of y · 2^-200, a number from 1 up to 2, below the bits found so far. -/
def log2Frac : Nat → Nat → Nat → Nat
  | 0, _, acc => acc
  | n + 1, y, acc =>
    let z := y * y / 2 ^ 200
    if z ≥ 2 ^ 201 then log2Frac n (z / 2) (2 * acc + 1) else log2Frac n z (2 * acc)

/-- FLG2 (R60): special values fixed. A normal result lies within 2 ulp of the exact logarithm; of 1, whose logarithm is no
normal number, the rule bounds nothing and the result is a free value (log 10). -/
def fpLg2 (ftzIn ftzOut : Bool) (a : Nat) : FOut :=
  let x := readOp ftzIn a
  let w := BitVec.ofNat 32 (flushOp ftzIn a)
  match x.1 with
  | .nan => nanOut false x.2
  | .inf n => if n then nanOut true x.2 else infOut false x.2
  | .fin n s e =>
    if s = 0 then infOut true x.2
    else if n then nanOut true x.2
    else
      let top := Nat.log2 s
      let k : Int := (top : Int) + e
      let exact := s == 2 ^ top
      if exact && k == 0 then
        let r := (Config.lg2 w).toNat
        let o := flushResult ftzOut r x.2
        { o with flags := o.flags ||| (if r % 2 ^ 31 = 0 then 0 else flInexact) }
      else
        let v : Int := 2 * (k * (2 ^ 120 : Nat) + (log2Frac 120 (s * 2 ^ 200 / 2 ^ top) 0 : Nat)) + (if exact then 0 else 1)
        approxWithin 2 ftzOut (Config.lg2Pick w) (Config.lg2 w).toNat x.2 (decide (v < 0)) v.natAbs 1 (-121)

/-! ### Microscaling blocks (R46 to R48) -/

/-- The element formats of a microscaling block. -/
inductive MxFmt
  | e4m3 | e5m2 | e3m2 | e2m3 | e2m1 | int8
  deriving DecidableEq, Repr

/-- Width of an element. -/
def MxFmt.width : MxFmt → Nat
  | .e4m3 => 8 | .e5m2 => 8 | .e3m2 => 6 | .e2m3 => 6 | .e2m1 => 4 | .int8 => 8
/-- The exponent of the largest element, emax of R48. -/
def MxFmt.emax : MxFmt → Int
  | .e4m3 => 8 | .e5m2 => 15 | .e3m2 => 4 | .e2m3 => 2 | .e2m1 => 2 | .int8 => 0
/-- The floating-point format of an element. -/
def MxFmt.fmt : MxFmt → Option Fmt
  | .e4m3 => some .e4m3 | .e5m2 => some .e5m2 | .e3m2 => some .e3m2 | .e2m3 => some .e2m3 | .e2m1 => some .e2m1
  | .int8 => none

/-- One element inside CVT.MX: always saturating (R48, R521). -/
def MxFmt.convert (f : MxFmt) (rm : RM) (ftzOut : Bool) (draw : Nat) (neg : Bool) (num : Nat) (exp : Int) : FOut :=
  match f.fmt with
  | some g => g.roundRat rm true ftzOut draw neg num 1 exp
  | none =>
    let qr := roundAt rm neg draw num 1 exp (-6)
    let i : Int := signedOf neg qr.1
    if i > 127 then { bits := 0x7F, flags := flIntSat ||| flInexact }
    else if i < -127 then { bits := 0x81, flags := flIntSat ||| flInexact }
    else { bits := ofSigned 8 i, flags := if qr.2 then flInexact else 0 }

/-! ### Exact accumulators (R66 to R71) -/

/-- The NaN marker (R68). -/
def exNan : Int := -(2 ^ 127)
/-- The saturated magnitude (R68). -/
def exSat : Int := 2 ^ 127 - 1

/-- One contribution to an accumulator with window exponent E: the new value and whether it saturated (R69). -/
def exApply (E : Int) (q : Int) (x : FV) : Int × Bool :=
  if q = exNan then (exNan, false)
  else match x with
    | .nan => (exNan, false)
    | .inf neg =>
      let s := if neg then -exSat else exSat
      if q = -s then (exNan, false) else (s, false)
    | .fin neg sig e =>
      if q = exSat ∨ q = -exSat then (q, false)
      else
        let c := signedOf neg (roundAt .rne neg 0 sig 1 e E).1
        let s := q + c
        if s.natAbs ≥ 2 ^ 127 - 1 then (if s < 0 then -exSat else exSat, true) else (s, false)

/-- The exact value of an accumulator for CFIN (R68, R71). -/
def exValue (E : Int) (q : Int) : XV :=
  if q = exNan then .nan
  else if q = exSat then .inf false
  else if q = -exSat then .inf true
  else .rat (decide (q < 0)) q.natAbs 1 E

end Sys2Proof.Machine
end

