-- ==== Sys2Proof/Machine/Random.lean ====
section
/-! DEFINITION. The counter-based generator and its draws (chapter 04, R74 to R81). -/
namespace Sys2Proof.Machine

/-- One evaluation of the generator, before its ten rounds: the counter and the key as 32-bit words (R74). -/
structure Philox where
  c0 : Nat
  c1 : Nat
  c2 : Nat
  c3 : Nat
  k0 : Nat
  k1 : Nat
  deriving DecidableEq, Repr

/-- One round with the key step after it (R74). -/
def philoxRound (p : Philox) : Philox :=
  let a := 0xD2511F53 * p.c0
  let b := 0xCD9E8D57 * p.c2
  { c0 := (b >>> 32) ^^^ p.c1 ^^^ p.k0, c1 := b % 2 ^ 32
    c2 := (a >>> 32) ^^^ p.c3 ^^^ p.k1, c3 := a % 2 ^ 32
    k0 := (p.k0 + 0x9E3779B9) % 2 ^ 32, k1 := (p.k1 + 0xBB67AE85) % 2 ^ 32 }

/-- `n` rounds. -/
def philoxRounds : Nat → Philox → Philox
  | 0, p => p
  | n + 1, p => philoxRounds n (philoxRound p)

/-- The 128-bit evaluation for a seed, a stream id, a draw index and a counter element field (R75). -/
def evaluation (seed stream index elem : Nat) : Nat :=
  let e := elem % 2 ^ 64
  let p := philoxRounds 10
    { c0 := e % 2 ^ 32, c1 := e >>> 32, c2 := index % 2 ^ 32, c3 := stream % 2 ^ 32
      k0 := seed % 2 ^ 32, k1 := (seed >>> 32) % 2 ^ 32 }
  p.c0 + (p.c1 <<< 32) + (p.c2 <<< 64) + (p.c3 <<< 96)

/-- The draw of `w` bits for a logical element (R77); the element index wraps modulo 2^64 (R80). -/
def drawBits (w seed stream index e : Nat) : Nat :=
  let e := e % 2 ^ 64
  let n := 128 / w
  (evaluation seed stream index (e / n) >>> (w * (e % n))) % 2 ^ w

/-- The seed with bit 63 inverted: the key of the update engines (R81). -/
def engineKey (seed : Nat) : Nat := seed ^^^ 2 ^ 63

/-- BMASK: bit i is set when the 16-bit draw for e0 + i is below P (R86). -/
def bernoulliMask (seed stream index e0 p : Nat) : Nat :=
  ((List.range 32).map fun i => if drawBits 16 seed stream index (e0 + i) < p then 2 ^ i else 0).sum

end Sys2Proof.Machine
end

