-- ==== Sys2Proof/Machine/State.lean ====
section
/-! DEFINITION. The state of the D1200: every piece of state the spec gives it, as plain data, and its value at reset. -/
namespace Sys2Proof.Machine

/-! ### Shared forms -/

/-- A byte memory in canonical form: addresses rise strictly, and in epoch 0 no entry holds the byte that an unlisted
address reads as. Epoch 0 is memory nothing has lost; a later epoch numbers the loss whose bytes are free. -/
structure ByteMem where
  cells : List Host.Cell := []
  epoch : Nat := 0
  deriving DecidableEq, Repr

/-- An entry of the event log (R487). -/
structure LogEntry where
  time : Nat
  seq : Word32
  code : BitVec 16
  sev : BitVec 8
  gen : BitVec 8
  src : BitVec 20
  detail : BitVec 80
  repeats : BitVec 16
  /-- whether its copy into the NVM ring has completed (R490) -/
  copied : Bool
  deriving DecidableEq, Repr

/-- The management block: timestamp, event log, background work, chip causes and censuses (R73, R487 to R500). -/
structure Mgt where
  time : Nat := 0
  /-- RC cycles short of the next group of four while on the RC oscillator (R377) -/
  rcPhase : Nat := 0
  timeHiLatch : Word32 := 0
  /-- SRAM ring, newest first -/
  ring : List LogEntry := []
  /-- NVM ring, newest first -/
  nvm : List LogEntry := []
  nextSeq : Word32 := 0
  lost : BitVec 16 := 0
  logSel : Word32 := 0
  logData : Option LogEntry := none
  cause : BitVec 6 := 0
  causeMask : BitVec 6 := 0x1C
  stepInt : Word32 := 0
  alertMaskLo : Word32 := 0
  alertMaskHi : Word32 := 0
  /-- MGT_BG_STAT and MGT_BG_BUDGET, by activity -/
  bgStat : List (Nat × Word32) := []
  bgBudget : List (Nat × BitVec 16) := []
  /-- time of the last event 0x0110 of an activity (R499) -/
  bgLogged : List (Nat × Nat) := []
  /-- CHIP_OVF_CENSUS[c] -/
  census : List (Nat × Word32) := []
  deriving DecidableEq, Repr

/-! ### The comb (chapters 09 and 10) -/

/-- Directory states (R231). -/
inductive DirSt
  | clean | dirty | hostown | reduce
  deriving DecidableEq, Repr

/-- A directory entry (R231): in mode 0 up to four pointers, in coarse mode a region vector and host_any. -/
structure Dir where
  st : DirSt := .clean
  coarse : Bool := false
  ptrs : List Nat := []
  hostAny : Bool := false
  regions : BitVec 24 := 0
  deriving DecidableEq, Repr

/-- A reduce tag: (exact, op, fmt, E) (R255). -/
structure RedTag where
  exact : Bool
  op : BitVec 3
  fmt : BitVec 2
  e : BitVec 9
  deriving DecidableEq, Repr

/-- A valid line of a slice: its way, data with a parity bit for each byte, check byte with its parity bit, directory
entry, and the reduce tag it holds in REDUCE or EXACT (R219, R231, R238, R258). In HOSTOWN the owner's copy is `own` until it
is modified (R233, R244). -/
structure CombLine where
  way : Nat
  data : Line
  par : BitVec 64
  chk : Byte
  chkPar : Bool
  dir : Dir := {}
  red : Option RedTag := none
  own : Line := 0
  deriving DecidableEq, Repr

/-- A request at a home slice. -/
inductive CombOp
  | read
  | write (mask : BitVec 64) (data : Line)
  | own
  | atomic (op : BitVec 6) (width : Nat) (lanes : List AtomLane)
  /-- elements by their slot number in the line -/
  | contrib (tag : RedTag) (elems : List (Nat × Word32))
  | flush (invalidate : Bool)
  | kill
  /-- an access of a core or an engine that holds its place and is sent again (R236) -/
  | again
  deriving DecidableEq, Repr

/-- A requester with its request: an agent of R231, or 1,216 and above for the engines, with the regulator's master and
class (R303). -/
structure Req where
  agent : Nat
  master : Nat
  cls : Nat
  op : CombOp
  deriving DecidableEq, Repr

/-- What holds a line in a miss register (R233 to R235, R262). -/
inductive MissOp
  | fetch
  /-- a fill whose data have come and that waits for an eligible way -/
  | fill (d : Line)
  /-- a request that waits for an eligible way before it can be served -/
  | place
  /-- an invalidation round: who has still to acknowledge, and the sharer that it spares -/
  | invalidate (awaiting : List Nat) (keep : Option Nat)
  /-- whether the owner keeps a shared copy -/
  | recall (owner : Nat) (keeps : Bool)
  | wayWait
  deriving DecidableEq, Repr

/-- A miss register: its line, operation and waiters, and whether the first of them started it and so takes no waiter place
(R236). -/
structure Miss where
  line : Nat
  op : MissOp
  waiters : List Req
  starter : Bool := false
  deriving DecidableEq, Repr

/-- A refused requester, how often in a row, and its request when a command carried it (R236). -/
structure Backoff where
  agent : Nat
  master : Nat
  line : Nat
  count : Nat
  req : Option Req
  deriving DecidableEq, Repr

/-- A loss log entry (R252). -/
structure Loss where
  line : Nat
  byScrub : Bool
  deriving DecidableEq, Repr

/-- A slice (R252, R291). -/
structure Slice where
  lost : Bool := false
  gen : Byte := 0
  cause : BitVec 5 := 0
  causeMask : BitVec 5 := 0x15
  corr : Word32 := 0
  uncorr : Word32 := 0
  refuse : Word32 := 0
  scrubDrop : Word32 := 0
  lossOvf : Word32 := 0
  loss : List (Nat × Loss) := []
  /-- suspect words with the time of their first correctable error (R242) -/
  suspects : List (Nat × Nat) := []
  /-- remap entries in use: kind check byte, storage word or line index -/
  remaps : List (Bool × Nat) := []
  miss : List Miss := []
  refusals : List Backoff := []
  sweeping : Bool := false
  scrubPos : Nat := 0
  redCause : BitVec 5 := 0
  redMask : BitVec 5 := 0x12
  redWait : Word32 := 0
  satAddr : Option Nat := none
  satCount : Word32 := 0
  updChunks : Word32 := 0
  digestFail : Word32 := 0
  deriving DecidableEq, Repr

/-- Progress of the digest sweep (R287). -/
structure Sweep where
  /-- a period runs -/
  running : Bool := false
  /-- chunks of the period are left -/
  active : Bool := false
  shard : Nat := 0
  chunk : Nat := 0
  skipped : Bool := false
  deriving DecidableEq, Repr

/-- The comb: slices, valid lines by line number, and the global registers (R253, R292). -/
structure Comb where
  lines : List (Nat × CombLine) := []
  slices : List (Nat × Slice) := []
  split : Nat := 0
  /-- a split change in progress (R225) -/
  splitTo : Option Nat := none
  /-- lines that an LD with last set, or a failed or finished collective, has still to drop at their home (R172, R351, R356) -/
  lastDrops : List Nat := []
  /-- accesses of cores and engines that a reset has abandoned and that have not learned of it yet: agent, master, line (R386) -/
  abandoned : List (Nat × Nat × Nat) := []
  /-- lines that a host core held when a reset of their comb layer took their home: the shared cache drops them, and writes modified
  ones to HBM (R388) -/
  hostLeft : List (Nat × Nat) := []
  scrubPass : List (Nat × BitVec 16) := []
  scrubOff : List Nat := []
  /-- dies whose wake or split sweep has completed since they came up (SLC_GLB_SWEEP.done) -/
  swept : List Nat := []
  shardBase : BitVec 48 := 0
  shardCnt : Nat := 0
  dsweepOn : Bool := true
  dsweepPeriod : BitVec 16 := 600
  dsweepPasses : BitVec 16 := 0
  dsweepDropped : BitVec 16 := 0
  sweep : Sweep := {}
  deriving DecidableEq, Repr

/-! ### External memory (chapter 11) -/

/-- An HBM controller and its stack (R311). -/
structure Stack where
  temp : Byte := 0
  selfRefresh : Bool := false
  throttled : Bool := false
  refreshX2 : Bool := false
  trained : Bool := false
  cause : BitVec 5 := 0
  causeMask : BitVec 5 := 0x11
  retries : Word32 := 0
  fails : Word32 := 0
  eccCorr : Word32 := 0
  /-- the most recent failure: line, and whether it was a write; and the valid bit, which a write clears -/
  failAddr : Option (Nat × Bool) := none
  failValid : Bool := false
  patrolOn : Bool := true
  patrolPeriod : Byte := 24
  patrolDrop : Word32 := 0
  /-- the next granule of this patrol period, and the management time at which the period began -/
  patrolPos : Nat := 0
  patrolFrom : Nat := 0
  deriving DecidableEq, Repr

/-- The stacks' contents, the lines that read bad, and the controllers. -/
structure Hbm where
  mem : ByteMem := {}
  /-- lines whose stored data fail parity or on-die ECC until next written -/
  bad : List Nat := []
  /-- what befalls the next read or write of a home that it fits (R297, R298; log 11) -/
  strike : Option HbmStrike := none
  ctrls : List (Nat × Stack) := []
  /-- stack window set in force: W and B in GiB (R296) -/
  winSize : Nat := 0
  winBase : Nat := 0
  deriving DecidableEq, Repr

/-- A reservation (R307): the words as written, whether admitted, and its effective budget. -/
structure Rsv where
  lo : Word32 := 0
  budget : BitVec 20 := 0
  admitted : Bool := false
  /-- budget in force in this window, and that of the next (R308) -/
  eff : Nat := 0
  effNext : Nat := 0
  /-- whether the entry counts in this window: admissions and releases act at the next boundary (R307) -/
  inForce : Bool := false
  /-- the range and class in force in this window -/
  now : Word32 := 0
  deriving DecidableEq, Repr

/-- A request that the regulator has admitted and that waits at its controller: it has not been issued to its stack (R304). `passed` is
how often another of its level has gone before it. -/
structure HbmReq where
  id : Nat
  master : Nat
  cls : Nat
  line : Nat
  level : Nat
  droppable : Bool
  passed : Nat := 0
  deriving DecidableEq, Repr

/-- The memory regulator (R304 to R310). -/
structure Regulator where
  cause : BitVec 2 := 0
  causeMask : BitVec 2 := 2
  shortfall : Bool := false
  reason : BitVec 2 := 0
  cfg : BitVec 12 := 0xD49
  classes : List (Nat × Word32) := []
  clsBytes : List (Nat × Word64) := []
  clsHiLatch : List (Nat × Word32) := []
  clsReq : List (Nat × Word32) := []
  clsOver : List (Nat × Word32) := []
  clsDrop : List (Nat × Word32) := []
  rsv : List (Nat × Rsv) := []
  /-- bytes admitted in this window, by master -/
  counts : List (Nat × Nat) := []
  /-- classes already counted over budget in this window -/
  overSeen : List Nat := []
  /-- admitted requests in their order of arrival -/
  waiting : List HbmReq := []
  deriving DecidableEq, Repr

/-! ### The core (chapters 05 to 08) -/

/-- Core states (R115). -/
inductive CoreSt
  | empty | loaded | run | halted | faulted
  deriving DecidableEq, Repr

/-- Where a long instruction stands: in its engine's queue, executing, finished and about to pulse, or faulted. -/
inductive Phase
  | queued | started | done | faulted
  deriving DecidableEq, Repr

/-- A chunk pass that has read its chunk and checked it, and has begun to write: chunk, kind, whether a value is not finite, and the
bytes still to write by address, in their order (R281). It holds the line of its tag entry (R283). -/
structure OpenPass where
  chunk : Nat
  kind : Nat
  nonfinite : Bool
  tagLine : Nat
  writes : List (Nat × List Byte)
  deriving DecidableEq, Repr

/-- Progress of an UPD (R276, R282). -/
structure UpdProg where
  shard : Nat
  /-- first chunk -/
  first : Nat := 0
  /-- the shard-table entry as read at the start -/
  entry : BitVec 1024
  /-- chunks without a finished pass, relative to the first -/
  todo : List Nat
  /-- failed chunks with their codes -/
  fails : List (Nat × Nat)
  full : Nat := 0
  wonly : Nat := 0
  verify : Nat := 0
  nonfinite : Bool := false
  stats : Bool := false
  outcome : Nat := 0
  /-- the census has been sampled as zero, and the UPD waits before its chunk passes -/
  sampled : Bool := false
  /-- passes that have begun to write -/
  passes : List OpenPass := []
  deriving DecidableEq, Repr

/-- A destination line, or for contributions a line or exact group, for which a MOVE has read bytes and that it has not written
yet (R198, R206, R213): its number, its bytes (for contributions a bit for each line touched), elements to contribute by their
slot, and the lowest burst that has bytes in it. -/
structure Staged where
  line : Nat
  mask : BitVec 64
  data : Line
  elems : List (Nat × Word32)
  burst : Nat
  deriving DecidableEq, Repr

/-- Progress of a MOVE on its channel (R198 to R213). -/
structure MoveProg where
  /-- the physical bank that was standby at issue, for a MOVE into it -/
  bank : Option Bool := none
  /-- bursts issued so far -/
  next : Nat := 0
  /-- CRC register -/
  crc : Word32 := 0
  /-- rows read of the running tile, under skew -/
  rows : List Nat := []
  /-- what each burst has read, when the two sides overlap (R198) -/
  copied : List (List Byte) := []
  staged : List Staged := []
  /-- a byte has moved -/
  moved : Bool := false
  /-- bursts that have failed with their codes, how many bursts had been issued by then, and whether no byte had moved (R213) -/
  bad : List (Nat × Nat) := []
  bound : Nat := 0
  early : Bool := false
  /-- stream feed: the next slot, and the cycles of slot 0 and of the last slot delivered (R203) -/
  slot : Nat := 0
  first : Nat := 0
  last : Nat := 0
  deriving DecidableEq, Repr

/-- What an executing instruction carries besides its captured operands. -/
inductive Aux
  | none
  | move (p : MoveProg)
  | upd (p : UpdProg)
  /-- units of work done so far, and the first failure as detail and code -/
  | units (next : Nat) (fail : Option (Nat × Nat))
  /-- an ACCX: the accumulator entry and column found uncorrectable, if any (log 11) -/
  | accx (bad : Option (Nat × Nat))
  deriving DecidableEq, Repr

/-- A long instruction in flight, with what issue captured (R103, R107). -/
structure Flight where
  tag : Nat
  eng : Nat
  word : BitVec 128
  pc : BitVec 16
  desc : BitVec 512
  ka : Word64
  kb : Word64
  fpctl : Word32
  seed : Word64
  ph : Phase := .queued
  /-- DMA channel -/
  chan : Nat := 0
  /-- ordinal of a MOVE into the input queue, or of a stream-feed MMA (R135); for a DRAIN the kernel that receives -/
  ord : Nat := 0
  /-- whether a chained MMA may continue the array instruction before it (R129), and continues its lines -/
  chainOk : Bool := true
  chained : Bool := false
  /-- fault decided and not yet raised: code and detail -/
  flt : Option (Nat × Nat) := none
  aux : Aux := .none
  deriving DecidableEq, Repr

/-- What the control stream is stalled at (R117, R122). -/
inductive Stall
  | none
  /-- a long instruction: 1 hazard, 2 tag busy, 3 queue full -/
  | issue (reason : Nat)
  | waitc (c : Nat) (thr : Word32)
  /-- with mem set, also the scalar accesses before it -/
  | fence (mask : Word32) (mem : Bool)
  | switch (entry : Nat)
  | ldk
  | halt
  | sigc (target : Nat) (c : Nat) (inc : Nat)
  deriving DecidableEq, Repr

/-- An LDK or STK that has issued and waits for its lines (R98): the offset of its word, the register an LDK writes, region,
address, class, and the value an STK stores. -/
structure ScalarAcc where
  pc : BitVec 16
  kd : Option (BitVec 5)
  region : Nat
  addr : Nat
  cls : Nat
  value : Word64
  deriving DecidableEq, Repr

/-- An entry of the dead-range list: slot, base, length; the list is kept oldest first (R248, R254). -/
structure DeadEntry where
  slot : Nat
  base : Nat
  len : Nat
  deriving DecidableEq, Repr

/-- A SIGC increment on its way (R100): target core, counter, increment, the generation it names, its sender. -/
structure SigFlight where
  target : Nat
  counter : Nat
  inc : Nat
  gen : Option Byte
  sender : Nat
  deriving DecidableEq, Repr

/-- A pass in execution (R130 to R145). -/
structure ArrExec where
  tag : Nat
  /-- pass number inside a CONV; 0 for MMA -/
  pass : Nat := 0
  /-- cycle in which slot or line 0 is consumed -/
  t0 : Nat
  /-- rows committed, rows held for a replay, rows waiting in the output queue with their entries by column -/
  committed : List Nat := []
  heldRows : List Nat := []
  waitingRows : List (Nat × List (Nat × Nat)) := []
  /-- rows that have failed their check so far -/
  failed : Nat := 0
  /-- a row that failed for good -/
  lostRow : Option Nat := none
  /-- the contributions of the rows decided so far to each unmasked column: FP32 encodings, or integers (R144) -/
  sums : List (Nat × List (Nat × Int)) := []
  /-- stream feed: slots held for their cycle with their lines, and slots that came too early -/
  got : List (Nat × Line) := []
  early : List Nat := []
  deriving DecidableEq, Repr

/-- A line in the input queue before its pass has begun: the MOVE's ordinal, slot, arrival cycle, bytes (R135). -/
structure FeedLine where
  ord : Nat
  slot : Nat
  cycle : Nat
  data : Line
  deriving DecidableEq, Repr

/-- A checksum packet: the ordinal of its MOVE, and its 128 words (R204). -/
structure FeedSums where
  ord : Nat
  words : List Word32
  deriving DecidableEq, Repr

/-- The matrix array's own state (R147, R153). -/
structure Arr where
  /-- accumulator entries by entry times 32 plus column; an entry not listed holds zero -/
  acc : List (Nat × Word32) := []
  execs : List ArrExec := []
  inq : List FeedLine := []
  /-- checksum packets delivered and not yet taken by a pass -/
  packets : List FeedSums := []
  /-- how many MOVEs into the input queue, and stream-feed MMAs, have issued (R135) -/
  feedMoves : Nat := 0
  feedPasses : Nat := 0
  /-- the array instruction before, for chaining, when it is an MMA in tile-buffer feed mode: a_addr, M, lane count -/
  prev : Option (Nat × Nat × Nat) := none
  retry : Word32 := 0
  late : Word32 := 0
  check : BitVec 18 := 0
  accAddr : BitVec 14 := 0
  deriving DecidableEq, Repr

/-- What keeps a thread group from going on. -/
inductive GWait
  | none
  | waitc (c : Nat) (thr : Word32)
  | sigc (c : Nat) (inc : Nat)
  /-- EXIT done but a register is pending under DRAIN (R168) -/
  | drainExit
  deriving DecidableEq, Repr

/-- A thread group (R155). -/
structure Group where
  alive : Bool := false
  seq : Word32 := 0
  /-- thread registers by register times 32 plus lane -/
  v : List (Nat × Word32) := []
  /-- predicates p1 to p7, one bit for each lane -/
  p : List (Nat × BitVec 32) := []
  u : List (Nat × Word32) := []
  act : BitVec 32 := 0
  stack : List (BitVec 32 × Nat) := []
  /-- parked entries in the order parked: barrier, mask, word -/
  parked : List (Nat × BitVec 32 × Nat) := []
  arrive : List (Nat × BitVec 32) := []
  exited : BitVec 32 := 0
  pc : Nat := 0
  wait : GWait := .none
  /-- lines that an ATOM has already updated while another of its lines waits -/
  part : List Nat := []
  deriving DecidableEq, Repr

/-- A launched kernel (R156, R157). -/
structure Kernel where
  tag : Nat
  seq : Word32
  entry : Nat
  u : List Word32
  started : BitVec 16 := 0
  exited : BitVec 16 := 0
  deriving DecidableEq, Repr

/-- A CPYA in flight (R175): its group, counter, word, source region, address and class, length, and where it lands: a tile
offset, or the L1. -/
structure Copy where
  grp : Nat
  seq : Word32
  counter : Nat
  word : Nat
  region : Nat
  addr : Nat
  cls : Nat
  len : Nat
  dst : Option Nat
  deriving DecidableEq, Repr

/-- A DRAIN that waits for its place: the registers it will write are pending (R149). -/
structure DrainPend where
  seq : Word32
  grp : Nat
  vbase : Nat
  rows : Nat
  tag : Nat
  deriving DecidableEq, Repr

/-- The thread-group engine (R154 to R194). -/
structure Tg where
  groups : List (Nat × Group) := []
  kernels : List Kernel := []
  nextSeq : Word32 := 0
  runSeq : Word32 := 0
  issued : Word32 := 0
  fault : BitVec 23 := 0
  copies : List Copy := []
  pend : List DrainPend := []
  deriving DecidableEq, Repr

/-- Control-space registers of a core (R72, R89, R122, R218, R254, R290) and the waggle area (R372). -/
structure CoreRegs where
  cause : BitVec 5 := 0
  causeMask : BitVec 5 := 0
  faultPc : BitVec 16 := 0
  faultInfo : BitVec 18 := 0
  faultDetail : Word32 := 0
  wdog : BitVec 16 := 0
  entry : BitVec 15 := 0
  imemBank : Bool := false
  imemWord : BitVec 13 := 0
  descWord : BitVec 10 := 0
  kregSel : BitVec 5 := 0
  fpctl : Word32 := 0
  fpstat : BitVec 7 := 0
  ovfCount : Word32 := 0
  seedLo : Word32 := 0
  seedHi : Word32 := 0
  dmaLines : Word32 := 0
  dmaCrc : List (Nat × Word32) := []
  deadRetired : Word32 := 0
  updLast : Word32 := 0
  updFull : Word32 := 0
  updWonly : Word32 := 0
  updVerify : Word32 := 0
  deriving DecidableEq, Repr

/-- A core (R90, R122). -/
structure Core where
  st : CoreSt := .empty
  /-- active bank: false A, true B -/
  active : Bool := false
  validA : Bool := false
  validB : Bool := false
  /-- byte offset in the active bank of the next control word to issue -/
  pc : BitVec 15 := 0
  stall : Stall := .none
  haltReq : Bool := false
  /-- a fault has stopped issue and the core drains to FAULTED (R116) -/
  faulting : Bool := false
  resetting : Bool := false
  /-- who asked for a core reset of its own, as RST_CAUSE.requester has it; 0 under a region reset alone (R384, R522) -/
  resetBy : Nat := 0
  k : List (Nat × Word64) := []
  arrive : List (Nat × Word32) := []
  bankA : ByteMem := {}
  bankB : ByteMem := {}
  descMem : ByteMem := {}
  tile : ByteMem := {}
  regions : List (Nat × BitVec 128) := []
  /-- instructions in flight or faulted, in issue order -/
  flights : List Flight := []
  /-- LDK and STK that wait for their lines, oldest first -/
  scalarq : List ScalarAcc := []
  dead : List DeadEntry := []
  /-- the DMA engine's arbiter: the channel last served at each priority, and how often each has been passed over (R211) -/
  dmaLast : List (Nat × Nat) := []
  dmaPass : List (Nat × Nat) := []
  /-- L1 lines with their bytes, most recently used first -/
  l1 : List (Nat × Line) := []
  arr : Arr := {}
  tg : Tg := {}
  regs : CoreRegs := {}
  /-- image core index of this core, and the translation of image cores to logical cores with the generation recorded -/
  image : Option Nat := none
  xlat : List (Nat × Nat × Byte) := []
  /-- program that holds the core, for R65; 0 when none does -/
  prog : Nat := 0
  deriving DecidableEq, Repr

/-! ### Clocks, resets, power and temperature (chapters 14 and 16) -/

/-- CLK_RGN[n] and CLK_SWALLOW[n] (R389). -/
structure ClkRgn where
  level : Nat := 0
  deepMv : Byte := 60
  droopMv : Byte := 30
  swallow : Word32 := 0
  deriving DecidableEq, Repr

/-- The clock block and the crystal monitor (R374 to R379, R389). -/
structure Clk where
  rcTrimmed : Bool := false
  pllLock : Bool := false
  xtalOk : Bool := false
  /-- management clock: false RC oscillator, true datum clock -/
  datum : Bool := false
  cause : BitVec 3 := 0
  causeMask : BitVec 3 := 4
  periphEn : BitVec 6 := 0x3B
  rcTrim : Byte := 0x80
  rgn : List (Nat × ClkRgn) := []
  /-- swallow levels of the comb clocks, by die times 24 plus footprint -/
  combLevel : List (Nat × Nat) := []
  /-- logic clocks but the management domain's are stopped (R376, R475) -/
  stopped : Bool := false
  deriving DecidableEq, Repr

/-- Phases of a layer reset (R386). -/
inductive LayerPhase
  | drain | hold | restore
  deriving DecidableEq, Repr

/-- A layer reset in progress. -/
structure LayerRst where
  layer : Nat
  force : Bool
  phase : LayerPhase
  /-- who asked for it, as RST_CAUSE.requester has it (R522) -/
  by_ : Nat := 0
  deriving DecidableEq, Repr

/-- The reset block (R390). -/
structure Rst where
  cause : BitVec 14 := 1
  layerSel : BitVec 4 := 0
  lost : Bool := false
  regionSel : BitVec 5 := 0
  coreSel : BitVec 11 := 0
  lostCount : Word32 := 0
  cold : BitVec 16 := 0
  warm : BitVec 16 := 0
  layerOp : Option LayerRst := none
  /-- regions whose reset waits for core resets of its scope (R384) -/
  regionBusy : List Nat := []
  /-- who asked for the reset of each (R522) -/
  regionBy : List (Nat × Nat) := []
  deriving DecidableEq, Repr

/-- States of a rail group (R426). -/
inductive GrpSt
  | on | asleep | lost | off
  deriving DecidableEq, Repr

/-- A footprint's phase groups (R423 to R429, R447). Groups: 0 compute, 1 comb 0, 2 comb 1. -/
structure Fp where
  compute : GrpSt := .on
  comb0 : GrpSt := .on
  comb1 : GrpSt := .on
  /-- the bits of PWR_FP_CTL -/
  ctl : BitVec 3 := 0
  /-- ramps in progress: group and whether it rises -/
  ramps : List (Nat × Bool) := []
  /-- requests that wait for a ramp's end, or for a held line: group and whether to sleep -/
  pend : List (Nat × Bool) := []
  waiting : Bool := false
  step : Nat := 0
  vfault : Bool := false
  /-- phases failed since start -/
  failed : List Nat := []
  cause : BitVec 5 := 0
  causeMask : BitVec 5 := 0x10
  /-- vertical supply check: consecutive checks above the bound, and its baseline in µV/A (R420, R421) -/
  vHigh : Nat := 0
  vBase : Option (BitVec 16) := none
  deriving DecidableEq, Repr

/-- A feed (R419, R420, R448). -/
structure Feed where
  inUse : Bool := false
  integrity : Bool := false
  dVolts : BitVec 10 := 0
  dAmps : BitVec 10 := 0
  base : Option (BitVec 16) := none
  high : Nat := 0
  low : Nat := 0
  deriving DecidableEq, Repr

/-- Device power states (R426, R430, R436). -/
inductive PwrSt
  | emptyStandby | on | standby | thermalOff
  deriving DecidableEq, Repr

/-- Power (R419 to R431, R446 to R449). -/
structure Pwr where
  st : PwrSt := .emptyStandby
  fps : List (Nat × Fp) := []
  /-- PWR_PH_STAT current and temperature by footprint times 12 plus phase -/
  phStat : List (Nat × Word32) := []
  /-- consecutive deviating health checks by phase (R498) -/
  phDev : List (Nat × Nat) := []
  feeds : List (Nat × Feed) := []
  feedCause : BitVec 4 := 0
  feedMask : BitVec 4 := 0
  inrush : Byte := 20
  railLimit : BitVec 12 := 1900
  cur : List (Nat × BitVec 20) := []
  /-- unit generations of core sites, and of region controllers (R442) -/
  siteGen : List (Nat × Byte) := []
  rgnGen : List (Nat × Byte) := []
  /-- crystal failure holds the device in STANDBY (R376) -/
  xtalHold : Bool := false
  deriving DecidableEq, Repr

/-- A temperature sensor: tower sensors are layer times 24 plus footprint, link dies 96 + d, stacks 100 + s
(R432 to R439, R450). -/
structure Sensor where
  valid : Bool := false
  busy : Bool := false
  seq : Byte := 0
  temp : BitVec 16 := 0
  warning : Bool := false
  throttle : Bool := false
  shutdown : Bool := false
  distrusted : Bool := false
  cause : BitVec 3 := 0
  causeMask : BitVec 3 := 3
  /-- consecutive checks in which the estimate exceeded the reading by more than 8 °C -/
  dev : Nat := 0
  /-- the last estimate, in 0.00001 °C units -/
  est : Int := 0
  /-- the estimate stands above the warning threshold, and drives the footprint's throttle input (R439) -/
  estWarning : Bool := false
  estThrottle : Bool := false
  deriving DecidableEq, Repr

/-- Tracker of one bonded interface (R440), temperatures in 0.00001 °C units. -/
structure Wear where
  rising : Bool := true
  peak : Int := 0
  trough : Int := 0
  count : Nat := 0
  deriving DecidableEq, Repr

/-- Temperature and wear (R433 to R441, R450, R451). -/
structure Thm where
  sensors : List (Nat × Sensor) := []
  held : Bool := false
  shutdowns : BitVec 16 := 0
  /-- times of the last three restarts, newest first, in ms since the feeds were applied -/
  restarts : List Nat := []
  /-- ms that had passed since the feeds were applied when the management timestamp last started from zero -/
  clockBase : Nat := 0
  thetaX : BitVec 16 := 50
  thetaC : BitVec 16 := 40
  wear : List (Nat × Wear) := []
  /-- the counts and tracker state saved in the NVM -/
  wearSaved : List (Nat × Wear) := []
  deriving DecidableEq, Repr

/-! ### Start-up and the cadastre (chapter 15) -/

/-- An entry of the learned list (R403). -/
structure Learned where
  kind : Nat
  suspect : Bool := false
  bad : Bool := false
  cleared : Bool := false
  origin : Nat
  passes : Nat := 0
  index : Nat
  word : Nat := 0
  fails : Nat := 0
  deriving DecidableEq, Repr

/-- A copy of the configuration block: its first 256 bytes and its signature (R393). -/
structure CfgCopy where
  block : BitVec 2048
  sig : List Byte
  deriving DecidableEq, Repr

/-- Start-up, the cadastre and saved settings (chapter 15). -/
structure Boot where
  /-- units not good, in rising order, as fixed at the start -/
  badSites : List Nat := []
  badSlices : List Nat := []
  badPhases : List Nat := []
  badHosts : List Nat := []
  badPorts : List Nat := []
  /-- descent ports, and UCIe ports by link die, that report a cause (R15, R501) -/
  portCause : List Nat := []
  ucieCause : List Nat := []
  /-- the learned list as it stands, and its copy in the NVM with its sequence number -/
  learned : List Learned := []
  learnedNvm : List Learned := []
  learnedSeq : Nat := 0
  /-- the list as it stood at the start before, once there has been one (R409) -/
  listBefore : Option (List Learned) := none
  /-- entries that the next cold start removes: kind, unit index, word index (R408) -/
  removals : List (Nat × Nat × Nat) := []
  /-- units that the fuse map marks bad, and those it isolates: kind and index (R402, R406) -/
  fuseBad : List (Nat × Nat) := []
  fuseIsolated : List (Nat × Nat) := []
  fuseOnly : BitVec 16 := 0
  /-- device generation (R327) -/
  gen : Byte := 0
  /-- MGT_BOOT_STAT and MGT_BOOT_TIME (R417) -/
  ready : Bool := false
  degraded : Bool := false
  failed : Bool := false
  hbmKept : Bool := false
  cadChanged : Bool := false
  learnedLost : Bool := false
  kind : BitVec 2 := 0
  step : BitVec 4 := 0
  reason : Byte := 0
  time : Word32 := 0
  /-- whether a cold reset has not yet been followed by ready (R399) -/
  everReady : Bool := false
  /-- the two copies of the configuration block, and the block that the last cold start read (R393, R394) -/
  cfgA : Option CfgCopy := none
  cfgB : Option CfgCopy := none
  cfg : Option (BitVec 2048) := none
  /-- sequence number of the block whose full-training flag has been used (R395) -/
  consumed : Option Word64 := none
  /-- full training at the next cold start, by CONTROL action 7 -/
  fullNext : Bool := false
  /-- saved HBM settings exist in the NVM -/
  savedHbm : Bool := false
  /-- SHA3-512 of the Linux image as the last cold start recorded it (R398) -/
  linux : Option (BitVec 512) := none
  /-- size of the host carve-out in GiB (R364, R395) -/
  carve : Nat := 16
  /-- the host complex is held in reset (R396, R472) -/
  hostHeld : Bool := true
  deriving DecidableEq, Repr

/-! ### Links and the collective engine (chapter 12) -/

/-- Link states (R338). -/
inductive LinkSt
  | disabled | down | train | align | active | recover
  deriving DecidableEq, Repr

/-- A data flit before it is sent: its channel, class, marks and payload bytes (R315). -/
structure TxFlit where
  vc : Nat
  cls : Bool
  sop : Bool
  eop : Bool
  abort : Bool := false
  bytes : List Byte
  deriving DecidableEq, Repr

/-- A packet at an egress port: its flits not yet sent, and whether some have been (R323). -/
structure TxPkt where
  vc : Nat
  cls : Bool
  begun : Bool := false
  flits : List TxFlit
  /-- the ingress link and pool whose buffers its flits hold, when it is forwarded -/
  src : Option (Nat × Nat) := none
  /-- flits are still to come from the ingress (R323) -/
  more : Bool := false
  /-- how many of its flits stand in the egress buffers of its pool (R320) -/
  inBuf : Nat := 0
  deriving DecidableEq, Repr

/-- A packet under assembly on a channel. -/
structure RxAsm where
  vc : Nat
  cls : Bool
  bytes : List Byte := []
  /-- the egress link, when it is forwarded -/
  fwd : Option Nat := none
  /-- the rest of it is discarded -/
  drop : Bool := false
  deriving DecidableEq, Repr

/-- A link's settings in the NVM (R339): the partner, the lane maps with the receive lanes out of service, and the equalisation by the
number of the free value that it is (log 51). -/
structure SavedLink where
  partner : BitVec 16 × BitVec 6 × Byte
  rxMap : BitVec 12
  txMap : BitVec 12
  rxBad : BitVec 5
  eq : Nat
  deriving DecidableEq, Repr

/-- A link (R312 to R340, R358). -/
structure Link where
  st : LinkSt := .disabled
  /-- mode in force: true Ethernet -/
  eth : Bool := false
  savedUsed : Bool := false
  ctl : Word32 := 0x10000000
  cause : BitVec 4 := 0
  causeMask : BitVec 4 := 0xE
  rxMap : BitVec 12 := 0x688
  txMap : BitVec 12 := 0x688
  rxSpare : Bool := false
  txSpare : Bool := false
  rxBad : BitVec 5 := 0
  /-- the logical lane that the transmitter repeats on the spare (R314) -/
  txRepeat : Option Nat := none
  /-- the logical lane for which the receiver has sent a swap request -/
  rxRequest : Option Nat := none
  /-- an acknowledged swap of each direction: the logical lane, and the control-slot index at which it moves (R314) -/
  txSwap : Option (Nat × BitVec 16) := none
  rxSwap : Option (Nat × BitVec 16) := none
  /-- the next outgoing slot, and the last slot received, from 0 in ALIGN (R313) -/
  txSlot : Nat := 0
  rxSlot : Nat := 0
  /-- codewords of the receive direction already counted as uncorrectable (R312) -/
  fecSeen : Nat := 0
  /-- the equalisation in use, by the number of the free value that it is (R339, R340) -/
  eq : Nat := 0
  /-- training restores the saved settings (R339) -/
  restoring : Bool := false
  partner : Option (BitVec 16 × BitVec 6 × Byte) := none
  fecCorr : Word32 := 0
  fecUncorr : Word32 := 0
  replays : Word32 := 0
  drop : Word32 := 0
  recovers : Word32 := 0
  /-- sequence number the receiver expects, and whether a NAK is out since it last accepted -/
  rxSeq : BitVec 8 := 0
  nakOut : Bool := false
  /-- next sequence number to send, the replay buffer, replays in a row without an advance -/
  txSeq : BitVec 8 := 0
  replayBuf : List (BitVec 8 × TxFlit) := []
  replayRow : Nat := 0
  /-- credits held of each pool of the partner, and credits owed to it -/
  credits : List (Nat × Nat) := []
  owed : List (Nat × Nat) := []
  tx : List TxPkt := []
  /-- how often each channel has been passed over -/
  passed : List (Nat × Nat) := []
  rx : List RxAsm := []
  /-- times of the last RECOVER entries -/
  recTimes : List Nat := []
  /-- saved settings in NVM -/
  saved : Option SavedLink := none
  /-- train fully at the next DOWN (R339) -/
  fullNext : Bool := false
  /-- the port entry read at enable in Ethernet mode -/
  port : BitVec 512 := 0
  /-- a port entry still to be read -/
  reading : Bool := false
  /-- Ethernet priorities that a partner has paused, with the management time at which each pause ends, and the frames that wait for
  one (R332) -/
  paused : List (Nat × Nat) := []
  frames : List (List Byte) := []
  deriving DecidableEq, Repr

/-- A packet on its way out, and where its payload comes from: class, address and length (R336). -/
structure Sent where
  pkt : Packet
  src : Option (Nat × Nat × Nat) := none
  deriving DecidableEq, Repr

/-- An Ethernet context of a peer and channel (R336, R337). -/
structure Ctx where
  txSeq : Word32 := 0
  /-- the peer entry as read when the context opened (R334) -/
  entry : Option (BitVec 512) := none
  unacked : List Sent := []
  queue : List Sent := []
  window : Nat := 128
  /-- packets acknowledged since the window was last halved, and since it last grew -/
  sinceCut : Nat := 0
  sinceGrow : Nat := 0
  cut : Bool := false
  dups : Nat := 0
  rto : Nat := 32
  expiries : Nat := 0
  failed : Bool := false
  rxSeq : Word32 := 0
  rxGen : Option Byte := none
  rxUnacked : Nat := 0
  ceSeen : Bool := false
  /-- the device at the other end -/
  dev : BitVec 16 := 0
  deriving DecidableEq, Repr

/-- A step of a collective at one member (R351): ranges are elements; `at_` says where in the receiver's destination. -/
inductive CStep
  | place
  | ready
  /-- phase 0 contributions, 1 plain writes; source 0 src, 1 work area, 2 dst -/
  | send (dest phase src lo hi at_ : Nat)
  | await (frm phase lo hi : Nat)
  | finish
  deriving DecidableEq, Repr

/-- A chunk request under way (R354). -/
structure Gather where
  chunk : Nat
  tag : Nat
  tries : Nat
  /-- waiting for its retry -/
  waits : Bool := false
  /-- bytes of the chunk that have come, when its answer comes in several packets (R335) -/
  part : List Byte := []
  deriving DecidableEq, Repr

/-- An accepted collective (R349). -/
structure Coll where
  core : Nat
  tag : Nat
  /-- none for a shard gather -/
  group : Option Nat
  seq : Word32 := 0
  rank : Nat := 0
  members : List (BitVec 16 × Byte) := []
  hash : Word32 := 0
  active : Bool := false
  steps : List CStep := []
  expect : List (Nat × Nat × Nat × Nat) := []
  /-- ranks whose READY has arrived, ranks sent DONE to, ranks whose DONE has arrived -/
  readys : List Nat := []
  doneSent : List Nat := []
  dones : List Nat := []
  sendTo : List Nat := []
  /-- data received: rank, phase, first element, count -/
  got : List (Nat × Nat × Nat × Nat) := []
  /-- data that wait for a line held at its home -/
  held : List Packet := []
  gathers : List Gather := []
  /-- chunks not yet requested, and the stale ones -/
  todo : List Nat := []
  stale : List Nat := []
  entry : BitVec 1024 := 0
  /-- whether the own values are in place, and ranks to which READY has gone -/
  readySent : List Nat := []
  deriving DecidableEq, Repr

/-- The collective engine, routing and Ethernet state (R327 to R360). -/
structure Net where
  links : List (Nat × Link) := []
  rt : List (Nat × Word32) := []
  /-- the link last used of each routing entry -/
  rr : List (Nat × Nat) := []
  rtShift : BitVec 3 := 0
  rtAddr : BitVec 12 := 0
  devid : BitVec 16 := 0
  cause : BitVec 5 := 0
  causeMask : BitVec 5 := 4
  ctl : Word32 := 0
  timeout : BitVec 16 := 100
  ethRto : BitVec 12 := 32
  ethWindow : BitVec 9 := 128
  grpBase : BitVec 48 := 0
  peerBase : BitVec 48 := 0
  drop : Word32 := 0
  ctxs : List (Nat × Ctx) := []
  colls : List Coll := []
  seqs : List (Nat × Word32) := []
  /-- READYs that came before their collective: group, seq, source device, hash -/
  early : List (Nat × Word32 × BitVec 16 × Word32) := []
  /-- aborts for collectives not yet accepted: group, seq, source device -/
  aborts : List (Nat × Word32 × BitVec 16) := []
  /-- the core whose COLL was accepted last (R344) -/
  lastCore : Nat := 1199
  /-- GREQs that wait for a line of the shard, and packets that wait for a peer entry (R286, R334) -/
  greqs : List Packet := []
  outbox : List Sent := []
  /-- bytes of failed collectives still to be left unspecified: class, address, length (R356) -/
  spoils : List (Nat × Nat × Nat) := []
  nextTag : BitVec 16 := 0
  /-- packets of this device for itself, not yet delivered -/
  loop : List Packet := []
  bypClosed : Bool := true
  bypHold : Bool := false
  bypOpen : Bool := false
  deriving DecidableEq, Repr

/-! ### Waggle boxes and interrupts (chapter 13) -/

/-- A waggle box (R367), with the core-end registers of R372 that an H2C box has. -/
structure Box where
  full : Bool := false
  rejected : Bool := false
  ackValid : Bool := false
  poll : Bool := false
  intEmpty : Bool := true
  intFull : Bool := true
  hdr : Word32 := 0
  ack : BitVec 16 := 0
  msi : Word32 := 0
  data : BitVec 512 := 0
  carea : BitVec 48 := 0
  ccnt : Word32 := 0
  deriving DecidableEq, Repr

/-- A message that the post service holds (R373): its handle, the box by number, header, payload, and whether the box was
found powered down. -/
structure PostMsg where
  handle : Nat
  box : Nat
  hdr : Word32
  data : BitVec 512
  deriving DecidableEq, Repr

/-- The boxes by number, the pending bits of the IMSIC files (hart times 4,096 plus file times 2,048 plus identity), and the
post service (R365 to R373). -/
structure Mbx where
  boxes : List (Nat × Box) := []
  eip : List (Nat × Bool) := []
  posts : List PostMsg := []
  nextHandle : Nat := 0
  /-- core-end transfers that wait for a held line: the core, and whether it sends (R372) -/
  owed : List (Nat × Bool) := []
  deriving DecidableEq, Repr

/-! ### Swarm load (R411 to R418) -/

/-- What a region controller holds for a site. -/
structure SwarmSite where
  enable : Bool := false
  done : Bool := false
  failed : Bool := false
  sect : BitVec 10 := 0
  got : BitVec 8 := 0
  /-- the site's generation when it was enabled (R443) -/
  gen : Byte := 0
  deriving DecidableEq, Repr

/-- A chunk packet with the regions it has still to reach. -/
structure ChunkPkt where
  loadId : BitVec 16
  sect : Nat
  chunk : Nat
  len : Nat
  target : Nat
  /-- length of the section by the digest table when the packet was sent -/
  size : Nat
  data : List Byte
  dest : List Nat
  deriving DecidableEq, Repr

/-- The injector and the reception registers. -/
structure Swarm where
  loadId : BitVec 16 := 0
  /-- operation in progress, 0 when none -/
  op : BitVec 2 := 0
  /-- the operation waits for a line that is held at its home -/
  waits : Bool := false
  /-- section lengths that the digest table gave the latest operation -/
  sizes : List (Nat × Nat) := []
  list : BitVec 48 := 0
  packets : List ChunkPkt := []
  sites : List (Nat × SwarmSite) := []
  drops : List (Nat × Word32) := []
  deriving DecidableEq, Repr

/-! ### Security (chapter 17) -/

/-- The one-time-programmable memory (R453). -/
structure Otp where
  rootHash : BitVec 512 := 0
  serial : BitVec 128 := 0
  uds : BitVec 512 := 0
  lifecycle : BitVec 3 := 0
  policy : Byte := 0
  ownerHash : BitVec 512 := 0
  enrolled : Bool := false
  purgeDone : Bool := false
  /-- programmed words of the anti-rollback counters, oldest first -/
  arb0 : List Word64 := []
  arb1 : List Word64 := []
  deriving DecidableEq, Repr

/-- Security block, entropy source and identity (R462 to R480). -/
structure Sec where
  otp : Otp := {}
  /-- 0 LOCKED, 1 LIMITED, 2 FULL -/
  level : BitVec 2 := 2
  cause : BitVec 6 := 0
  causeMask : BitVec 6 := 4
  /-- the number of the free value that is the debug nonce -/
  nonce : Nat := 0
  meas : List (Nat × BitVec 512) := []
  ext : BitVec 512 := 0
  slot : Bool := false
  purging : Bool := false
  /-- a purge for FULL has run: nothing runs until a reset (R472) -/
  purged : Bool := false
  /-- a freeze has been accepted and its clocks have not stopped yet; it is complete -/
  freezing : Bool := false
  frozen : Bool := false
  rngValid : Bool := false
  rngFail : Bool := false
  rngBlocks : BitVec 16 := 0
  /-- the number of the free value that is the current block -/
  rngBlock : Nat := 0
  /-- seed of the alias key, and the alias certificate (R463) -/
  alias_ : Option (BitVec 256) := none
  cert : List Byte := []
  /-- firmware slots: the complement of each byte, so that an erased byte is not listed (R456) -/
  slotA : ByteMem := {}
  slotB : ByteMem := {}
  deriving DecidableEq, Repr

/-! ### Management frames and the module's pins (chapters 18 and 19) -/

/-- A request being put together from fragments (R484). -/
structure Assembly where
  id : Word32
  code : Byte
  count : Nat
  parts : List (Nat × List Byte)
  deriving DecidableEq, Repr

/-- A firmware update in progress (R485): its header, and whether 60 s have passed without a frame. -/
structure FwUpdate where
  header : List Byte
  lapsed : Bool := false
  deriving DecidableEq, Repr

/-- MP's frame service (R484, R485): issued nonces by free-value number with the time of issue, the request under assembly,
and the firmware update in progress with its header. -/
structure Frames where
  nonces : List (Nat × Nat) := []
  asm : Option Assembly := none
  fw : Option FwUpdate := none
  /-- MFRAME payloads delivered to MP, with the device each came from (R325) -/
  inbox : List (BitVec 16 × List Byte) := []
  deriving DecidableEq, Repr

/-- The sideband pins and the always-on domain (R513 to R515). -/
structure Pins where
  alwaysOn : Bool := false
  pwrEn : Bool := false
  /-- true while RESET_N is asserted -/
  reset : Bool := false
  freeze : Bool := false
  pwrGood : Bool := false
  /-- MP firmware runs: ALERT_N follows the cause tree (R492) -/
  alertLive : Bool := false
  deriving DecidableEq, Repr

/-! ### The whole -/

/-- RGN_CAUSE of a region or edge controller: only gen_drop is held, the rest are summaries (R501); with RGN_GEN_DROP. -/
structure Rgn where
  genDropSet : Bool := false
  causeMask : BitVec 12 := 0x40
  genDrop : Word32 := 0
  deriving DecidableEq, Repr

/-- What the latest command answered its sender: a bus error, an error response, a value read, data of a comb access. -/
inductive Answer
  | busError
  | error (code : Nat)
  | value (w : Word32)
  | done
  | line (agent : Nat) (ln : Nat) (data : Line)
  | ack (agent : Nat) (ln : Nat)
  | olds (agent : Nat) (ln : Nat) (vs : List Word64)
  | fail (agent : Nat) (ln : Nat) (code : Nat)
  | refusedAt (agent : Nat) (ln : Nat)
  /-- the dropped response of a request (R305) -/
  | dropped (id : Nat)
  /-- a flit, or an Ethernet frame, sent on a link -/
  | flit (l : Nat) (bits : BitVec 2048)
  | frame (l : Nat) (bytes : List Byte)
  /-- a management response: status and payload (R484) -/
  | reply (status : Nat) (payload : List Byte)
  /-- a handle of the post service (R373) -/
  | handle (h : Nat)
  /-- a service or loader refuses -/
  | refused
  /-- a list of logical cores (R415) -/
  | cores (l : List Nat)
  /-- the verifier's report: reason, section, byte offset (R121) -/
  | verdict (reason sect off : Nat)
  /-- why a load fails before any core is written (R65, R224) -/
  | splitConflict
  | censusExhaustion
  /-- an HTTP status with the values of the resource asked for (R483) -/
  | http (status : Nat) (content : List Nat)
  deriving DecidableEq, Repr

/-- The state. -/
structure State where
  pending : List Instr := []
  cores : List (Nat × Core) := []
  comb : Comb := {}
  hbm : Hbm := {}
  reg : Regulator := {}
  clk : Clk := {}
  rst : Rst := {}
  pwr : Pwr := {}
  thm : Thm := {}
  mgt : Mgt := {}
  rgn : List (Nat × Rgn) := []
  boot : Boot := {}
  net : Net := {}
  mbx : Mbx := {}
  swarm : Swarm := {}
  sec : Sec := {}
  frames : Frames := {}
  pins : Pins := {}
  /-- increments on their way between cores -/
  sigs : List SigFlight := []
  answers : List Answer := []
  /-- names the next free value (log 4) -/
  free : Nat := 0
  deriving DecidableEq, Repr

/-- Reasons for which the machine stops. None is raised: every command of the table has an effect (see NOTES.md). -/
inductive Fault
  /-- Reserved for a breach of a duty of R7 for which no outcome is given; no meaning raises it. Safe. -/
  | undefinedUse
  deriving DecidableEq, Repr

/-- Reasons for which a command has no meaning. -/
inductive Refusal
  /-- Raised by the dispatch for a command whose meaning is not written yet. Safe. -/
  | notModelled (mnemonic : String)
  deriving DecidableEq, Repr

/-- What a step answers. -/
abbrev Out := Host.Outcome State Fault Refusal

/-- The device right after power-up (log 6): every field at its reset value. -/
def State.reset : State := {}

end Sys2Proof.Machine
end

