-- ==== Sys2Proof/Machine/Ops.lean ====
section
/-! DEFINITION. Named operations over the state: byte memories, units and their addresses, the event log, the
step-integrity flag. -/
namespace Sys2Proof.Machine

/-! ### Byte memories -/

/-- What an unlisted address reads as: zero in memory nothing has lost (log 3), a free byte after a loss (log 4). -/
def memDefault (m : ByteMem) (a : Nat) : Byte := if m.epoch = 0 then 0 else Config.unspecByte m.epoch a

/-- Reads one byte. -/
def memGet (m : ByteMem) (a : Nat) : Byte := tblGet (memDefault m a) m.cells a

/-- Writes one byte, keeping the canonical form. -/
def memPut (m : ByteMem) (a : Nat) (b : Byte) : ByteMem :=
  if m.epoch = 0 ∧ b = 0 then { m with cells := tblDel m.cells a } else { m with cells := tblPut m.cells a b }

/-- The canonical form: addresses rise strictly, and where an unlisted address reads zero no entry is zero. -/
def memWf (m : ByteMem) : Bool :=
  tblSorted m.cells && (m.epoch != 0 || m.cells.all fun c => c.2 != 0)

/-- Reads `n` bytes from `a`, as a little-endian number. -/
def memRead (m : ByteMem) (a : Nat) : Nat → Nat
  | 0 => 0
  | n + 1 => (memGet m a).toNat + 256 * memRead m (a + 1) n

/-- Writes the `n` low bytes of `v` from `a`. -/
def memWrite (m : ByteMem) (a : Nat) : Nat → Nat → ByteMem
  | 0, _ => m
  | n + 1, v => memWrite (memPut m a (BitVec.ofNat 8 v)) (a + 1) n (v / 256)

/-- Writes a list of bytes from `a`. -/
def memWriteBytes (m : ByteMem) (a : Nat) : List Byte → ByteMem
  | [] => m
  | b :: r => memWriteBytes (memPut m a b) (a + 1) r

/-- Reads `n` bytes as a list. -/
def memBytes (m : ByteMem) (a n : Nat) : List Byte := (List.range n).map fun i => memGet m (a + i)

/-- A memory whose contents are lost: every byte is a free value of the loss numbered `e` (log 4). -/
def memLost (e : Nat) : ByteMem := { cells := [], epoch := e + 1 }

/-! ### Units (R17 to R23) -/

/-- The good unit of rank `r`, given the bad ones in rising order. -/
def nthGood (bad : List Nat) (r : Nat) : Nat := bad.foldl (fun r b => if b ≤ r then r + 1 else r) r

/-- The rank of unit `u` among the good ones. -/
def rankGood (bad : List Nat) (u : Nat) : Nat := u - (bad.filter fun b => b < u).length

/-- Core site of a logical core; none when the number is absent (R18). -/
def siteOf (s : State) (c : Nat) : Option Nat :=
  let r := c / 50
  let pos := nthGood ((s.boot.badSites.filter fun b => b / 54 = r).map fun b => b % 54) (c % 50)
  if pos < 54 then some (r * 54 + pos) else none

/-- Logical core of a site: none for a bad site and for a spare one (R18). -/
def coreAt (s : State) (site : Nat) : Option Nat :=
  let r := site / 54
  let bad := (s.boot.badSites.filter fun b => b / 54 = r).map fun b => b % 54
  let rank := rankGood bad (site % 54)
  if bad.contains (site % 54) || decide (rank ≥ 50) then none else some (r * 50 + rank)

/-- G: the good slices of both dies (R228). -/
def goodSlices (s : State) : Nat := 2592 - s.boot.badSlices.length

/-- Whether a slice is good in the cadastre. -/
def sliceGood (s : State) (n : Nat) : Bool := !s.boot.badSlices.contains n

/-- Footprint of a slice. -/
def sliceRegion (n : Nat) : Nat := n % 1296 / 54

/-- Die of a slice: 0 comb 0, 1 comb 1 (R20). -/
def sliceDie (n : Nat) : Nat := n / 1296

/-- Bits [31:12] of a block's control-space address (R25), the source of an event. -/
def blockSrc (layer region block : Nat) : Nat := layer * 65536 + region * 2048 + block

/-- Source of events of a core. -/
def coreSrc (s : State) (c : Nat) : Nat :=
  match siteOf s c with
  | some k => blockSrc 3 (k / 54) (k % 54)
  | none => 0

/-- Source of events of a slice. -/
def sliceSrc (n : Nat) : Nat := blockSrc (1 + sliceDie n) (sliceRegion n) (n % 54)

/-- Whether the logic is at rest: it has no power, or its clocks are stopped by a freeze or a crystal failure (R376, R426, R430,
R436, R475). Nothing of the logic moves then. -/
def frozen (s : State) : Bool := s.clk.stopped || decide (s.pwr.st ≠ .on)

/-- `t` if the logic runs, else the state as it is. -/
def live (s t : State) : State := if frozen s then s else t

/-! ### Tables of units -/

/-- A core. -/
def getCore (s : State) (c : Nat) : Core := tblGet {} s.cores c
/-- Replaces a core. -/
def putCore (s : State) (c : Nat) (k : Core) : State := { s with cores := tblPut s.cores c k }
/-- Changes a core. -/
def modCore (s : State) (c : Nat) (f : Core → Core) : State := putCore s c (f (getCore s c))
/-- A slice. -/
def getSlice (s : State) (n : Nat) : Slice := tblGet {} s.comb.slices n
/-- Changes a slice. -/
def modSlice (s : State) (n : Nat) (f : Slice → Slice) : State :=
  { s with comb := { s.comb with slices := tblPut s.comb.slices n (f (getSlice s n)) } }
/-- A stack. -/
def getStack (s : State) (n : Nat) : Stack := tblGet {} s.hbm.ctrls n
/-- Changes a stack. -/
def modStack (s : State) (n : Nat) (f : Stack → Stack) : State :=
  { s with hbm := { s.hbm with ctrls := tblPut s.hbm.ctrls n (f (getStack s n)) } }
/-- A footprint. -/
def getFp (s : State) (n : Nat) : Fp := tblGet {} s.pwr.fps n
/-- Changes a footprint. -/
def modFp (s : State) (n : Nat) (f : Fp → Fp) : State :=
  { s with pwr := { s.pwr with fps := tblPut s.pwr.fps n (f (getFp s n)) } }
/-- A region or edge controller. -/
def getRgn (s : State) (n : Nat) : Rgn := tblGet {} s.rgn n
/-- Changes a region or edge controller. -/
def modRgn (s : State) (n : Nat) (f : Rgn → Rgn) : State := { s with rgn := tblPut s.rgn n (f (getRgn s n)) }
/-- A sensor. -/
def getSensor (s : State) (n : Nat) : Sensor := tblGet {} s.thm.sensors n
/-- Changes a sensor. -/
def modSensor (s : State) (n : Nat) (f : Sensor → Sensor) : State :=
  { s with thm := { s.thm with sensors := tblPut s.thm.sensors n (f (getSensor s n)) } }
/-- Changes the management block. -/
def modMgt (s : State) (f : Mgt → Mgt) : State := { s with mgt := f s.mgt }
/-- Changes a core's registers. -/
def modRegs (s : State) (c : Nat) (f : CoreRegs → CoreRegs) : State :=
  modCore s c fun k => { k with regs := f k.regs }
/-- Changes a core's array. -/
def modArr (s : State) (c : Nat) (f : Arr → Arr) : State := modCore s c fun k => { k with arr := f k.arr }
/-- Changes a core's thread-group engine. -/
def modTg (s : State) (c : Nat) (f : Tg → Tg) : State := modCore s c fun k => { k with tg := f k.tg }
/-- Takes the next number of a free value. -/
def takeFree (s : State) : State := { s with free := s.free + 1 }
/-- Answers the sender. -/
def answer (s : State) (a : Answer) : State := { s with answers := s.answers ++ [a] }
/-- Forgets the answers of the command before. -/
def clearAnswers (s : State) : State := { s with answers := [] }

/-! ### The event log (R487 to R490, R496, R522) -/

/-- Severity of a code (R489, R496). -/
def severity (code : Nat) : Nat :=
  if code ∈ [0x102, 0x107, 0x109, 0x111] then 3
  else if code ∈ [0x100, 0x104, 0x105, 0x106, 0x108, 0x10E, 0x06, 0x09, 0x0B, 0x0F, 0x10, 0x2F] then 2
  else if code ∈ [0x101, 0x10B] then 0
  else 1

/-- Management cycles in a millisecond (R378). -/
def msCycles : Nat := 450000

/-- Sets bits of CHIP_CAUSE. -/
def chipCause (bits : BitVec 6) (s : State) : State := modMgt s fun m => { m with cause := m.cause ||| bits }

/-- Puts a new entry on the SRAM ring; a ring of 2,048 entries gives up its oldest, and an uncopied one is counted lost
(R490). -/
def pushEntry (e : LogEntry) (m : Mgt) : Mgt :=
  if m.ring.length < 2048 then { m with ring := e :: m.ring }
  else
    let dropped := m.ring.getLast?
    let m' := { m with ring := e :: m.ring.dropLast }
    match dropped with
    | some d => if d.copied then m' else
        { m' with lost := if m.lost = 0xFFFF then m.lost else m.lost + 1, cause := m'.cause ||| 8 }
    | none => m'

/-- The event log after an event: a new entry, or the newest entry counted once more when code and source agree within 1 ms (R487). -/
def recordEvent (code src detail : Nat) (gen : Byte) (m : Mgt) : Mgt :=
  let fresh : Mgt :=
    let e : LogEntry :=
      { time := m.time, seq := m.nextSeq, code := BitVec.ofNat 16 code, sev := BitVec.ofNat 8 (severity code)
        gen := gen, src := BitVec.ofNat 20 src, detail := BitVec.ofNat 80 detail, repeats := 0, copied := false }
    { pushEntry e m with nextSeq := m.nextSeq + 1 }
  match m.ring with
  | e :: r =>
    if e.code = BitVec.ofNat 16 code ∧ e.src = BitVec.ofNat 20 src ∧ m.time ≤ e.time + msCycles then
      { m with ring := { e with repeats := if e.repeats = 0xFFFF then e.repeats else e.repeats + 1 } :: r }
    else fresh
  | [] => fresh

/-- Records an event, with the program generation (R487). -/
def logEvent (code src : Nat) (detail : Nat) (s : State) : State := modMgt s (recordEvent code src detail s.boot.gen)

/-- The step-integrity register after a loss from a source, and CHIP_CAUSE.step_integrity (R495, R500). -/
def raiseStepInt (source : Nat) (m : Mgt) : Mgt :=
  let x := m.stepInt.toNat
  let flag := x.testBit 31
  let src := if flag then bitsOf x 18 16 else source
  let cnt := if flag then min (x % 65536 + 1) 0xFFFF else 1
  { m with stepInt := BitVec.ofNat 32 (2 ^ 31 + src * 65536 + cnt), cause := m.cause ||| 1 }

/-- Sets the step-integrity flag with a source (R495). -/
def setStepInt (source : Nat) (s : State) : State := modMgt s (raiseStepInt source)

/-- Detail of a location event: the address and whether the access was a write (R487). -/
def locDetail (addr : Nat) (write : Bool) : Nat := addr % 2 ^ 48 + b2n write * 2 ^ 48

/-- Detail of event 0x010C (R522). -/
def resetDetail (kind : Nat) (ignored : Bool) (named cause requester : Nat) : Nat :=
  kind + b2n ignored * 2 ^ 8 + named * 2 ^ 16 + cause * 2 ^ 32 + requester * 2 ^ 40

/-- How RST_CAUSE.requester encodes a requester (R390). -/
def byCode : By → Nat
  | .host _ => 1
  | .mp => 2
  | .debug => 3

/-! ### Scalar registers of the control stream (R96) -/

/-- Reads a scalar register; k0 reads zero. -/
def kGet (k : Core) (r : BitVec 5) : Word64 := if r = 0 then 0 else tblGet 0 k.k r.toNat

/-- Writes a scalar register; a write to k0 is discarded. -/
def kSet (k : Core) (r : BitVec 5) (v : Word64) : Core :=
  if r = 0 then k else { k with k := tblPut k.k r.toNat v }

/-- The active bank. -/
def activeBank (k : Core) : ByteMem := if k.active then k.bankB else k.bankA

/-- Validity of the active bank, and of the standby bank (R110). -/
def activeValid (k : Core) : Bool := if k.active then k.validB else k.validA
/-- Validity of the standby bank. -/
def standbyValid (k : Core) : Bool := if k.active then k.validA else k.validB

/-- Sets the validity of a physical bank. -/
def setValid (k : Core) (bank v : Bool) : Core := if bank then { k with validB := v } else { k with validA := v }

/-- A physical bank. -/
def bankMem (k : Core) (bank : Bool) : ByteMem := if bank then k.bankB else k.bankA
/-- Replaces a physical bank. -/
def setBank (k : Core) (bank : Bool) (m : ByteMem) : Core := if bank then { k with bankB := m } else { k with bankA := m }

/-- Descriptor `d` of descriptor memory (R107). -/
def descOf (k : Core) (d : Nat) : BitVec 512 := BitVec.ofNat 512 (memRead k.descMem (64 * d) 64)

/-! ### Faults of a core (R116, R122) -/

/-- CORE_PC as R122 lays it out. -/
def pcWord (k : Core) : BitVec 16 := BitVec.ofNat 16 (b2n k.active * 2 ^ 15 + k.pc.toNat)

/-- Records a fault of a core and stops its issue: the first is kept, later ones set fault_overflow (R116). -/
def coreFault (c : Nat) (code eng : Nat) (tag : Option Nat) (pc : BitVec 16) (detail : Nat) (s : State) : State :=
  modCore s c fun k =>
    let r := k.regs
    let r' := if r.faultInfo ≠ 0 then { r with cause := r.cause ||| 4 } else
      { r with faultPc := pc, faultDetail := BitVec.ofNat 32 detail
               faultInfo := BitVec.ofNat 18 (code + eng * 2 ^ 8 + tag.getD 0 * 2 ^ 12 + b2n tag.isSome * 2 ^ 17) }
    { k with regs := r', faulting := true, stall := .none }

/-- The flight of a core with a tag. -/
def flightOf (k : Core) (tag : Nat) : Option Flight := k.flights.find? fun f => f.tag = tag

/-- Changes the flight with a tag. -/
def modFlight (k : Core) (tag : Nat) (f : Flight → Flight) : Core :=
  { k with flights := k.flights.map fun x => if x.tag = tag then f x else x }

/-- A long instruction in flight faults: it sends no pulse and its tag stays set (R116). -/
def flightFault (c : Nat) (f : Flight) (code detail : Nat) (s : State) : State :=
  coreFault c code f.eng (some f.tag) f.pc detail (modCore s c fun k => modFlight k f.tag fun x => { x with ph := .faulted, flt := none })

end Sys2Proof.Machine
end

