-- ==== Sys2Proof/Machine/Memory.lean ====
section
/-! DEFINITION. External memory and its regulator: the address map, admission, and whole-line reads and writes at a
controller (chapter 11), with the paths that a layer reset closes (R385). -/
namespace Sys2Proof.Machine

/-- The outcome of a memory operation: done, an error code, or a wait until another operation ends. -/
inductive Res (α : Type)
  | ok (a : α)
  | err (code : Nat)
  | wait
  deriving DecidableEq, Repr

/-- Whether a reset of a layer is in progress: it refuses new requests that cross the layer (R386). -/
def layerDown (s : State) (l : Nat) : Bool :=
  match s.rst.layerOp with
  | some o => o.layer == l
  | none => false

/-- Bytes of the HBM window (R22). -/
def hbmBytes : Nat := 768 * 2 ^ 30
/-- First byte of the comb scratch window (R22). -/
def scratchBase : Nat := 0x010000000000
/-- Bytes of the comb scratch window (R22). -/
def scratchBytes : Nat := 5120 * 2 ^ 20

/-- Whether an address lies in the HBM window. -/
def inHbm (a : Nat) : Bool := decide (a < hbmBytes)
/-- Whether an address lies in the comb scratch window. -/
def inScratch (a : Nat) : Bool := decide (scratchBase ≤ a) && decide (a < scratchBase + scratchBytes)

/-- The stack and stack-local address of an HBM-window address (R295). -/
def stackMap (winSize winBase a : Nat) : Nat × Nat :=
  let w := winSize * 2 ^ 30
  let b := winBase * 2 ^ 30
  if winSize > 0 ∧ b ≤ a ∧ a < b + 12 * w then
    let j := (a - b) / w
    (j, 64 * 2 ^ 30 - w + (a - b - j * w))
  else
    let a2 := if a < b ∨ winSize = 0 then a else a - 12 * w
    let g := a2 / 256
    let q := g / 12
    let h := (q % 16) ^^^ (q / 2 ^ 4 % 16) ^^^ (q / 2 ^ 8 % 16) ^^^ (q / 2 ^ 12 % 16) ^^^ (q / 2 ^ 16 % 16)
      ^^^ (q / 2 ^ 20 % 16) ^^^ (q / 2 ^ 24 % 16)
    ((g % 12 + h) % 12, q * 256 + a2 % 256)

/-- The stack that holds a line. -/
def stackOf (s : State) (ln : Nat) : Nat := (stackMap s.hbm.winSize s.hbm.winBase (64 * ln)).1

/-- Whether a stack window set keeps the constraints of R296, sizes in GiB. -/
def windowOk (w b : Nat) : Bool := decide (w ∈ [1, 2, 4, 8, 16, 32]) && b % w == 0 && decide (b + 12 * w ≤ 768)

/-- Control-space block of a stack's controller. -/
def stackSrc (n : Nat) : Nat := blockSrc 0 (24 + n / 3) (n % 3)

/-! ### The regulator -/

/-- Derated capacity of a stack in units of 64 bytes per window (R300). -/
def stackCapacity (k : Stack) : Nat :=
  if k.throttled then (if k.refreshX2 then 58982 else 62259) else if k.refreshX2 then 117964 else 124518

/-- C (R306). -/
def regCapacity (s : State) : Nat := ((List.range 12).map fun i => stackCapacity (getStack s i)).sum
/-- L (R306). -/
def regLimit (s : State) : Nat := regCapacity s * 9 / 10

/-- First master, last master and class of a reservation. -/
def rsvFirst (r : Rsv) : Nat := bitsOf r.lo.toNat 10 0
/-- Last master. -/
def rsvLast (r : Rsv) : Nat := bitsOf r.lo.toNat 21 11
/-- Class. -/
def rsvClass (r : Rsv) : Nat := bitsOf r.lo.toNat 24 22
/-- Weight b × (last - first + 1) (R307). -/
def rsvWeight (r : Rsv) : Nat := r.budget.toNat * (rsvLast r + 1 - rsvFirst r)
/-- S: the weights of the enabled entries (R307). -/
def rsvSum (s : State) : Nat := ((s.reg.rsv.filter fun e => e.2.admitted).map fun e => rsvWeight e.2).sum

/-- The entry in force that a request of a master in a class matches (R307). A write of an entry changes neither range nor class before
the next window. -/
def rsvMatch (s : State) (master cls : Nat) : Option Rsv :=
  ((s.reg.rsv.filter fun e => e.2.inForce && decide (bitsOf e.2.now.toNat 10 0 ≤ master) && decide (master ≤ bitsOf e.2.now.toNat 21 11)
    && bitsOf e.2.now.toNat 24 22 == cls).head?).map Prod.snd

/-- HBM_CLASS[c]; drop and dl_en reset to 1 for classes 5 to 7 (R310). -/
def hbmClass (s : State) (c : Nat) : Word32 := tblGet (if c ≥ 5 then 0xC0000FFF else 0xFFF) s.reg.classes c

/-- The level of a request and the regulator's counts after its admission (R304, R310). -/
def regAdmit (master cls : Nat) (urgent : Bool) (s : State) : State × Nat :=
  let r := s.reg
  let n := tblGet 0 r.counts master
  let m := rsvMatch s master cls
  let tooBig := match m with | some e => decide (n ≥ 64 * e.eff) | none => false
  let becomes := match m with | some e => !tooBig && decide (n + 64 ≥ 64 * e.eff) | none => false
  let level := if urgent then 3 else match m with | some _ => (if tooBig then 0 else 2) | none => 1
  let newly := (becomes || tooBig) && !r.overSeen.contains cls
  let r' := { r with
    counts := tblPut r.counts master (n + 64)
    clsBytes := tblMod 0 r.clsBytes cls fun x => x + 64
    clsReq := tblMod 0 r.clsReq cls fun x => x + 1
    clsOver := if newly then tblMod 0 r.clsOver cls fun x => satInc x 1 else r.clsOver
    overSeen := if newly then cls :: r.overSeen else r.overSeen }
  ({ s with reg := r' }, level)

/-- Recomputes the effective budgets, and raises or ends the shortfall, after C or S changed (R308). -/
def rebudget (s : State) : State :=
  let c := regCapacity s
  let sum := rsvSum s
  let short := decide (c < sum)
  let rsv' := s.reg.rsv.map fun e =>
    (e.1, { e.2 with effNext := if short then e.2.budget.toNat * c / sum else e.2.budget.toNat })
  let s1 := { s with reg := { s.reg with rsv := rsv' } }
  let src := blockSrc 0 31 96
  if short && !s.reg.shortfall then
    logEvent 0x100 src 0 { s1 with reg := { s1.reg with shortfall := true, cause := s1.reg.cause ||| 1 } }
  else if !short && s.reg.shortfall then
    logEvent 0x101 src 0 { s1 with reg := { s1.reg with shortfall := false } }
  else s1

/-! ### Lines at the controllers -/

/-- A line of HBM as stored. -/
def hbmLine (s : State) (ln : Nat) : Line := BitVec.ofNat 512 (memRead s.hbm.mem (64 * ln) 64)

/-- HBM after a whole line is written: its 64 bytes, and the line is no longer marked bad. -/
def lineStored (ln : Nat) (d : Line) (h : Hbm) : Hbm :=
  { h with mem := memWrite h.mem (64 * ln) 64 d.toNat, bad := h.bad.filter fun x => x != ln }

/-- Stores a whole line into HBM. -/
def hbmStore (ln : Nat) (d : Line) (s : State) : State := { s with hbm := lineStored ln d s.hbm }

/-- A read that failed twice (R298): counted, its address kept, logged, and the step-integrity flag set. -/
def hbmReadFailed (ln : Nat) (s : State) : State :=
  let n := stackOf s ln
  let s1 := modStack s n fun k =>
    { k with fails := satInc k.fails 1, failAddr := some (ln, false), failValid := true, cause := k.cause ||| 4 }
  setStepInt 3 (logEvent 0x09 (stackSrc n) (locDetail (64 * ln) false) s1)

/-- A write whose data failed parity (R297). -/
def hbmWriteRejected (ln : Nat) (s : State) : State :=
  let n := stackOf s ln
  let s1 := modStack s n fun k => { k with failAddr := some (ln, true), failValid := true, cause := k.cause ||| 8 }
  setStepInt 2 (logEvent 0x09 (stackSrc n) (locDetail (64 * ln) true) s1)

/-- Whether the way from a home on a die to HBM is closed by a layer reset (R385). -/
def hbmPathDown (s : State) (die : Nat) : Bool := layerDown s 0 || layerDown s 1 || (die == 1 && layerDown s 2)

/-- A retry of a read, at once and urgent (R298, R304), that passes. -/
def retryPassed (n master cls : Nat) (s : State) : State :=
  modStack (regAdmit master cls true s).1 n fun k => { k with retries := satInc k.retries 1, cause := k.cause ||| 1 }

/-- A retry of a read of a line that fails too: the line reads bad until it is written again (R298; log 11). -/
def retryFailed (ln master cls : Nat) (s : State) : State :=
  let s1 := (regAdmit master cls true s).1
  hbmReadFailed ln { s1 with hbm := { s1.hbm with bad := if s1.hbm.bad.contains ln then s1.hbm.bad else ln :: s1.hbm.bad } }

/-- Reads a line from HBM on behalf of a home on `die`: 0x0A on a closed path, 0x0D in self-refresh (R301), 0x09 where the first read
and the retry both fail (R298; log 11). A freeze admits no new request (R475). -/
def hbmRead (die master cls ln : Nat) (s : State) : State × Res Line :=
  if hbmPathDown s die then (s, .err 0x0A)
  else if s.sec.freezing then (s, .wait)
  else
    let s1 := (regAdmit master cls false s).1
    let met : State := { s1 with hbm := { s1.hbm with strike := none } }
    if (getStack s (stackOf s ln)).selfRefresh then (s1, .err 0x0D)
    else if s.hbm.bad.contains ln then (retryFailed ln master cls s1, .err 0x09)
    else if s.hbm.strike = some .twice then (retryFailed ln master cls met, .err 0x09)
    else if s.hbm.strike = some .once then (retryPassed (stackOf s ln) master cls met, .ok (hbmLine s ln))
    else (s1, .ok (hbmLine s ln))

/-- Writes a line to HBM on behalf of a home on `die`: 0x09 where the data have lost their parity on the way, and nothing is
written (R297; log 11). -/
def hbmWrite (die master cls ln : Nat) (d : Line) (s : State) : State × Res Unit :=
  if hbmPathDown s die then (s, .err 0x0A)
  else if s.sec.freezing then (s, .wait)
  else
    let s1 := (regAdmit master cls false s).1
    if (getStack s (stackOf s ln)).selfRefresh then (s1, .err 0x0D)
    else if s.hbm.strike = some .parity then (hbmWriteRejected ln { s1 with hbm := { s1.hbm with strike := none } }, .err 0x09)
    else (hbmStore ln d s1, .ok ())

/-- A write-back of a slice: nobody waits for it, and one that the controller rejects for parity is over too (R297). -/
def hbmWriteBack (die master cls ln : Nat) (d : Line) (s : State) : State × Res Unit :=
  match hbmWrite die master cls ln d s with
  | (s1, .err e) => (s1, if e = 0x09 then .ok () else .err e)
  | r => r

end Sys2Proof.Machine
end

