-- ==== Sys2Proof/Machine/Comb.lean ====
section
/-! DEFINITION. The comb: homes, parity and check bytes, the directory, and what a home slice does with a read, a write, a
flush, a kill or a request for ownership (chapter 09). -/
namespace Sys2Proof.Machine

/-! ### Parity and check bytes (R238, R239) -/

/-- XOR of the 64 bytes of a line. -/
def lineXor (d : Line) : Byte := (lineBytes d).foldl (fun x b => x ^^^ b) 0

/-- The 64 odd-parity bits of a line. -/
def parOf (d : Line) : BitVec 64 :=
  BitVec.ofNat 64 (((List.range 64).map fun i => if oddParity (lineByte d i).toNat then 2 ^ i else 0).sum)

/-- A valid line as a write leaves it: good parity and check byte. -/
def mkLine (way : Nat) (d : Line) (dir : Dir) (red : Option RedTag) : CombLine :=
  { way, data := d, par := parOf d, chk := lineXor d, chkPar := oddParity (lineXor d).toNat, dir, red }

/-- Data bytes whose parity is bad. -/
def badBytes (l : CombLine) : List Nat :=
  (List.range 64).filter fun i => oddParity (lineByte l.data i).toNat != l.par.getLsbD i

/-- Whether the check byte's parity is bad. -/
def checkBad (l : CombLine) : Bool := oddParity l.chk.toNat != l.chkPar

/-- What a line read finds (R239): good, correctable with the line rewritten and the byte at fault, or uncorrectable. -/
inductive LineCheck
  | good
  | fixed (l : CombLine) (byte : Nat)
  | bad
  deriving DecidableEq, Repr

/-- The table of R239. -/
def checkLine (l : CombLine) : LineCheck :=
  let syn := lineXor l.data ^^^ l.chk
  match badBytes l, checkBad l with
  | [], false => if syn = 0 then .good else .bad
  | [i], false => .fixed { mkLine l.way (setLineByte l.data i (lineByte l.data i ^^^ syn)) l.dir l.red with own := l.own } i
  | [], true => .fixed { mkLine l.way l.data l.dir l.red with own := l.own } 64
  | _, _ => .bad

/-- The bits that have struck a line (log 11). -/
def applyUpset (l : CombLine) (u : Upset) : CombLine :=
  let x := u.flip.toNat
  if u.byte.val = 64 then
    { l with chk := l.chk ^^^ BitVec.ofNat 8 x, chkPar := l.chkPar != x.testBit 8 }
  else
    { l with data := setLineByte l.data u.byte.val (lineByte l.data u.byte.val ^^^ BitVec.ofNat 8 x)
             par := if x.testBit 8 then l.par ^^^ BitVec.ofNat 64 (2 ^ u.byte.val) else l.par }

/-! ### Homes (R23, R223, R228, R230) -/

/-- Whether a slice serves: good, not lost, and its rail group on. -/
def sliceUp (s : State) (n : Nat) : Bool :=
  let f := getFp s (sliceRegion n)
  sliceGood s n && !(getSlice s n).lost && decide ((if sliceDie n = 0 then f.comb0 else f.comb1) = .on)

/-- The slice of the same site on the other die (R230). -/
def partner (n : Nat) : Nat := (n + 1296) % 2592

/-- The home slice of an HBM-window line by the hash of R228. -/
def hashHome (s : State) (ln : Nat) : Nat :=
  let g := ln / 4
  let f := (g % 2 ^ 24) ^^^ (((g >>> 24) % 2 ^ 16) <<< 8)
  nthGood s.boot.badSlices ((f * goodSlices s) >>> 24)

/-- The set of an HBM-window line within its home (R228). -/
def hashSet (ln : Nat) : Nat := (ln % 2048) ^^^ (ln / 2048 % 2048)

/-- Where a line is served. -/
inductive Home
  /-- in the cache ways of a slice -/
  | cache (n : Nat)
  /-- through the miss registers of a slice, in no way of it (R227, R230) -/
  | uncached (n : Nat)
  /-- in a scratch way -/
  | scratch (n way : Nat)
  | none (code : Nat)
  deriving DecidableEq, Repr

/-- The layer of a slice's die (R385). -/
def dieLayer (n : Nat) : Nat := 1 + sliceDie n

/-- A slice, unless a layer reset closes the way to it (R385, R386). -/
def reach (s : State) (n : Nat) (h : Home) : Home := if layerDown s (dieLayer n) then .none 0x0A else h

/-- The home of a line (R23, R227, R228, R230). -/
def homeOf (s : State) (ln : Nat) : Home :=
  let a := 64 * ln
  if inHbm a then
    let n := hashHome s ln
    if sliceUp s n then reach s n (if s.comb.split = 16 then .uncached n else .cache n)
    else if sliceUp s (partner n) then reach s (partner n) (.uncached (partner n))
    else .none 0x0D
  else if inScratch a then
    let o := a - scratchBase
    let j := o / 0x200000
    let way := o % 0x200000 / 0x20000
    let n := nthGood s.boot.badSlices j
    if j ≥ min (goodSlices s) 2560 ∨ way ≥ s.comb.split then .none 0x01
    else if sliceUp s n then reach s n (.scratch n way) else .none 0x0D
  else .none 0x02

/-- The slice at which a line is served. -/
def homeSlice (s : State) (ln : Nat) : Option Nat :=
  match homeOf s ln with
  | .cache n => some n
  | .uncached n => some n
  | .scratch n _ => some n
  | .none _ => none

/-- A valid line held by its slice. -/
def getLine (s : State) (ln : Nat) : Option CombLine := tblGet none (s.comb.lines.map fun e => (e.1, some e.2)) ln

/-- Sets a valid line. -/
def putLine (ln : Nat) (l : CombLine) (s : State) : State :=
  { s with comb := { s.comb with lines := tblPut s.comb.lines ln l } }

/-- Clears the valid bit of a line. -/
def dropLine (ln : Nat) (s : State) : State := { s with comb := { s.comb with lines := tblDel s.comb.lines ln } }

/-- Whether a miss register of a slice holds a line (R235). -/
def lineHeld (s : State) (n ln : Nat) : Bool := (getSlice s n).miss.any fun m => m.line == ln

/-- The set a line lies in at its home. -/
def setOf (ln : Nat) : Nat := if inHbm (64 * ln) then hashSet ln else ln % 2048

/-- The storage line index of a line in its slice: way times 2,048 plus set (R219). -/
def storageLine (ln way : Nat) : Nat := way * 2048 + setOf ln

/-- Lines of a slice in the cache ways of a set, with their entries. -/
def setLines (s : State) (n set : Nat) : List (Nat × CombLine) :=
  s.comb.lines.filter fun e => inHbm (64 * e.1) && hashHome s e.1 == n && hashSet e.1 == set

/-! ### Sharers and L1 copies (R231, R232) -/

/-- Removes a line from the L1 of a core. -/
def l1Drop (c ln : Nat) (s : State) : State :=
  if (getCore s c).l1.any fun e => e.1 == ln then
    modCore s c fun k => { k with l1 := k.l1.filter fun e => e.1 != ln } else s

/-- Removes a line from the L1 of every core but one. -/
def l1DropAll (ln : Nat) (keep : Option Nat) (s : State) : State :=
  { s with cores := s.cores.map fun e =>
      if some e.1 = keep then e else (e.1, { e.2 with l1 := e.2.l1.filter fun x => x.1 != ln }) }

/-- Whether an entry records an agent as a sharer. Engines, 1,216 and above, hold no copy. -/
def isSharer (d : Dir) (agent : Nat) : Bool :=
  if agent ≥ 1216 then false
  else if d.coarse then (if agent < 1200 then d.regions.getLsbD (agent / 50) else d.hostAny) else d.ptrs.contains agent

/-- Adds a sharer: the fifth distinct one switches the entry to coarse mode (R232). Engines without a cache add none. -/
def addSharer (d : Dir) (agent : Nat) : Dir :=
  if agent ≥ 1216 then d
  else if d.coarse then
    if agent < 1200 then { d with regions := d.regions ||| BitVec.ofNat 24 (2 ^ (agent / 50)) } else { d with hostAny := true }
  else if d.ptrs.contains agent then d
  else if d.ptrs.length < 4 then { d with ptrs := d.ptrs ++ [agent] }
  else
    let all := d.ptrs ++ [agent]
    { d with coarse := true, ptrs := [], hostAny := all.any fun a => decide (a ≥ 1200)
             regions := (all.filter fun a => decide (a < 1200)).foldl (fun r a => r ||| BitVec.ofNat 24 (2 ^ (a / 50))) 0 }

/-- The entry after an invalidation that spares at most one sharer: mode 0 again (R232). -/
def keepSharer (d : Dir) (st : DirSt) (keep : Option Nat) : Dir :=
  { st, coarse := false, ptrs := match keep with | some a => if isSharer d a then [a] else [] | none => [], hostAny := false
    regions := 0 }

/-- Who must acknowledge an invalidation of all sharers but one: agents in mode 0; in coarse mode 2,000 + r for the region
controller of each set bit, and all 16 host cores when host_any is set (R232). -/
def ackers (d : Dir) (keep : Option Nat) : List Nat :=
  if d.coarse then
    ((List.range 24).filter fun r => d.regions.getLsbD r).map (fun r => 2000 + r)
      ++ (if d.hostAny then (List.range 16).map (fun h => 1200 + h) else [])
  else d.ptrs.filter fun a => some a != keep

/-- The host cores among them. The copies that cores hold are state of this model, and an engine's or a core's write takes them
away at once; a host core answers by a command of its own. -/
def hostAckers (d : Dir) (keep : Option Nat) : List Nat := (ackers d keep).filter fun a => decide (1200 ≤ a) && decide (a < 1216)

/-! ### Errors found at a slice (R241 to R244) -/

/-- Adds an entry to the learned list; a unit that has one keeps it, and takes the marks of the new one (R403). -/
def addLearned (e : Learned) (s : State) : State :=
  let same (x : Learned) : Bool := x.kind == e.kind && x.index == e.index && x.word == e.word
  let l := s.boot.learned
  let l' := if l.any same then l.map fun x => if same x then { x with suspect := x.suspect || e.suspect, bad := x.bad || e.bad } else x
    else l ++ [e]
  { s with boot := { s.boot with learned := l' } }

/-- 24 h in management cycles (R242). -/
def suspectWindow : Nat := 38880000000000

/-- A correctable error at a place of a slice: counted, entered in the suspect list, and remapped at the second within
24 h (R239, R242). The place is a storage word index, or 2^18 plus a line index for a check byte. -/
def noteCorrected (n place : Nat) (s : State) : State :=
  let isChk := decide (place ≥ 2 ^ 18)
  let now := s.mgt.time
  let s1 := modSlice s n fun x => { x with corr := satInc x.corr 1, cause := x.cause ||| 1 }
  let sl := getSlice s1 n
  let where_ := if isChk then place - 2 ^ 18 else place
  if sl.remaps.contains (isChk, where_) then s1
  else match sl.suspects.find? fun e => e.1 == place with
  | some e =>
    if now ≤ e.2 + suspectWindow then
      if sl.remaps.length < 16 then
        addLearned { kind := if isChk then 4 else 3, origin := 4, index := n, word := where_ }
          (modSlice s1 n fun x => { x with
            remaps := x.remaps ++ [(isChk, where_)], cause := x.cause ||| 4, suspects := x.suspects.filter fun y => y.1 != place })
      else
        addLearned { kind := 2, suspect := true, origin := 3, index := n }
          (modSlice s1 n fun x => { x with cause := x.cause ||| 8 })
    else modSlice s1 n fun x => { x with suspects := x.suspects.map fun y => if y.1 == place then (place, now) else y }
  | none =>
    modSlice s1 n fun x => { x with
      suspects := (if x.suspects.length < 8 then x.suspects else
        let oldest := x.suspects.foldl (fun m y => min m y.2) now
        (match x.suspects.findIdx? fun y => y.2 == oldest with
         | some i => x.suspects.eraseIdx i
         | none => x.suspects.tail)) ++ [(place, now)] }

/-- The place of byte `b` of a line for the suspect list. -/
def errorPlace (ln way b : Nat) : Nat :=
  let t := storageLine ln way
  if b = 64 then 2 ^ 18 + t else t * 8 + b / 8

/-- The first free entry of a loss log (R244, R252). -/
def freeLossSlot (l : List (Nat × Loss)) : Option Nat := (List.range 8).find? fun i => !(l.any fun e => e.1 == i)

/-- A loss of data at a slice: loss log, cause, event and step-integrity flag (R244, R495). -/
def noteLoss (n ln : Nat) (byScrub : Bool) (s : State) : State :=
  let s1 := modSlice s n fun x =>
    let y := { x with uncorr := satInc x.uncorr 1, cause := x.cause ||| 2 }
    match freeLossSlot y.loss with
    | some i => { y with loss := tblPut y.loss i { line := ln, byScrub } }
    | none => { y with lossOvf := satInc y.lossOvf 1 }
  setStepInt 1 (logEvent 0x09 (sliceSrc n) (locDetail (64 * ln) false) s1)

/-- What a checked read of a valid line finds: its data, a loss, or a line to fetch afresh. -/
inductive Checked
  | data (l : CombLine)
  | refetch
  | lost
  deriving DecidableEq, Repr

/-- Reads a valid line under R239, and follows R244 when it is uncorrectable. -/
def checkedRead (n ln : Nat) (l : CombLine) (scrub : Bool) (s : State) : State × Checked :=
  match checkLine l with
  | .good => (s, .data l)
  | .fixed l' b => (putLine ln l' (noteCorrected n (errorPlace ln l.way b) s), .data l')
  | .bad =>
    if inHbm (64 * ln) ∧ l.dir.st = .clean then
      (dropLine ln (l1DropAll ln none (modSlice s n fun x => { x with uncorr := satInc x.uncorr 1 })), .refetch)
    else if inHbm (64 * ln) ∧ l.dir.st = .hostown then
      let l' := { mkLine l.way 0 l.dir l.red with own := l.own }
      (putLine ln l' (modSlice s n fun x => { x with uncorr := satInc x.uncorr 1 }), .data l')
    else (dropLine ln (l1DropAll ln none (noteLoss n ln scrub s)), .lost)

/-! ### Misses, recalls and evictions (R233, R234, R236) -/

/-- Opens a miss register of a slice. -/
def openMiss (n : Nat) (m : Miss) (s : State) : State := modSlice s n fun x => { x with miss := x.miss ++ [m] }

/-- Frees the miss register that holds a line. -/
def closeMiss (n ln : Nat) (s : State) : State :=
  modSlice s n fun x => { x with miss := x.miss.filter fun m => m.line != ln }

/-- Changes what the register that holds a line waits for, or opens one. -/
def holdFor (n ln : Nat) (op : MissOp) (s : State) : State :=
  if lineHeld s n ln then
    modSlice s n fun x => { x with miss := x.miss.map fun m => if m.line == ln then { m with op } else m }
  else openMiss n { line := ln, op, waiters := [] } s

/-- Miss registers, or waiter places of a line, that a slice has promised to other requesters (R236). -/
def promised (sl : Slice) (ln agent master : Nat) (places : Bool) : Nat :=
  (sl.refusals.filter fun b => decide (b.count ≥ 16) && !(b.line == ln && b.agent == agent && b.master == master)
    && (if places then b.line == ln else !(sl.miss.any fun m => m.line == b.line))).length

/-- Whether a slice has one of its 64 miss registers for a requester. -/
def registerFree (sl : Slice) (ln agent master : Nat) : Bool :=
  decide (sl.miss.length + promised sl ln agent master false < 64)

/-- Whether a register has one of its 32 waiter places for a requester. -/
def placeFree (sl : Slice) (m : Miss) (agent master : Nat) : Bool :=
  decide (m.waiters.length + promised sl m.line agent master true < (if m.starter then 33 else 32))

/-- Counts a refusal, and remembers it for the back-off (R236). -/
def noteRefusal (n ln agent master : Nat) (req : Option Req) (s : State) : State :=
  modSlice s n fun x =>
    let mine (b : Backoff) : Bool := b.line == ln && b.agent == agent && b.master == master
    { x with
      refuse := satInc x.refuse 1
      refusals := if x.refusals.any mine then
          x.refusals.map fun b => if mine b then { b with req, count := b.count + 1 } else b
        else x.refusals ++ [{ agent, master, line := ln, count := 1, req }] }

/-- Forgets a requester's refusals for a line. -/
def forgetRefusals (n ln agent master : Nat) (s : State) : State :=
  let mine (b : Backoff) : Bool := b.line == ln && b.agent == agent && b.master == master
  if (getSlice s n).refusals.any mine then
    modSlice s n fun x => { x with refusals := x.refusals.filter fun b => !(mine b) }
  else s

/-- Starts the recall of a line from its host owner (R233). -/
def startRecall (n ln owner : Nat) (keeps : Bool) (s : State) : State :=
  openMiss n { line := ln, op := .recall owner keeps, waiters := [] } s

/-- Starts a round that invalidates the copies of host cores (R233). -/
def startRound (n ln : Nat) (hosts : List Nat) (keep : Option Nat) (s : State) : State :=
  openMiss n { line := ln, op := .invalidate hosts keep, waiters := [] } s

/-- Removes a line from its way: sharers invalidated, written back when newer than HBM (R233, R261). A line that a host core holds
starts a recall or a round, and waits. Answers whether its data were lost (R244). -/
def evictLine (n master cls ln : Nat) (s : State) : State × Res Bool :=
  match getLine s ln with
  | none => (s, .ok false)
  | some l =>
    if l.dir.st = .hostown ∨ hostAckers l.dir none ≠ [] then
      if lineHeld s n ln || !(registerFree (getSlice s n) ln 1216 1204) then (s, .wait)
      else if l.dir.st = .hostown then (startRecall n ln (l.dir.ptrs.headD 0) false s, .wait)
      else (startRound n ln (hostAckers l.dir none) none s, .wait)
    else if l.dir.st = .clean then (dropLine ln (l1DropAll ln none s), .ok false)
    else match checkedRead n ln l false s with
      | (s1, .data l') =>
        match hbmWriteBack (sliceDie n) master cls ln l'.data s1 with
        | (s2, .ok _) => (dropLine ln (l1DropAll ln none s2), .ok false)
        | (s2, .err e) => (s2, .err e)
        | (s2, .wait) => (s2, .wait)
      | (s1, _) => (s1, .ok true)

/-- The way a fill takes (R234): the highest free cache way; else a victim among the lines that are neither in REDUCE nor
held, chosen freely (log 9), is evicted; else the fill waits. -/
def takeWay (n master cls ln : Nat) (s : State) : State × Res Nat :=
  let inSet := setLines s n (hashSet ln)
  let ways := (List.range 16).reverse.filter fun w => decide (w ≥ s.comb.split)
  match ways.find? fun w => !(inSet.any fun e => e.2.way == w) with
  | some w => (s, .ok w)
  | none =>
    let cands := inSet.filter fun e => decide (e.2.dir.st ≠ .reduce) && !(lineHeld s n e.1)
    match cands[Config.victimPick s.free % cands.length]? with
    | none => (s, .wait)
    | some v =>
      match evictLine n master cls v.1 (takeFree s) with
      | (s1, .ok _) => (s1, .ok v.2.way)
      | (s1, .err e) => (s1, .err e)
      | (s1, .wait) => (s1, .wait)

/-- Fetches an absent line into a way of its home (R233, R237). Data that find no eligible way wait in a miss register (R234). -/
def fetchLine (n master cls ln : Nat) (dir : Dir) (s : State) : State × Res CombLine :=
  match hbmRead (sliceDie n) master cls ln s with
  | (s1, .err e) => (s1, .err e)
  | (s1, .wait) => (s1, .wait)
  | (s1, .ok d) =>
    match takeWay n master cls ln s1 with
    | (s2, .ok w) => let l := mkLine w d dir none
                     (putLine ln l s2, .ok l)
    | (s2, .err e) => (s2, .err e)
    | (s2, .wait) => (holdFor n ln (.fill d) s2, .wait)

/-- The present line of a cache home, fetched when absent and fetched afresh when a CLEAN copy is uncorrectable; a line
another host owns is recalled first, and `keeps` leaves it a shared copy. `agent` is the requester. -/
def presentLine (n agent master cls ln : Nat) (keeps : Bool) (s : State) : State × Res CombLine :=
  if lineHeld s n ln then (s, .wait)
  else match getLine s ln with
  | none => fetchLine n master cls ln { st := .clean } s
  | some l =>
    if l.dir.st = .hostown ∧ l.dir.ptrs ≠ [agent] then (startRecall n ln (l.dir.ptrs.headD 0) keeps s, .wait)
    else match checkedRead n ln l false s with
      | (s1, .data l') => (s1, .ok l')
      | (s1, .lost) => (s1, .err 0x09)
      | (s1, .refetch) => fetchLine n master cls ln { st := .clean } s1

/-! ### Operations at a home -/

/-- Replaces the bytes of a line that a write names: each takes its parity, and the check byte takes the old bytes xor the new
(R238). What was bad outside those bytes stays so. -/
def writeInto (l : CombLine) (mask : BitVec 64) (d : Line) (dir : Dir) : CombLine :=
  let delta := lineXor (maskLine 0 (l.data ^^^ d) mask)
  { way := l.way, data := maskLine l.data d mask, par := (l.par &&& ~~~mask) ||| (parOf d &&& mask)
    chk := l.chk ^^^ delta, chkPar := l.chkPar == oddParity delta.toNat, dir, red := none }

/-- The scratch line of an absent entry: every byte reads zero (R240). -/
def zeroLine (way : Nat) : CombLine := mkLine way 0 {} none

/-- A whole-line read (R221, R233, R260). Scratch lines and lines in REDUCE add no sharer. -/
def homeRead (agent master cls ln : Nat) (s : State) : State × Res Line :=
  match homeOf s ln with
  | .none e => (s, .err e)
  | .scratch n _ =>
    if lineHeld s n ln then (s, .wait)
    else match getLine s ln with
    | none => (s, .ok 0)
    | some l => match checkedRead n ln l false s with
      | (s1, .data l') => (s1, .ok l'.data)
      | (s1, .lost) => (s1, .err 0x09)
      | (s1, .refetch) => (s1, .err 0x09)
  | .uncached n => if lineHeld s n ln then (s, .wait) else hbmRead (sliceDie n) master cls ln s
  | .cache n =>
    match presentLine n agent master cls ln true s with
    | (s1, .ok l) =>
      if l.dir.st = .reduce then (s1, .ok l.data)
      else (putLine ln { l with dir := addSharer l.dir agent } s1, .ok l.data)
    | (s1, .err e) => (s1, .err e)
    | (s1, .wait) => (s1, .wait)

/-- Whether a line is in EXACT. -/
def inExact (l : CombLine) : Bool := match l.red with | some t => t.exact | none => false

/-- Returns the lines of an exact group to PLAIN when a plain write has landed in one of the four (R264). -/
def groupToPlain (ln : Nat) (s : State) : State :=
  let mine (e : Nat × CombLine) : Bool := decide (e.1 / 4 = ln / 4) && inExact e.2
  if s.comb.lines.any mine then
    { s with comb := { s.comb with lines := s.comb.lines.map fun e => if mine e then (e.1, { e.2 with red := none }) else e } }
  else s

/-- What a write finds under it. -/
inductive Under
  | line (l : CombLine)
  /-- a CLEAN line that is uncorrectable: invalidated and fetched afresh, no data lost (R244) -/
  | refetch
  /-- data lost: the write is applied to a zero-filled line and its requester receives 0x09 (R239, R244) -/
  | lost (l : CombLine)
  deriving DecidableEq, Repr

/-- The line a write finds under it: rebuilt first when an old byte fails parity (R239). -/
def lineForWrite (n ln : Nat) (l : CombLine) (mask : BitVec 64) (s : State) : State × Under :=
  if (badBytes l).any fun i => mask.getLsbD i then
    match checkedRead n ln l false s with
    | (s1, .data l') => (s1, .line l')
    | (s1, .refetch) => (s1, .refetch)
    | (s1, .lost) => (s1, .lost (mkLine l.way 0 { st := .dirty } none))
  else (s, .line l)

/-- Whether a mask names every byte of a line. -/
def fullMask (mask : BitVec 64) : Bool := mask == BitVec.allOnes 64

/-- A write of the bytes that `mask` names (R233, R238, R261). A core keeps its copy, updated. -/
def homeWrite (agent master cls ln : Nat) (mask : BitVec 64) (d : Line) (s : State) : State × Res Unit :=
  match homeOf s ln with
  | .none e => (s, .err e)
  | .scratch n way =>
    if lineHeld s n ln then (s, .wait)
    else
      let l0 := (getLine s ln).getD (zeroLine way)
      match lineForWrite n ln l0 mask s with
      | (s1, .line l) => (groupToPlain ln (putLine ln (writeInto l mask d {}) s1), .ok ())
      | (s1, .lost l) => (groupToPlain ln (putLine ln (writeInto l mask d {}) s1), .err 0x09)
      | (s1, .refetch) => (s1, .err 0x09)
  | .uncached n =>
    if lineHeld s n ln then (s, .wait)
    else if fullMask mask then hbmWrite (sliceDie n) master cls ln d s
    else match hbmRead (sliceDie n) master cls ln s with
      | (s1, .ok old) => hbmWrite (sliceDie n) master cls ln (maskLine old d mask) s1
      | (s1, .err e) => (s1, .err e)
      | (s1, .wait) => (s1, .wait)
  | .cache n =>
    if lineHeld s n ln then (s, .wait)
    else match getLine s ln with
    | none =>
      if fullMask mask then
        match takeWay n master cls ln s with
        | (s1, .ok w) => (putLine ln (mkLine w d { st := .dirty } none) s1, .ok ())
        | (s1, .err e) => (s1, .err e)
        | (s1, .wait) => (s1, .wait)
      else match fetchLine n master cls ln { st := .clean } s with
        | (s1, .ok l) => (putLine ln (writeInto l mask d { st := .dirty }) s1, .ok ())
        | (s1, .err e) => (s1, .err e)
        | (s1, .wait) => (s1, .wait)
    | some l0 =>
      if l0.dir.st = .hostown ∧ l0.dir.ptrs ≠ [agent] then (startRecall n ln (l0.dir.ptrs.headD 0) false s, .wait)
      else if hostAckers l0.dir (some agent) ≠ [] then (startRound n ln (hostAckers l0.dir (some agent)) (some agent) s, .wait)
      else
        match lineForWrite n ln l0 mask s with
        | (s1, .line l) =>
          let dir := if l.dir.st = .reduce then { st := .dirty } else keepSharer l.dir .dirty (some agent)
          (putLine ln (writeInto l mask d dir) (l1DropAll ln (some agent) s1), .ok ())
        | (s1, .lost l) => (putLine ln (writeInto l mask d { st := .dirty }) s1, .err 0x09)
        | (s1, .refetch) =>
          match fetchLine n master cls ln { st := .clean } s1 with
          | (s2, .ok l) => (putLine ln (writeInto l mask d { st := .dirty }) s2, .ok ())
          | (s2, .err e) => (s2, .err e)
          | (s2, .wait) => (s2, .wait)

/-- A host core's request for ownership (R233, R261). No cache holds a scratch line, and the LR/SC that asks for one ends as an access
fault of the host core (R226, R362); the error response is the permission code (log 18). -/
def homeOwn (agent master cls ln : Nat) (s : State) : State × Res Line :=
  match homeOf s ln with
  | .none e => (s, .err e)
  | .cache n =>
    match presentLine n agent master cls ln false s with
    | (s1, .ok l) =>
      if hostAckers l.dir (some agent) ≠ [] then (startRound n ln (hostAckers l.dir (some agent)) (some agent) s1, .wait)
      else
        (putLine ln { mkLine l.way l.data { st := .hostown, ptrs := [agent] } none with own := l.data } (l1DropAll ln none s1),
          .ok l.data)
    | (s1, .err e) => (s1, .err e)
    | (s1, .wait) => (s1, .wait)
  | .scratch _ _ => (s, .err 0x02)
  | .uncached _ => homeRead agent master cls ln s

/-- FLUSH of one line (R233, R261): scratch lines are unchanged; a line a host owns is recalled first. -/
def homeFlush (invalidate : Bool) (master cls ln : Nat) (s : State) : State × Res Unit :=
  match homeOf s ln with
  | .none e => (s, .err e)
  | .scratch _ _ => (s, .ok ())
  | .uncached _ => (s, .ok ())
  | .cache n =>
    if lineHeld s n ln then (s, .wait)
    else match getLine s ln with
    | none => (s, .ok ())
    | some l =>
      if l.dir.st = .hostown then (startRecall n ln (l.dir.ptrs.headD 0) (!invalidate) s, .wait)
      else if invalidate then
        match evictLine n master cls ln s with
        | (s1, .ok lost) => (s1, if lost then .err 0x09 else .ok ())
        | (s1, .err e) => (s1, .err e)
        | (s1, .wait) => (s1, .wait)
      else if l.dir.st = .clean then (s, .ok ())
      else match checkedRead n ln l false s with
        | (s1, .data l') =>
          match hbmWriteBack (sliceDie n) master cls ln l'.data s1 with
          | (s2, .ok _) =>
            (putLine ln (if l'.dir.st = .reduce then mkLine l'.way l'.data { st := .clean } none
              else { l' with dir := { l'.dir with st := .clean } }) s2, .ok ())
          | (s2, .err e) => (s2, .err e)
          | (s2, .wait) => (s2, .wait)
        | (s1, _) => (s1, .err 0x09)

/-- KILL of one line: dropped without write-back, sharers and an owner invalidated with their data discarded (R233, R247). -/
def homeKill (ln : Nat) (s : State) : State × Res Unit :=
  match homeOf s ln with
  | .none e => (s, .err e)
  | .uncached n => if lineHeld s n ln then (s, .wait) else (s, .ok ())
  | .scratch n _ => if lineHeld s n ln then (s, .wait) else (dropLine ln s, .ok ())
  | .cache n =>
    if lineHeld s n ln then (s, .wait)
    else match (match getLine s ln with
        | some l => if l.dir.st = .hostown then l.dir.ptrs else hostAckers l.dir none
        | none => []) with
      | [] => (dropLine ln (l1DropAll ln none s), .ok ())
      | hosts => (startRound n ln hosts none s, .wait)

end Sys2Proof.Machine
end

