-- ==== Sys2Proof/Machine/Reduce.lean ====
section
/-! DEFINITION. Reduce contributions, exact groups and atomic requests at a home slice (R178 to R181, R255 to R265), and the
waiting of requests in miss registers (R236). -/
namespace Sys2Proof.Machine

/-- Sum of two decoded values, rounded once with RNE into a format, NaNs canonical (R257, R180). -/
def addIn (f : Fmt) (x y : FV) : Nat :=
  let inf (n : Bool) : Nat := (f.infBits.getD f.maxBits) + f.signBit n
  match x, y with
  | .nan, _ => f.nanBits
  | _, .nan => f.nanBits
  | .inf n, .inf m => if n = m then inf n else f.nanBits
  | .inf n, _ => inf n
  | _, .inf m => inf m
  | .fin n s e, .fin m t g =>
    let r := exactAdd n s e m t g
    if r.1 = 0 then f.signBit (n && m)
    else (f.roundRat .rne false false 0 (decide (r.1 < 0)) r.1.natAbs 1 r.2).bits

/-- The source format of a tag's fmt code (R255). -/
def redSrc (fmt : Nat) : Fmt := if fmt = 1 then .bf16 else if fmt = 2 then .fp16 else .fp32
/-- The held format outside exact mode (R256). -/
def redHeld (fmt : Nat) : Fmt := if fmt = 1 then .bf16 else .fp32
/-- The slot of an element in its destination (R256). -/
def slotBytes (exact : Bool) (fmt : Nat) : Nat := if exact then 16 else if fmt = 1 then 2 else 4
/-- The size of a contribution element at its source (R206). -/
def elemBytes (fmt : Nat) : Nat := if fmt = 0 then 4 else 2

/-- Widens an encoding to FP32 exactly; NaNs become canonical (R55). -/
def widen (f : Fmt) (bits : Nat) : Nat := (Fmt.fp32.convert .rne false false 0 (f.decode bits).toX).bits

/-- One contribution outside exact mode: the new held element (R257). -/
def combine (op fmt held x : Nat) : Nat :=
  if op = 0 then addIn (redHeld fmt) ((redHeld fmt).decode held) ((redSrc fmt).decode x)
  else
    let o := fpMinMax (op = 2) false false (widen (redHeld fmt) held) (widen (redSrc fmt) x)
    if fmt = 1 then o.bits >>> 16 else o.bits

/-- Applies contributions to a line's elements. -/
def combineLine (op fmt : Nat) (d : Line) (elems : List (Nat × Word32)) : Line :=
  let sz := slotBytes false fmt
  elems.foldl (fun d e => setLineBytes d (e.1 * sz) sz (combine op fmt (getLineBytes d (e.1 * sz) sz) e.2.toNat)) d

/-- Adds a requester to the waiters of a line's miss register (R236). -/
def addWaiter (n ln : Nat) (q : Req) (s : State) : State :=
  modSlice s n fun x => { x with miss := x.miss.map fun y => if y.line == ln then { y with waiters := y.waiters ++ [q] } else y }

/-- A request that finds its line held takes a waiter place, or is refused. -/
def joinWaiter (n ln : Nat) (q : Req) (m : Miss) (s : State) : State × Bool :=
  if placeFree (getSlice s n) m q.agent q.master then (addWaiter n ln q (forgetRefusals n ln q.agent q.master s), true)
  else (noteRefusal n ln q.agent q.master (some q) s, false)

/-- Cache ways of a line's set that are in REDUCE (R262). -/
def reduceWays (s : State) (n ln : Nat) : Nat :=
  ((setLines s n (hashSet ln)).filter fun e => decide (e.2.dir.st = .reduce)).length

/-- Refuses a contribution whose tag differs (R259). -/
def refuseContribution (n : Nat) (s : State) : State :=
  modSlice s n fun x => { x with redCause := x.redCause ||| 2 }

/-- A contribution outside exact mode at its home (R257 to R262). A wait for a reduce way counts once in SLC_RED_WAIT. -/
def homeContrib (agent master cls ln : Nat) (t : RedTag) (elems : List (Nat × Word32)) (s : State) : State × Res Unit :=
  let a := 64 * ln
  let apply (l : CombLine) (dir : Dir) (s : State) : State :=
    putLine ln (mkLine l.way (combineLine t.op.toNat t.fmt.toNat l.data elems) dir (some t)) s
  if inHbm a ∧ !(sliceUp s (hashHome s ln)) then (s, .err 0x0D)
  else if inHbm a ∧ s.comb.split ≥ 15 then (s, .err 0x2A)
  else match homeOf s ln with
  | .none e => (s, .err e)
  | .uncached _ => (s, .err 0x2A)
  | .scratch n way =>
    if lineHeld s n ln then (s, .wait)
    else match getLine s ln with
    | none => (apply (zeroLine way) {} s, .ok ())
    | some l0 =>
      match checkedRead n ln l0 false s with
      | (s1, .data l) =>
        if l.red = none ∨ l.red = some t then (apply l {} s1, .ok ()) else (refuseContribution n s1, .err 0x2B)
      | (s1, _) => (s1, .err 0x09)
  | .cache n =>
    let room := decide (reduceWays s n ln < (16 - s.comb.split) / 2)
    let inReduce := match getLine s ln with | some l => decide (l.dir.st = .reduce) | none => false
    if lineHeld s n ln then (s, .wait)
    else if !inReduce && !room then
      (openMiss n { line := ln, op := .wayWait, waiters := [] } (modSlice s n fun x => { x with redWait := satInc x.redWait 1 }), .wait)
    else match presentLine n agent master cls ln false s with
    | (s1, .ok l) =>
      if l.dir.st = .reduce then
        (if l.red = some t then (apply l l.dir s1, .ok ()) else (refuseContribution n s1, .err 0x2B))
      else if hostAckers l.dir none ≠ [] then (startRound n ln (hostAckers l.dir none) none s1, .wait)
      else (apply l { st := .reduce } (l1DropAll ln none s1), .ok ())
    | (s1, .err e) => (s1, .err e)
    | (s1, .wait) => (s1, .wait)

/-! ### Exact groups (R263 to R265) -/

/-- Accumulator `i` of an exact group, from its four lines. -/
def accOf (d : Line) (i : Nat) : Int := toSigned 128 (getLineBytes d (16 * (i % 4)) 16)

/-- A saturation at a slice (R265). -/
def noteSaturation (n addr : Nat) (s : State) : State :=
  let first := !(getSlice s n).redCause.getLsbD 0
  let s1 := modSlice s n fun x =>
    { x with satCount := satInc x.satCount 1, redCause := x.redCause ||| 1, satAddr := if first then some addr else x.satAddr }
  if first then logEvent 0x12 (sliceSrc n) n s1 else s1

/-- Applies one exact contribution to accumulator `i` of the group that starts at line `g` (R69). -/
def exactElem (n g : Nat) (e : Int) (src : Fmt) (s : State) (x : Nat × Word32) : State :=
  let ln := g + x.1 / 4
  match getLine s ln with
  | none => s
  | some l =>
    let r := exApply e (accOf l.data x.1) (src.decode x.2.toNat)
    let l' := mkLine l.way (setLineBytes l.data (16 * (x.1 % 4)) 16 (ofSigned 128 r.1)) l.dir l.red
    let s1 := putLine ln l' s
    if r.2 then noteSaturation n (64 * ln + 16 * (x.1 % 4)) s1 else s1

/-- An exact contribution to the group of line `g`, a multiple of four (R263, R264). -/
def homeExact (g : Nat) (fmt : Nat) (eBits : BitVec 9) (elems : List (Nat × Word32)) (s : State) : State × Res Unit :=
  if inHbm (64 * g) then (s, .err 0x2C)
  else match homeOf s g with
  | .scratch n way =>
    let t : RedTag := { exact := true, op := 0, fmt := BitVec.ofNat 2 fmt, e := eBits }
    let idx := [g, g + 1, g + 2, g + 3]
    if idx.any fun ln => lineHeld s n ln then (s, .wait)
    else
      -- each valid line is read under R239 before it is judged
      let (s1, lost) := idx.foldl (fun (a : State × Bool) ln =>
        match getLine a.1 ln with
        | none => a
        | some l => match checkedRead n ln l false a.1 with
          | (s', .data _) => (s', a.2)
          | (s', _) => (s', true)) (s, false)
      if lost then (s1, .err 0x09)
      else if idx.any fun ln => (match getLine s1 ln with | some l => decide (l.red ≠ none ∧ l.red ≠ some t) | none => false) then
        (refuseContribution n s1, .err 0x2B)
      else
        let s2 := idx.foldl (fun s ln => match getLine s ln with
          | some l => if l.red = some t then s else putLine ln (mkLine l.way 0 {} (some t)) s
          | none => putLine ln (mkLine way 0 {} (some t)) s) s1
        (elems.foldl (exactElem n g (toSigned 9 eBits.toNat) (redSrc fmt)) s2, .ok ())
  | .none e => (s, .err e)
  | _ => (s, .err 0x2C)

/-! ### Atomic requests (R178 to R181) -/

/-- The new value of an integer atomic, at `w` bytes; CAS is decided by its caller. -/
def atomInt (op w old x : Nat) : Nat :=
  let m := 2 ^ (8 * w)
  let sg (v : Nat) : Int := toSigned (8 * w) v
  match op with
  | 0 => (old + x) % m
  | 1 => if sg old ≤ sg x then old else x
  | 2 => if sg old ≥ sg x then old else x
  | 3 => if old ≤ x then old else x
  | 4 => if old ≥ x then old else x
  | 5 => old &&& x
  | 6 => old ||| x
  | 7 => old ^^^ x
  | _ => x

/-- Applies the lanes of one request in order: the line's data and each lane's old value (R179, R181). -/
def atomLanes (op w : Nat) : Line → List AtomLane → Line × List Word64
  | d, [] => (d, [])
  | d, l :: r =>
    let old := getLineBytes d l.off w
    let x := l.val.toNat % 2 ^ (8 * w)
    let new := if op = 9 then (if old = l.cmp.toNat % 2 ^ (8 * w) then x else old) else atomInt op w old x
    let q := atomLanes op w (setLineBytes d l.off w new) r
    (q.1, BitVec.ofNat 64 old :: q.2)

/-- FP add of the lanes that share an address (R180): `pre` holds the prefix sum at each address met so far. -/
def atomFp (f : Fmt) (w : Nat) (orig : Line) : List AtomLane → List (Nat × Nat) → Line → Line × List Word64
  | [], _, d => (d, [])
  | l :: r, pre, d =>
    let old := f.decode (getLineBytes orig l.off w)
    let x := f.decode (l.val.toNat % 2 ^ (8 * w))
    let (before, p) : Nat × Nat := match pre.find? fun e => e.1 == l.off with
      | some e => (addIn f old (Fmt.fp32.decode e.2), addIn .fp32 (Fmt.fp32.decode e.2) x)
      | none => (getLineBytes orig l.off w, widen f (l.val.toNat % 2 ^ (8 * w)))
    let q := atomFp f w orig r ((l.off, p) :: pre.filter fun e => e.1 != l.off) (setLineBytes d l.off w (addIn f old (Fmt.fp32.decode p)))
    (q.1, BitVec.ofNat 64 before :: q.2)

/-- One request: the line's new data and the old values returned. -/
def atomApply (op w : Nat) (d : Line) (lanes : List AtomLane) : Line × List Word64 :=
  if op = 10 then atomFp .fp32 4 d lanes [] d
  else if op = 11 then atomFp .bf16 2 d lanes [] d
  else atomLanes op w d lanes

/-- An atomic request at its home: a core write that returns the old values (R178, R227, R233). A line that a host owns is
recalled, the owner's copy included, before it is read. -/
def homeAtomic (agent master cls ln op w : Nat) (lanes : List AtomLane) (s : State) : State × Res (List Word64) :=
  let owner : Option (Nat × Nat) := match homeOf s ln, getLine s ln with
    | .cache n, some l => if l.dir.st = .hostown ∧ l.dir.ptrs ≠ [agent] ∧ lineHeld s n ln = false then some (n, l.dir.ptrs.headD 0) else none
    | _, _ => none
  match owner with
  | some (n, o) => (startRecall n ln o false s, .wait)
  | none =>
    match homeRead 1216 master cls ln s with
    | (s1, .ok d) =>
      let r := atomApply op w d lanes
      match homeWrite agent master cls ln (BitVec.allOnes 64) r.1 s1 with
      | (s2, .ok _) => (s2, .ok r.2)
      | (s2, .err e) => (s2, .err e)
      | (s2, .wait) => (s2, .wait)
    | (s1, .err e) => (s1, .err e)
    | (s1, .wait) => (s1, .wait)

/-! ### Requests and waiters (R233 to R236) -/

/-- What must hold a request's line in a miss register before it can be served: a fetch, a recall, or an invalidation round
with those who must acknowledge (R233, R235). -/
def missFor (s : State) (ln : Nat) (q : Req) : Option MissOp :=
  match homeOf s ln with
  | .uncached _ => match q.op with
    | .flush _ => none
    | .kill => none
    | _ => some .fetch
  | .cache _ =>
    match getLine s ln, q.op with
    | none, .flush _ => none
    | none, .kill => none
    | none, .write m _ => if fullMask m then none else some .fetch
    | none, _ => some .fetch
    | some l, op =>
      let round (keep : Option Nat) : Option MissOp :=
        match ackers l.dir keep with | [] => none | a => some (.invalidate a keep)
      if l.dir.st = .hostown ∧ l.dir.ptrs ≠ [q.agent] then
        (if op = .kill then some (.invalidate l.dir.ptrs none)
         else some (.recall (l.dir.ptrs.headD 0) (decide (op = .read ∨ op = .flush false))))
      else if l.dir.st = .hostown then none
      else match op with
      | .read => none
      | .flush false => none
      | .write _ _ => round (some q.agent)
      | .atomic _ _ _ => round (some q.agent)
      | .own => round (some q.agent)
      | .contrib _ _ => if l.dir.st = .reduce then none else round none
      | .flush true => round none
      | .kill => round none
      | .again => none
  | _ => none

/-- Puts a request that must wait into the register that holds its line: the first of a register's waiters has started it. A
request for which nothing holds the line waits there for a way (R234). -/
def standIn (n ln : Nat) (q : Req) (s : State) : State :=
  match (getSlice s n).miss.find? fun m => m.line == ln with
  | none => openMiss n { line := ln, op := .place, waiters := [q], starter := true } s
  | some m =>
    if m.waiters.isEmpty && !m.starter then
      modSlice s n fun x => { x with miss := x.miss.map fun y => if y.line == ln then { y with waiters := [q], starter := true } else y }
    else addWaiter n ln q s

/-- Serves one request at its home and answers its requester; a request that must wait stands in the line's miss register. -/
def serveReq (n ln : Nat) (q : Req) (s : State) : State :=
  let unit (r : State × Res Unit) : State := match r with
    | (s1, .ok _) => answer s1 (.ack q.agent ln)
    | (s1, .err e) => answer s1 (.fail q.agent ln e)
    | (s1, .wait) => standIn n ln q s1
  let data (r : State × Res Line) : State := match r with
    | (s1, .ok d) => answer s1 (.line q.agent ln d)
    | (s1, .err e) => answer s1 (.fail q.agent ln e)
    | (s1, .wait) => standIn n ln q s1
  match q.op with
  | .read => data (homeRead q.agent q.master q.cls ln s)
  | .write m d => unit (homeWrite q.agent q.master q.cls ln m d s)
  | .own => data (homeOwn q.agent q.master q.cls ln s)
  | .contrib t el =>
    unit (if t.exact then homeExact (ln / 4 * 4) t.fmt.toNat t.e el s else homeContrib q.agent q.master q.cls ln t el s)
  | .flush inv => unit (homeFlush inv q.master q.cls ln s)
  | .kill => unit (homeKill ln s)
  | .atomic op w lanes =>
    match homeAtomic q.agent q.master q.cls ln op.toNat w lanes s with
    | (s1, .ok olds) => answer s1 (.olds q.agent ln olds)
    | (s1, .err e) => answer s1 (.fail q.agent ln e)
    | (s1, .wait) => standIn n ln q s1
  | .again => s

/-- Serves the waiters of a register that has ended, in arrival order (R236). Once one of them must hold the line again, the rest
wait behind it; an access that will be sent again gives up its place. -/
def serveWaiters (n ln : Nat) : List Req → State → State
  | [], s => s
  | q :: r, s =>
    if lineHeld s n ln then modSlice s n fun x =>
      { x with miss := x.miss.map fun y => if y.line == ln then { y with waiters := y.waiters ++ (q :: r) } else y }
    else
      let op := match homeOf s ln with
        | .cache _ => missFor s ln q
        | _ => none
      match op with
      | some op => serveWaiters n ln r (openMiss n { line := ln, op, waiters := [q], starter := true } s)
      | none => serveWaiters n ln r (serveReq n ln q s)

/-- Ends the operation that held a line and serves its waiters. -/
def endMiss (n ln : Nat) (s : State) : State :=
  match (getSlice s n).miss.find? fun m => m.line == ln with
  | none => s
  | some m => serveWaiters n ln m.waiters (closeMiss n ln s)

/-- Passes an error to every waiter of a register and frees it (R237). -/
def failMiss (n ln code : Nat) (m : Miss) (s : State) : State :=
  m.waiters.foldl (fun s q => if q.op = .again then s else answer s (.fail q.agent ln code)) (closeMiss n ln s)

/-- Takes a register up again that waits at its slice: a contribution whose set has room for a further way in REDUCE (R262), a
fill or a request that waits for an eligible way (R234). -/
def settleMiss (n : Nat) (s : State) (m : Miss) : State :=
  let q := m.waiters.headD { agent := 1216, master := 1204, cls := 0, op := .again }
  match m.op with
  | .wayWait => if reduceWays s n m.line < (16 - s.comb.split) / 2 then endMiss n m.line s else s
  | .fill d =>
    match takeWay n q.master q.cls m.line s with
    | (s1, .ok w) => endMiss n m.line (putLine m.line (mkLine w d { st := .clean } none) s1)
    | (s1, .err e) => failMiss n m.line e m s1
    | (s1, .wait) => s1
  | .place =>
    match homeOf s m.line with
    | .cache _ =>
      match takeWay n q.master q.cls m.line s with
      | (s1, .ok _) => endMiss n m.line s1
      | (s1, .err e) => failMiss n m.line e m s1
      | (s1, .wait) => s1
    | _ => endMiss n m.line s
  | _ => s

/-- Takes up again the registers of a slice that wait there. -/
def settleWays (n : Nat) (s : State) : State := (getSlice s n).miss.foldl (settleMiss n) s

/-! ### Accesses of the cores and the engines -/

/-- What an access of a core or an engine leaves that must wait: a place among its line's waiters, or a refusal (R236). It is
sent again. -/
def standBy (n ln agent master : Nat) (s : State) : State :=
  let q : Req := { agent, master, cls := 0, op := .again }
  match (getSlice s n).miss.find? fun m => m.line == ln with
  | some m => if m.waiters.contains q then s else (joinWaiter n ln q m s).1
  | none => if registerFree (getSlice s n) ln agent master then s else noteRefusal n ln agent master none s

/-- Whether a reset has abandoned an access to one of these lines; the requester learns of it now (R386). -/
def takeAbandoned (agent master : Nat) (lns : List Nat) (s : State) : Option State :=
  match s.comb.abandoned.find? fun a => a.1 == agent && a.2.1 == master && lns.contains a.2.2 with
  | some a => some { s with comb := { s.comb with abandoned := s.comb.abandoned.filter fun x => x != a } }
  | none => none

/-- One access of a core or an engine at the home of its line: refused when it needs a miss register and finds none, held up
while another operation holds the line (R235, R236). What waits at the slice goes on after it. -/
def access {α : Type} (q : Req) (ln : Nat) (f : State → State × Res α) (s : State) : State × Res α :=
  match takeAbandoned q.agent q.master [ln] s, homeSlice s ln with
  | some s1, _ => (s1, .err 0x0B)
  | none, none => f s
  | none, some n =>
    if lineHeld s n ln then (standBy n ln q.agent q.master s, .wait)
    else if (missFor s ln q).isSome && !(registerFree (getSlice s n) ln q.agent q.master) then
      (noteRefusal n ln q.agent q.master none s, .wait)
    else match f (forgetRefusals n ln q.agent q.master s) with
      | (s1, .wait) => (standBy n ln q.agent q.master s1, .wait)
      | (s1, .ok a) => (if q.op = .read then s1 else settleWays n s1, .ok a)
      | (s1, .err e) => (s1, .err e)

/-- A whole-line read of a core or an engine. -/
def readAt (agent master cls ln : Nat) (s : State) : State × Res Line :=
  access { agent, master, cls, op := .read } ln (homeRead agent master cls ln) s

/-- A write of a core or an engine. -/
def writeAt (agent master cls ln : Nat) (mask : BitVec 64) (d : Line) (s : State) : State × Res Unit :=
  access { agent, master, cls, op := .write mask d } ln (homeWrite agent master cls ln mask d) s

/-- A KILL of one line by a core or an engine. -/
def killAt (master ln : Nat) (s : State) : State × Res Unit :=
  access { agent := 1216, master, cls := 0, op := .kill } ln (homeKill ln) s

/-- A FLUSH of one line by a core or an engine. -/
def flushAt (invalidate : Bool) (master cls ln : Nat) (s : State) : State × Res Unit :=
  access { agent := 1216, master, cls, op := .flush invalidate } ln (homeFlush invalidate master cls ln) s

/-- An atomic request of a core. -/
def atomicAt (agent master cls ln op w : Nat) (lanes : List AtomLane) (s : State) : State × Res (List Word64) :=
  access { agent, master, cls, op := .atomic (BitVec.ofNat 6 op) w lanes } ln (homeAtomic agent master cls ln op w lanes) s

/-- A contribution that an engine sends to a line, or to the exact group that starts at a line. One that must wait is sent again, so
that its instruction learns of a later refusal or failure (R259, R267). -/
def sendContrib (master cls ln : Nat) (t : RedTag) (elems : List (Nat × Word32)) (s : State) : State × Res Unit :=
  let q : Req := { agent := 1216, master, cls, op := .contrib t elems }
  if t.exact then
    match takeAbandoned 1216 master [ln, ln + 1, ln + 2, ln + 3] s, homeSlice s ln with
    | some s1, _ => (s1, .err 0x0B)
    | none, some n =>
      match [ln, ln + 1, ln + 2, ln + 3].find? fun x => lineHeld s n x with
      | some key => (standBy n key 1216 master s, .wait)
      | none => access q ln (homeExact ln t.fmt.toNat t.e elems) s
    | none, none => homeExact ln t.fmt.toNat t.e elems s
  else access q ln (homeContrib 1216 master cls ln t elems) s

/-- Readies one line for an access that moves several at once, so that it need not stop half done: what must come first at the
home is started, and the access is sent again (R233 to R236). -/
def readyLine (q : Req) (ln : Nat) (s : State) : State × Bool :=
  match homeSlice s ln with
  | none => (s, true)
  | some n =>
    let full := !(registerFree (getSlice s n) ln q.agent q.master)
    let begin_ (f : State → State) : State × Bool :=
      (if full then noteRefusal n ln q.agent q.master none s else standBy n ln q.agent q.master (f s), false)
    if lineHeld s n ln then (standBy n ln q.agent q.master s, false)
    else match homeOf s ln, getLine s ln with
    | .cache _, some l =>
      if l.dir.st = .hostown ∧ l.dir.ptrs ≠ [q.agent] then begin_ (startRecall n ln (l.dir.ptrs.headD 0) (decide (q.op = .read)))
      else if q.op ≠ .read ∧ l.dir.st ≠ .hostown ∧ hostAckers l.dir (some q.agent) ≠ [] then
        begin_ (startRound n ln (hostAckers l.dir (some q.agent)) (some q.agent))
      else (s, true)
    | .cache _, none =>
      if full then (noteRefusal n ln q.agent q.master none s, false)
      else match takeWay n q.master q.cls ln s with
        | (s1, .wait) => (standBy n ln q.agent q.master s1, false)
        | (s1, _) => (s1, true)
    | .uncached _, _ => if full then (noteRefusal n ln q.agent q.master none s, false) else (s, true)
    | _, _ => (s, true)

/-- Readies lines. -/
def readyLines (q : Req) : List Nat → State → State × Bool
  | [], s => (s, true)
  | ln :: r, s =>
    let a := readyLine q ln s
    let b := readyLines q r a.1
    (b.1, a.2 && b.2)

/-- Takes up again everything that waits at a slice. -/
def settleAll (s : State) : State :=
  s.comb.slices.foldl (fun s e => if e.2.miss.isEmpty then s else settleWays e.1 s) s

end Sys2Proof.Machine
end

