-- ==== Sys2Proof/Machine/CombOps.lean ====
section
/-! DEFINITION. The commands of the comb (chapters 09 and 10): requests at a home slice, its miss registers, scrub, wake and
split. -/
namespace Sys2Proof.Machine

/-- Refuses a request: counted, and remembered for the back-off (R236). -/
def refuseReq (n ln : Nat) (q : Req) (s : State) : State :=
  answer (noteRefusal n ln q.agent q.master (some q) s) (.refusedAt q.agent ln)

/-- A request reaching its home: served, made a waiter, given a miss register, or refused (R233, R235, R236). -/
def request (ln : Nat) (q : Req) (s : State) : State :=
  match homeSlice s ln with
  | none =>
    match homeOf s ln with
    | .none e => answer s (.fail q.agent ln e)
    | _ => s
  | some n =>
    match (getSlice s n).miss.find? fun m => m.line == ln with
    | some m =>
      match joinWaiter n ln q m s with
      | (s1, true) => s1
      | (s1, false) => answer s1 (.refusedAt q.agent ln)
    | none =>
      match missFor s ln q with
      | none => settleWays n (serveReq n ln q (forgetRefusals n ln q.agent q.master s))
      | some op =>
        if registerFree (getSlice s n) ln q.agent q.master then
          openMiss n { line := ln, op, waiters := [q], starter := true } (forgetRefusals n ln q.agent q.master s)
        else refuseReq n ln q s

/-- The request of a command's requester. -/
def reqOf (q : Requester) (op : CombOp) : Req := { agent := q.agent.val, master := q.master.val, cls := q.cls.toNat, op }

/-- A host core's request: master 1,200 with the class of HBM_REG_CFG (R303). -/
def hostReq (s : State) (h : HostNo) (op : CombOp) : Req :=
  { agent := 1200 + h.val, master := 1200, cls := s.reg.cfg.toNat % 8, op }

/-- The bits that have struck a line before a command reads it (log 11). -/
def strike (ln : Nat) (us : List Upset) (s : State) : State :=
  match us, getLine s ln with
  | [], _ => s
  | _, none => s
  | us, some l => putLine ln (us.foldl applyUpset l) s

/-- Whether the windows are in a requester's reach: the debug port's only at FULL in a device that has power (R24, R469, R478). -/
def windowReach (q : Requester) (s : State) : Bool := !q.debug || (decide (s.sec.level = 2) && decide (s.pwr.st = .on))

/-- A line as its array holds it: zeros where the entry is not valid (R240). -/
def rawLine (ln : Nat) (s : State) : Line := match getLine s ln with | some l => l.data | none => 0

/-- Whether the arrays of a line's home may be scanned: its slice has power, and the die's sweep is done (R240, R473). -/
def scanLineReady (ln : Nat) (s : State) : Bool :=
  match homeSlice s ln with
  | some n => s.comb.swept.contains (sliceDie n)
  | none => false

/-- Full scan of a comb line by the debug port in a frozen device, without a check of its bytes (R473). -/
def scanComb (ln : Nat) (s : State) : State :=
  if s.sec.level = 2 ∧ !s.sec.freezing ∧ scanLineReady ln s then answer s (.line 1216 ln (rawLine ln s)) else answer s .refused

/-- COMB_READ (R24, R221, R233, R239). In a frozen device it is the debug port's scan (R473). -/
def execCombRead (q : Requester) (ln : BitVec 42) (us : List Upset) (s : State) : Out :=
  .next (if q.debug && s.sec.frozen then scanComb ln.toNat (clearAnswers s) else live s <|
    if windowReach q s then request ln.toNat (reqOf q .read) (strike ln.toNat us (clearAnswers s))
    else answer (clearAnswers s) .refused)

/-- COMB_WRITE (R24, R233, R238). -/
def execCombWrite (q : Requester) (ln : BitVec 42) (mask : BitVec 64) (d : Line) (us : List Upset) (s : State) : Out :=
  .next (live s <|
    if windowReach q s then request ln.toNat (reqOf q (.write mask d)) (strike ln.toNat us (clearAnswers s))
    else answer (clearAnswers s) .refused)

/-- ATOMIC_APPLY (R178 to R181): a request with an undefined operation or an illegal width does not arise from an ATOM. -/
def execAtomicApply (q : Requester) (ln : BitVec 42) (op : BitVec 6) (w : BitVec 4) (lanes : List AtomLane) (s : State) : Out :=
  .next (live s <| request ln.toNat (reqOf q (.atomic op w.toNat lanes)) (clearAnswers s))

/-- REDUCE_CONTRIBUTION (R257 to R262). -/
def execReduceContribution (q : Requester) (ln : BitVec 42) (op : BitVec 3) (fmt : BitVec 2) (elems : List (Nat × Word32))
    (s : State) : Out :=
  .next (live s <| request ln.toNat (reqOf q (.contrib { exact := false, op, fmt, e := 0 } elems)) (clearAnswers s))

/-- EXACT_CONTRIBUTION (R263 to R265): `ln` is any line of the group. -/
def execExactContribution (q : Requester) (ln : BitVec 42) (fmt : BitVec 2) (e : BitVec 9) (elems : List (Nat × Word32))
    (s : State) : Out :=
  .next (live s <|
    if inHbm (64 * ln.toNat) then answer (clearAnswers s) (.fail q.agent.val ln.toNat 0x2C)
    else request (ln.toNat / 4 * 4) (reqOf q (.contrib { exact := true, op := 0, fmt, e } elems)) (clearAnswers s))

/-- HOST_OWNERSHIP_REQUEST (R233, R261). -/
def execHostOwnershipRequest (h : HostNo) (ln : BitVec 42) (s : State) : Out :=
  .next (live s <| request ln.toNat (hostReq s h .own) (clearAnswers s))

/-- Carries a split change on (R225): every line in a way that becomes scratch leaves it, as far as none of them waits or fails;
once none is left the scratch window is cleared and its sweep starts. An unchanged split changes nothing. -/
def finishSplit (s : State) : State :=
  match s.comb.splitTo with
  | none => s
  | some w =>
    if w = s.comb.split then { s with comb := { s.comb with splitTo := none } } else
    let moves (e : Nat × CombLine) : Bool := inHbm (64 * e.1) && decide (e.2.way < w)
    let s1 := (s.comb.lines.filter moves).foldl (fun s e =>
      let n := hashHome s e.1
      if lineHeld s n e.1 then s else (evictLine n 1204 (bitsOf s.reg.cfg.toNat 8 6) e.1 s).1) s
    if s1.comb.lines.any moves then s1
    else
      let kept := s1.comb.lines.filter fun e => inHbm (64 * e.1)
      let ups := (List.range 2592).filter fun n => sliceUp s1 n
      let s2 := { s1 with comb := { s1.comb with lines := kept, split := w, splitTo := none, swept := [] } }
      ups.foldl (fun s n => modSlice s n fun x => { x with sweeping := true }) s2

/-- The state a line returns to when its host owner gives it up: DIRTY when the home copy is newer than HBM (R231, R233). -/
def returned (s : State) (ln : Nat) (d : Line) (modified : Bool) : DirSt :=
  if modified || hbmLine s ln != d then .dirty else .clean

/-- A host core's modified data for a line that a reset of its comb layer took: an uncached write (R388). A line that its home has fetched
again meanwhile is written there. -/
def writeLeft (a ln : Nat) (d : Line) (s : State) : State :=
  let forget (s : State) : State := { s with comb := { s.comb with hostLeft := s.comb.hostLeft.filter fun x => x != (ln, a) } }
  if (getLine s ln).isSome then
    request ln { agent := a, master := 1200, cls := s.reg.cfg.toNat % 8, op := .write (BitVec.allOnes 64) d } (forget s)
  else match hbmWrite (sliceDie (hashHome s ln)) 1200 (s.reg.cfg.toNat % 8) ln d s with
    | (s1, .ok _) => answer (forget s1) (.ack a ln)
    | (s1, .err e) => answer s1 (.fail a ln e)
    | (s1, .wait) => s1

/-- HOST_WRITE_BACK (R233, R388): taken from the line's owner only. -/
def execHostWriteBack (h : HostNo) (ln : BitVec 42) (d : Line) (s : State) : Out :=
  .next (live s <|
    let s0 := clearAnswers s
    let a := 1200 + h.val
    if s0.comb.hostLeft.contains (ln.toNat, a) then writeLeft a ln.toNat d s0
    else match homeOf s0 ln.toNat, getLine s0 ln.toNat with
    | .cache n, some l =>
      if l.dir.st = .hostown ∧ l.dir.ptrs = [a] then
        let s1 := putLine ln.toNat (mkLine l.way d { st := .dirty } none) s0
        finishSplit (settleWays n (endMiss n ln.toNat (answer s1 (.ack a ln.toNat))))
      else answer s0 (.ack a ln.toNat)
    | .uncached _, _ => request ln.toNat (hostReq s0 h (.write (BitVec.allOnes 64) d)) s0
    | _, _ => answer s0 (.ack a ln.toNat))

/-- HOST_RECALL_RESPONSE (R233): with modified data, or without when the owner's copy stands as it was given (R244). For a read the
owner keeps a shared copy. -/
def execHostRecallResponse (h : HostNo) (ln : BitVec 42) (modified : Option Line) (s : State) : Out :=
  .next (live s <|
    let s0 := clearAnswers s
    let a := 1200 + h.val
    match homeSlice s0 ln.toNat, getLine s0 ln.toNat with
    | some n, some l =>
      match (getSlice s0 n).miss.find? fun m => m.line == ln.toNat with
      | some m =>
        match m.op with
        | .recall o keeps =>
          if o ≠ a then s0 else
          let d := modified.getD l.own
          let dir : Dir := { st := returned s0 ln.toNat d modified.isSome, ptrs := if keeps then [a] else [] }
          let s1 := putLine ln.toNat (mkLine l.way d dir none) s0
          finishSplit (settleWays n (endMiss n ln.toNat s1))
        | _ => s0
      | none => s0
    | _, _ => s0)

/-- MISS_FILL_COMPLETE (R233, R234, R237): a fill without an eligible way waits in its register. `strike` befalls the fill's read, or the
write-back that it forces (R297, R298); one that finds neither stays for the next access of a home that it fits. -/
def execMissFillComplete (ln : BitVec 42) (s : State) (strike : Option HbmStrike := none) : Out :=
  .next (live s <|
    let s0 := clearAnswers s
    match homeSlice s0 ln.toNat with
    | none => s0
    | some n =>
      match (getSlice s0 n).miss.find? fun m => m.line == ln.toNat with
      | none => s0
      | some m =>
        if m.op ≠ .fetch then s0
        else
          let s1 : State := if strike.isSome then { s0 with hbm := { s0.hbm with strike } } else s0
          match homeOf s1 ln.toNat with
          | .cache _ =>
            let q := m.waiters.headD { agent := 1216, master := 1204, cls := 0, op := .read }
            match fetchLine n q.master q.cls ln.toNat { st := .clean } s1 with
            | (s2, .ok _) => settleWays n (endMiss n ln.toNat s2)
            | (s2, .err e) => failMiss n ln.toNat e m s2
            | (s2, .wait) => s2
          | _ => endMiss n ln.toNat s1)

/-- What a line is once an invalidation round has ended: no sharer but the one spared is left (R232, R233). A line that a host owned
is gone with the owner's copy: only KILL sends an owner such a round. -/
def roundDone (ln : Nat) (keep : Option Nat) (s : State) : State :=
  match getLine s ln with
  | none => s
  | some l =>
    if l.dir.st = .hostown then dropLine ln s
    else putLine ln { l with dir := keepSharer l.dir l.dir.st keep } (l1DropAll ln keep s)

/-- INVALIDATION_ACK (R232, R233): from a sharer, or from the region controller 2,000 + r for its cores. -/
def execInvalidationAck (ln : BitVec 42) (sharer : BitVec 12) (s : State) : Out :=
  .next (live s <|
    let s0 := clearAnswers s
    match homeSlice s0 ln.toNat with
    | none => s0
    | some n =>
      match (getSlice s0 n).miss.find? fun m => m.line == ln.toNat with
      | some m =>
        match m.op with
        | .invalidate aw keep =>
          if aw.contains sharer.toNat then
            let rest := aw.filter fun a => a != sharer.toNat
            let s1 := if sharer.toNat < 1200 then l1Drop sharer.toNat ln.toNat s0
              else if sharer.toNat ≥ 2000 then
                (List.range 50).foldl (fun s i =>
                  let c := (sharer.toNat - 2000) * 50 + i
                  if some c = keep then s else l1Drop c ln.toNat s) s0
              else s0
            let s2 := holdFor n ln.toNat (.invalidate rest keep) s1
            if rest = [] then settleWays n (endMiss n ln.toNat (roundDone ln.toNat keep s2)) else s2
          else s0
        | _ => s0
      | none => s0)

/-- REQUEST_REISSUE (R236): a refused requester sends its request again. -/
def execRequestReissue (agent : Fin 1217) (ln : BitVec 42) (s : State) : Out :=
  .next (live s <|
    let s0 := clearAnswers s
    match homeSlice s0 ln.toNat with
    | none => s0
    | some n =>
      match (getSlice s0 n).refusals.findSome? fun b => if b.line == ln.toNat && b.agent == agent.val then b.req else none with
      | some q => request ln.toNat q s0
      | none => s0)

/-- REDUCE_WAY_WAIT_TIMEOUT (R262): a contribution has waited 2^20 comb cycles. -/
def execReduceWayWaitTimeout (ln : BitVec 42) (s : State) : Out :=
  .next (live s <|
    match homeSlice s ln.toNat with
    | none => s
    | some n =>
      if (getSlice s n).miss.any fun m => m.line == ln.toNat && decide (m.op = .wayWait) then
        modSlice s n fun x => { x with redCause := x.redCause ||| 16 }
      else s)

/-- The line numbers a slice holds valid. -/
def sliceLines (s : State) (n : Nat) : List (Nat × CombLine) :=
  s.comb.lines.filter fun e => if inHbm (64 * e.1) then hashHome s e.1 == n
    else nthGood s.boot.badSlices ((64 * e.1 - scratchBase) / 0x200000) == n

/-- PATROL_SCRUB_VISIT (R243): the next position of a slice; one not scrubbed in its turn is skipped and counted. -/
def execPatrolScrubVisit (n : SliceNo) (missed : Bool) (us : List Upset) (s : State) : Out :=
  .next (live s <|
    let die := sliceDie n.val
    let off := s.comb.scrubOff.contains die
    let pos := (getSlice s n.val).scrubPos
    let last := decide (pos + 1 ≥ 32768)
    let s1 := modSlice s n.val fun x => { x with scrubPos := if last then 0 else pos + 1 }
    let first := (List.range 1296).find? fun i => sliceUp s (die * 1296 + i)
    let s2 := if last && first == some (n.val % 1296) then
        { s1 with comb := { s1.comb with scrubPass := tblMod 0 s1.comb.scrubPass die fun p => p + 1 } } else s1
    let target := (sliceLines s n.val).find? fun e => storageLine e.1 e.2.way == pos
    let skip (s : State) : State :=
      modSlice s n.val fun x => { x with scrubDrop := satInc x.scrubDrop 1, cause := x.cause ||| 16 }
    if !(sliceUp s n.val) then s
    else if missed || off then skip s2
    else match target with
    | none => s2
    | some e =>
      if lineHeld s2 n.val e.1 then skip s2
      else
        let l := us.foldl applyUpset e.2
        (checkedRead n.val e.1 l true (putLine e.1 l s2)).1)

/-- Remap entries of a slice from the learned list (R241). -/
def remapsFrom (s : State) (n : Nat) : List (Bool × Nat) :=
  ((s.boot.learned.filter fun e => (e.kind == 3 || e.kind == 4) && e.index == n).map fun e => (e.kind == 4, e.word)).take 16

/-- A slice returning to power (R240, R442, R444): every valid bit clear, the wake sweep running, its registers at reset. -/
def wakeSlice (n : Nat) (s : State) : State :=
  let gone := (sliceLines s n).map Prod.fst
  let s1 := { s with comb := { s.comb with
    lines := s.comb.lines.filter fun e => !(gone.contains e.1)
    swept := s.comb.swept.filter fun d => d != sliceDie n } }
  modSlice s1 n fun x => { lost := x.lost, gen := x.gen + 1, sweeping := true, remaps := remapsFrom s n }

/-- SLICE_WAKE (R240). -/
def execSliceWake (n : SliceNo) (s : State) : Out := .next (live s <| wakeSlice n.val s)

/-- WAKE_SWEEP_COMPLETE (R240, R225): the die's done bit follows once no slice of it sweeps. -/
def execWakeSweepComplete (n : SliceNo) (s : State) : Out :=
  .next (live s <|
    if !(getSlice s n.val).sweeping then s
    else
      let s1 := modSlice s n.val fun x => { x with sweeping := false }
      let die := sliceDie n.val
      if s1.comb.slices.any fun e => sliceDie e.1 == die && e.2.sweeping then s1
      else { s1 with comb := { s1.comb with swept := die :: s1.comb.swept.filter fun d => d != die } })

/-- A write of SLC_GLB_SPLIT (R224, R225): refused while any core is not in EMPTY. -/
def writeSplit (ways : Nat) (s : State) : State :=
  if s.cores.any fun e => decide (e.2.st ≠ .empty) then answer s .busError
  else answer (finishSplit { s with comb := { s.comb with splitTo := some (min ways 16) } }) .done

end Sys2Proof.Machine
end

