-- ==== Sys2Proof/Machine/Encoding.lean ====
section
/-! DEFINITION. The bits of control words and thread words, and which of them are undefined encodings (R91 to R95, R125,
R140, R148, R159 to R163, R245, R266, R268, R275, R344). -/
namespace Sys2Proof.Machine

/-! ### Control words -/

/-- A long control word (R91, R94). -/
def longBits (opc eng : Nat) (w : LongWord) : BitVec 128 :=
  BitVec.ofNat 128 (fieldAt opc 8 120 + fieldAt eng 4 116 + fieldAt w.tag.toNat 5 111 + fieldAt w.flags.toNat 7 104
    + fieldAt w.rdaFirst.toNat 7 97 + fieldAt w.rdaCount.toNat 7 90 + fieldAt w.rdbFirst.toNat 7 83
    + fieldAt w.rdbCount.toNat 7 76 + fieldAt w.wrFirst.toNat 7 69 + fieldAt w.wrCount.toNat 7 62
    + fieldAt w.desc.toNat 6 56 + fieldAt w.ka.toNat 5 51 + fieldAt w.kb.toNat 5 46 + w.low.toNat)

/-- The fields of a short control word in the places of R95. -/
structure ShortWord where
  flag : Bool := false
  kd : BitVec 5 := 0
  ka : BitVec 5 := 0
  kb : BitVec 5 := 0
  region : BitVec 6 := 0
  cond : BitVec 3 := 0
  imm : Word64 := 0
  deriving DecidableEq, Repr

/-- A short control word (R91, R95). -/
def shortBits (opc eng : Nat) (w : ShortWord) : BitVec 128 :=
  BitVec.ofNat 128 (fieldAt opc 8 120 + fieldAt eng 4 116 + fieldAt (b2n w.flag) 1 104 + fieldAt w.kd.toNat 5 99
    + fieldAt w.ka.toNat 5 94 + fieldAt w.kb.toNat 5 89 + fieldAt w.region.toNat 6 83 + fieldAt w.cond.toNat 3 80
    + w.imm.toNat)

/-- WAITC: counter in [103:100] (R99). -/
def waitcBits (ctr : BitVec 4) (ka : BitVec 5) (imm : Word32) : BitVec 128 :=
  BitVec.ofNat 128 (fieldAt 0x60 8 120 + fieldAt 6 4 116 + fieldAt ctr.toNat 4 100 + fieldAt ka.toNat 5 94 + imm.toNat)

/-- SIGC: target in [103:93], counter in [92:89] (R100). -/
def sigcBits (release : Bool) (target : BitVec 11) (ctr : BitVec 4) (inc : BitVec 16) : BitVec 128 :=
  BitVec.ofNat 128 (fieldAt 0x61 8 120 + fieldAt 6 4 116 + fieldAt (b2n release) 1 104 + fieldAt target.toNat 11 93
    + fieldAt ctr.toNat 4 89 + inc.toNat)

/-- Whether a pairing of operand formats of the array is legal (R124). -/
def pairingOk (a b : Nat) : Bool :=
  (decide (a ≤ 6) && decide (b ≤ 6)) || (a == b && decide (7 ≤ a) && decide (a ≤ 10))

/-- Whether a page set keeps R94. -/
def pageSetOk (first count : Nat) : Bool := if count = 0 then first == 0 else decide (first + count ≤ 96)

/-- Whether a control word is an undefined encoding (R93). A field that an instruction does not use is reserved (R95): kb with
use_imm set, imm of ADDK and SUBK without it. -/
def undefinedEncoding (b : BitVec 128) : Bool :=
  let w := b.toNat
  let f (hi lo : Nat) : Nat := bitsOf w hi lo
  let z (hi lo : Nat) : Bool := bitsOf w hi lo == 0
  let eng := f 119 116
  let short (e : Nat) : Bool := eng == e && z 115 111
  let long (e : Nat) : Bool := eng == e && pageSetOk (f 103 97) (f 96 90) && pageSetOk (f 89 83) (f 82 76)
    && pageSetOk (f 75 69) (f 68 62)
  let noPages := z 103 62
  !(match f 127 120 with
    | 0x01 => short 0 && z 110 105 && z 88 64 && (if w.testBit 104 then z 93 89 else z 63 0)
    | 0x02 => short 0 && z 110 105 && z 88 64 && (if w.testBit 104 then z 93 89 else z 63 0)
    | 0x03 => short 0 && z 110 104 && z 93 89 && z 82 64
    | 0x04 => short 0 && z 110 99 && z 82 64
    | 0x05 => short 0 && z 110 16
    | 0x06 => short 0 && z 110 105 && z 103 99 && z 88 83 && decide (f 82 80 ≤ 5) && z 79 64
        && (if w.testBit 104 then z 93 89 else z 63 16)
    | 0x07 => short 0 && z 110 104 && z 98 16
    | 0x10 => long 1 && z 110 104 && z 45 0
    | 0x20 => long 2 && z 110 108 && z 105 105 && !(w.testBit 107 && w.testBit 106) && pairingOk (f 45 42) (f 41 38)
        && decide (f 28 19 ≤ 512) && decide (f 37 29 + f 28 19 ≤ 512) && decide (f 18 15 ≤ 12) && z 14 0
    | 0x21 => long 2 && z 110 105 && decide (f 45 42 ∈ [0, 1, 8, 9, 10]) && pairingOk (f 45 42) (f 41 38) && z 28 19
        && decide (f 18 15 ≤ 12) && z 14 0
    | 0x22 => long 2 && z 110 104 && z 10 0 && decide (f 34 25 ≤ 512) && decide (f 43 35 + f 34 25 ≤ 512)
        && (match f 45 44 with
          | 0 => decide (f 34 25 ≤ 32) && z 61 46 && z 14 11 && decide (f 20 15 + f 34 25 ≤ 64)
          | 1 => z 24 15 && decide (f 14 12 ≤ 5)
          | 2 => z 24 11
          | _ => false)
    | 0x30 => long 3 && z 110 104 && z 45 0
    | 0x40 => long 4 && z 110 104 && z 75 62 && z 45 0
    | 0x41 => long 4 && z 110 104 && noPages && z 45 0
    | 0x42 => long 4 && z 110 104 && noPages && z 50 0
    | 0x43 => long 4 && z 110 104 && noPages && z 50 0
    | 0x44 => long 4 && z 110 104 && noPages && z 50 0
    | 0x45 => long 4 && z 110 104 && noPages && z 50 46 && decide (f 45 44 ≤ 1) && z 43 0
    | 0x50 => long 5 && z 110 104 && noPages && z 45 0
    | 0x60 => short 6 && z 110 104 && z 99 99 && z 93 32
    | 0x61 => short 6 && z 110 105 && z 88 16
    | 0x70 => short 7 && z 110 15 && z 3 0
    | 0x71 => short 7 && z 110 105 && z 103 32
    | 0x72 => short 7 && z 110 16
    | 0x73 => short 7 && z 110 0
    | _ => false)

/-! ### Fields of a long control word -/

/-- Opcode of a control word. -/
def wOpc (w : BitVec 128) : Nat := bitsOf w.toNat 127 120
/-- Engine. -/
def wEng (w : BitVec 128) : Nat := bitsOf w.toNat 119 116
/-- Tag. -/
def wTag (w : BitVec 128) : Nat := bitsOf w.toNat 115 111
/-- Read set A as first and count. -/
def wRda (w : BitVec 128) : Nat × Nat := (bitsOf w.toNat 103 97, bitsOf w.toNat 96 90)
/-- Read set B. -/
def wRdb (w : BitVec 128) : Nat × Nat := (bitsOf w.toNat 89 83, bitsOf w.toNat 82 76)
/-- Write set. -/
def wWr (w : BitVec 128) : Nat × Nat := (bitsOf w.toNat 75 69, bitsOf w.toNat 68 62)
/-- Descriptor index. -/
def wDesc (w : BitVec 128) : Nat := bitsOf w.toNat 61 56

/-- The scalar registers that a control word reads (R94 to R99). -/
def kReads (b : BitVec 128) : List Nat :=
  let w := b.toNat
  let ka := bitsOf w 98 94
  let two := if w.testBit 104 then [ka] else [ka, bitsOf w 93 89]
  let op := wOpc b
  if op = 0x01 ∨ op = 0x02 ∨ op = 0x06 then two
  else if op = 0x03 ∨ op = 0x60 then [ka]
  else if op = 0x04 then [ka, bitsOf w 93 89]
  else if op = 0x07 then [bitsOf w 103 99]
  else if 0x10 ≤ op ∧ op ≤ 0x50 then [bitsOf w 55 51, bitsOf w 50 46]
  else []

/-- Whether two page sets overlap. -/
def pagesOverlap (a b : Nat × Nat) : Bool := decide (a.2 > 0) && decide (b.2 > 0) && decide (a.1 < b.1 + b.2) && decide (b.1 < a.1 + a.2)

/-- Whether a page lies in a set. -/
def pageIn (a : Nat × Nat) (p : Nat) : Bool := decide (a.1 ≤ p) && decide (p < a.1 + a.2)

/-- Bytes of the tile buffer. -/
def tileBytes : Nat := 393216

/-- Whether the tile bytes a .. a + n - 1 lie in the read set of a word (R106). -/
def inReadSet (w : BitVec 128) (a n : Nat) : Bool :=
  n == 0 || (decide (a + n ≤ tileBytes)
    && (List.range ((a + n - 1) / 4096 - a / 4096 + 1)).all fun i => pageIn (wRda w) (a / 4096 + i) || pageIn (wRdb w) (a / 4096 + i))

/-- Whether they lie in its write set. -/
def inWriteSet (w : BitVec 128) (a n : Nat) : Bool :=
  n == 0 || (decide (a + n ≤ tileBytes) && pageIn (wWr w) (a / 4096) && pageIn (wWr w) ((a + n - 1) / 4096))

/-- The descriptor type an instruction reads, if it reads one (R107, R148). -/
def descType (w : BitVec 128) : Option Nat :=
  match wOpc w with
  | 0x10 => some 1
  | 0x20 => some 2
  | 0x21 => some 3
  | 0x22 => if bitsOf w.toNat 45 44 = 0 then none else some 2
  | 0x30 => some 4
  | 0x42 => some 6
  | 0x50 => some 7
  | _ => some 5

/-! ### Thread words -/

/-- A thread word (R159). -/
def threadBits (opc : Nat) (w : ThreadWord) : Word64 :=
  BitVec.ofNat 64 (fieldAt opc 8 56 + fieldAt w.dst.toNat 6 50 + fieldAt w.a.toNat 6 44 + fieldAt w.b.toNat 6 38
    + fieldAt w.c.toNat 6 32 + fieldAt w.p.toNat 3 29 + fieldAt (b2n w.n) 1 28 + w.m.toNat)

/-- What an ALU opcode uses: source b, source c, rounding mode, largest aux code (R161, R162). -/
structure AluShape where
  b : Bool := true
  c : Bool := false
  rm : Bool := false
  aux : Nat := 0
  deriving DecidableEq, Repr

/-- The shape of an ALU opcode; MOV, FABS and the one-operand functions take no register b. -/
def aluShape (op : Nat) : Option AluShape :=
  if op ∈ [0x01, 0x02, 0x03, 0x05, 0x06, 0x07, 0x08, 0x09, 0x0A, 0x0B, 0x0C, 0x0D, 0x0E, 0x12] then some {}
  else if op = 0x04 then some { c := true }
  else if op = 0x0F then some { b := false }
  else if op = 0x10 then some { aux := 7 }
  else if op = 0x11 then some { aux := 5 }
  else if op ∈ [0x20, 0x21, 0x22, 0x28] then some { rm := true }
  else if op = 0x23 then some { rm := true, c := true }
  else if op = 0x24 ∨ op = 0x25 then some {}
  else if op = 0x26 then some { b := false }
  else if op = 0x27 then some { aux := 6 }
  else if op ∈ [0x29, 0x2A, 0x2B, 0x2C, 0x2D] then some { rm := true, b := false }
  else if op = 0x38 then some { aux := 3 }
  else none

/-- Registers a memory width covers (R161). -/
def widthRegs (w : Nat) : Nat := if w = 3 then 2 else if w = 4 then 4 else 1

/-- Whether a pair, or a block of `n` registers, starts where it may (R161). -/
def blockOk (n r : Nat) : Bool := r % n == 0

/-- Widths an atomic operation takes (R178). -/
def atomWidthOk (op width : Nat) : Bool :=
  if op ≤ 9 then width == 2 || width == 3 else if op = 10 then width == 2 else if op = 11 then width == 1 else false

/-- Whether a thread word is an undefined encoding (R163). Misaligned pairs and blocks and barrier ids above 7, which the
verifier rejects under reasons of their own, count as undefined when fetched (log 26). JOIN, which executes for the whole group, takes
no predicate but p0 either, and with bimm set source b and b_uni are not looked at (log 49). -/
def threadUndefined (t : Word64) : Bool :=
  let w := t.toNat
  let f (hi lo : Nat) : Nat := bitsOf w hi lo
  let z (hi lo : Nat) : Bool := bitsOf w hi lo == 0
  let op := f 63 56
  let dst := f 55 50
  let a := f 49 44
  let b := f 43 38
  let group := z 31 28
  let sr := decide (f 19 17 = 4 ∨ f 19 17 = 5)
  let coords := sr || (z 27 20 && b == 0)
  !(match aluShape op with
    | some sh =>
      let fp := decide (0x20 ≤ op) && decide (op ≤ 0x2D)
      let bimm := w.testBit 27
      (bimm || z 18 0) && (sh.c || z 37 32) && decide (f 21 19 ≤ sh.aux)
        && (if fp && sh.rm then decide (f 26 24 ≤ 5 ∧ f 26 24 ≠ 4) else z 26 24)
        && (if sh.b then bimm || !(w.testBit 22) || decide (b < 16) else b == 0 && !(w.testBit 22) && (op == 0x0F || !bimm))
        && (if w.testBit 23 then decide (a < 16) && op != 0x12 else true)
        && (if op = 0x11 ∨ op = 0x27 then decide (dst < 8) else true)
        && (if op = 0x12 then blockOk 2 dst && blockOk 2 a else true)
    | none =>
      match op with
      | 0x30 => z 7 0 && z 37 32 && decide (f 15 12 ≤ 6) && decide (f 11 8 ≤ 6) && f 15 12 != f 11 8 && decide (f 19 17 ≤ 5)
          && coords && (!(f 19 17 == 4) || (decide (1 ≤ f 15 12) && decide (f 15 12 ≤ 5))) && blockOk 2 b
      | 0x31 => z 11 0 && z 16 16 && decide (f 37 32 < 16) && decide (2 ≤ f 15 12) && decide (f 15 12 ≤ 7)
          && decide (f 19 17 ≤ 5) && coords && blockOk 2 b
      | 0x34 => z 19 0 && z 43 32 && blockOk 2 a
      | 0x35 => z 19 16 && z 43 32 && blockOk 2 a
      | 0x39 => decide (a < 8) && z 43 32 && z 27 22 && decide (f 21 19 ≤ 2) && z 18 0
      | 0x3A => group && decide (dst < 16) && z 43 32 && z 27 0
      | 0x40 => z 43 32 && decide (f 21 19 ≤ 4) && blockOk 2 a && blockOk (widthRegs (f 21 19)) dst
      | 0x41 => dst == 0 && z 37 32 && decide (f 21 19 ≤ 4) && z 18 18 && z 16 16 && blockOk 2 a
          && blockOk (widthRegs (f 21 19)) b
      | 0x42 => z 43 32 && z 27 22 && decide (f 21 19 ≤ 4) && z 18 16 && blockOk (widthRegs (f 21 19)) dst
      | 0x43 => dst == 0 && z 37 32 && z 27 22 && decide (f 21 19 ≤ 4) && z 18 16 && blockOk (widthRegs (f 21 19)) b
      | 0x44 => atomWidthOk (f 37 32) (f 21 19) && z 18 18 && z 16 16 && blockOk 2 a
          && blockOk (widthRegs (f 21 19)) dst && blockOk (widthRegs (f 21 19)) b
      | 0x45 => group && decide (dst < 16) && (!(w.testBit 17) || dst == 0) && decide (a < 16) && blockOk 2 a
          && decide (b < 16) && z 37 32 && z 16 0
      | 0x46 => group && z 55 32 && z 27 3 && f 1 0 != 0
      | 0x50 => z 55 32 && z 27 24
      | 0x51 => z 55 0
      | 0x52 => group && z 55 32 && z 27 24 && z 11 0
      | 0x53 => group && z 55 32 && z 27 8 && decide (f 7 0 ≤ 7)
      | 0x54 => group && z 55 50 && decide (a < 16) && z 43 32
      | 0x55 => group && z 55 32 && z 22 16
      | 0x56 => z 55 32 && z 27 0
      | _ => false)

end Sys2Proof.Machine
end

