-- ==== Sys2Proof/Machine/CoreBase.lean ====
section
/-! DEFINITION. What the engines of a core share: fetching, region checks, the dead-range list, the L1, memory accesses,
arrival counters, status and census (chapters 05, 07, 09). -/
namespace Sys2Proof.Machine

/-! ### Fetch (R93, R108, R163) -/

/-- The control word at CORE_PC in the active bank. -/
def wordAt (k : Core) : BitVec 128 := BitVec.ofNat 128 (memRead (activeBank k) k.pc.toNat 16)

/-- Whether the stream of a core may issue a word. -/
def streamRuns (k : Core) : Bool := decide (k.st = .run) && !k.faulting && !k.haltReq && !k.resetting

/-- Whether `w` is the word that the stream would issue now. -/
def atWord (s : State) (c : Nat) (w : BitVec 128) : Bool :=
  let k := getCore s c
  !(frozen s) && streamRuns k && k.stall == .none && wordAt k == w && !(undefinedEncoding w)

/-- A fetched undefined encoding faults the core with 0x32 (R93). -/
def fetchCheck (c : Nat) (s : State) : State :=
  let k := getCore s c
  if streamRuns k && undefinedEncoding (wordAt k) then coreFault c 0x32 0 none (pcWord k) 0 s else s

/-- Continues the stream at an offset. The offset wraps at the end of the bank: a stream that runs past it goes on at word 0
(log 49). -/
def goTo (c : Nat) (pc : BitVec 15) (s : State) : State := fetchCheck c (modCore s c fun k => { k with pc, stall := .none })

/-- Continues the stream at the next word. -/
def nextWord (c : Nat) (s : State) : State := goTo c ((getCore s c).pc + 16) s

/-- The thread word of index `w` in the active bank (R159). -/
def threadWordAt (k : Core) (w : Nat) : Word64 := BitVec.ofNat 64 (memRead (activeBank k) (8 * w) 8)

/-- A group. -/
def getGroup (k : Core) (g : Nat) : Group := tblGet {} k.tg.groups g
/-- Changes a group of a core. -/
def modGroup (s : State) (c g : Nat) (f : Group → Group) : State :=
  modTg s c fun t => { t with groups := tblMod {} t.groups g f }

/-- The LAUNCH whose kernel has a sequence number. -/
def kernelOf (k : Core) (seq : Word32) : Option Kernel := k.tg.kernels.find? fun x => x.seq == seq

/-- The LAUNCH flight of a group. -/
def launchOf (k : Core) (g : Nat) : Option Flight :=
  match kernelOf k (getGroup k g).seq with
  | some x => flightOf k x.tag
  | none => none

/-- A kernel fault (R163, R171, R193): recorded with engine 3 and the LAUNCH, and the place in CORE_TG_FAULT; one behind a fault that is
recorded already is not recorded (R116). -/
def kernelFault (c g code lane detail : Nat) (s : State) : State :=
  let k := getCore s c
  let f := launchOf k g
  let s1 := modTg s c fun t =>
    if t.fault.getLsbD 22 || k.regs.faultInfo != 0 then t else
      { t with fault := BitVec.ofNat 23 (2 ^ 22 + lane * 2 ^ 17 + g * 2 ^ 13 + b2n k.active * 2 ^ 12 + (getGroup k g).pc % 4096) }
  let s2 := coreFault c code 3 (f.map fun x => x.tag) (match f with | some x => x.pc | none => pcWord k) detail s1
  match f with
  | some x => modCore s2 c fun k => modFlight k x.tag fun y => { y with ph := .faulted }
  | none => s2

/-- Lets a group go on at a word; an undefined encoding there faults (R163). The word index wraps after 4,095 (log 49). -/
def groupGo (c g w : Nat) (s : State) : State :=
  let s1 := modGroup s c g fun x => { x with pc := w % 4096, wait := .none, part := [] }
  let k := getCore s1 c
  if (getGroup k g).alive && !k.faulting && decide (k.st = .run) && threadUndefined (threadWordAt k (w % 4096)) then
    kernelFault c g 0x32 0 0 s1 else s1

/-- Whether `w` is the thread word that a group of a core would issue now. -/
def atThreadWord (s : State) (c g : Nat) (w : Word64) : Bool :=
  let k := getCore s c
  let gr := getGroup k g
  !(frozen s) && decide (k.st = .run) && !k.faulting && !k.resetting && gr.alive && gr.wait == .none
    && threadWordAt k gr.pc == w && !(threadUndefined w)

/-! ### Region checks (R111, R112, R24) -/

/-- Region-table entry `i`. -/
def regionOf (k : Core) (i : Nat) : BitVec 128 := tblGet 0 k.regions i
/-- Base of a region. -/
def rgBase (r : BitVec 128) : Nat := bitsOf r.toNat 47 0
/-- Length. -/
def rgLen (r : BitVec 128) : Nat := bitsOf r.toNat 87 48
/-- Class given to the regulator. -/
def rgClass (r : BitVec 128) : Nat := bitsOf r.toNat 95 93

/-- Permission bits in their places: r 1, w 2, x 4, a 8, d 16. -/
def permR : Nat := 1
/-- w -/
def permW : Nat := 2
/-- x and r -/
def permX : Nat := 5
/-- a, r and w -/
def permA : Nat := 11
/-- d -/
def permD : Nat := 16

/-- Whether a byte range lies in a window that accelerator traffic may reach (R22, R24). -/
def inWindows (a n : Nat) : Bool := (inHbm a && decide (a + n ≤ hbmBytes)) || (inScratch a && decide (a + n ≤ scratchBase + scratchBytes))

/-- The check of an access of `n` bytes at offset `o` of a region (R112), and of the windows (R24). -/
def regionCheck (k : Core) (i : Nat) (perm : Nat) (o : Int) (n : Nat) : Option Nat :=
  let r := regionOf k i
  if n = 0 then none
  else if o < 0 ∨ rgLen r = 0 ∨ o + n > rgLen r then some 0x01
  else if (bitsOf r.toNat 92 88) &&& perm ≠ perm then some 0x02
  else if !(inWindows (rgBase r + o.toNat) n) then some 0x02
  else none

/-- The detail of a fault that names a region: its index for 0x01 and 0x02 (R122). -/
def checkDetail (code region : Nat) : Nat := if code = 0x01 ∨ code = 0x02 then region else 0

/-- The address of an offset in a region. -/
def regionAddr (k : Core) (i : Nat) (o : Nat) : Nat := rgBase (regionOf k i) + o

/-! ### The dead-range list (R248, R249) -/

/-- Whether a byte range meets an entry. -/
def deadHit (l : List DeadEntry) (a n : Nat) : Bool := l.any fun e => decide (a < e.base + e.len) && decide (e.base < a + n)

/-- Removes every entry that a byte range meets. -/
def deadRemove (l : List DeadEntry) (a n : Nat) : List DeadEntry :=
  l.filter fun e => !(decide (a < e.base + e.len) && decide (e.base < a + n))

/-- Adds a range: merged with every entry it overlaps or abuts, else in a free entry, else in place of the oldest. -/
def deadAdd (a n : Nat) (k : Core) : Core :=
  if n = 0 then k else
  let touch (e : DeadEntry) : Bool := decide (a ≤ e.base + e.len) && decide (e.base ≤ a + n)
  let hits := k.dead.filter touch
  let rest := k.dead.filter fun e => !(touch e)
  match hits with
  | h :: _ =>
    let lo := hits.foldl (fun m e => min m e.base) a
    let hi := hits.foldl (fun m e => max m (e.base + e.len)) (a + n)
    { k with dead := rest ++ [{ slot := h.slot, base := lo, len := hi - lo }] }
  | [] =>
    match (List.range 8).find? fun i => !(k.dead.any fun e => e.slot == i) with
    | some i => { k with dead := k.dead ++ [{ slot := i, base := a, len := n }] }
    | none =>
      { k with dead := k.dead.tail ++ [{ slot := (k.dead.headD { slot := 0, base := 0, len := 0 }).slot, base := a, len := n }]
               regs := { k.regs with deadRetired := satInc k.regs.deadRetired 1 } }

/-! ### The L1 and memory accesses of a core (R173, R226, R232) -/

/-- The L1's copy of a line. -/
def l1Find (k : Core) (ln : Nat) : Option Line := (k.l1.find? fun e => e.1 == ln).map Prod.snd

/-- Puts a line at the front of the L1; the least recently used of a set of four gives way. -/
def l1Insert (ln : Nat) (d : Line) (k : Core) : Core :=
  let others := k.l1.filter fun e => e.1 != ln
  let inSet := others.filter fun e => e.1 % 256 == ln % 256
  let kept := if inSet.length < 4 then others else
    match inSet.getLast? with
    | some v => others.filter fun e => e.1 != v.1
    | none => others
  { k with l1 := (ln, d) :: kept }

/-- Updates the copy of a line that is present. -/
def l1Update (ln : Nat) (mask : BitVec 64) (d : Line) (k : Core) : Core :=
  { k with l1 := k.l1.map fun e => if e.1 == ln then (ln, maskLine e.2 d mask) else e }

/-- Reads a line for a core through its L1 (R173): scratch lines, lines in REDUCE and uncached lines are not allocated. -/
def coreReadLine (c cls ln : Nat) (s : State) : State × Res Line :=
  match l1Find (getCore s c) ln with
  | some d => (modCore s c (l1Insert ln d), .ok d)
  | none =>
    match readAt c c cls ln s with
    | (s1, .ok d) =>
      let tracked := match homeOf s1 ln, getLine s1 ln with
        | .cache _, some l => isSharer l.dir c
        | _, _ => false
      (if tracked then modCore s1 c (l1Insert ln d) else s1, .ok d)
    | (s1, .err e) => (s1, .err e)
    | (s1, .wait) => (s1, .wait)

/-- Writes bytes of a line for a core (R173): written through, its own copy updated. -/
def coreWriteLine (c cls ln : Nat) (mask : BitVec 64) (d : Line) (s : State) : State × Res Unit :=
  match writeAt c c cls ln mask d s with
  | (s1, .ok _) => (modCore s1 c (l1Update ln mask d), .ok ())
  | r => r

/-- The mask of `n` bytes from `off`. -/
def byteMask (off n : Nat) : BitVec 64 := BitVec.ofNat 64 ((2 ^ n - 1) <<< off)

/-- A line that holds `n` bytes of `v` at `off` and zero elsewhere. -/
def placed (off n v : Nat) : Line := BitVec.ofNat 512 ((v % 2 ^ (8 * n)) <<< (8 * off))

/-- The lines that `n` bytes from an address touch; a region whose base is no multiple of the width lets an access touch two. -/
def spanLines (a n : Nat) : List Nat := (List.range ((a + n - 1) / 64 - a / 64 + 1)).map fun i => a / 64 + i

/-- The part of `n` bytes from `a` that lies in a line: its offset there, its length, and the bytes of the access before it. -/
def linePart (ln a n : Nat) : Nat × Nat × Nat :=
  let lo := max a (64 * ln)
  let hi := min (a + n) (64 * ln + 64)
  (lo - 64 * ln, hi - lo, lo - a)

/-- The value of `n` bytes from `a`, from the lines they touch. -/
def spanValue (a n : Nat) (got : List (Nat × Line)) : Nat :=
  got.foldl (fun v e =>
    let p := linePart e.1 a n
    v + getLineBytes e.2 p.1 p.2.1 * 2 ^ (8 * p.2.2)) 0

/-- Reads lines for a core, one after the other. -/
def coreReadLines (c cls : Nat) : List Nat → State → State × Res (List (Nat × Line))
  | [], s => (s, .ok [])
  | ln :: r, s =>
    match coreReadLine c cls ln s with
    | (s1, .ok d) =>
      match coreReadLines c cls r s1 with
      | (s2, .ok l) => (s2, .ok ((ln, d) :: l))
      | (s2, .err e) => (s2, .err e)
      | (s2, .wait) => (s2, .wait)
    | (s1, .err e) => (s1, .err e)
    | (s1, .wait) => (s1, .wait)

/-- Writes the `n` low bytes of `v` from `a` for a core, line after line. -/
def coreWriteLines (c cls a n v : Nat) : List Nat → State → State × Res Unit
  | [], s => (s, .ok ())
  | ln :: r, s =>
    let p := linePart ln a n
    match coreWriteLine c cls ln (byteMask p.1 p.2.1) (placed p.1 p.2.1 (v / 2 ^ (8 * p.2.2))) s with
    | (s1, .ok _) => coreWriteLines c cls a n v r s1
    | x => x

/-- Reads `n` bytes at an address for an engine without a cache (R215). -/
def engineRead (c cls a n : Nat) (s : State) : State × Res Nat :=
  match readAt 1216 c cls (a / 64) s with
  | (s1, .ok d) => (s1, .ok (getLineBytes d (a % 64) n))
  | (s1, .err e) => (s1, .err e)
  | (s1, .wait) => (s1, .wait)

/-- Writes the bytes of a line that `mask` names for an engine: every L1 copy is invalidated first (R215). -/
def engineWrite (master cls ln : Nat) (mask : BitVec 64) (d : Line) (s : State) : State × Res Unit :=
  match writeAt 1216 master cls ln mask d s with
  | (s1, .ok _) => (l1DropAll ln none s1, .ok ())
  | r => r

/-! ### Scalar accesses (R98) -/

/-- What an access of the scalar queue comes to: the value an LDK reads. -/
def scalarTry (c : Nat) (x : ScalarAcc) (s : State) : State × Res Nat :=
  match x.kd with
  | some _ =>
    match coreReadLines c x.cls (spanLines x.addr 8) s with
    | (s1, .ok got) => (s1, .ok (spanValue x.addr 8 got))
    | (s1, .err e) => (s1, .err e)
    | (s1, .wait) => (s1, .wait)
  | none =>
    let lns := spanLines x.addr 8
    match (if lns.length > 1 then readyLines { agent := c, master := c, cls := x.cls, op := .write 0 0 } lns s else (s, true)) with
    | (s0, false) => (s0, .wait)
    | (s0, true) =>
      match coreWriteLines c x.cls x.addr 8 x.value.toNat lns s0 with
      | (s1, .ok _) => (s1, .ok 0)
      | (s1, .err e) => (s1, .err e)
      | (s1, .wait) => (s1, .wait)

/-- Performs the scalar accesses of a core in their order, as far as their lines are free. One that fails faults the core at its own
word. -/
def scalarRun (c : Nat) : Nat → State → State
  | 0, s => s
  | n + 1, s =>
    match (getCore s c).scalarq with
    | [] => s
    | x :: _ =>
      let pop (s : State) : State := modCore s c fun k => { k with scalarq := k.scalarq.tail }
      match scalarTry c x s with
      | (s1, .ok v) => scalarRun c n (modCore (pop s1) c fun k => kSet k (x.kd.getD 0) (BitVec.ofNat 64 v))
      | (s1, .err e) => scalarRun c n (coreFault c e 0 none x.pc (checkDetail e x.region) (pop s1))
      | (s1, .wait) => s1

/-- The same for all of them. -/
def scalarDrain (c : Nat) (s : State) : State := scalarRun c (getCore s c).scalarq.length s

/-- Whether a word reads a register whose LDK has not returned (R98). -/
def scalarWaits (k : Core) (w : BitVec 128) : Bool :=
  k.scalarq.any fun x => match x.kd with | some r => r != 0 && (kReads w).contains r.toNat | none => false

/-! ### Arrival counters (R99, R101, R176) -/

/-- Whether a counter has reached a threshold: (counter - threshold) mod 2^32 below 2^31. -/
def reached (ctr thr : Word32) : Bool := decide ((ctr - thr).toNat < 2 ^ 31)

/-- A counter of a core. -/
def ctrOf (k : Core) (c : Nat) : Word32 := tblGet 0 k.arrive c

/-- Lets go on whatever waits for a counter that has been reached. -/
def releaseWaits (c ctr : Nat) (s : State) : State :=
  let k := getCore s c
  let s1 := match k.stall with
    | .waitc n thr => if n = ctr ∧ reached (ctrOf k ctr) thr ∧ streamRuns k then nextWord c s else s
    | _ => s
  (List.range 16).foldl (fun s g =>
    match (getGroup (getCore s c) g).wait with
    | .waitc n thr =>
      if n = ctr ∧ reached (ctrOf (getCore s c) ctr) thr then groupGo c g ((getGroup (getCore s c) g).pc + 1) s else s
    | _ => s) s1

/-- Sets a counter. -/
def setArrive (c ctr : Nat) (v : Word32) (s : State) : State :=
  releaseWaits c ctr (modCore s c fun k => { k with arrive := tblPut k.arrive ctr v })

/-- Adds to a counter; it wraps. -/
def bumpArrive (c ctr n : Nat) (s : State) : State := setArrive c ctr (ctrOf (getCore s c) ctr + BitVec.ofNat 32 n) s

/-! ### Waggle boxes and a core's end of them (R366 to R372) -/

/-- A box by number: H2C of core k is k, C2H of core k is 1,200 + k, H2M i is 2,400 + i, M2H i is 2,404 + i, M2R n is
2,408 + n, R2M n is 2,432 + n. -/
def getBox (s : State) (i : Nat) : Box := tblGet {} s.mbx.boxes i
/-- Changes a box. -/
def modBox (s : State) (i : Nat) (f : Box → Box) : State :=
  { s with mbx := { s.mbx with boxes := tblPut s.mbx.boxes i (f (getBox s i)) } }
/-- Whether the host complex sends into a box. -/
def hostSends (i : Nat) : Bool := decide (i < 1200) || (decide (2400 ≤ i) && decide (i < 2404))
/-- Whether the host complex receives from a box. -/
def hostReceives (i : Nat) : Bool := (decide (1200 ≤ i) && decide (i < 2400)) || (decide (2404 ≤ i) && decide (i < 2408))
/-- Whether a box ends with an acknowledgement. -/
def privileged (i : Nat) : Bool := decide (2400 ≤ i)

/-- Writes the identity of a box's MSI to the file it names; 0, or a value above the file's range, sends nothing (R367). -/
def sendMsi (b : Box) (s : State) : State :=
  let v := b.msi.toNat
  let file := bitsOf v 30 30
  let id := bitsOf v 10 0
  if b.poll || !(v.testBit 31) || id = 0 || decide (id > if file = 1 then 2047 else 255) then s
  else { s with mbx := { s.mbx with eip := tblPut s.mbx.eip (bitsOf v 29 26 * 4096 + file * 2048 + id) true } }

/-- The FULL event of a box (R368). -/
def boxFilled (i : Nat) (s : State) : State :=
  if hostReceives i && (getBox s i).intFull then sendMsi (getBox s i) s else s
/-- The EMPTY event of a box (R368). -/
def boxEmptied (i : Nat) (s : State) : State :=
  if hostSends i && (getBox s i).intEmpty then sendMsi (getBox s i) s else s

/-- Whether the core end of a core's boxes is enabled, and its counters free_c, rel_c, out_c, in_c (R372). -/
def coreEnd (s : State) (c : Nat) : Bool := (getBox s c).ccnt.getLsbD 31
/-- The counter in the field at `lo` of MBX_CCNT. -/
def coreEndCtr (s : State) (c lo : Nat) : Nat := bitsOf (getBox s c).ccnt.toNat (lo + 3) lo

/-- H2C has filled: its payload and header go into the area as writes of master k, and in_c advances (R372). What it holds is delivered
once. -/
def deliverBox (c : Nat) (s : State) : State :=
  let b := getBox s c
  if !(coreEnd s c) || !b.full then s else
  let a := b.carea.toNat
  let n := min (bitsOf b.hdr.toNat 6 0) 64
  let wr : State × Res Unit :=
    match (if n = 0 then (s, Res.ok ()) else engineWrite c 0 (a / 64) (byteMask 0 n) b.data s) with
    | (s1, .ok _) => engineWrite c 0 (a / 64 + 1) (byteMask 0 4) (placed 0 4 b.hdr.toNat) s1
    | r => r
  let others (s : State) : List (Nat × Bool) := s.mbx.owed.filter fun x => x != (c, false)
  match wr with
  | (s1, .ok _) => bumpArrive c (coreEndCtr s1 c 0) 1 { s1 with mbx := { s1.mbx with owed := others s1 } }
  | (s1, .err e) => coreFault c e 6 none (pcWord (getCore s1 c)) 0 s1
  | (s1, .wait) => { s1 with mbx := { s1.mbx with owed := others s1 ++ [(c, false)] } }

/-- out_c has advanced: the box reads header and payload of the area and acts as a header write to C2H (R372). -/
def sendBox (c : Nat) (s : State) : State :=
  let a := (getBox s c).carea.toNat
  let i := 1200 + c
  match engineRead c 0 (a + 192) 4 s with
  | (s1, .err e) => coreFault c e 6 none (pcWord (getCore s1 c)) 0 s1
  | (s1, .wait) => { s1 with mbx := { s1.mbx with owed := s1.mbx.owed ++ [(c, true)] } }
  | (s1, .ok h) =>
    match engineRead c 0 (a + 128) 64 s1 with
    | (s2, .err e) => coreFault c e 6 none (pcWord (getCore s2 c)) 0 s2
    | (s2, .wait) => { s2 with mbx := { s2.mbx with owed := s2.mbx.owed ++ [(c, true)] } }
    | (s2, .ok d) =>
      let bad (code : Nat) : State :=
        coreFault c code 6 none (pcWord (getCore s2 c)) 0 (modBox s2 i fun b => { b with rejected := true })
      if (getBox s2 i).full then bad 0x0C
      else if h % 128 > 64 then bad 0x0E
      else boxFilled i (modBox s2 i fun b =>
        { b with full := true, ackValid := false, hdr := BitVec.ofNat 32 h &&& 0xFFFFFF7F#32, data := BitVec.ofNat 512 d })

/-- Empties a box that has no acknowledgement, with the sender's event: C2H tells its core by free_c (R369, R372). -/
def releaseBox (i : Nat) (s : State) : State :=
  let s1 := boxEmptied i (modBox s i fun b => { b with full := false })
  if 1200 ≤ i ∧ i < 2400 ∧ coreEnd s1 (i - 1200) then bumpArrive (i - 1200) (coreEndCtr s1 (i - 1200) 12) 1 s1 else s1

/-- What an increment of a counter does to the core's boxes (R372). -/
def boxHook (c ctr : Nat) (s : State) : State :=
  if !(coreEnd s c) then s
  else if ctr = coreEndCtr s c 8 then (if (getBox s c).full then releaseBox c s else s)
  else if ctr = coreEndCtr s c 4 then sendBox c s
  else s

/-- Takes up again the core-end transfers that waited for a held line. -/
def boxRetry (s : State) : State :=
  s.mbx.owed.foldl (fun s x => if x.2 then sendBox x.1 s else deliverBox x.1 s) { s with mbx := { s.mbx with owed := [] } }

/-- An increment of a counter arrives (R101, R372). -/
def addArrive (c ctr n : Nat) (s : State) : State := boxHook c ctr (bumpArrive c ctr n s)

/-! ### Status and census (R49, R62, R72) -/

/-- Sets bits of CORE_FPSTAT. -/
def fpStatus (c : Nat) (fl : BitVec 7) (s : State) : State :=
  if fl = 0 then s else modRegs s c fun r => { r with fpstat := r.fpstat ||| fl }

/-- Counts `n` conversions in the census of an id and in CORE_OVF_COUNT (R62). -/
def census (c id n : Nat) (s : State) : State :=
  if n = 0 then s else
  modRegs (modMgt s fun m => { m with census := tblPut m.census id (satInc (tblGet 0 m.census id) n) }) c
    fun r => { r with ovfCount := satInc r.ovfCount n }

/-- census_id of a CORE_FPCTL value. -/
def fpCensus (v : Word32) : Nat := bitsOf v.toNat 10 8
/-- rm_dyn. -/
def fpRmDyn (v : Word32) : Nat := bitsOf v.toNat 6 4
/-- ftz_out. -/
def fpFtzOut (v : Word32) : Bool := v.getLsbD 1
/-- ftz_in. -/
def fpFtzIn (v : Word32) : Bool := v.getLsbD 0

/-- The rounding mode of a code under rm_dyn (R50); SR4 that DYN gives to an operation without a narrowing conversion is RNE
(R51). -/
def rmOf (code dyn : Nat) (narrowing : Bool) : RM :=
  match (if code = 5 then dyn else code) with
  | 1 => .rtz
  | 2 => .rup
  | 3 => .rdn
  | 4 => if narrowing then .sr4 else .rne
  | _ => .rne

/-! ### The end of a group (R158, R168, R149) -/

/-- Whether a register block of a group is pending under DRAIN. -/
def drainPending (k : Core) (g : Nat) : Bool := k.tg.pend.any fun p => p.grp == g && p.seq == (getGroup k g).seq

/-- Completes the exit of a group, unless a register of it is pending under DRAIN. -/
def groupExit (c g : Nat) (s : State) : State :=
  if drainPending (getCore s c) g then modGroup s c g fun x => { x with wait := .drainExit }
  else
    let seq := (getGroup (getCore s c) g).seq
    modTg (modGroup s c g fun x => { x with alive := false, wait := .none }) c fun t =>
      { t with kernels := t.kernels.map fun x => if x.seq == seq then { x with exited := x.exited ||| BitVec.ofNat 16 (2 ^ g) } else x }

/-! ### The tile buffer -/

/-- Writes the tile buffer of a core. -/
def tileWrite (c a n v : Nat) (s : State) : State := modCore s c fun k => { k with tile := memWrite k.tile a n v }

end Sys2Proof.Machine
end

