-- ==== Sys2Proof/Machine/Access.lean ====
section
/-! DEFINITION. Control-space accesses: which block an address names, and the one outcome each access has (R24 to R28, R385,
R386, R469). -/
namespace Sys2Proof.Machine

/-- Whether the table of R26 has a block. -/
def blockDecodes (layer region block : Nat) : Bool :=
  match layer with
  | 0 =>
    if region < 24 then decide (block < 12) || (decide (16 ≤ block) && decide (block < 20)) || block == 64 || block == 65
    else if region < 28 then decide (block < 3) || block == 8 || block == 64
    else region == 31 && (decide (block < 16) || (decide (32 ≤ block) && decide (block < 48)) || (decide (64 ≤ block) && decide (block < 224)))
  | 1 => (decide (region < 24) && (decide (block < 54) || block == 64 || block == 65)) || (region == 31 && block == 0)
  | 2 => (decide (region < 24) && (decide (block < 54) || block == 64 || block == 65)) || (region == 31 && block == 0)
  | 3 => (decide (region < 24) && (decide (block < 54) || block == 64 || block == 65)) || (region == 31 && block == 0)
  | 8 => region == 31 && decide (block < 3)
  | l => decide (4 ≤ l) && decide (l < 8) && region == 31 && (decide (block < 12) || block == 16 || block == 64)

/-- Whether a block lies in the always-on domain: the management complex, clocks, resets and security, the tower and link-die sensors
(R432), the regulator phases and their monitors, and the module's blocks. -/
def alwaysOnBlock (layer region block : Nat) : Bool :=
  match layer with
  | 0 => (region == 31 && decide (128 ≤ block)) || (decide (region < 24) && (decide (block < 12) || decide (64 ≤ block)))
  | 8 => true
  | l => if l < 4 then decide (region < 24) && block == 65 else decide (l < 8) && region == 31 && block == 64

/-- Whether a block has power (R18, R27, R402, R427, R430, R436): a bad or spare site and a bad slice never do, and a region
controller is fed by the comb groups beneath it. -/
def blockPowered (s : State) (layer region block : Nat) : Bool :=
  if !s.pins.alwaysOn then false
  else if alwaysOnBlock layer region block then true
  else if s.pwr.st ≠ .on then false
  else if region ≥ 24 then true
  else
    let f := getFp s region
    match layer with
    | 3 => if block < 54 then decide (f.compute = .on) && (coreAt s (region * 54 + block)).isSome
           else decide (f.comb0 = .on) || decide (f.comb1 = .on)
    | 1 => decide (f.comb0 = .on) && (decide (block ≥ 54) || sliceGood s (region * 54 + block))
    | 2 => decide (f.comb1 = .on) && (decide (block ≥ 54) || sliceGood s (1296 + region * 54 + block))
    | _ => true

/-- Whether an access crosses a layer in reset (R385). -/
def pathReset (s : State) (host : Bool) (layer region block : Nat) : Bool :=
  (layerDown s 0 && (host || !(alwaysOnBlock layer region block)))
    || (layerDown s 1 && decide (1 ≤ layer) && decide (layer ≤ 3))
    || (layerDown s 2 && decide (2 ≤ layer) && decide (layer ≤ 3))
    || (decide (3 ≤ layer) && decide (layer < 8) && layerDown s layer)

/-- Whether a block is a management peripheral with its clock-enable bit clear (R381). -/
def gated (s : State) (layer region block : Nat) : Bool :=
  layer == 0 && region == 31 && decide (144 ≤ block) && decide (block < 150) && !(s.clk.periphEn.getLsbD (block - 144))

/-- Whether a requester is a host core. -/
def isHost : By → Bool
  | .host _ => true
  | _ => false

/-- Whether the debug level admits an access of the debug port: FULL admits every one, LIMITED reads of status registers
(R469). Other requesters are not held by it. -/
def debugAdmits (s : State) (by_ : By) (statusRead : Bool) : Bool :=
  match by_ with
  | .debug => decide (s.sec.level = 2) || (statusRead && decide (s.sec.level = 1))
  | _ => true

/-- A bus error. -/
def refuse (s : State) : State := answer s .busError
/-- A write performed. -/
def written (s : State) : State := answer s .done
/-- A value read. -/
def readAs (w : Word32) (s : State) : State := answer s (.value w)

/-- The outcome of an aligned word access to a block, the first that applies of R27; `f` performs it. Behind a stopped gate a read, which
`f` would answer with a value, reads zero and a write is ignored. A block whose clock is
stopped by a freeze or a crystal failure gives no answer. -/
def ctl (by_ : By) (statusRead : Bool) (layer region block : Nat) (f : State → State) (s : State) : State :=
  let s0 := clearAnswers s
  if !(blockDecodes layer region block) then refuse (logEvent 0x10F (blockSrc layer region block) 0 s0)
  else if !(blockPowered s0 layer region block) then answer s0 (.error 0x0D)
  else if pathReset s0 (isHost by_) layer region block then answer s0 (.error 0x0A)
  else if gated s0 layer region block then (match (f s0).answers with | [.value _] => readAs 0 s0 | _ => written s0)
  else if frozen s0 && !(alwaysOnBlock layer region block) then s0
  else if !(debugAdmits s0 by_ statusRead) then refuse s0
  else f s0

/-- An access to a register of a logical core; an absent number has no block to answer. -/
def ctlCore (by_ : By) (statusRead : Bool) (c : Nat) (f : State → State) (s : State) : State :=
  match siteOf s c with
  | some k => ctl by_ statusRead 3 (k / 54) (k % 54) f s
  | none => answer (clearAnswers s) (.error 0x0D)

/-- An access to a layer-global block (region 31). -/
def ctlGlobal (by_ : By) (statusRead : Bool) (layer block : Nat) (f : State → State) (s : State) : State :=
  ctl by_ statusRead layer 31 block f s

/-! ### Fields of a register write -/

/-- The bits of a write-one-to-clear register after a write. -/
def w1c {n : Nat} (x : BitVec n) (v : Word32) : BitVec n := x &&& ~~~(v.zeroExtend n)

/-- Field [lo + n - 1 : lo] of a written word. -/
def wField (v : Word32) (lo n : Nat) : Nat := (v.toNat >>> lo) % 2 ^ n

end Sys2Proof.Machine
end

