-- ==== Sys2Proof/Machine/CombPort.lean ====
section
/-! DEFINITION. The comb port of a core: KILL, REVIVE, FLUSH, CRED and CFIN (R245 to R251, R266 to R269). -/
namespace Sys2Proof.Machine

/-- Bits of a descriptor. -/
def dBits (d : BitVec 512) (hi lo : Nat) : Nat := bitsOf d.toNat hi lo

/-! ### Work in units -/

/-- What a run of units came to: all done, stopped at a failure, or held up by another operation at a home. -/
inductive Ran
  | ended | held
  deriving DecidableEq, Repr

/-- Runs units of work in order from the state of progress (next, first failure); `goOn` says whether the units behind a
failure still run. -/
def runUnits {α : Type} (f : α → State → State × Res Unit) (det : α → Nat) (goOn : Bool) :
    List α → Nat → Option (Nat × Nat) → State → State × Nat × Option (Nat × Nat) × Ran
  | [], i, e, s => (s, i, e, .ended)
  | u :: r, i, e, s =>
    match f u s with
    | (s1, .ok _) => runUnits f det goOn r (i + 1) e s1
    | (s1, .err code) =>
      let e' := match e with | some x => some x | none => some (det u, code)
      if goOn then runUnits f det goOn r (i + 1) e' s1 else (s1, i + 1, e', .ended)
    | (s1, .wait) => (s1, i, e, .held)

/-- Carries a flight of the comb port forward through its units: it ends done or faulted, or stays started. -/
def workUnits {α : Type} (c : Nat) (fl : Flight) (f : α → State → State × Res Unit) (det : α → Nat) (goOn : Bool)
    (us : List α) (s : State) : State :=
  let pr : Nat × Option (Nat × Nat) := match fl.aux with | .units n e => (n, e) | _ => (0, none)
  match runUnits f det goOn (us.drop pr.1) pr.1 pr.2 s with
  | (s1, _, none, .ended) => modCore s1 c fun k => modFlight k fl.tag fun x => { x with ph := .done }
  | (s1, _, some (d, code), .ended) => flightFault c fl code d s1
  | (s1, n, e, .held) => modCore s1 c fun k => modFlight k fl.tag fun x => { x with ph := .started, aux := .units n e }

/-- Ends a flight without work. -/
def flightDone (c : Nat) (fl : Flight) (s : State) : State :=
  modCore s c fun k => modFlight k fl.tag fun x => { x with ph := .done }

/-! ### KILL, REVIVE and FLUSH -/

/-- Offset in the region of a comb descriptor, ka added. -/
def cdOff (fl : Flight) : Nat := dBits fl.desc 55 16 + fl.ka.toNat
/-- Length of a comb descriptor. -/
def cdLen (d : BitVec 512) : Nat := dBits d 95 56
/-- Region of a comb descriptor. -/
def cdRegion (d : BitVec 512) : Nat := dBits d 13 8

/-- The checks of R246: the code that fails. -/
def lineOpCheck (k : Core) (fl : Flight) : Option Nat :=
  let opc := wOpc fl.word
  if cdOff fl % 64 ≠ 0 ∨ cdLen fl.desc % 64 ≠ 0 ∨ dBits fl.desc 511 96 ≠ 0 then some 0x0E
  else if opc = 0x44 then regionCheck k (cdRegion fl.desc) 0 (cdOff fl) (cdLen fl.desc)
  else regionCheck k (cdRegion fl.desc) (if opc = 0x43 then permW else permR) (cdOff fl) (cdLen fl.desc)

/-- Lines of a byte range. -/
def rangeLines (a n : Nat) : List Nat := (List.range (n / 64)).map fun i => a / 64 + i

/-- One line operation at its home: one that finds the line held waits there (R236). -/
def lineOp (c cls : Nat) (opc mode : Nat) (ln : Nat) (s : State) : State × Res Unit :=
  if opc = 0x43 then killAt c ln s else flushAt (mode == 1) c cls ln s

/-- KILL, REVIVE or FLUSH on the comb port (R246). -/
def runLineOp (c : Nat) (fl : Flight) (s : State) : State :=
  let k := getCore s c
  let cls := rgClass (regionOf k (cdRegion fl.desc))
  match lineOpCheck k fl with
  | some code => flightFault c fl code (checkDetail code (cdRegion fl.desc)) s
  | none =>
    if wOpc fl.word = 0x44 then flightDone c fl s
    else
      let base := regionAddr k (cdRegion fl.desc) (cdOff fl)
      workUnits c fl (fun u => lineOp c cls (wOpc fl.word) (bitsOf fl.word.toNat 45 44) (base / 64 + u)) (fun u => u) true
        (List.range (cdLen fl.desc / 64)) s

/-- What KILL and REVIVE do to the dead-range list at issue, before their checks (R248, R249). A KILL whose offset or length is no
multiple of 64 enters the lines that it touches (log 27). -/
def deadAtIssue (k : Core) (fl : Flight) : Core :=
  let a := regionAddr k (cdRegion fl.desc) (cdOff fl)
  let n := cdLen fl.desc
  if wOpc fl.word = 0x43 then
    (if n = 0 then k else deadAdd (a / 64 * 64) (ceilDiv (a + n) 64 * 64 - a / 64 * 64) k)
  else if wOpc fl.word = 0x44 then { k with dead := deadRemove k.dead a n }
  else k

/-! ### CRED (R266, R267) -/

/-- Whether a 9-bit window exponent is legal (R67). -/
def windowOkE (e : Nat) : Bool := decide (-160 ≤ toSigned 9 e) && decide (toSigned 9 e ≤ 20)

/-- The reduce tag of a descriptor's fields. -/
def tagOf (exact : Bool) (op fmt e : Nat) : RedTag := { exact, op := BitVec.ofNat 3 op, fmt := BitVec.ofNat 2 fmt, e := BitVec.ofNat 9 e }

/-- Splits `n` elements of slot size `slot` from address `a` by home unit of `u` bytes: for each, its first element and
how many. -/
def splitElems (a n slot u : Nat) : List (Nat × Nat) :=
  if n = 0 then [] else
  let o := a % u
  (List.range (ceilDiv (o + n * slot) u)).map fun j =>
    let lo := (j * u - o) / slot
    let hi := min n (((j + 1) * u - o) / slot)
    (lo, hi - lo)

/-- The contributions `lo .. lo + n - 1` of a run, their source values read by `val`: the line or exact group they go to, and the
elements by their slots in it. -/
def runElems (t : RedTag) (dst lo n : Nat) (val : Nat → Nat) : Nat × List (Nat × Word32) :=
  let slot := slotBytes t.exact t.fmt.toNat
  let a := dst + lo * slot
  let u := if t.exact then 256 else 64
  (a / u * (u / 64), (List.range n).map fun i => ((a % u) / slot + i, BitVec.ofNat 32 (val (lo + i))))

/-- Sends them. -/
def sendRun (c cls : Nat) (t : RedTag) (dst lo n : Nat) (val : Nat → Nat) (s : State) : State × Res Unit :=
  let e := runElems t dst lo n val
  sendContrib c cls e.1 t e.2 s

/-- The fields of a CRED descriptor. -/
structure CredDesc where
  srcTb : Nat
  rows : Nat
  srcPitch : Nat
  dstPitch : Nat
  op : Nat
  fmt : Nat
  exact : Bool
  e : Nat
  deriving DecidableEq, Repr

/-- Reads them (R266). -/
def credDesc (d : BitVec 512) : CredDesc :=
  { srcTb := dBits d 114 96, rows := dBits d 130 115, srcPitch := dBits d 149 131, dstPitch := dBits d 189 150
    op := dBits d 192 190, fmt := dBits d 194 193, exact := d.getLsbD 195, e := dBits d 204 196 }

/-- The checks of R267, with their detail. `none`: the elements move; `some (0, 0)`: nothing to do. -/
def credCheck (k : Core) (fl : Flight) : Option (Nat × Nat) :=
  let d := credDesc fl.desc
  let len := cdLen fl.desc
  let z := elemBytes d.fmt
  let slot := slotBytes d.exact d.fmt
  let rg := cdRegion fl.desc
  let base := regionAddr k rg (cdOff fl)
  let n := len / z
  if d.op > 2 ∨ d.fmt > 2 ∨ dBits fl.desc 511 205 ≠ 0 ∨ dBits fl.desc 15 14 ≠ 0
      ∨ (if d.exact then d.op ≠ 0 ∨ windowOkE d.e = false else d.e ≠ 0)
      ∨ len % z ≠ 0 ∨ base % slot ≠ 0 ∨ d.dstPitch % slot ≠ 0 then some (0x0E, 0)
  else if len = 0 ∨ d.rows = 0 then some (0, 0)
  else if d.exact ∧ base < hbmBytes then some (0x2C, 0)
  else match (List.range d.rows).findSome? fun (r : Nat) =>
      (regionCheck k rg permD ((cdOff fl + r * d.dstPitch : Nat) : Int) (n * slot)) with
    | some code => some (code, rg)
    | none =>
      if (List.range d.rows).all fun r => inReadSet fl.word (d.srcTb + fl.kb.toNat + r * d.srcPitch) len then none
      else some (0x23, 0)

/-- A CRED removes at issue the dead ranges that its contributions fall into (R249). -/
def credAtIssue (k : Core) (fl : Flight) : Core :=
  let d := credDesc fl.desc
  let base := regionAddr k (cdRegion fl.desc) (cdOff fl)
  let n := cdLen fl.desc / elemBytes d.fmt * slotBytes d.exact d.fmt
  { k with dead := (List.range d.rows).foldl (fun l r => if n = 0 then l else deadRemove l (base + r * d.dstPitch) n) k.dead }

/-- CRED on the comb port. -/
def runCred (c : Nat) (fl : Flight) (s : State) : State :=
  let k := getCore s c
  match credCheck k fl with
  | some (0, _) => flightDone c fl s
  | some (code, d) => flightFault c fl code d s
  | none =>
    let d := credDesc fl.desc
    let z := elemBytes d.fmt
    let n := cdLen fl.desc / z
    let t := tagOf d.exact d.op d.fmt d.e
    let rg := cdRegion fl.desc
    let base := regionAddr k rg (cdOff fl)
    let units := (List.range d.rows).flatMap fun r =>
      (splitElems (base + r * d.dstPitch) n (slotBytes d.exact d.fmt) (if d.exact then 256 else 64)).map fun p => (r, p)
    workUnits c fl (fun (u : Nat × Nat × Nat) s =>
        let src := d.srcTb + fl.kb.toNat + u.1 * d.srcPitch
        sendRun c (rgClass (regionOf k rg)) t (base + u.1 * d.dstPitch) u.2.1 u.2.2
          (fun i => memRead (getCore s c).tile (src + i * z) z) s)
      (fun u => u.1 * n + u.2.1) false units s

/-! ### CFIN (R268, R269) -/

/-- The fields of a CFIN descriptor. -/
structure CfinDesc where
  dstRegion : Nat
  out : Nat
  rm : Nat
  clear : Bool
  exact : Bool
  e : Nat
  srcFmt : Nat
  srcOp : Nat
  dstOff : Nat
  eBase : Nat
  deriving DecidableEq, Repr

/-- Reads them (R268). -/
def cfinDesc (d : BitVec 512) : CfinDesc :=
  { dstRegion := dBits d 101 96, out := dBits d 103 102, rm := dBits d 106 104, clear := d.getLsbD 107
    exact := d.getLsbD 108, e := dBits d 117 109, srcFmt := dBits d 119 118, srcOp := dBits d 122 120
    dstOff := dBits d 162 123, eBase := dBits d 226 163 }

/-- The checks of R269, with their detail; `some (0, 0)`: nothing to do. -/
def cfinCheck (k : Core) (fl : Flight) : Option (Nat × Nat) :=
  let d := cfinDesc fl.desc
  let len := cdLen fl.desc
  let rg := cdRegion fl.desc
  let base := regionAddr k rg (cdOff fl)
  let u := if d.exact then 256 else 64
  let osz := elemBytes d.out
  let n := len / slotBytes d.exact d.srcFmt
  if d.out > 2 ∨ (d.rm ≠ 0 ∧ d.rm ≠ 4) ∨ d.srcFmt > 2 ∨ d.srcOp > 2 ∨ dBits fl.desc 511 227 ≠ 0 ∨ dBits fl.desc 15 14 ≠ 0
      ∨ (if d.exact then d.srcOp ≠ 0 ∨ windowOkE d.e = false else d.e ≠ 0)
      ∨ (d.rm ≠ 4 ∧ wKb fl.word ≠ 0) ∨ base % u ≠ 0 ∨ len % u ≠ 0 ∨ d.dstOff % osz ≠ 0
      ∨ (d.rm = 4 ∧ d.exact = false ∧ redSrc d.out = redHeld d.srcFmt) then some (0x0E, 0)
  else if len = 0 then some (0, 0)
  else if d.exact ∧ base < hbmBytes then some (0x2C, 0)
  else match regionCheck k rg (if d.clear then 3 else permR) (cdOff fl) len with
    | some code => some (code, rg)
    | none => match regionCheck k d.dstRegion permW d.dstOff (n * osz) with
      | some code => some (code, d.dstRegion)
      | none => none
where
  /-- kb of a control word. -/
  wKb (w : BitVec 128) : Nat := bitsOf w.toNat 50 46

/-- Writes a list of bytes at an address, line by line (R215). -/
def engineWriteBytes (master cls : Nat) : Nat → Nat → List Byte → State → State × Res Unit
  | 0, _, _, s => (s, .ok ())
  | fuel + 1, a, bs, s =>
    match bs with
    | [] => (s, .ok ())
    | _ =>
      let off := a % 64
      let part := bs.take (64 - off)
      match engineWrite master cls (a / 64) (byteMask off part.length) (placed off part.length (leNat part)) s with
      | (s1, .ok _) => engineWriteBytes master cls fuel (a + part.length) (bs.drop (64 - off)) s1
      | r => r

/-- The state of reduction of a line, if it holds one. -/
def redOf (s : State) (ln : Nat) : Option RedTag :=
  match getLine s ln with
  | some l => l.red
  | none => none

/-- The drained values of the lines of a unit, read at their home. -/
def readLines (c cls : Nat) : List Nat → State → State × Res (List Line)
  | [], s => (s, .ok [])
  | ln :: r, s =>
    match readAt 1216 c cls ln s with
    | (s1, .ok d) => match readLines c cls r s1 with
      | (s2, .ok ds) => (s2, .ok (d :: ds))
      | (s2, .err e) => (s2, .err e)
      | (s2, .wait) => (s2, .wait)
    | (s1, .err e) => (s1, .err e)
    | (s1, .wait) => (s1, .wait)

/-- Writes zeros over lines, which leave reduce state (R261). -/
def clearLines (c cls : Nat) : List Nat → State → State × Res Unit
  | [], s => (s, .ok ())
  | ln :: r, s =>
    match engineWrite c cls ln (BitVec.allOnes 64) 0 s with
    | (s1, .ok _) => clearLines c cls r s1
    | x => x

/-- The conversion of one held or exact element (R54, R71, R269). -/
def cfinElem (exact : Bool) (e srcFmt out : Nat) (sr : Bool) (draw : Nat) (v : Nat) : FOut :=
  let rm : RM := if sr then .sr4 else .rne
  if exact then (redSrc out).convert rm false false draw (exValue (toSigned 9 e) (toSigned 128 v))
  else if redSrc out = redHeld srcFmt then { bits := v }
  else (redSrc out).convert rm false false draw ((redHeld srcFmt).decode v).toX

/-- One line or exact group of a conversion: element `i0` is its first. -/
def convertUnit (c cls dcls : Nat) (t : RedTag) (clear : Bool) (out : Nat) (sr : Bool) (draw : Nat → Nat) (cid : Nat)
    (dst : Nat) (ln i0 : Nat) (s : State) : State × Res Unit :=
  let lns := if t.exact then [ln, ln + 1, ln + 2, ln + 3] else [ln]
  match lns.find? fun x => (match redOf s x with | some u => decide (u ≠ t) | none => false) with
  | some x => (match homeSlice s x with | some n => refuseContribution n s | none => s, .err 0x2B)
  | none =>
    match readLines c cls lns s with
    | (s1, .err e) => (s1, .err e)
    | (s1, .wait) => (s1, .wait)
    | (s1, .ok ds) =>
      let slot := slotBytes t.exact t.fmt.toNat
      let vals := (lns.zip ds).flatMap fun p =>
        (List.range (64 / slot)).map fun i =>
          if t.exact && (redOf s1 p.1).isNone then 0 else getLineBytes p.2 (i * slot) slot
      let outs := vals.zipIdx.map fun p => cfinElem t.exact t.e.toNat t.fmt.toNat out sr (draw (i0 + p.2)) p.1
      let osz := elemBytes out
      let bytes := outs.flatMap fun o => leBytes osz o.bits
      match engineWriteBytes c dcls (bytes.length + 1) (dst + i0 * osz) bytes s1 with
      | (s2, .ok _) =>
        let s3 := census c cid (outs.filter fun o => o.counted).length s2
        if clear then clearLines c cls lns s3 else (s3, .ok ())
      | r => r

/-- CFIN on the comb port. -/
def runCfin (c : Nat) (fl : Flight) (s : State) : State :=
  let k := getCore s c
  match cfinCheck k fl with
  | some (0, _) => flightDone c fl s
  | some (code, d) => flightFault c fl code d s
  | none =>
    let d := cfinDesc fl.desc
    let rg := cdRegion fl.desc
    let base := regionAddr k rg (cdOff fl)
    let u := if d.exact then 256 else 64
    let per := u / slotBytes d.exact d.srcFmt
    let t := tagOf d.exact d.srcOp d.srcFmt d.e
    let kb := fl.kb.toNat
    workUnits c fl (fun i =>
        convertUnit c (rgClass (regionOf k rg)) (rgClass (regionOf k d.dstRegion)) t d.clear d.out (d.rm == 4)
          (fun e => drawBits 4 fl.seed.toNat (kb % 2 ^ 32) (kb >>> 32) (d.eBase + e)) (fpCensus fl.fpctl)
          (regionAddr k d.dstRegion d.dstOff) (base / 64 + i * (u / 64)) (i * per))
      (fun i => i * per) false (List.range (cdLen fl.desc / u)) s

end Sys2Proof.Machine
end

