-- ==== Sys2Proof/Machine/Dma.lean ====
section
/-! DEFINITION. The core DMA engine: the MOVE descriptor, its checks, its bursts and its ending (R195 to R217). -/
namespace Sys2Proof.Machine

/-! ### Running CRC (R208) -/

/-- Eight steps of CRC-32C in reflected form. -/
def crc32Bits : Nat → Nat → Nat
  | 0, r => r
  | n + 1, r => crc32Bits n (if r % 2 = 1 then (r / 2) ^^^ 0x82F63B78 else r / 2)

/-- The CRC register after bytes. -/
def crc32Reg (r : Nat) (bs : List Byte) : Nat := bs.foldl (fun r b => crc32Bits 8 (r ^^^ b.toNat)) r

/-- CRC-32C of bytes from a starting value. -/
def crc32c (init : Nat) (bs : List Byte) : Nat := crc32Reg (init ^^^ 0xFFFFFFFF) bs ^^^ 0xFFFFFFFF

/-! ### The descriptor (R196) -/

/-- The fields of a DMA descriptor, its strides signed, ka and kb added to the offsets (R195). -/
structure MoveDesc where
  srcRegion : Nat
  dstRegion : Nat
  srcKind : Nat
  dstKind : Nat
  skew : Nat
  laneFmt : Nat
  reduce : Bool
  src : Int
  dst : Int
  len0 : Nat
  n1 : Nat
  n2 : Nat
  ss1 : Int
  ss2 : Int
  ds1 : Int
  ds2 : Int
  crcMode : Nat
  crcOff : Nat
  crcInit : Nat
  crcExpect : Nat
  op : Nat
  fmt : Nat
  exact : Bool
  e : Nat
  aFmt : Nat
  scAddr : Nat
  slots : Nat
  burst : Nat
  gap : Nat
  deriving DecidableEq, Repr

/-- Reads a DMA descriptor. -/
def moveDesc (fl : Flight) : MoveDesc :=
  let d := fl.desc
  let sg (hi lo : Nat) : Int := toSigned 40 (dBits d hi lo)
  { srcRegion := dBits d 13 8, dstRegion := dBits d 19 14, srcKind := dBits d 21 20, dstKind := dBits d 24 22
    skew := dBits d 28 27, laneFmt := dBits d 30 29, reduce := d.getLsbD 31
    src := (dBits d 71 32 + fl.ka.toNat : Nat), dst := (dBits d 111 72 + fl.kb.toNat : Nat)
    len0 := dBits d 135 112, n1 := dBits d 151 136, n2 := dBits d 167 152
    ss1 := sg 207 168, ss2 := sg 247 208, ds1 := sg 287 248, ds2 := sg 327 288
    crcMode := dBits d 329 328, crcOff := dBits d 348 330, crcInit := dBits d 380 349, crcExpect := dBits d 412 381
    op := dBits d 415 413, fmt := dBits d 417 416, exact := d.getLsbD 418, e := dBits d 427 419
    aFmt := dBits d 431 428, scAddr := dBits d 450 432, slots := dBits d 482 467
    burst := dBits d 458 451, gap := dBits d 466 459 }

/-- Lanes of a lane format (R200). -/
def laneCount (f : Nat) : Nat := if f = 1 then 32 else 64
/-- Full row size. -/
def rowBytes (f : Nat) : Nat := if f = 2 then 48 else if f = 3 then 32 else 64
/-- Bits of a lane in the source row. -/
def laneSrcBits (f : Nat) : Nat := if f = 1 then 16 else if f = 2 then 6 else if f = 3 then 4 else 8
/-- Bits of a lane in a destination line. -/
def laneDstBits (f : Nat) : Nat := if f = 1 then 16 else if f = 2 then 6 else 8

/-- The lane format of an operand code of the array (R202). -/
def laneOfCode (a : Nat) : Option Nat :=
  if a ≤ 3 ∨ a = 7 ∨ a = 8 then some 0 else if a = 9 ∨ a = 10 then some 1 else if a = 4 ∨ a = 5 then some 2
  else if a = 6 then some 3 else none

/-- Whether an operand code has block scales. -/
def isMx (a : Nat) : Bool := decide (2 ≤ a) && decide (a ≤ 7)

/-- Whether a run's destinations, at a physical base, are multiples of a unit: a stride counts when it is used. -/
def dstAligned (m : MoveDesc) (base : Nat) (u : Nat) : Option Nat :=
  let u : Int := u
  if (m.dst + base) % u ≠ 0 then some 72
  else if m.n1 > 1 ∧ m.ds1 % u ≠ 0 then some 248
  else if m.n2 > 1 ∧ m.ds2 % u ≠ 0 then some 288
  else none

/-- The lowest bit of the first offending field, if the form is bad (R196, R197, R200, R202, R206, R207). `base` is the
physical base of the destination region. -/
def moveForm (d : BitVec 512) (m : MoveDesc) (base : Nat) : Option Nat :=
  let mem := m.dstKind = 0
  let inq := m.dstKind = 3
  let bank := m.dstKind = 2
  let sk := m.skew ≠ 0
  let f (hi lo : Nat) : Nat := dBits d hi lo
  let z := elemBytes m.fmt
  let slot := slotBytes m.exact m.fmt
  let align := if m.reduce then dstAligned m base slot else if bank then dstAligned m 0 8
    else if sk ∧ m.dst % 64 ≠ 0 then some 72 else none
  let bad : List (Nat × Bool) := [
    (8, decide (m.srcKind ≠ 0 ∧ m.srcRegion ≠ 0)),
    (14, decide (¬ mem ∧ m.dstRegion ≠ 0)),
    (20, decide (m.srcKind > 1 ∨ (bank ∧ m.srcKind ≠ 0))),
    (22, decide (m.dstKind > 3)),
    (27, decide (m.skew = 3 ∨ (sk ∧ (mem ∨ bank)) ∨ (inq ∧ m.skew ≠ 1))),
    (29, decide ((¬ sk ∧ m.laneFmt ≠ 0) ∨ (inq ∧ laneOfCode m.aFmt ≠ some m.laneFmt))),
    (31, m.reduce && decide (¬ mem ∨ sk)),
    (72, decide (inq ∧ f 111 72 ≠ 0) || align == some 72),
    (112, decide ((sk ∧ m.len0 > rowBytes m.laneFmt) ∨ (m.reduce = true ∧ m.len0 % z ≠ 0) ∨ (bank ∧ m.len0 % 8 ≠ 0))),
    (152, decide (inq ∧ m.n2 ≠ 1)),
    (248, decide (sk ∧ m.ds1 ≠ 0) || align == some 248),
    (288, decide (inq ∧ m.ds2 ≠ 0) || align == some 288),
    (328, decide (m.crcMode = 3)),
    (330, decide (m.crcMode ≠ 1 ∧ m.crcOff ≠ 0) || decide (m.crcOff % 4 ≠ 0)),
    (349, decide (m.crcMode = 0 ∧ m.crcInit ≠ 0)),
    (381, decide (m.crcMode ≠ 2 ∧ m.crcExpect ≠ 0)),
    (413, decide (m.op > 2 ∨ (m.reduce = false ∧ m.op ≠ 0) ∨ (m.exact = true ∧ m.op ≠ 0))),
    (416, decide (m.fmt = 3 ∨ (m.reduce = false ∧ m.fmt ≠ 0))),
    (418, m.exact && !m.reduce),
    (419, if m.exact then !(windowOkE m.e) else decide (m.e ≠ 0)),
    (428, decide ((inq ∧ m.aFmt > 10) ∨ (¬ inq ∧ m.aFmt ≠ 0))),
    (432, decide ((¬ inq ∨ isMx m.aFmt = false) ∧ m.scAddr ≠ 0)),
    (451, decide (if inq then f 458 451 = 0 else f 458 451 ≠ 0)),
    (459, decide (¬ inq ∧ f 466 459 ≠ 0)),
    (467, decide (if inq then m.slots ≠ m.n1 + (laneCount m.laneFmt - 1) else m.slots ≠ 0)),
    (483, decide (f 511 483 ≠ 0))]
  (bad.find? fun x => x.2).map Prod.fst

/-- Whether a MOVE moves no byte (R199). -/
def moveEmpty (m : MoveDesc) : Bool := m.n1 == 0 || m.n2 == 0 || (m.skew == 0 && m.len0 == 0)

/-- The lowest and one past the highest byte of runs of `n` bytes (R197). -/
def extent (o : Int) (n : Nat) (n1 : Nat) (s1 : Int) (n2 : Nat) (s2 : Int) : Int × Int :=
  let a1 : Int := ((n1 : Int) - 1) * s1
  let a2 : Int := ((n2 : Int) - 1) * s2
  (o + min 0 a1 + min 0 a2, o + max 0 a1 + max 0 a2 + n)

/-- Extent of the source. -/
def srcExtent (m : MoveDesc) : Int × Int := extent m.src m.len0 m.n1 m.ss1 m.n2 m.ss2

/-- Extent of the destination: lines under skew, slots under reduce (R256). -/
def dstExtent (m : MoveDesc) : Int × Int :=
  if m.skew ≠ 0 then extent m.dst (64 * (m.n1 + laneCount m.laneFmt - 1)) 1 0 m.n2 m.ds2
  else extent m.dst (if m.reduce then m.len0 / elemBytes m.fmt * slotBytes m.exact m.fmt else m.len0) m.n1 m.ds1 m.n2 m.ds2

/-- A tile extent inside a claim: the read set, or the write set. -/
def tileOk (w : BitVec 128) (x : Int × Int) (wr : Bool) : Bool :=
  decide (0 ≤ x.1) && (if wr then inWriteSet w x.1.toNat (x.2 - x.1).toNat else inReadSet w x.1.toNat (x.2 - x.1).toNat)

/-- Checks 3 and 4 of R197: the code and detail of a fault. -/
def moveChecks (k : Core) (fl : Flight) (m : MoveDesc) : Option (Nat × Nat) :=
  let sx := srcExtent m
  let dx := dstExtent m
  let early := 2 ^ 31 + fl.chan * 2 ^ 28
  let src := if m.srcKind = 0 then
      regionCheck k m.srcRegion (if m.dstKind = 2 then permX else permR) sx.1 (if m.len0 = 0 then 0 else (sx.2 - sx.1).toNat)
    else none
  match src with
  | some code => some (code, m.srcRegion)
  | none =>
    let dst : Option (Nat × Nat) :=
      if m.dstKind = 0 then
        (regionCheck k m.dstRegion (if m.reduce then permD else permW) dx.1 (dx.2 - dx.1).toNat).map fun c => (c, m.dstRegion + 64)
      else if m.dstKind = 2 ∧ (dx.1 < 0 ∨ dx.2 > 32768) then some (0x01, 0x40)
      else none
    match dst with
    | some x => some x
    | none =>
      let ok := (m.srcKind != 1 || m.len0 == 0 || tileOk fl.word sx false) && (m.dstKind != 1 || tileOk fl.word dx true)
        && (m.crcMode != 1 || inWriteSet fl.word m.crcOff 4)
        && (!(decide (m.dstKind = 3) && isMx m.aFmt) || inReadSet fl.word m.scAddr (2 * m.n1))
      if ok then none else some (0x23, early)

/-! ### Bursts (R198, R201, R210) -/

/-- Cuts a run of `n` bytes from source address `a` into bursts of up to four 64-byte source lines, on element bounds: for
each its first byte and its length. -/
def cutRun (a n z : Nat) : List (Nat × Nat) :=
  let cuts := ((List.range (n / 256 + 1)).map fun j => (4 * (j + 1) * 64 - a % 64) / z * z).filter fun p => decide (0 < p) && decide (p < n)
  let edges := 0 :: cuts
  (edges.zip (cuts ++ [n])).map fun p => (p.1, p.2 - p.1)

/-- A burst: source offset, bytes, destination offset; under skew its tile, first row and rows. -/
inductive Burst
  | run (src : Nat) (n : Nat) (dst : Nat)
  | rows (q : Nat) (m0 : Nat) (n : Nat)
  deriving DecidableEq, Repr

/-- The bursts of a MOVE in logical order; `sbase` is the physical base of a memory source. -/
def bursts (m : MoveDesc) (sbase : Nat) : List Burst :=
  if m.skew ≠ 0 then
    (List.range m.n2).flatMap fun q => (List.range (ceilDiv m.n1 4)).map fun i => .rows q (4 * i) (min 4 (m.n1 - 4 * i))
  else
    (List.range m.n2).flatMap fun (i2 : Nat) => (List.range m.n1).flatMap fun (i1 : Nat) =>
      let s := m.src + (i1 : Int) * m.ss1 + (i2 : Int) * m.ss2
      let t := m.dst + (i1 : Int) * m.ds1 + (i2 : Int) * m.ds2
      let z := if m.reduce then elemBytes m.fmt else 1
      let slot := if m.reduce then slotBytes m.exact m.fmt else 1
      (cutRun (sbase + s.toNat) m.len0 z).map fun p => .run (s.toNat + p.1) p.2 (t.toNat + p.1 / z * slot)

/-- The lines of a byte range. -/
def linesIn (a n : Nat) : List Nat := if n = 0 then [] else (List.range ((a + n - 1) / 64 - a / 64 + 1)).map fun i => a / 64 + i

/-- Reads memory bytes for a MOVE, line after line. -/
def readBytes (c cls a n : Nat) : List Nat → State → State × Res (List Byte)
  | [], s => (s, .ok [])
  | ln :: r, s =>
    match readAt 1216 c cls ln s with
    | (s1, .err e) => (s1, .err e)
    | (s1, .wait) => (s1, .wait)
    | (s1, .ok d) =>
      let q := linePart ln a n
      match readBytes c cls a n r s1 with
      | (s2, .ok bs) => (s2, .ok (((lineBytes d).drop q.1).take q.2.1 ++ bs))
      | x => x

/-- Reads source bytes at an offset: tile buffer, or memory unless the core's own list declares them dead (R249). -/
def moveRead (c : Nat) (m : MoveDesc) (o n : Nat) (s : State) : State × Res (List Byte) :=
  let k := getCore s c
  if m.srcKind = 1 then (s, .ok (memBytes k.tile o n))
  else
    let a := regionAddr k m.srcRegion o
    if deadHit k.dead a n && decide (n ≠ 0) then (s, .err 0x03)
    else readBytes c (rgClass (regionOf k m.srcRegion)) a n (linesIn a n) s

/-! ### Where the sides of a MOVE meet (R198) -/

/-- Where an offset of a side lies: in memory at its region's base, else as it is. -/
def placeOf (k : Core) (kind region : Nat) (o : Int) : Int := if kind = 0 then (rgBase (regionOf k region) : Int) + o else o

/-- Whether the extents of a MOVE's two sides meet, in one memory. -/
def sidesMeet (k : Core) (m : MoveDesc) : Bool :=
  let at_ (kind region : Nat) (e : Int × Int) : Int × Int := (placeOf k kind region e.1, placeOf k kind region e.2)
  let x := at_ m.srcKind m.srcRegion (srcExtent m)
  let y := at_ m.dstKind m.dstRegion (dstExtent m)
  m.srcKind == m.dstKind && decide (x.1 < y.2) && decide (y.1 < x.2)

/-- Whether a MOVE is a plain copy whose sides meet: each byte that it writes is then the old or the new value of the byte that it
copies (R198). -/
def selfCopy (k : Core) (m : MoveDesc) : Bool := !m.reduce && m.skew == 0 && sidesMeet k m

/-- Whether a MOVE under skew or reduce writes the byte at a place of its destination's memory. -/
def ownByte (k : Core) (m : MoveDesc) (x : Int) : Bool :=
  let meets (t : Int) (n : Nat) : Bool := let a := placeOf k m.dstKind m.dstRegion t
                                          decide (a ≤ x) && decide (x < a + n)
  (List.range m.n2).any fun (i2 : Nat) =>
    if m.skew ≠ 0 then meets (m.dst + (i2 : Int) * m.ds2) (64 * (m.n1 + laneCount m.laneFmt - 1))
    else (List.range m.n1).any fun (i1 : Nat) =>
      meets (m.dst + (i1 : Int) * m.ds1 + (i2 : Int) * m.ds2)
        (if m.reduce then m.len0 / elemBytes m.fmt * slotBytes m.exact m.fmt else m.len0)

/-- The source bytes at an offset. Under skew or reduce a byte that the MOVE writes itself is free: no rule says what it reads as
(log 16). -/
def moveSource (c : Nat) (m : MoveDesc) (o n : Nat) (s : State) : State × Res (List Byte) :=
  match moveRead c m o n s with
  | (s1, .ok bs) =>
    let k := getCore s1 c
    if sidesMeet k m && !(selfCopy k m) then
      ({ s1 with free := s1.free + n }, .ok (bs.zipIdx.map fun b =>
        if ownByte k m (placeOf k m.srcKind m.srcRegion ((o + b.2 : Nat) : Int)) then (Config.freeWord (s1.free + b.2)).truncate 8 else b.1))
    else (s1, .ok bs)
  | r => r

/-! ### Destinations -/

/-- Counts 64-byte units in CORE_DMA_LINES (R218). -/
def countLines (c n : Nat) (s : State) : State := modRegs s c fun r => { r with dmaLines := satInc r.dmaLines n }

/-- Bytes of the destination that `n` source bytes of a run take (R256). -/
def dstBytes (m : MoveDesc) (n : Nat) : Nat := if m.reduce then n / elemBytes m.fmt * slotBytes m.exact m.fmt else n

/-- First byte of a destination: the region's base for memory. -/
def dstBase (k : Core) (m : MoveDesc) : Nat := if m.dstKind = 0 then rgBase (regionOf k m.dstRegion) else 0

/-- The destination lines of a burst: for exact contributions the first lines of its groups. A skewed burst has none: its lines are
written once their rows are read. -/
def destLines (k : Core) (m : MoveDesc) (b : Burst) : List Nat :=
  match b with
  | .run _ n d =>
    let lns := linesIn (dstBase k m + d) (dstBytes m n)
    if m.reduce && m.exact then (lns.map fun ln => ln / 4 * 4).eraseDups else lns
  | .rows _ _ _ => []

/-- Adds to what is staged for a destination line. -/
def stageLine (x : Staged) (l : List Staged) : List Staged :=
  if l.any fun y => y.line == x.line then
    l.map fun y => if y.line == x.line then
        { y with mask := y.mask ||| x.mask, data := maskLine y.data x.data x.mask, elems := y.elems ++ x.elems }
      else y
  else l ++ [x]

/-- Stages the bytes of burst `i` of a run at physical or local address `a`. -/
def stageRun (m : MoveDesc) (a i : Nat) (bs : List Byte) (l : List Staged) : List Staged :=
  if m.reduce then
    let t := tagOf m.exact m.op m.fmt m.e
    let z := elemBytes m.fmt
    let slot := slotBytes m.exact m.fmt
    (splitElems a (bs.length / z) slot (if m.exact then 256 else 64)).foldl (fun l u =>
      let e := runElems t a u.1 u.2 fun j => leNat ((bs.drop (j * z)).take z)
      let touched := e.2.foldl (fun (x : BitVec 64) y => x ||| BitVec.ofNat 64 (2 ^ (y.1 * slot / 64))) 0
      stageLine { line := e.1, mask := touched, data := 0, elems := e.2, burst := i } l) l
  else
    (linesIn a bs.length).foldl (fun l ln =>
      let q := linePart ln a bs.length
      stageLine { line := ln, mask := byteMask q.1 q.2.1, data := placed q.1 q.2.1 (leNat ((bs.drop q.2.2).take q.2.1))
                  elems := [], burst := i } l) l

/-- Writes the bytes that a mask names of a line of a local memory. -/
def memWriteLine (m : ByteMem) (ln : Nat) (mask : BitVec 64) (d : Line) : ByteMem :=
  (List.range 64).foldl (fun m i => if mask.getLsbD i then memPut m (64 * ln + i) (lineByte d i) else m) m

/-- Whether the order in which a MOVE's contributions reach their homes can show: that of adds outside exact mode (R206). -/
def unordered (m : MoveDesc) : Bool := m.reduce && !m.exact && m.op == 0

/-- The numbers of a list in an order that `pick` chooses. -/
def shuffle {α : Type} (pick : Nat → Nat) : Nat → List α → List α
  | 0, l => l
  | n + 1, l => match l[pick n % l.length]? with
    | some a => a :: shuffle pick n (l.eraseIdx (pick n % l.length))
    | none => l

/-- Writes a destination line, or sends contributions: what is left of it, nothing when all has gone. Where their order can show, the
contributions go in an order, and as many at a time, as free values draw (R206; log 16). -/
def sendStaged (c : Nat) (m : MoveDesc) (bank : Option Bool) (x : Staged) (s : State) : State × Res (Option Staged) :=
  let k := getCore s c
  let cls := rgClass (regionOf k m.dstRegion)
  if m.dstKind = 1 then (modCore s c fun k => { k with tile := memWriteLine k.tile x.line x.mask x.data }, .ok none)
  else if m.dstKind = 2 then
    let b := bank.getD false
    (modCore s c fun k => setValid (setBank k b (memWriteLine (bankMem k b) x.line x.mask x.data)) b false, .ok none)
  else if m.reduce then
    let free := unordered m
    let n := x.elems.length
    let all := if free then shuffle (fun j => (Config.freeWord (s.free + j)).toNat) n x.elems else x.elems
    let part := if free then 1 + (Config.freeWord (s.free + n)).toNat % n else n
    let s0 := if free then { s with free := s.free + n + 1 } else s
    match sendContrib c cls x.line (tagOf m.exact m.op m.fmt m.e) (all.take part) s0 with
    | (s1, .ok _) => (s1, .ok (if part < n then some { x with elems := all.drop part } else none))
    | (s1, .err e) => (s1, .err e)
    | (s1, .wait) => (s1, .wait)
  else
    match engineWrite c cls x.line x.mask x.data s with
    | (s1, .ok _) => (s1, .ok none)
    | (s1, .err e) => (s1, .err e)
    | (s1, .wait) => (s1, .wait)

/-! ### Skewed layouts (R200, R201) -/

/-- Lane `j` of a row as its number: zero where it is not present (R200). -/
def rowLane (f len0 row j : Nat) : Nat :=
  let b := laneSrcBits f
  if b * (j + 1) ≤ 8 * len0 then bitsOf row (b * (j + 1) - 1) (b * j) else 0

/-- Line `c` of the skewed layout of `M` rows: its value and the bits inside the window (R201). -/
def skewLine (f len0 M : Nat) (rows : List Nat) (c : Nat) : Nat × Nat :=
  let w := laneDstBits f
  (List.range (laneCount f)).foldl (fun a j =>
    if j ≤ c ∧ c - j < M then
      (a.1 + (rowLane f len0 (rows.getD (c - j) 0) j) <<< (w * j), a.2 + (2 ^ w - 1) <<< (w * j))
    else a) (0, 0)

/-- Writes lines `lo .. hi - 1` of a tile under fill or merge (R201). -/
def writeSkew (c : Nat) (m : MoveDesc) (q : Nat) (rows : List Nat) (lo hi : Nat) (s : State) : State :=
  let base := (m.dst + (q : Int) * m.ds2).toNat
  let s1 := (List.range (hi - lo)).foldl (fun s i =>
    let ln := skewLine m.laneFmt m.len0 m.n1 rows (lo + i)
    let a := base + 64 * (lo + i)
    let old := memRead (getCore s c).tile a 64
    let v := if m.skew = 1 then ln.1 else (old &&& (2 ^ 512 - 1 - ln.2)) ||| ln.1
    tileWrite c a 64 v s) s
  countLines c (hi - lo) s1

/-- Reads the rows of a skewed burst: their bytes for the CRC and their values. -/
def readRows (c : Nat) (m : MoveDesc) (q : Nat) : List Nat → State → State × Res (List Byte × List Nat)
  | [], s => (s, .ok ([], []))
  | r :: rs, s =>
    match moveSource c m (m.src + (q : Int) * m.ss2 + (r : Int) * m.ss1).toNat m.len0 s with
    | (s1, .ok bs) => match readRows c m q rs s1 with
      | (s2, .ok (b2, v2)) => (s2, .ok (bs ++ b2, leNat bs :: v2))
      | x => x
    | (s1, .err e) => (s1, .err e)
    | (s1, .wait) => (s1, .wait)

/-! ### A MOVE on its channel -/

/-- The progress of a MOVE. -/
def progOf (fl : Flight) : MoveProg :=
  match fl.aux with
  | .move p => p
  | _ => {}

/-- Keeps it. -/
def keepProg (c tag : Nat) (p : MoveProg) (s : State) : State :=
  modCore s c fun k => modFlight k tag fun x => { x with aux := .move p }

/-- The bursts of a flight. -/
def flightBursts (k : Core) (m : MoveDesc) : List Burst := bursts m (if m.srcKind = 0 then rgBase (regionOf k m.srcRegion) else 0)

/-- How many of `n` bursts the channel issues: all, or those that had been issued when one failed (R213). -/
def issueLimit (p : MoveProg) (n : Nat) : Nat := if p.bad.isEmpty then n else min p.bound n

/-- Whether a destination line must wait: a burst still to come has bytes in it, or one that has failed, so that it is either left
alone or written as far as the MOVE's bytes in it extend (R213). -/
def lineOpen (k : Core) (m : MoveDesc) (bs : List Burst) (p : MoveProg) (ln : Nat) : Bool :=
  (selfCopy k m && decide (p.next < issueLimit p bs.length))
    || (bs.drop p.next).any (fun b => (destLines k m b).contains ln)
    || p.bad.any fun e => match bs[e.1]? with
      | some b => (destLines k m b).contains ln
      | none => false

/-- Notes that burst `i` has failed; from the first failure on no further burst issues, and how many had issued is free (R213; log 16). -/
def failBurst (n i code pick : Nat) (p : MoveProg) : MoveProg :=
  if p.bad.isEmpty then { p with bad := [(i, code)], bound := p.next + pick % (n - p.next + 1), early := !p.moved }
  else { p with bad := p.bad ++ [(i, code)] }

/-- Sends what is staged and complete; what must wait at a home stays staged. -/
def flushStaged (c : Nat) (m : MoveDesc) (bs : List Burst) : List Staged → MoveProg → State → State × MoveProg
  | [], p, s => (s, p)
  | x :: r, p, s =>
    let rest (y : Option Staged) : List Staged :=
      p.staged.filterMap fun z => if z.line == x.line then y else some z
    if lineOpen (getCore s c) m bs p x.line then flushStaged c m bs r p s
    else match sendStaged c m p.bank x s with
      | (s1, .ok y) =>
        let units := ((List.range 64).filter fun i => x.mask.getLsbD i).length
        let s2 := if y.isSome then s1 else countLines c (if m.reduce then units else 1) s1
        flushStaged c m bs r { p with staged := rest y, moved := true } s2
      | (s1, .err e) =>
        flushStaged c m bs r (failBurst bs.length x.burst e (Config.freeWord s1.free).toNat { p with staged := rest none }) (takeFree s1)
      | (s1, .wait) => flushStaged c m bs r p s1

/-- The bytes that a plain copy onto itself has read, in logical order: where each comes from and goes to (R198). -/
def copyPairs (k : Core) (m : MoveDesc) (bs : List Burst) (copied : List (List Byte)) : List (Nat × Nat × Byte) :=
  let src := if m.srcKind = 0 then rgBase (regionOf k m.srcRegion) else 0
  (bs.zip copied).flatMap fun b => match b.1 with
    | .run o _ d => b.2.zipIdx.map fun x => (src + o + x.2, dstBase k m + d + x.2, x.1)
    | .rows _ _ _ => []

/-- The value of the byte that copy `i` reads: the old one, or by a free choice the one that the MOVE itself writes there. -/
def settleByte (l : List (Nat × Nat × Byte)) (seed : Nat) : Nat → Nat → Byte
  | 0, i => match l[i]? with
    | some x => x.2.2
    | none => 0
  | n + 1, i => match l[i]? with
    | none => 0
    | some x =>
      match ((List.range l.length).filter fun j => (l[j]?.map fun y => y.2.1) == some x.1).getLast? with
      | some j => if (Config.freeWord (seed + i)).getLsbD 0 then settleByte l seed n j else x.2.2
      | none => x.2.2

/-- Settles a plain copy onto itself once its bursts have been read: the staged lines and the CRC register. -/
def settleCopy (k : Core) (m : MoveDesc) (bs : List Burst) (seed : Nat) (p : MoveProg) : MoveProg :=
  let l := copyPairs k m bs p.copied
  let vals := (List.range l.length).map fun i => settleByte l seed l.length i
  let st := ((bs.zip p.copied).zipIdx.foldl (fun (a : List Staged × List Byte) b =>
    match b.1.1 with
    | .run _ _ d =>
      let mine := a.2.take b.1.2.length
      (stageRun m (dstBase k m + d) b.2 mine a.1, a.2.drop b.1.2.length)
    | .rows _ _ _ => a) ([], vals)).1
  { p with staged := st, copied := [], crc := BitVec.ofNat 32 (crc32Reg ((m.crcInit ^^^ 0xFFFFFFFF) % 2 ^ 32) vals) }

/-- Issues the next burst: its source is read, and its bytes are staged for their destination. One that must wait at a home is
issued again. -/
def readBurst (c : Nat) (m : MoveDesc) (bs : List Burst) (p : MoveProg) (s : State) : State × MoveProg :=
  let i := p.next
  let k := getCore s c
  match bs[i]? with
  | none => (s, p)
  | some (.run o n d) =>
    match moveSource c m o n s with
    | (s1, .wait) => (s1, p)
    | (s1, .err e) => (takeFree s1, failBurst bs.length i e (Config.freeWord s1.free).toNat
        { p with next := i + 1, copied := if selfCopy k m then p.copied ++ [[]] else p.copied })
    | (s1, .ok b) =>
      if selfCopy k m then (s1, { p with next := i + 1, copied := p.copied ++ [b] })
      else (s1, { p with
        next := i + 1, crc := BitVec.ofNat 32 (crc32Reg p.crc.toNat b), staged := stageRun m (dstBase k m + d) i b p.staged })
  | some (.rows q m0 n) =>
    match readRows c m q ((List.range n).map fun j => m0 + j) s with
    | (s1, .wait) => (s1, p)
    | (s1, .err e) => (takeFree s1, failBurst bs.length i e (Config.freeWord s1.free).toNat { p with next := i + 1 })
    | (s1, .ok (b, vs)) =>
      if !p.bad.isEmpty then (s1, { p with next := i + 1 })
      else
        let rows := (if m0 = 0 then [] else p.rows) ++ vs
        let p1 := { p with next := i + 1, crc := BitVec.ofNat 32 (crc32Reg p.crc.toNat b), rows }
        if m.dstKind = 3 then (s1, p1)
        else
          let hi := if m0 + n = m.n1 then m.n1 + laneCount m.laneFmt - 1 else m0 + n
          (writeSkew c m q rows m0 hi s1, { p1 with moved := true })

/-- Ends the validity of a bank that a faulted MOVE was to write (R207). -/
def spoilBank (c : Nat) (fl : Flight) (s : State) : State :=
  match (progOf fl).bank with
  | some b => modCore s c fun k => setValid k b false
  | none => s

/-- A MOVE faults. -/
def moveFault (c : Nat) (fl : Flight) (code detail : Nat) (s : State) : State :=
  flightFault c fl code detail (spoilBank c fl s)

/-- Leaves a fault to be raised once the bursts have ended (R213). -/
def moveFails (c : Nat) (fl : Flight) (code detail : Nat) (s : State) : State :=
  modCore s c fun k => modFlight k fl.tag fun x => { x with ph := .started, flt := some (code, detail) }

/-- The detail of a fault that arises on a channel: whether no byte had moved, the channel, the burst (R213). -/
def burstDetail (early : Bool) (chan burst : Nat) : Nat := (if early then 2 ^ 31 else 0) + chan * 2 ^ 28 + min burst 0x0FFFFFFF

/-- Ends a MOVE whose bytes have moved: the CRC action, the bank's validity (R209, R110). `moved` is whether a byte moved. -/
def moveEnd (c : Nat) (fl : Flight) (m : MoveDesc) (crc : Nat) (moved : Bool) (burst : Nat) (s : State) : State :=
  let s1 := if m.crcMode = 0 then s else modRegs s c fun r => { r with dmaCrc := tblPut r.dmaCrc fl.tag (BitVec.ofNat 32 crc) }
  let s2 := if m.crcMode = 1 ∧ moved = true then tileWrite c m.crcOff 4 crc s1 else s1
  if m.crcMode = 2 ∧ crc ≠ m.crcExpect then moveFails c fl 0x29 (burstDetail (!moved) fl.chan burst) s2
  else
    let s3 := match (progOf fl).bank with
      | some b => if moved then modCore s2 c fun k => setValid k b true else s2
      | none => s2
    flightDone c fl s3

/-- The lowest failed burst with its code (R213). -/
def lowestBad (l : List (Nat × Nat)) : Option (Nat × Nat) :=
  l.foldl (fun m e => match m with
    | some x => if e.1 < x.1 then some e else some x
    | none => some e) none

/-- What follows once a channel has issued what it issues and everything complete has gone: the MOVE ends, or its fault is left to be
raised. A stream-feed MOVE ends with its packet. -/
def moveSettles (c : Nat) (fl : Flight) (m : MoveDesc) (bs : List Burst) (p : MoveProg) (s : State) : State :=
  let k := getCore s c
  if decide (p.next < issueLimit p bs.length) || p.staged.any (fun x => !(lineOpen k m bs p x.line)) then s
  else match lowestBad p.bad with
  | some (i, code) => moveFails c fl code (burstDetail p.early fl.chan i) s
  | none => if m.dstKind = 3 then s else moveEnd c fl m (p.crc.toNat ^^^ 0xFFFFFFFF) true (bs.length - 1) s

/-- One burst slot of a channel (R210): its next burst, and everything that can leave for its destination. -/
def moveStep (c : Nat) (fl : Flight) (s : State) : State :=
  let m := moveDesc fl
  let bs := flightBursts (getCore s c) m
  let p := progOf fl
  let limit := issueLimit p bs.length
  let (s1, p1) := if p.next < limit then readBurst c m bs p s else (s, p)
  let settled := selfCopy (getCore s c) m && decide (p.next < limit) && decide (p1.next ≥ issueLimit p1 bs.length)
  let (s2, p2) := if settled then
      ({ s1 with free := s1.free + (p1.copied.map List.length).sum }, settleCopy (getCore s1 c) m bs s1.free p1)
    else (s1, p1)
  let (s3, p3) := flushStaged c m bs p2.staged p2 s2
  moveSettles c fl m bs p3 (keepProg c fl.tag p3 s3)

/-- The start of a MOVE on its channel: the checks of R197 in their order. -/
def startMove (c : Nat) (fl : Flight) (s : State) : State :=
  let k := getCore s c
  let m := moveDesc fl
  match moveForm fl.desc m (dstBase k m) with
  | some bit => moveFault c fl 0x0E bit s
  | none =>
    if moveEmpty m then moveEnd c fl m m.crcInit false 0 s
    else match moveChecks k fl m with
    | some (code, d) => moveFault c fl code d s
    | none =>
      modCore s c fun k => modFlight k fl.tag fun x =>
        { x with ph := .started, aux := .move { progOf fl with crc := BitVec.ofNat 32 (m.crcInit ^^^ 0xFFFFFFFF) } }

/-! ### Arbitration (R211) -/

/-- The channels that work: MOVEs started whose fault is not yet decided. -/
def working (k : Core) : List Flight :=
  k.flights.filter fun f => f.eng == 1 && decide (f.ph = .started) && f.flt.isNone

/-- Whether a channel has a burst to issue. -/
def burstReady (k : Core) (f : Flight) : Bool :=
  let m := moveDesc f
  let n := (flightBursts k m).length
  decide ((progOf f).next < issueLimit (progOf f) n)

/-- The order in which a channel is served: passed over for 64 slots first, by number; then by priority, and round-robin within one
behind the channel last served at it. -/
def serveKey (k : Core) (f : Flight) : Nat :=
  let prio := dBits f.desc 26 25
  if tblGet 0 k.dmaPass f.chan ≥ 64 then f.chan
  else 8 + 8 * (3 - prio) + (f.chan + 15 - tblGet 7 k.dmaLast prio) % 8

/-- The working channels in that order. -/
def serveOrder (k : Core) : List Flight :=
  (List.range 40).flatMap fun i => (working k).filter fun f => serveKey k f == i

/-- Gives a slot to the first of the channels that can use it: which one did. -/
def serveFirst (c : Nat) : List Flight → State → State × Option Flight
  | [], s => (s, none)
  | f :: r, s =>
    let s1 := moveStep c f s
    match flightOf (getCore s1 c) f.tag with
    | some g => if g = f then serveFirst c r s1 else (s1, some f)
    | none => (s1, some f)

/-- One burst slot of the engine: the arbiter's counts follow the channel that took it. -/
def grantSlot (c : Nat) (s : State) : State :=
  let k := getCore s c
  match serveFirst c (serveOrder k) s with
  | (s1, none) => s1
  | (s1, some f) =>
    modCore s1 c fun x => { x with
      dmaLast := tblPut x.dmaLast (dBits f.desc 26 25) f.chan
      dmaPass := ((working k).filter fun g => g.chan != f.chan && burstReady k g).map fun g => (g.chan, tblGet 0 k.dmaPass g.chan + 1) }

/-- Burst slots one after the other. -/
def grantSlots (c : Nat) : Nat → State → State
  | 0, s => s
  | n + 1, s => grantSlots c n (grantSlot c s)

/-- MOVE_CHANNEL_START (R197 to R211): the MOVE with a tag starts on its channel, unless it has; then the engine grants burst slots to
its channels, as many as the sender names (log 14). -/
def execMoveChannelStart (c : CoreNo) (tag : BitVec 5) (s : State) (slots : Nat := 1) : Out :=
  .next (
    match flightOf (getCore s c.val) tag.toNat with
    | some fl =>
      if frozen s || (getCore s c.val).resetting || fl.eng != 1 then s
      else grantSlots c.val slots (if fl.ph = .queued then startMove c.val fl s else s)
    | none => s)

/-- MOVE_FAULT_RAISE (R213): the bursts of a failed MOVE have ended. -/
def execMoveFaultRaise (c : CoreNo) (tag : BitVec 5) (s : State) : Out :=
  .next (
    match flightOf (getCore s c.val) tag.toNat with
    | some fl =>
      match fl.eng, fl.flt with
      | 1, some (code, d) => if frozen s then s else moveFault c.val fl code d s
      | _, _ => s
    | none => s)

/-! ### What a MOVE does at issue (R210, R249) -/

/-- The dead-range list once a MOVE has issued: every entry that its destination runs meet is gone (R249). -/
def moveDead (k : Core) (fl : Flight) : List DeadEntry :=
  let m := moveDesc fl
  if m.dstKind ≠ 0 ∨ m.skew ≠ 0 then k.dead else
  let n := dstBytes m m.len0
  if n = 0 ∨ k.dead = [] then k.dead else
  (List.range m.n2).foldl (fun l (i2 : Nat) => (List.range m.n1).foldl (fun l (i1 : Nat) =>
    deadRemove l ((rgBase (regionOf k m.dstRegion) : Int) + m.dst + (i1 : Int) * m.ds1 + (i2 : Int) * m.ds2).toNat n) l) k.dead

end Sys2Proof.Machine
end

