-- ==== Sys2Proof/Machine/Packet.lean ====
section
/-! DEFINITION. Flits and transport packets as bytes (R315 to R317, R324 to R326). -/
namespace Sys2Proof.Machine

/-- CRC-32C with crc_init 0 (R208). -/
def crc0 (bs : List Byte) : Nat := crc32c 0 bs

/-- The 32-byte header of a packet (R324). -/
def headerBytes (p : Packet) : List Byte :=
  leBytes 2 p.dst.toNat ++ leBytes 2 p.src.toNat ++ [p.typ, p.hop, p.dgen, p.sgen]
    ++ leBytes 2 (p.len.toNat + p.vc.toNat * 2 ^ 13 + b2n p.rsv * 2 ^ 15) ++ leBytes 2 p.tag.toNat ++ leBytes 4 p.seq.toNat
    ++ leBytes 4 p.crc.toNat ++ leBytes 12 p.fields.toNat

/-- A packet's bytes. -/
def packetBytes (p : Packet) : List Byte := headerBytes p ++ p.payload

/-- `n` bytes of a list from `off`, as a little-endian number. -/
def bytesAt (bs : List Byte) (off n : Nat) : Nat := leNat ((bs.drop off).take n)

/-- The packet that bytes hold; fewer than 32 of them hold none. -/
def packetOf (bs : List Byte) : Option Packet :=
  if bs.length < 32 then none else
  let lv := bytesAt bs 8 2
  some { dst := BitVec.ofNat 16 (bytesAt bs 0 2), src := BitVec.ofNat 16 (bytesAt bs 2 2)
         typ := BitVec.ofNat 8 (bytesAt bs 4 1), hop := BitVec.ofNat 8 (bytesAt bs 5 1)
         dgen := BitVec.ofNat 8 (bytesAt bs 6 1), sgen := BitVec.ofNat 8 (bytesAt bs 7 1)
         len := BitVec.ofNat 13 lv, vc := BitVec.ofNat 2 (lv / 2 ^ 13), rsv := lv.testBit 15
         tag := BitVec.ofNat 16 (bytesAt bs 10 2), seq := BitVec.ofNat 32 (bytesAt bs 12 4)
         crc := BitVec.ofNat 32 (bytesAt bs 16 4), fields := BitVec.ofNat 96 (bytesAt bs 20 12), payload := bs.drop 32 }

/-- `n` bytes of the type-specific fields from header offset `off`, 0x14 or above. -/
def pField (p : Packet) (off n : Nat) : Nat := bitsOf p.fields.toNat (8 * (off - 0x14 + n) - 1) (8 * (off - 0x14))

/-- A packet's virtual channel by its type; EACK takes that of the context it acknowledges (R325). -/
def typeVc (typ : Nat) : Nat :=
  if typ = 0x01 ∨ typ = 0x02 then 2 else if typ = 0x03 ∨ (0x11 ≤ typ ∧ typ ≤ 0x13) then 1
  else if typ = 0x04 ∨ typ = 0x20 then 3 else 0

/-- Whether a type is in the table of R325; EACK exists in Ethernet mode only. -/
def typeKnown (eth : Bool) (typ : Nat) : Bool :=
  typ ∈ [0x01, 0x02, 0x03, 0x04, 0x10, 0x11, 0x12, 0x13, 0x20] || (eth && typ == 0x30)

/-- Whether a type carries a payload. -/
def typePayload (typ : Nat) : Bool := typ == 0x02 || typ == 0x11 || typ == 0x20

/-- Whether the destination discards a packet (R326): unknown type, a length that its type or its bytes contradict, or a
failing payload CRC. -/
def packetBad (eth : Bool) (p : Packet) : Bool :=
  let l := p.len.toNat
  !(typeKnown eth p.typ.toNat) || (if typePayload p.typ.toNat then l == 0 else l != 0) || p.payload.length != l
    || (if l = 0 then p.crc != 0 else p.crc.toNat != crc0 p.payload)

/-- A packet with its length, channel and CRC filled in. -/
def sealPacket (p : Packet) : Packet :=
  { p with len := BitVec.ofNat 13 p.payload.length, vc := if p.typ = 0x30 then p.vc else BitVec.ofNat 2 (typeVc p.typ.toNat)
           crc := if p.payload = [] then 0 else BitVec.ofNat 32 (crc0 p.payload) }

/-- Type-specific fields from values at header offsets 0x14, 0x18, 0x19 and 0x1C, of 4, 1, 1 and 4 bytes. -/
def pFields (a b c d : Nat) : BitVec 96 :=
  BitVec.ofNat 96 (a % 2 ^ 32 + b % 256 * 2 ^ 32 + c % 256 * 2 ^ 40 + d % 2 ^ 32 * 2 ^ 64)

/-! ### Flits (R315) -/

/-- The fields of a flit's header and its payload bytes. -/
structure Flit where
  kind : Nat
  seq : Nat := 0
  ack : Nat := 0
  vc : Nat := 0
  cls : Bool := false
  sop : Bool := false
  eop : Bool := false
  bytes : Nat := 0
  pool : Nat := 0
  credits : Nat := 0
  abort : Bool := false
  data : List Byte := []
  deriving DecidableEq, Repr

/-- The 64-bit header. -/
def flitHeader (f : Flit) : Nat :=
  fieldAt f.kind 3 61 + fieldAt f.seq 8 53 + fieldAt f.ack 8 45 + fieldAt f.vc 2 43 + fieldAt (b2n f.cls) 1 42
    + fieldAt (b2n f.sop) 1 41 + fieldAt (b2n f.eop) 1 40 + fieldAt f.bytes 8 32 + fieldAt f.pool 3 29
    + fieldAt f.credits 8 21 + fieldAt (b2n f.abort) 1 20

/-- The 2,048 bits of a flit: header, 244 payload bytes, CRC-32C of the 252 bytes before it. -/
def flitBits (f : Flit) : BitVec 2048 :=
  let body := leBytes 8 (flitHeader f) ++ (f.data ++ List.replicate 244 0).take 244
  BitVec.ofNat 2048 (leNat (body ++ leBytes 4 (crc0 body)))

/-- The flit that 2,048 bits hold, with whether its CRC is right. -/
def flitOf (b : BitVec 2048) : Flit × Bool :=
  let bs := leBytes 256 b.toNat
  let h := leNat (bs.take 8)
  ({ kind := bitsOf h 63 61, seq := bitsOf h 60 53, ack := bitsOf h 52 45, vc := bitsOf h 44 43, cls := bitOf h 42
     sop := bitOf h 41, eop := bitOf h 40, bytes := bitsOf h 39 32, pool := bitsOf h 31 29, credits := bitsOf h 28 21
     abort := bitOf h 20, data := (bs.drop 8).take 244 }, decide (crc0 (bs.take 252) = leNat (bs.drop 252)))

/-- The flits of a packet's bytes: 244 payload bytes in each but the last (R326). -/
def flitsOf (vc : Nat) (cls : Bool) (bs : List Byte) : List TxFlit :=
  let n := ceilDiv bs.length 244
  (List.range n).map fun i =>
    { vc, cls, sop := i == 0, eop := i + 1 == n, bytes := (bs.drop (244 * i)).take 244 }

end Sys2Proof.Machine
end

