-- ==== Sys2Proof/Machine/Link.lean ====
section
/-! DEFINITION. A link's port: credits, retry, arbitration among its channels, and what leaving ACTIVE does (R314 to R323,
R338). -/
namespace Sys2Proof.Machine

/-- A link. -/
def getLink (s : State) (l : Nat) : Link := tblGet {} s.net.links l
/-- Changes a link. -/
def modLink (s : State) (l : Nat) (f : Link → Link) : State :=
  { s with net := { s.net with links := tblPut s.net.links l (f (getLink s l)) } }

/-- Control-space block of a link (R26). -/
def linkSrc (l : Nat) : Nat := blockSrc (4 + l / 12) 31 (l % 12)

/-- Counts discarded packets of a port. -/
def linkDrop (l n : Nat) (s : State) : State :=
  if n = 0 then s else modLink s l fun k => { k with drop := satInc k.drop n, cause := k.cause ||| 8 }

/-- The flit buffers of a pool, by 2 × VC + class (R320). -/
def poolSize (p : Nat) : Nat := if p / 2 = 0 then 24 else if p / 2 = 1 then 40 else if p / 2 = 2 then 48 else 16

/-- The ack field: the last data flit received in order. -/
def ackOf (k : Link) : Nat := (k.rxSeq - 1).toNat

/-- The first pool with credits owed, and how many of them one flit can carry. -/
def owedOf (k : Link) : Nat × Nat :=
  match k.owed.find? fun e => decide (e.2 > 0) with
  | some (p, n) => (p, min n 255)
  | none => (0, 0)

/-! ### Slots, codewords and lanes (R312 to R314) -/

/-- Bits of a slot. -/
def slotBits : Nat := 2048
/-- Message bits of an RS(544,514) codeword of 10-bit symbols. -/
def codewordBits : Nat := 5140
/-- The codewords that a slot's bits lie in, counted from the start of slot 0: slots follow one another without a gap. -/
def slotCodewords (i : Nat) : List Nat := [slotBits * i / codewordBits, (slotBits * i + slotBits - 1) / codewordBits].eraseDups
/-- Whether a slot is a control slot. -/
def isControlSlot (i : Nat) : Bool := i % 78 == 0
/-- The index of the control slot at or before a slot, modulo 2^16 (R317). -/
def controlIndex (i : Nat) : BitVec 16 := BitVec.ofNat 16 (i / 78)
/-- The first control slot at or after a slot. -/
def nextControl (i : Nat) : Nat := (i + 77) / 78 * 78

/-- The physical lane of a logical lane. -/
def laneOf (map : BitVec 12) (i : Nat) : Nat := bitsOf map.toNat (3 * i + 2) (3 * i)
/-- The physical lane that carries symbol `j` of the codewords: symbols go round the logical lanes in turn. -/
def symbolLane (map : BitVec 12) (j : Nat) : Nat := laneOf map (j % 4)
/-- A lane map with a logical lane on the spare, physical lane 4. -/
def toSpare (map : BitVec 12) (i : Nat) : BitVec 12 := BitVec.ofNat 12 (setField map.toNat 4 3 (3 * i))
/-- Whether a map uses the spare. -/
def usesSpare (map : BitVec 12) : Bool := (List.range 4).any fun i => laneOf map i == 4

/-- Whether a direction has reached a control-slot index, modulo 2^16. -/
def indexReached (slot : Nat) (index : BitVec 16) : Bool := decide ((controlIndex slot - index).toNat < 2 ^ 15)

/-- The event and the mark of a moved lane (R358). -/
def laneMoved (l : Nat) (s : State) : State :=
  logEvent 0x10A (linkSrc l) 0 (modLink s l fun k => { k with cause := k.cause ||| 4 })

/-- Moves the acknowledged lane of the transmit direction to the spare. -/
def moveTx (l lane : Nat) (s : State) : State :=
  laneMoved l (modLink s l fun k => { k with txMap := toSpare k.txMap lane, txSpare := true, txRepeat := none, txSwap := none })

/-- Moves the acknowledged lane of the receive direction to the spare: the lane before it is out of service. -/
def moveRx (l lane : Nat) (s : State) : State :=
  laneMoved l (modLink s l fun k => { k with
    rxBad := k.rxBad ||| BitVec.ofNat 5 (2 ^ laneOf k.rxMap lane), rxMap := toSpare k.rxMap lane, rxSpare := true
    rxRequest := none, rxSwap := none })

/-- Moves the lanes whose control-slot index has been reached; `all` moves every acknowledged one: idle slots have passed (log 51). -/
def settleSwap (all : Bool) (l : Nat) (s : State) : State :=
  let k := getLink s l
  let s1 := match k.txSwap with
    | some (lane, i) => if all || indexReached k.txSlot i then moveTx l lane s else s
    | none => s
  match k.rxSwap with
  | some (lane, i) => if all || indexReached k.rxSlot i then moveRx l lane s1 else s1
  | none => s1

/-- Sends a flit in the next outgoing slot with its ack and the credits owed. -/
def putSlot (l : Nat) (f : Flit) (s : State) : State :=
  let k := getLink s l
  let o := owedOf k
  let s1 := modLink s l fun k => { k with owed := tblPut k.owed o.1 (tblGet 0 k.owed o.1 - o.2), txSlot := k.txSlot + 1 }
  answer s1 (.flit l (flitBits { f with ack := ackOf k, pool := o.1, credits := o.2 }))

/-- A control flit of a link (R317). -/
def controlFlit (s : State) (l cmd lane index : Nat) : Flit :=
  { kind := 3
    data := [BitVec.ofNat 8 cmd, BitVec.ofNat 8 lane] ++ leBytes 2 index ++ leBytes 2 s.net.devid.toNat ++ [BitVec.ofNat 8 l, s.boot.gen] }

/-- Puts a flit on the wire of a link: control slots hold a control flit and no other slot does. A control flit with a command goes in
the next control slot; the slots before it pass idle (R313, R314; log 51). -/
def emitFlit (l : Nat) (f : Flit) (s : State) : State :=
  let k := getLink s l
  if f.kind = 3 then settleSwap false l (putSlot l f (modLink s l fun k => { k with txSlot := nextControl k.txSlot }))
  else if isControlSlot k.txSlot then putSlot l f (settleSwap false l (putSlot l (controlFlit s l 0 0 0) s))
  else putSlot l f s

/-- A data flit with a sequence number. -/
def dataFlit (seq : BitVec 8) (f : TxFlit) : Flit :=
  { kind := 1, seq := seq.toNat, vc := f.vc, cls := f.cls, sop := f.sop, eop := f.eop, bytes := f.bytes.length
    abort := f.abort, data := f.bytes }

/-- The packet that a channel sends next: the one begun, else the oldest of class 1, else the oldest of class 0 (R322, R323);
only one with a flit in the egress buffers and a credit for it can send. -/
def nextOf (k : Link) (vc : Nat) : Option TxPkt :=
  let mine := k.tx.filter fun p => p.vc == vc
  let ready (p : TxPkt) : Bool := !p.flits.isEmpty && decide (p.inBuf > 0) && decide (tblGet 0 k.credits (2 * vc + b2n p.cls) > 0)
  match mine.find? fun p => p.begun with
  | some p => if ready p then some p else none
  | none =>
    match mine.find? fun p => p.cls && ready p with
    | some p => some p
    | none => mine.find? fun p => !p.cls && ready p

/-- The channel that sends next: one passed over 64 times in a row, else by priority VC 3, 1, 2, 0 (R322). -/
def nextVc (k : Link) : Option Nat :=
  let able := [3, 1, 2, 0].filter fun v => (nextOf k v).isSome
  match able.find? fun v => decide (tblGet 0 k.passed v ≥ 64) with
  | some v => some v
  | none => able.head?

/-- Replaces the first packet of a list that equals `p`. -/
def replacePkt (p : TxPkt) (q : Option TxPkt) : List TxPkt → List TxPkt
  | [] => []
  | x :: r => if x = p then q.toList ++ r else x :: replacePkt p q r

/-- The pool of a packet's flits. -/
def poolOf (p : TxPkt) : Nat := 2 * p.vc + b2n p.cls

/-- Flits of a pool that stand in the egress buffers of a port. -/
def bufUsed (k : Link) (pool : Nat) : Nat := ((k.tx.filter fun p => poolOf p == pool).map fun p => p.inBuf).sum

/-- Moves flits that wait for a port into its egress buffers, as far as their pools have room (R320). A forwarded flit leaves its
buffer at the ingress, whose partner is owed the credit (R321). -/
def fillBufs (l : Nat) (s : State) : State :=
  (List.range (getLink s l).tx.length).foldl (fun s i =>
    let k := getLink s l
    match k.tx[i]? with
    | none => s
    | some p =>
      let m := min (p.flits.length - p.inBuf) (poolSize (poolOf p) - bufUsed k (poolOf p))
      if m = 0 then s else
      let s1 := modLink s l fun k => { k with tx := k.tx.set i { p with inBuf := p.inBuf + m } }
      match p.src with
      | some (j, ip) => modLink s1 j fun k => { k with owed := tblMod 0 k.owed ip fun n => n + m }
      | none => s1) s

/-- Sends data flits while a channel has one with a credit and the replay buffer has room (R318, R321 to R323). -/
def pump (l : Nat) : Nat → State → State
  | 0, s => s
  | n + 1, s0 =>
    let s := fillBufs l s0
    let k := getLink s l
    if k.st ≠ .active ∨ k.eth ∨ k.replayBuf.length ≥ 64 then s else
    match nextVc k with
    | none => s
    | some vc =>
      match nextOf k vc with
      | none => s
      | some p =>
        match p.flits with
        | [] => s
        | f :: rest =>
          let pool := 2 * vc + b2n p.cls
          let able := [3, 1, 2, 0].filter fun v => v != vc && (nextOf k v).isSome
          let q : Option TxPkt := if f.eop then none else some { p with begun := true, flits := rest, inBuf := p.inBuf - 1 }
          let s1 := modLink s l fun k => { k with
            credits := tblPut k.credits pool (tblGet 0 k.credits pool - 1)
            replayBuf := k.replayBuf ++ [(k.txSeq, f)]
            txSeq := k.txSeq + 1
            tx := replacePkt p q k.tx
            passed := able.foldl (fun t v => tblMod 0 t v fun n => n + 1) (tblPut k.passed vc 0) }
          pump l n (emitFlit l (dataFlit k.txSeq f) s1)

/-- Sends what can be sent; with 64 places in the replay buffer no more than 64 flits go at once. -/
def pumpAll (l : Nat) (s : State) : State := pump l 64 s

/-- Queues a packet at an egress port and sends what can be sent. -/
def queuePacket (l : Nat) (cls : Bool) (p : Packet) (s : State) : State :=
  let vc := p.vc.toNat
  pumpAll l (modLink s l fun k => { k with tx := k.tx ++ [{ vc, cls, flits := flitsOf vc cls (packetBytes p) }] })

/-- The packets that the buffers of a port hold: waiting or part sent, sent and not acknowledged, and under assembly. -/
def heldPackets (k : Link) : Nat :=
  k.tx.length + (k.replayBuf.filter fun e => e.2.eop).length
    + (k.rx.filter fun r => !r.drop && r.fwd.isNone).length

/-- A packet of which flits have been sent, abandoned: its next flit ends it with abort (R323). -/
def abandoned (p : TxPkt) : TxPkt :=
  { p with more := false, src := none, inBuf := 0, flits := [{ vc := p.vc, cls := p.cls, sop := false, eop := true, abort := true, bytes := [] }] }

/-- The buffers that a packet's flits still hold at its ingress become free: their credits are owed to the partner (R321). -/
def freeFlits (p : TxPkt) (s : State) : State :=
  match p.src with
  | some (i, ip) => modLink s i fun k => { k with owed := tblMod 0 k.owed ip fun n => n + (p.flits.length - p.inBuf) }
  | none => s

/-- A packet at another port whose flits were still coming from link `l` ends there: one part sent is aborted, one not begun
is removed and counted (R319, R323). -/
def cutOff (l : Nat) (s : State) : State :=
  (List.range 48).foldl (fun s e =>
    if !((getLink s e).tx.any fun p => p.more && (p.src.map Prod.fst) == some l) then s else
    let gone := (getLink s e).tx.filter fun p => p.more && (p.src.map Prod.fst) == some l
    let mend (p : TxPkt) : Option TxPkt :=
      if p.more && (p.src.map Prod.fst) == some l then (if p.begun then some (abandoned p) else none) else some p
    let s1 := modLink s e fun k => { k with tx := k.tx.filterMap mend }
    pumpAll e (gone.foldl (fun s p => freeFlits p s) (linkDrop e gone.length s1))) s

/-- A link leaves service: the replay buffer and every packet in the port's buffers are discarded and counted, and leaving
ACTIVE sets `down` (R319, R338). -/
def linkDown (next : LinkSt) (l : Nat) (s : State) : State :=
  let k := getLink s l
  let was : Bool := decide (k.st = .active) || decide (k.st = .recover)
  let s0 := k.tx.foldl (fun s p => freeFlits p s) s
  let s1 := if was then linkDrop l (heldPackets k) (cutOff l s0) else s0
  let s2 := modLink s1 l fun k => { k with
    st := next, cause := if was then k.cause ||| 1 else k.cause, partner := none
    rxSeq := 0, nakOut := false, txSeq := 0, replayBuf := [], replayRow := 0, credits := [], owed := [], tx := [], passed := []
    rx := [], txRepeat := none, rxRequest := none, txSwap := none, rxSwap := none, reading := false, paused := [], frames := [] }
  if was then logEvent 0x10A (linkSrc l) 0 s2 else s2

/-- One second in management cycles. -/
def oneSecond : Nat := 1000 * msCycles

/-- Enters RECOVER; the third within a second takes the link down (R319). -/
def enterRecover (l : Nat) (s : State) : State :=
  let now := s.mgt.time
  let s1 := modLink s l fun k => { k with
    st := .recover, recovers := satInc k.recovers 1, cause := k.cause ||| 2, replayRow := 0
    recTimes := (now :: k.recTimes).take 3 }
  let times := (getLink s1 l).recTimes
  if times.length = 3 ∧ now < times.getLastD 0 + oneSecond then linkDown .down l s1 else s1

/-- Replays every unacknowledged flit, oldest first; 32 replays in a row without an advance of the ack lead to RECOVER
(R318, R319). -/
def replay (l : Nat) (s : State) : State :=
  let k := getLink s l
  if k.replayBuf = [] then s else
  let s1 := modLink s l fun k => { k with replays := satInc k.replays 1, replayRow := k.replayRow + 1 }
  let s2 := k.replayBuf.foldl (fun s e => emitFlit l (dataFlit e.1 e.2) s) s1
  if k.replayRow + 1 ≥ 32 then enterRecover l s2 else s2

/-- Frees the replay entries that an ack covers. -/
def takeAck (l ack : Nat) (s : State) : State :=
  match (getLink s l).replayBuf.findIdx? fun e => e.1.toNat == ack with
  | some i => modLink s l fun k => { k with replayBuf := k.replayBuf.drop (i + 1), replayRow := 0 }
  | none => s

/-- Takes returned credits; none if they would raise a pool above its size (R319). -/
def takeCredits (l pool n : Nat) (s : State) : Option State :=
  let have_ := tblGet 0 (getLink s l).credits pool
  if have_ + n > poolSize pool then none
  else some (modLink s l fun k => { k with credits := tblPut k.credits pool (have_ + n) })

/-- A lane of the receive direction has failed: the receiver asks its partner to repeat it on the spare; where the spare carries another
lane, or is about to, the link goes down (R314). -/
def laneFault (l lane : Nat) (s : State) : State :=
  let k := getLink s l
  if k.rxRequest = some lane then s
  else if k.rxSpare || k.rxRequest.isSome then linkDown .down l s
  else emitFlit l (controlFlit s l 1 lane 0) (modLink s l fun k => { k with rxRequest := some lane })

end Sys2Proof.Machine
end

