-- ==== Sys2Proof/Machine/Update.lean ====
section
/-! DEFINITION. Shards, digests, UPD and the digest sweep (R270 to R288). -/
namespace Sys2Proof.Machine

/-! ### Digests (R284) -/

/-- Eight steps of the CRC-64 of ECMA-182, most significant bit first. -/
def crc64Bits : Nat → Nat → Nat
  | 0, r => r
  | n + 1, r => crc64Bits n (if r.testBit 63 then (r * 2 % 2 ^ 64) ^^^ 0x42F0E1EBA9EA3693 else r * 2 % 2 ^ 64)

/-- The digest of bytes in ascending order, from a register value. -/
def crc64 (r : Nat) (bs : List Byte) : Nat := bs.foldl (fun r b => crc64Bits 8 (r ^^^ (b.toNat <<< 56))) r

/-- The digest of bytes. -/
def digest (bs : List Byte) : Nat := crc64 0 bs

/-! ### The shard table (R271 to R273) -/

/-- A field of a shard-table entry: `n` bytes at an offset. -/
def shardField (e : BitVec 1024) (off n : Nat) : Nat := bitsOf e.toNat (8 * (off + n) - 1) (8 * off)

/-- Whether an entry is valid. -/
def shValid (e : BitVec 1024) : Bool := e.getLsbD 0
/-- Whether it is the owner's. -/
def shOwned (e : BitVec 1024) : Bool := e.getLsbD 1
/-- Its recipe. -/
def shRecipe (e : BitVec 1024) : Nat := bitsOf e.toNat 3 2
/-- Whether it keeps an FP32 master. -/
def shMaster (e : BitVec 1024) : Bool := e.getLsbD 4
/-- Its gradient format: 0 BF16, 1 FP16, 2 FP32. -/
def shGrad (e : BitVec 1024) : Nat := bitsOf e.toNat 6 5
/-- Its chunk count. -/
def shChunks (e : BitVec 1024) : Nat := shardField e 8 4
/-- P: parameters of a chunk (R270). -/
def shParams (e : BitVec 1024) : Nat := if shMaster e then 1024 else 2048

/-- Address of a shard-table entry. -/
def shardAddr (s : State) (i : Nat) : Nat := s.comb.shardBase.toNat + 128 * i

/-- Goes on with what an operation has answered; a failure or a wait ends the work, in the state that it has left. -/
def andThen {α β : Type} (r : State × Res α) (f : α → State → State × Res β) : State × Res β :=
  match r with
  | (s, .ok a) => f a s
  | (s, .err e) => (s, .err e)
  | (s, .wait) => (s, .wait)

/-- Reads `n` lines from an address whose bytes are asked for by line (R215). -/
def readRun (master cls : Nat) : Nat → Nat → State → State × Res (List Byte)
  | 0, _, s => (s, .ok [])
  | n + 1, ln, s =>
    andThen (readAt 1216 master cls ln s) fun d s1 =>
    andThen (readRun master cls n (ln + 1) s1) fun ds s2 => (s2, .ok (lineBytes d ++ ds))

/-- Reads `n` bytes from any address. -/
def readSpan (master cls a n : Nat) (s : State) : State × Res (List Byte) :=
  if n = 0 then (s, .ok []) else
  andThen (readRun master cls ((a + n - 1) / 64 - a / 64 + 1) (a / 64) s) fun bs s1 => (s1, .ok ((bs.drop (a % 64)).take n))

/-- Reads shard-table entry `i`. -/
def readShard (master cls i : Nat) (s : State) : State × Res (BitVec 1024) :=
  andThen (readSpan master cls (shardAddr s i) 128 s) fun bs s1 => (s1, .ok (BitVec.ofNat 1024 (leNat bs)))

/-- A tag entry (R272). -/
structure TagEntry where
  mt : Nat
  wt : Nat
  wdig : Nat
  mdig : Nat
  cdig : Nat
  deriving DecidableEq, Repr

/-- The stale marker. -/
def staleMarker : Nat := 0xFFFFFFFF

/-- Address of the tag entry of a chunk. -/
def tagAddr (e : BitVec 1024) (c : Nat) : Nat := shardField e 0x30 8 + 32 * c

/-- A tag entry from its bytes. -/
def tagOfBytes (bs : List Byte) : TagEntry :=
  let v := leNat bs
  { mt := v % 2 ^ 32, wt := bitsOf v 63 32, wdig := bitsOf v 127 64, mdig := bitsOf v 191 128, cdig := bitsOf v 255 192 }

/-- The bytes of a tag entry. -/
def tagBytes (t : TagEntry) : List Byte :=
  leBytes 4 t.mt ++ leBytes 4 t.wt ++ leBytes 8 t.wdig ++ leBytes 8 t.mdig ++ leBytes 8 t.cdig

/-- Reads the tag entry of a chunk. -/
def readTag (master cls : Nat) (e : BitVec 1024) (c : Nat) (s : State) : State × Res TagEntry :=
  andThen (readSpan master cls (tagAddr e c) 32 s) fun bs s1 => (s1, .ok (tagOfBytes bs))

/-- Bytes from an address cut at the line boundaries. -/
def cutLines : Nat → Nat → List Byte → List (Nat × List Byte)
  | 0, _, _ => []
  | fuel + 1, a, bs =>
    match bs with
    | [] => []
    | _ => (a, bs.take (64 - a % 64)) :: cutLines fuel (a + (64 - a % 64)) (bs.drop (64 - a % 64))

/-- The writes of an update engine in their order: each through its home, and through to HBM (R276). What is left when one of them
fails or waits. -/
def writeThrough (master cls : Nat) : List (Nat × List Byte) → State → State × List (Nat × List Byte) × Res Unit
  | [], s => (s, [], .ok ())
  | (a, bs) :: r, s =>
    match andThen (engineWrite master cls (a / 64) (byteMask (a % 64) bs.length) (placed (a % 64) bs.length (leNat bs)) s)
        fun _ s1 => flushAt false master cls (a / 64) s1 with
    | (s1, .ok _) => writeThrough master cls r s1
    | (s1, x) => (s1, (a, bs) :: r, x)

/-- Writes bytes for an update engine. -/
def updWrite (master cls a : Nat) (bs : List Byte) (s : State) : State × Res Unit :=
  let r := writeThrough master cls (cutLines (bs.length + 1) a bs) s
  (r.1, r.2.2)

/-- Lines of `n` bytes from an address. -/
def linesOf (a n : Nat) : List Nat := if n = 0 then [] else (List.range ((a + n - 1) / 64 - a / 64 + 1)).map fun i => a / 64 + i

/-! ### FP32 arithmetic of the update engine (R278) -/

/-- x + y -/
def uAdd (x y : Nat) : Nat := (fpAdd .rne false false false x y).bits
/-- x - y -/
def uSub (x y : Nat) : Nat := (fpAdd .rne false false true x y).bits
/-- x y -/
def uMul (x y : Nat) : Nat := (fpMul .rne false false x y).bits
/-- x / y -/
def uDiv (x y : Nat) : Nat := (fpDiv .rne false false x y).bits
/-- Square root. -/
def uSqrt (x : Nat) : Nat := (fpSqrt .rne false false x).bits
/-- 1.0 -/
def one32 : Nat := 0x3F800000
/-- A whole number in FP32. -/
def uNat (n : Nat) : Nat := (Fmt.fp32.convert .rne false false 0 (.rat false n 1 0)).bits
/-- Whether an FP32 encoding is finite. -/
def finite32 (x : Nat) : Bool := bitsOf x 30 23 != 255
/-- RNE into BF16. -/
def toBf16 (x : Nat) : Nat := (Fmt.bf16.convert .rne false false 0 (Fmt.fp32.decode x).toX).bits

/-- Element `i` of `z` bytes in a list of bytes. -/
def elemAt (bs : List Byte) (z i : Nat) : Nat := leNat ((bs.drop (z * i)).take z)

/-- The gradient format of a shard. -/
def gradFmt (g : Nat) : Fmt := if g = 0 then .bf16 else if g = 1 then .fp16 else .fp32
/-- Bytes of a gradient element. -/
def gradBytes (g : Nat) : Nat := if g = 2 then 4 else 2

/-- The hyperparameters and fields of an update descriptor (R275). -/
structure UpdDesc where
  shard : Nat
  first : Nat
  count : Nat
  n : Nat
  lr : Nat
  wd : Nat
  b1 : Nat
  b2 : Nat
  eps : Nat
  gscale : Nat
  eStats : Nat
  workRegion : Nat
  workOff : Nat
  deriving DecidableEq, Repr

/-- Reads them. -/
def updDesc (d : BitVec 512) : UpdDesc :=
  { shard := dBits d 19 8, first := dBits d 55 24, count := dBits d 87 56, n := dBits d 119 88, lr := dBits d 151 120
    wd := dBits d 183 152, b1 := dBits d 215 184, b2 := dBits d 247 216, eps := dBits d 279 248, gscale := dBits d 311 280
    eStats := dBits d 320 312, workRegion := dBits d 326 321, workOff := dBits d 366 327 }

/-- The gradient of a parameter: gscale times the stored one. -/
def gradOf (u : UpdDesc) (e : BitVec 1024) (g : List Byte) (i : Nat) : Nat :=
  uMul u.gscale (widen (gradFmt (shGrad e)) (elemAt g (gradBytes (shGrad e)) i))

/-- The row and column statistics of recipe 2 as they stand for tag n + 1, with rmean (R279). -/
structure Stats where
  r : List Byte := []
  c : List Byte := []
  rmean : Nat := 0
  deriving DecidableEq, Repr

/-- Rows of a recipe-2 shard. -/
def shRows (e : BitVec 1024) : Nat := shardField e 0x48 4
/-- Columns. -/
def shCols (e : BitVec 1024) : Nat := shardField e 0x4C 4

/-- The exact sum of FP32 encodings, rounded once with RNE. -/
def exactSum (vs : List Nat) : Nat :=
  let r := vs.foldl (fun (a : XV) v =>
    match a, Fmt.fp32.decode v with
    | .nan, _ => .nan
    | _, .nan => .nan
    | .inf n, .inf m => if n = m then .inf n else .nan
    | .inf n, _ => .inf n
    | _, .inf m => .inf m
    | .rat n s _ x, .fin m t y =>
      let q := exactAdd n s x m t y
      .rat (decide (q.1 < 0)) q.1.natAbs 1 q.2) (.rat false 0 1 0)
  (Fmt.fp32.convert .rne false false 0 r).bits

/-- rmean from r' (R279). -/
def rMean (rows : Nat) (r : List Byte) : Nat := uDiv (exactSum ((List.range rows).map fun i => elemAt r 4 i)) (uNat rows)

/-- The new moment of a parameter before SR4 (R280). -/
def momentStep (u : UpdDesc) (e : BitVec 1024) (st : Stats) (p m g : Nat) : Nat :=
  let k1 := uSub one32 u.b1
  match shRecipe e with
  | 0 => uAdd (uMul u.b1 m) g
  | 1 => uAdd (uMul u.b1 m) (uMul k1 g)
  | _ =>
    let cols := shCols e
    let vhat := uAdd (uDiv (uMul (elemAt st.r 4 (p / cols)) (elemAt st.c 4 (p % cols))) st.rmean) u.eps
    uAdd (uMul u.b1 m) (uDiv (uMul k1 g) (uSqrt vhat))

/-- The update direction of parameter `i` of a chunk from its new moments (R280). -/
def direction (u : UpdDesc) (e : BitVec 1024) (ms : List Byte) (i : Nat) : Nat :=
  let m (k : Nat) : Nat := widen .bf16 (elemAt ms 2 k)
  if shRecipe e = 1 then
    let g := i / 32 * 32
    let ss := (List.range 32).foldl (fun a k => uAdd a (uMul (m (g + k)) (m (g + k)))) 0
    uDiv (m i) (uAdd (uSqrt (uMul ss 0x3D000000)) u.eps)
  else m i

/-- The weight step of a parameter: w_f (R280). -/
def weightStep (u : UpdDesc) (w d : Nat) : Nat := uSub w (uMul u.lr (uAdd d (uMul u.wd w)))

/-- SR4 of an FP32 value into BF16 with the engine key (R81). -/
def engineSr4 (seed : Word64) (stream tag e v : Nat) : Nat :=
  (Fmt.bf16.convert .sr4 false false (drawBits 4 (engineKey seed.toNat) stream (tag % 2 ^ 32) e) (Fmt.fp32.decode v).toX).bits

/-! ### Chunk passes -/

/-- The pass that a tag entry asks for (R277): 0 verify, 1 weight-only, 2 full. -/
def passOf (n : Nat) (t : TagEntry) : Option Nat :=
  if t.mt = n + 1 ∧ t.wt = n + 1 then some 0
  else if t.mt = n + 1 ∧ t.wt = n then some 1
  else if t.mt = n ∧ t.wt = n then some 2
  else none

/-- Parts of a chunk: addresses and sizes (R270). -/
structure ChunkAt where
  w : Nat
  m : Nat
  mLen : Nat
  g : Nat
  gLen : Nat
  cp : Nat
  cLen : Nat
  deriving DecidableEq, Repr

/-- The parts of chunk `c`; a replica holds its BF16 weights alone (R271). -/
def chunkAt (e : BitVec 1024) (c : Nat) : ChunkAt :=
  let p := shParams e
  let gl := p * gradBytes (shGrad e)
  { w := shardField e 0x18 8 + (if shOwned e then 4096 else 2 * p) * c, m := shardField e 0x20 8 + 2 * p * c, mLen := 2 * p
    g := shardField e 0x28 8 + c * gl, gLen := gl, cp := shardField e 0x40 8 + 2 * p * c
    cLen := if shMaster e then 2 * p else 0 }

/-- The slice whose update engine takes a chunk: the home of its weights, or that slice's partner (R276). -/
def updEngine (s : State) (e : BitVec 1024) (c : Nat) : Option Nat :=
  let n := hashHome s ((chunkAt e c).w / 64)
  if sliceUp s n then some n else if sliceUp s (partner n) then some (partner n) else none

/-- The event "shard corrupt at owner" with its slice's marks (R285). -/
def shardCorrupt (n shard chunk : Nat) (s : State) : State :=
  logEvent 0x102 (sliceSrc n) (shard + chunk * 2 ^ 16) (modSlice s n fun x =>
    { x with redCause := x.redCause ||| 4, digestFail := satInc x.digestFail 1 })

/-- The event of R40 for a UPD that finds a shard's tags inconsistent. The hardware does not know a rerun from a first run: every
0x0F raises it (log 50). -/
def tagsInconsistent (n shard chunk : Nat) (s : State) : State := logEvent 0x102 (sliceSrc n) (shard + chunk * 2 ^ 16) s

/-- What the checks of a chunk pass came to: its kind, whether it writes a non-finite value, and its writes in their order (R281). -/
structure PassPlan where
  kind : Nat
  nonfinite : Bool := false
  writes : List (Nat × List Byte) := []
  deriving DecidableEq, Repr

/-- Reads the parts of a chunk that are checked or used: weights, copy, moments, gradient. -/
def readParts (master cls : Nat) (a : ChunkAt) (moments grad : Bool) (s : State) :
    State × Res (List Byte × List Byte × List Byte × List Byte) :=
  andThen (readSpan master cls a.w 4096 s) fun w s1 =>
  andThen (readSpan master cls a.cp a.cLen s1) fun cp s2 =>
  andThen (readSpan master cls a.m (if moments then a.mLen else 0) s2) fun m s3 =>
  andThen (readSpan master cls a.g (if grad then a.gLen else 0) s3) fun g s4 => (s4, .ok (w, cp, m, g))

/-- The new weights of a chunk, and its copy: bytes of each, and whether one is not finite. -/
def newWeights (u : UpdDesc) (e : BitVec 1024) (seed : Word64) (c : Nat) (w ms : List Byte) : List Byte × List Byte × Bool :=
  let p := shParams e
  let base := shardField e 0x10 8 + c * p
  let res := (List.range p).map fun i =>
    let old := if shMaster e then elemAt w 4 i else widen .bf16 (elemAt w 2 i)
    let wf := weightStep u old (direction u e ms i)
    if shMaster e then (wf, toBf16 wf, !(finite32 wf))
    else
      let x := engineSr4 seed 0 (u.n + 1) (base + i) wf
      (x, 0, !(finite32 (widen .bf16 x)))
  (res.flatMap fun r => leBytes (if shMaster e then 4 else 2) r.1,
    if shMaster e then res.flatMap fun r => leBytes 2 r.2.1 else [], res.any fun r => r.2.2)

/-- The new moments of a chunk, and whether one is not finite. -/
def newMoments (u : UpdDesc) (e : BitVec 1024) (st : Stats) (seed : Word64) (c : Nat) (m g : List Byte) : List Byte × Bool :=
  let p := shParams e
  let base := shardField e 0x10 8 + c * p
  let res := (List.range p).map fun i =>
    engineSr4 seed 1 (u.n + 1) (base + i) (momentStep u e st (c * p + i) (widen .bf16 (elemAt m 2 i)) (gradOf u e g i))
  (res.flatMap fun x => leBytes 2 x, res.any fun x => !(finite32 (widen .bf16 x)))

/-- Bytes from an address as writes of one line each. -/
def asWrites (a : Nat) (bs : List Byte) : List (Nat × List Byte) := cutLines (bs.length + 1) a bs

/-- The weight half of a pass: weight lines, copy lines, then the tag entry (R281). -/
def weightPlan (u : UpdDesc) (e : BitVec 1024) (seed : Word64) (c : Nat) (t : TagEntry) (w ms : List Byte) : PassPlan :=
  let a := chunkAt e c
  let nw := newWeights u e seed c w ms
  let t' := { t with wt := u.n + 1, wdig := digest nw.1, cdig := if shMaster e then digest nw.2.1 else t.cdig }
  { kind := 1, nonfinite := nw.2.2, writes := asWrites a.w nw.1 ++ asWrites a.cp nw.2.1 ++ asWrites (tagAddr e c) (tagBytes t') }

/-- A full pass: moment lines and the tag entry, then the weight half (R281). -/
def fullPlan (u : UpdDesc) (e : BitVec 1024) (st : Stats) (seed : Word64) (c : Nat) (t : TagEntry) (w m g : List Byte) : PassPlan :=
  let nm := newMoments u e st seed c m g
  let t' := { t with mt := u.n + 1, mdig := digest nm.1 }
  let half := weightPlan u e seed c t' w nm.1
  { kind := 2, nonfinite := half.nonfinite || nm.2
    writes := asWrites (chunkAt e c).m nm.1 ++ asWrites (tagAddr e c) (tagBytes t') ++ half.writes }

/-- Whether the pass of some UPD holds a line as that of its tag entry (R283). -/
def tagHeld (s : State) (ln : Nat) : Bool :=
  s.cores.any fun k => k.2.flights.any fun f => match f.ph, f.aux with
    | .started, .upd p => p.passes.any fun o => o.tagLine == ln
    | _, _ => false

/-- What a chunk pass reads and checks before its first write (R277 to R285), at engine `n`. -/
def chunkPlan (u : UpdDesc) (e : BitVec 1024) (st : Stats) (cls : Nat) (seed : Word64) (n c : Nat) (s : State) : State × Res PassPlan :=
  let a := chunkAt e c
  andThen (readTag 1202 cls e c s) fun t s1 =>
    match passOf u.n t with
    | none => (tagsInconsistent n u.shard c s1, .err 0x0F)
    | some kind =>
      andThen (readParts 1202 cls { a with cLen := if kind = 0 then a.cLen else 0 } (kind ≠ 0) (kind = 2) s1) fun (w, cp, m, g) s2 =>
        if digest w ≠ t.wdig ∨ (kind = 0 ∧ shMaster e = true ∧ digest cp ≠ t.cdig) ∨ (kind = 2 ∧ digest m ≠ t.mdig) then
          (shardCorrupt n u.shard c s2, .err 0x10)
        else
          let p : PassPlan := match kind with
            | 0 => { kind }
            | 1 => weightPlan u e seed c t w m
            | _ => fullPlan u e st seed c t w m g
          (s2, .ok p)

/-! ### UPD -/

/-- The header address of a recipe-2 shard. -/
def hdrAddr (e : BitVec 1024) : Nat := shardField e 0x38 8

/-- Records how a UPD ended (R290). -/
def updRegs (c : Nat) (p : UpdProg) (outcome : Nat) (s : State) : State :=
  modRegs s c fun r => { r with
    updLast := BitVec.ofNat 32 (outcome * 2 ^ 30 + b2n p.stats * 2 ^ 29 + b2n p.nonfinite * 2 ^ 28 + p.shard % 4096)
    updFull := BitVec.ofNat 32 p.full, updWonly := BitVec.ofNat 32 p.wonly, updVerify := BitVec.ofNat 32 p.verify }

/-- Keeps a UPD waiting before its chunk passes, its census sampled. -/
def updWaits (c : Nat) (fl : Flight) (p : UpdProg) (s : State) : State :=
  modCore s c fun k => modFlight k fl.tag fun x => { x with aux := .upd { p with sampled := true } }

/-- A UPD faults. -/
def updFault (c : Nat) (fl : Flight) (p : UpdProg) (code detail : Nat) (s : State) : State :=
  updRegs c p 3 (flightFault c fl code detail s)

/-- The form checks of R276 that need no read. -/
def updForm (s : State) (fl : Flight) : Bool :=
  let u := updDesc fl.desc
  decide (dBits fl.desc 23 20 = 0) && decide (dBits fl.desc 511 367 = 0)
    && [u.lr, u.wd, u.b1, u.b2, u.eps, u.gscale].all finite32
    && decide (u.n < 0xFFFFFFFE) && decide (u.shard < s.comb.shardCnt)

/-- The form checks that read the shard-table entry. -/
def updForm2 (fl : Flight) (e : BitVec 1024) : Bool :=
  let u := updDesc fl.desc
  shValid e && decide (shRecipe e ≠ 3) && decide (shGrad e ≠ 3)
    && (shRecipe e != 2 || (decide (u.first + fl.ka.toNat = 0) && decide (u.count = shChunks e) && windowOkE u.eStats
      && decide (u.workOff % 256 = 0)))

/-- Classifies the tag entries of a range (R277): the chunks that are full, or the code and detail of a fault. -/
def tagScan (cls n : Nat) (e : BitVec 1024) (first : Nat) (needFull : Bool) : List Nat → State → State × Res (Option Nat)
  | [], s => (s, .ok none)
  | i :: r, s =>
    match readTag 1202 cls e (first + i) s with
    | (s1, .ok t) =>
      let ok := match passOf n t with | some k => !needFull || k == 2 | none => false
      if ok then tagScan cls n e first needFull r s1 else (s1, .ok (some i))
    | (s1, .err x) => (s1, .err (x + 256 * i))
    | (s1, .wait) => (s1, .wait)

/-- The statistics sum of one accumulator: its value, and how often it has saturated (R265, R279). -/
def statSum (E : Int) (vs : List Nat) : Int × Nat :=
  vs.foldl (fun a v => let r := exApply E a.1 (Fmt.fp32.decode v)
                       (r.1, if r.2 then a.2 + 1 else a.2)) (0, 0)

/-- Notes the saturations of the accumulators of a work area, each at the home of its own line (R265). -/
def statSaturated (work : Nat) (sums : List (Int × Nat)) (s : State) : State :=
  sums.zipIdx.foldl (fun s q =>
    (List.range q.1.2).foldl (fun s _ =>
      noteSaturation ((homeSlice s ((work + 16 * q.2) / 64)).getD 0) (work + 16 * q.2) s) s) s

/-- Blends a statistic: beta2 x + (1 - beta2) mean. -/
def blend (u : UpdDesc) (x mean : Nat) : Nat := uAdd (uMul u.b2 x) (uMul (uSub one32 u.b2) mean)

/-- The statistics pass of recipe 2 (R279): new r and c into the other buffer, then the statistics tag. The work area ends
in EXACT with the sums (log 28). A pass that waits is begun again: it reads nothing that it writes. -/
def statPass (u : UpdDesc) (e : BitVec 1024) (cls : Nat) (work : Nat) (hdr : List Byte) (s : State) : State × Res Unit :=
  let rows := shRows e
  let cols := shCols e
  let p := shParams e
  let gz := gradBytes (shGrad e)
  let bufOld := leNat ((hdr.drop (8 + 8 * (u.n % 2))).take 8)
  let bufNew := leNat ((hdr.drop (8 + 8 * ((u.n + 1) % 2))).take 8)
  andThen (readSpan 1202 cls bufOld (4 * (rows + cols)) s) fun old s1 =>
  andThen (readSpan 1202 cls (shardField e 0x28 8) (u.count * p * gz) s1) fun g s2 =>
    let E := toSigned 9 u.eStats
    let sq (q : Nat) : Nat := let x := gradOf u e g q
                              uMul x x
    let sums := (List.range (rows + cols)).map fun i =>
      statSum E (if i < rows then (List.range cols).map fun j => sq (i * cols + j)
        else (List.range rows).map fun j => sq (j * cols + (i - rows)))
    let vals := sums.map fun q => (Fmt.fp32.convert .rne false false 0 (exValue E q.1)).bits
    let r' := (List.range rows).map fun i => blend u (elemAt old 4 i) (uDiv (vals.getD i 0) (uNat cols))
    let c' := (List.range cols).map fun j => blend u (elemAt old 4 (rows + j)) (uDiv (vals.getD (rows + j) 0) (uNat rows))
    let area := sums.flatMap fun q => leBytes 16 (ofSigned 128 q.1)
    andThen (engineWriteBytes 1202 cls (area.length + 1) work area s2) fun _ s3 =>
      let t := tagOf true 0 0 u.eStats
      let s4 := (linesOf work area.length).foldl (fun s ln => match getLine s ln with
        | some l => putLine ln { l with red := some t } s
        | none => s) s3
      match andThen (updWrite 1202 cls bufNew ((r' ++ c').flatMap fun x => leBytes 4 x) s4)
          fun _ s5 => updWrite 1202 cls (hdrAddr e) (leBytes 4 (u.n + 1)) s5 with
      | (s6, .wait) => (s6, .wait)
      | (s6, x) => (statSaturated work sums s6, x)

/-- UPD starts on the comb port: the checks, the census sample, the tag scan and the statistics pass (R276). One that waits goes on
from the tag scan, with its sample. -/
def runUpd (c : Nat) (fl : Flight) (s : State) : State :=
  let k := getCore s c
  let u := updDesc fl.desc
  let cls := rgClass (regionOf k 0)
  let p0 : UpdProg := { shard := u.shard, entry := 0, todo := [], fails := [] }
  let sampled := match fl.aux with | .upd p => p.sampled | _ => false
  if updForm s fl = false then updFault c fl p0 0x0E 0 s
  else
    match readShard 1202 cls u.shard s with
    | (s1, .err x) => updFault c fl p0 x 0xFFFFFFFE s1
    | (s1, .wait) => s1
    | (s1, .ok e) =>
      let first := u.first + fl.ka.toNat
      let p := { p0 with entry := e, first, todo := List.range u.count }
      if updForm2 fl e = false then updFault c fl p0 0x0E 0 s1
      else if shOwned e = false then updFault c fl p0 0x2D 0 s1
      else if first + u.count > shChunks e then updFault c fl p0 0x01 0 s1
      else if u.count = 0 then modCore s1 c fun k => modFlight k fl.tag fun x => { x with ph := .done, aux := .upd { p with outcome := 1 } }
      else if !sampled && tblGet 0 s1.mgt.census (fpCensus fl.fpctl) != 0 then
        modCore s1 c fun k => modFlight k fl.tag fun x => { x with ph := .done, aux := .upd { p with todo := [], outcome := 2 } }
      else
        let r2 := decide (shRecipe e = 2)
        match readSpan 1202 cls (hdrAddr e) (if r2 then 64 else 0) s1 with
        | (s2, .err x) => updFault c fl p0 x 0xFFFFFFFF s2
        | (s2, .wait) => updWaits c fl p s2
        | (s2, .ok hdr) =>
          let stag := leNat (hdr.take 4)
          let fresh := r2 && decide (stag = u.n)
          let engineOf (i : Nat) : Nat := (updEngine s2 e (first + i)).getD (hashHome s2 ((chunkAt e (first + i)).w / 64))
          match tagScan cls u.n e first fresh (List.range u.count) s2 with
          | (s3, .err x) => updFault c fl p0 (x % 256) (x / 256) s3
          | (s3, .wait) => updWaits c fl p s3
          | (s3, .ok (some i)) => updFault c fl p0 0x0F i (tagsInconsistent (engineOf i) u.shard (first + i) s3)
          | (s3, .ok none) =>
            let go (st : Bool) (s : State) : State :=
              modCore s c fun k => modFlight k fl.tag fun x => { x with ph := .started, aux := .upd { p with stats := st } }
            if r2 && decide (stag ≠ u.n) && decide (stag ≠ u.n + 1) then
              updFault c fl p0 0x0F 0xFFFFFFFF (tagsInconsistent (engineOf 0) u.shard 0xFFFFFFFF s3)
            else if !fresh then go false s3
            else
              let areaLen := 16 * (shRows e + shCols e)
              match regionCheck k u.workRegion 19 u.workOff areaLen with
              | some code => updFault c fl p0 code u.workRegion s3
              | none =>
                if inHbm (regionAddr k u.workRegion u.workOff) then updFault c fl p0 0x2C 0xFFFFFFFF s3
                else match statPass u e cls (regionAddr k u.workRegion u.workOff) hdr s3 with
                  | (s4, .ok _) => go true s4
                  | (s4, .err x) => updFault c fl p0 x 0xFFFFFFFF s4
                  | (s4, .wait) => updWaits c fl p s4

/-- The statistics that a chunk pass of recipe 2 reads. -/
def readStats (cls : Nat) (u : UpdDesc) (e : BitVec 1024) (s : State) : State × Res Stats :=
  if shRecipe e ≠ 2 then (s, .ok {}) else
  andThen (readSpan 1202 cls (hdrAddr e) 64 s) fun hdr s1 =>
  andThen (readSpan 1202 cls (leNat ((hdr.drop (8 + 8 * ((u.n + 1) % 2))).take 8)) (4 * (shRows e + shCols e)) s1) fun bs s2 =>
    (s2, .ok { r := bs.take (4 * shRows e), c := bs.drop (4 * shRows e), rmean := rMean (shRows e) bs })

/-- Ends a UPD with no chunk left: its fault is that of the lowest failed chunk (R282). -/
def finishUpd (c : Nat) (fl : Flight) (p : UpdProg) (s : State) : State :=
  match p.fails.foldl (fun (m : Option (Nat × Nat)) x => match m with | some y => if x.1 < y.1 then some x else m | none => some x) none with
  | some (i, code) => updFault c fl p code i s
  | none => modCore s c fun k => modFlight k fl.tag fun x => { x with ph := .done, aux := .upd { p with outcome := 1 } }

/-- Carries the writes of a chunk pass on, and ends it once they are all accepted, or when one fails (R281, R282). -/
def writePass (c : Nat) (fl : Flight) (p : UpdProg) (o : OpenPass) (s : State) : State :=
  let keep := p.passes.filter fun x => x.chunk != o.chunk
  let fin (p' : UpdProg) (s : State) : State :=
    let p1 := { p' with passes := keep, todo := p.todo.filter fun j => j != o.chunk }
    let s1 := modCore s c fun k => modFlight k fl.tag fun x => { x with aux := .upd p1 }
    if p1.todo = [] then finishUpd c fl p1 s1 else s1
  match writeThrough 1202 (rgClass (regionOf (getCore s c) 0)) o.writes s with
  | (s1, _, .ok _) =>
    fin { p with
      full := p.full + b2n (o.kind == 2), wonly := p.wonly + b2n (o.kind == 1), verify := p.verify + b2n (o.kind == 0)
      nonfinite := p.nonfinite || o.nonfinite } s1
  | (s1, _, .err x) => fin { p with fails := p.fails ++ [(o.chunk, x)] } s1
  | (s1, left, .wait) =>
    modCore s1 c fun k => modFlight k fl.tag fun x => { x with aux := .upd { p with passes := { o with writes := left } :: keep } }

/-- A chunk pass from its first read (R277 to R285), at the update engine of the chunk's home; a chunk without one fails unread (R276),
and one whose tag line another pass holds waits (R283). The engine counts a chunk once its pass has been decided. -/
def beginPass (c : Nat) (fl : Flight) (p : UpdProg) (i : Nat) (s : State) : State :=
  let u := updDesc fl.desc
  let ch := p.first + i
  let cls := rgClass (regionOf (getCore s c) 0)
  let fails (code : Nat) (s : State) : State :=
    let p1 := { p with todo := p.todo.filter fun j => j != i, fails := p.fails ++ [(i, code)] }
    let s1 := modCore s c fun k => modFlight k fl.tag fun x => { x with aux := .upd p1 }
    if p1.todo = [] then finishUpd c fl p1 s1 else s1
  match updEngine s p.entry ch with
  | none => fails 0x0D s
  | some n =>
    if tagHeld s (tagAddr p.entry ch / 64) then s
    else
      let counted (s : State) : State := modSlice s n fun x => { x with updChunks := satInc x.updChunks 1 }
      match andThen (readStats cls u p.entry s) fun st s1 => chunkPlan u p.entry st cls fl.seed n ch s1 with
      | (s1, .wait) => s1
      | (s1, .err x) => fails x (counted s1)
      | (s1, .ok q) =>
        writePass c fl p
          { chunk := i, kind := q.kind, nonfinite := q.nonfinite, tagLine := tagAddr p.entry ch / 64, writes := q.writes } (counted s1)

/-- UPD_CHUNK_PASS (R276 to R285): the pass of chunk `i` relative to first, or its writes that are left. Each engine takes its chunks
in ascending order; a core reset starts no further one (R383). -/
def execUpdChunkPass (c : CoreNo) (tag : BitVec 5) (i : Word32) (s : State) : Out :=
  .next (
    let k := getCore s c.val
    match flightOf k tag.toNat with
    | none => s
    | some fl =>
      match fl.ph, fl.aux with
      | .started, .upd p =>
        let eng (j : Nat) : Option Nat := updEngine s p.entry (p.first + j)
        if frozen s then s
        else match p.passes.find? fun o => o.chunk == i.toNat with
        | some o => writePass c.val fl p o s
        | none =>
          if k.resetting || !(p.todo.contains i.toNat) then s
          else if p.todo.any fun j => decide (j < i.toNat) && decide (eng j = eng i.toNat) then s
          else beginPass c.val fl p i.toNat s
      | _, _ => s)

/-- Takes the chunk passes of a core's UPD up again that wait with writes left. -/
def settleUpd (c : Nat) (s : State) : State :=
  match (getCore s c).flights.find? fun f => match f.ph, f.aux with | .started, .upd p => !p.passes.isEmpty | _, _ => false with
  | some fl =>
    match fl.aux with
    | .upd p => match p.passes.getLast? with
      | some o => writePass c fl p o s
      | none => s
    | _ => s
  | none => s

/-! ### The digest sweep (R287) -/

/-- DIGEST_SWEEP_PERIOD: a period ends and the next starts at shard 0. -/
def execDigestSweepPeriod (s : State) : Out :=
  .next (
    let cb := s.comb
    let w := cb.sweep
    let cb1 := if w.running then
        { cb with
          dsweepPasses := cb.dsweepPasses + 1
          dsweepDropped := if (w.active || w.skipped) && cb.dsweepDropped != 0xFFFF then cb.dsweepDropped + 1 else cb.dsweepDropped }
      else cb
    if frozen s then s
    else if cb.dsweepOn then { s with comb := { cb1 with sweep := { running := true, active := decide (0 < cb.shardCnt) } } }
    else { s with comb := { cb1 with sweep := {} } })

/-- Whether an operation other than the sweep's own holds the tag line of a chunk. -/
def tagBusy (s : State) (ln : Nat) : Bool :=
  tagHeld s ln || (match homeSlice s ln with
    | some n => (getSlice s n).miss.any fun m => m.line == ln && !(m.waiters.any fun q => q.master == 1204)
    | none => false)

/-- The sweep's check of one chunk, as master 1,204 (R303): whether it was skipped. A line that a host core holds is recalled, and the
sweep waits for it. -/
def sweepChunk (e : BitVec 1024) (shard c : Nat) (s : State) : State × Res Bool :=
  let cls := bitsOf s.reg.cfg.toNat 8 6
  let a := chunkAt e c
  match updEngine s e c with
  | none => (s, .ok true)
  | some n =>
    if tagBusy s (tagAddr e c / 64) then (s, .ok true)
    else
      andThen (readTag 1204 cls e c s) fun t s1 =>
        if shOwned e then
          if t.mt ≠ t.wt then (s1, .ok true)
          else
            andThen (readParts 1204 cls a true false s1) fun (w, cp, m, _) s2 =>
              (if digest w ≠ t.wdig ∨ digest m ≠ t.mdig ∨ (shMaster e = true ∧ digest cp ≠ t.cdig) then shardCorrupt n shard c s2 else s2,
                .ok false)
        else if t.wt = staleMarker then (s1, .ok true)
        else
          andThen (readSpan 1204 cls a.w (2 * shParams e) s1) fun w s2 =>
            if digest w = t.wdig then (s2, .ok false)
            else
              andThen (updWrite 1204 cls (tagAddr e c) (tagBytes { t with wt := staleMarker }) s2) fun _ s3 =>
                (logEvent 0x103 (sliceSrc n) (shard + c * 2 ^ 16) (modSlice s3 n fun x =>
                  { x with redCause := x.redCause ||| 8, digestFail := satInc x.digestFail 1 }), .ok false)

/-- DIGEST_SWEEP_CHUNK: the next chunk in ascending shard and chunk order; entries that are not valid have none. A chunk that waits for
a line is checked by a later command; one that a read of the sweep fails on is skipped. -/
def execDigestSweepChunk (s : State) : Out :=
  .next (
    let w := s.comb.sweep
    if frozen s || !w.running || !w.active then s
    else
      let next (s : State) (shard chunk : Nat) (sk : Bool) : State :=
        { s with comb := { s.comb with sweep :=
          { w with shard, chunk, skipped := w.skipped || sk, active := decide (shard < s.comb.shardCnt) } } }
      let after (e : BitVec 1024) (s : State) (sk : Bool) : State :=
        if w.chunk + 1 < shChunks e then next s w.shard (w.chunk + 1) sk else next s (w.shard + 1) 0 sk
      match readShard 1204 (bitsOf s.reg.cfg.toNat 8 6) w.shard s with
      | (s1, .ok e) =>
        if shValid e = false ∨ shChunks e ≤ w.chunk then next s1 (w.shard + 1) 0 false
        else match sweepChunk e w.shard w.chunk s1 with
          | (s2, .ok sk) => after e s2 sk
          | (s2, .err _) => after e s2 true
          | (s2, .wait) => s2
      | (s1, .err _) => next s1 (w.shard + 1) 0 true
      | (s1, .wait) => s1)

end Sys2Proof.Machine
end

