-- ==== Sys2Proof/Machine/Net.lean ====
section
/-! DEFINITION. Routing, and the ways a packet leaves the device: native links, and Ethernet frames under end-to-end contexts
(R327 to R337). -/
namespace Sys2Proof.Machine

/-! ### Routing (R328 to R330) -/

/-- Routing entry `i`. -/
def rtEntry (s : State) (i : Nat) : Word32 := tblGet 0 s.net.rt i
/-- valid -/
def rtValid (e : Word32) : Bool := e.getLsbD 31
/-- dateline -/
def rtDateline (e : Word32) : Bool := e.getLsbD 30
/-- eth -/
def rtEth (e : Word32) : Bool := e.getLsbD 29
/-- First link of the set. -/
def rtFirst (e : Word32) : Nat := bitsOf e.toNat 28 23
/-- Links in the set. -/
def rtWidth (e : Word32) : Nat := bitsOf e.toNat 22 19
/-- First link of the alternate set. -/
def rtAlt (e : Word32) : Nat := bitsOf e.toNat 18 13
/-- alt_valid -/
def rtAltValid (e : Word32) : Bool := e.getLsbD 12
/-- Peer-table index of the first destination. -/
def rtPeer (e : Word32) : Nat := bitsOf e.toNat 11 0

/-- Where a packet goes. -/
inductive Route
  | here
  | unreachable
  /-- a native link, its routing slot for the round-robin, and whether the packet moves to class 1 -/
  | native (l slot : Nat) (dateline : Bool)
  /-- an Ethernet port, the peer index and its entry -/
  | eth (l peer : Nat) (entry : BitVec 512)
  deriving DecidableEq, Repr

/-- Whether a link is ACTIVE in a mode. -/
def linkUp (s : State) (l : Nat) (eth : Bool) : Bool :=
  let k := getLink s l
  decide (l < 48) && decide (k.st = .active) && k.eth == eth

/-- The next ACTIVE link of a set after the one used last (R328). -/
def nextActive (s : State) (slot first width : Nat) : Option Nat :=
  let last := tblGet (first + width - 1) s.net.rr slot
  let start := (last + 1 - first) % width
  ((List.range width).map fun i => first + (start + i) % width).find? fun l => linkUp s l false

/-- Address of a peer-table entry (R334). -/
def peerAddr (s : State) (i : Nat) : Nat := s.net.peerBase.toNat + 64 * i

/-- Reads a peer or port entry. -/
def readPeer (i : Nat) (s : State) : State × Res (BitVec 512) :=
  andThen (readSpan 1201 0 (peerAddr s i) 64 s) fun bs s1 => (s1, .ok (BitVec.ofNat 512 (leNat bs)))

/-! ### Contexts (R334, R336) -/

/-- The number of the context of a peer and a channel. -/
def ctxKey (peer vc : Nat) : Nat := 4 * peer + vc
/-- A context as it opens: window and timeout at their starts. -/
def newCtx (s : State) : Ctx := { window := s.net.ethWindow.toNat, rto := s.net.ethRto.toNat }
/-- A context. -/
def getCtx (s : State) (key : Nat) : Ctx := tblGet (newCtx s) s.net.ctxs key
/-- Changes a context. -/
def modCtx (s : State) (key : Nat) (f : Ctx → Ctx) : State :=
  { s with net := { s.net with ctxs := tblPut s.net.ctxs key (f (getCtx s key)) } }

/-- The peer entry of a context: as it was read when the context opened. One that is not valid opens none (R334). -/
def ctxEntry (peer vc : Nat) (s : State) : State × Res (BitVec 512) :=
  match (getCtx s (ctxKey peer vc)).entry with
  | some e => (s, .ok e)
  | none => andThen (readPeer peer s) fun e s1 =>
      (if e.getLsbD 0 then modCtx s1 (ctxKey peer vc) fun c => { c with entry := some e } else s1, .ok e)

/-! ### Routes (R328 to R330) -/

/-- The native link of a routing entry, from its first set or its alternate one; the two sets have their own round-robin. -/
def nativeRoute (s : State) (idx : Nat) : Route :=
  let e := rtEntry s idx
  match nextActive s idx (rtFirst e) (rtWidth e) with
  | some l => .native l idx (rtDateline e)
  | none =>
    if rtAltValid e then
      match nextActive s (4096 + idx) (rtAlt e) (rtWidth e) with
      | some l => .native l (4096 + idx) (rtDateline e)
      | none => .unreachable
    else .unreachable

/-- The Ethernet port for a peer under a routing entry. -/
def ethLink (s : State) (e : Word32) (peer : Nat) : Option Nat :=
  let i := peer % rtWidth e
  if linkUp s (rtFirst e + i) true then some (rtFirst e + i)
  else if rtAltValid e && linkUp s (rtAlt e + i) true then some (rtAlt e + i)
  else none

/-- The routing entry index of a destination, when its entry routes. -/
def rtIndex (s : State) (dst : BitVec 16) : Option Nat :=
  let idx := dst.toNat >>> s.net.rtShift.toNat
  if idx > 4095 ∨ rtValid (rtEntry s idx) = false ∨ rtWidth (rtEntry s idx) = 0 then none else some idx

/-- The routing of R328 for a packet of this device on a channel. A peer entry whose line is held at its home makes the packet wait. -/
def route (dst : BitVec 16) (vc : Nat) (s : State) : State × Res Route :=
  if dst = s.net.devid then (s, .ok .here) else
  match rtIndex s dst with
  | none => (s, .ok .unreachable)
  | some idx =>
    let e := rtEntry s idx
    if rtEth e = false then (s, .ok (nativeRoute s idx)) else
    let peer := rtPeer e + dst.toNat % 2 ^ s.net.rtShift.toNat
    if peer > 4047 then (s, .ok .unreachable) else
    match ctxEntry peer vc s with
    | (s1, .ok p) =>
      (s1, .ok (if p.getLsbD 0 then (match ethLink s1 e peer with | some l => .eth l peer p | none => .unreachable) else .unreachable))
    | (s1, .err _) => (s1, .ok .unreachable)
    | (s1, .wait) => (s1, .wait)

/-- The routing of a packet that this device forwards: an Ethernet entry leads nowhere (R330). -/
def forwardRoute (dst : BitVec 16) (s : State) : Route :=
  if dst = s.net.devid then .here else
  match rtIndex s dst with
  | none => .unreachable
  | some idx => if rtEth (rtEntry s idx) then .unreachable else nativeRoute s idx

/-- The peer of a device under the routing table, without regard to its links. -/
def peerOf (s : State) (dev : BitVec 16) : Option Nat :=
  let idx := dev.toNat >>> s.net.rtShift.toNat
  if idx > 4095 then none else
  let e := rtEntry s idx
  if rtValid e && rtEth e then some (rtPeer e + dev.toNat % 2 ^ s.net.rtShift.toNat) else none

/-! ### Ethernet frames (R333 to R335) -/

/-- The `n` low bytes of a number in network order. -/
def beBytes (n x : Nat) : List Byte := (leBytes n x).reverse
/-- `n` bytes of a list from `off` in network order. -/
def beAt (bs : List Byte) (off n : Nat) : Nat := leNat ((bs.drop off).take n).reverse

/-- Sum of the 16-bit words of bytes in network order; an odd byte counts as the high half. -/
def sum16 : List Byte → Nat
  | [] => 0
  | [a] => a.toNat * 256
  | a :: b :: r => a.toNat * 256 + b.toNat + sum16 r

/-- The Internet checksum of bytes: the ones' complement of their ones' complement sum. -/
def inetSum (bs : List Byte) : Nat :=
  let x := sum16 bs
  0xFFFF - (if x = 0 then 0 else (x - 1) % 0xFFFF + 1)

/-- `n` bytes of a table entry from `off`. -/
def entryBytes (e : BitVec 512) (off n : Nat) : List Byte := leBytes n (e.toNat >>> (8 * off))
/-- Whether an entry is of IPv6. -/
def entryV6 (e : BitVec 512) : Bool := e.getLsbD 1
/-- The IP address of an entry. -/
def entryIp (e : BitVec 512) : List Byte := entryBytes e 0x10 (if entryV6 e then 16 else 4)
/-- The MAC of an entry. -/
def entryMac (e : BitVec 512) : List Byte := entryBytes e 8 6
/-- The IP MTU of a port entry. -/
def entryMtu (e : BitVec 512) : Nat := bitsOf e.toNat (8 * 0x22 - 1) (8 * 0x20)

/-- The largest payload of a packet on an Ethernet port (R335). -/
def ethPayload (port : BitVec 512) : Nat :=
  min 4096 (entryMtu port - (if entryV6 port then 40 else 20) - 8 - 32) / 64 * 64

/-- The UDP pseudo header. -/
def pseudo (v6 : Bool) (src dst : List Byte) (len : Nat) : List Byte :=
  src ++ dst ++ (if v6 then beBytes 4 len ++ [0, 0, 0, 17] else [0, 17] ++ beBytes 2 len)

/-- A UDP datagram from port 0xC000 + h[13:0] to port 49811 with its checksum (R333). -/
def udpBytes (v6 : Bool) (src dst : List Byte) (h : Nat) (body : List Byte) : List Byte :=
  let len := 8 + body.length
  let head (c : Nat) := beBytes 2 (0xC000 + h % 2 ^ 14) ++ beBytes 2 49811 ++ beBytes 2 len ++ beBytes 2 c
  let c := inetSum (pseudo v6 src dst len ++ head 0 ++ body)
  head (if c = 0 then 0xFFFF else c) ++ body

/-- Eight steps of the CRC-32 of IEEE 802.3, least significant bit first. -/
def fcsStep (r : Nat) : Nat :=
  (List.range 8).foldl (fun r _ => if r % 2 = 1 then (r / 2) ^^^ 0xEDB88320 else r / 2) r

/-- The frame check sequence of IEEE 802.3 over a frame's bytes, in the order in which it is sent. -/
def fcsBytes (bs : List Byte) : List Byte :=
  leBytes 4 ((bs.foldl (fun r b => fcsStep (r ^^^ b.toNat)) 0xFFFFFFFF) ^^^ 0xFFFFFFFF)

/-- A frame with its FCS. -/
def withFcs (bs : List Byte) : List Byte := bs ++ fcsBytes bs

/-- The bytes of a frame before its FCS; none where the FCS does not fit them. -/
def withoutFcs (fr : List Byte) : Option (List Byte) :=
  let bs := fr.take (fr.length - 4)
  if fr.length ≥ 4 ∧ fcsBytes bs = fr.drop (fr.length - 4) then some bs else none

/-- The frame of a packet on a port to a peer (R333). The identification of the IPv4 header is open (log 4). -/
def ethFrame (port peer : BitVec 512) (ident : Nat) (p : Packet) : List Byte :=
  let v6 := entryV6 peer
  let src := entryIp port
  let dst := entryIp peer
  let h := crc0 (leBytes 2 p.src.toNat ++ leBytes 2 p.dst.toNat ++ [BitVec.ofNat 8 p.vc.toNat])
  let udp := udpBytes v6 src dst h (packetBytes p)
  let tos := bitsOf port.toNat (8 * 6 + 5) (8 * 6) * 4 + (if port.getLsbD 3 then 2 else 0)
  let ip :=
    if v6 then beBytes 4 (6 * 2 ^ 28 + tos * 2 ^ 20) ++ beBytes 2 udp.length ++ [17, 64] ++ src ++ dst
    else
      let head (c : Nat) := [0x45, BitVec.ofNat 8 tos] ++ beBytes 2 (20 + udp.length) ++ beBytes 2 ident ++ beBytes 2 0x4000
        ++ [64, 17] ++ beBytes 2 c ++ src ++ dst
      head (inetSum (head 0))
  withFcs (entryMac peer ++ entryMac port
    ++ (if port.getLsbD 2 then beBytes 2 0x8100 ++ (entryBytes port 4 2).reverse else [])
    ++ beBytes 2 (if v6 then 0x86DD else 0x0800) ++ ip ++ udp)

/-- The 802.1p priority of a port's frames: that of its VLAN tag, 0 without one (log 51). -/
def portPriority (port : BitVec 512) : Nat := if port.getLsbD 2 then bitsOf port.toNat (8 * 4 + 15) (8 * 4 + 13) else 0

/-- Whether a partner has paused the priority of a port's frames (R332). -/
def portPaused (s : State) (l : Nat) : Bool :=
  decide (s.mgt.time < tblGet 0 (getLink s l).paused (portPriority (getLink s l).port))

/-- Sends a frame on an Ethernet port: one of a paused priority waits there. -/
def emitEth (l : Nat) (fr : List Byte) (s : State) : State :=
  if portPaused s l then modLink s l fun k => { k with frames := k.frames ++ [fr] } else answer s (.frame l fr)

/-- Sends the frames that waited for a pause to end. -/
def unpause (l : Nat) (s : State) : State :=
  if (getLink s l).frames.isEmpty || portPaused s l then s
  else ((getLink s l).frames).foldl (fun s fr => answer s (.frame l fr)) (modLink s l fun k => { k with frames := [] })

/-- Sends the frame of a packet on a link to a peer. -/
def emitFrame (l : Nat) (peer : BitVec 512) (p : Packet) (s : State) : State :=
  emitEth l (ethFrame (getLink s l).port peer (Config.freeWord s.free).toNat p) (takeFree s)

/-! ### Sending (R330, R336, R337) -/

/-- Sends a packet of a context on the link that R328 gives now; whether it went out. One that is unreachable goes with the next
retransmission. -/
def ctxEmit (p : Packet) (s : State) : State × Bool :=
  match route p.dst p.vc.toNat s with
  | (s1, .ok (.eth l _ e)) => (emitFrame l e p s1, true)
  | (s1, _) => (s1, false)

/-- Sends the context's next packets while its window allows (R336). -/
def ctxPump (key : Nat) : Nat → State → State
  | 0, s => s
  | n + 1, s =>
    let c := getCtx s key
    match c.queue with
    | [] => s
    | p :: rest =>
      if c.failed || decide (c.unacked.length ≥ c.window) then s else
      let q := { p with pkt := { p.pkt with seq := c.txSeq } }
      ctxPump key n (ctxEmit q.pkt (modCtx s key fun c =>
        { c with queue := rest, txSeq := c.txSeq + 1, unacked := c.unacked ++ [q] })).1

/-- Sends an EACK for a context, with congestion echo when an accepted packet was marked CE (R336, R337); one that cannot go out yet
goes with the next. -/
def sendEack (key : Nat) (s : State) : State :=
  let c := getCtx s key
  let p := sealPacket { dst := c.dev, src := s.net.devid, typ := 0x30, vc := BitVec.ofNat 2 key, sgen := s.boot.gen
                        fields := pFields (c.rxSeq - 1).toNat (b2n c.ceSeen) 0 0 }
  match ctxEmit p s with
  | (s1, true) => modCtx s1 key fun c => { c with rxUnacked := 0, ceSeen := false }
  | (s1, false) => s1

/-- What the receive side of a context does with a numbered packet: whether it is accepted. Another source generation restarts the
receive side with a packet 0 (R336). -/
def ctxReceive (key : Nat) (p : Packet) (ce : Bool) (s : State) : State × Bool :=
  let c0 := getCtx s key
  let other : Bool := match c0.rxGen with | some g => g != p.sgen | none => false
  if other && p.seq != 0 then (s, false) else
  let c := if other then { c0 with rxSeq := 0, rxUnacked := 0, ceSeen := false } else c0
  let s1 := modCtx s key fun _ => { c with rxGen := some p.sgen, dev := p.src }
  if p.seq = c.rxSeq then
    let s2 := modCtx s1 key fun c => { c with rxSeq := c.rxSeq + 1, rxUnacked := c.rxUnacked + 1, ceSeen := c.ceSeen || ce }
    (if c.rxUnacked + 1 ≥ 8 then sendEack key s2 else s2, true)
  else (sendEack key s1, false)

/-- Sends a packet of this device: it goes out, or waits for this device's own delivery, or is unreachable (0x2E), or waits for the
peer entry (R330, R334). -/
def sendFrom (src : Option (Nat × Nat × Nat)) (p0 : Packet) (s : State) : State × Res Unit :=
  let p := sealPacket { p0 with src := s.net.devid, sgen := s.boot.gen }
  match route p.dst p.vc.toNat s with
  | (s1, .ok .here) => ({ s1 with net := { s1.net with loop := s1.net.loop ++ [p] } }, .ok ())
  | (s1, .ok (.native l slot dl)) =>
    (queuePacket l dl p { s1 with net := { s1.net with rr := tblPut s1.net.rr slot l } }, .ok ())
  | (s1, .ok (.eth _ peer _)) =>
    let key := ctxKey peer p.vc.toNat
    if (getCtx s1 key).failed then (s1, .err 0x2E)
    else (ctxPump key 256 (modCtx s1 key fun c => { c with queue := c.queue ++ [{ pkt := p, src }], dev := p.dst }), .ok ())
  | (s1, .ok .unreachable) => (s1, .err 0x2E)
  | (s1, .err e) => (s1, .err e)
  | (s1, .wait) => (s1, .wait)

/-- Sends a packet without a source of its payload in memory. -/
def sendPacket (p : Packet) (s : State) : State × Res Unit := sendFrom none p s

/-- Sends a packet that no operation of this device waits for: one that is unreachable is lost, one that waits for its peer entry is
sent later. -/
def post (src : Option (Nat × Nat × Nat)) (p : Packet) (s : State) : State :=
  match sendFrom src p s with
  | (s1, .wait) => { s1 with net := { s1.net with outbox := s1.net.outbox ++ [{ pkt := p, src }] } }
  | (s1, _) => s1

/-- Sends again what waited for a peer entry. -/
def retryOutbox (s : State) : State :=
  s.net.outbox.foldl (fun s x => post x.src x.pkt s) { s with net := { s.net with outbox := [] } }

/-- The largest payload of a packet to a device on a channel: 4,096, or what the Ethernet port carries (R335). -/
def payloadMax (dst : BitVec 16) (vc : Nat) (s : State) : Nat :=
  match (route dst vc s).2 with
  | .ok (.eth l _ _) => max 64 (ethPayload (getLink s l).port)
  | _ => 4096

end Sys2Proof.Machine
end

