-- ==== Sys2Proof/Machine/Collective.lean ====
section
/-! DEFINITION. The collective engine: accepting a COLL, the schedules of its operations, the packets of its protocol, and the
gather of shards (R344 to R356, R286). -/
namespace Sys2Proof.Machine

/-! ### The descriptor (R346, R347) -/

/-- The fields of a collective descriptor, with ka and kb added where R344 says. -/
structure CollDesc where
  op : Nat
  sched : Nat
  group : Nat
  root : Nat
  srcR : Nat
  dstR : Nat
  workR : Nat
  srcOff : Nat
  dstOff : Nat
  workOff : Nat
  count : Nat
  fmt : Nat
  red : Nat
  exact : Bool
  e : Nat
  out : Nat
  rm : Nat
  cls : Nat
  stream : Nat
  draw : Nat
  base : Nat
  shard : Nat
  first : Nat
  deriving DecidableEq, Repr

/-- Reads them. -/
def collDesc (f : Flight) : CollDesc :=
  let d := f.desc
  let g := decide (dBits d 10 8 = 5)
  { op := dBits d 10 8, sched := dBits d 12 11, group := dBits d 20 13, root := dBits d 36 21, srcR := dBits d 42 37
    dstR := dBits d 48 43, workR := dBits d 54 49
    srcOff := dBits d 94 55 + (if g then 0 else f.ka.toNat), dstOff := dBits d 134 95 + (if g then 0 else f.kb.toNat)
    workOff := dBits d 174 135, count := dBits d 206 175, fmt := dBits d 208 207, red := dBits d 211 209
    exact := d.getLsbD 212, e := dBits d 221 213, out := dBits d 223 222, rm := dBits d 226 224, cls := dBits d 229 227
    stream := dBits d 261 230, draw := dBits d 293 262, base := dBits d 357 294, shard := dBits d 369 358
    first := dBits d 401 370 + (if g then f.ka.toNat else 0) }

/-- z: the element size. -/
def collElem (fmt : Nat) : Nat := if fmt = 0 then 4 else if fmt = 3 then 1 else 2
/-- Block `k` of `count` elements for `n` members: its first element and the one after its last. -/
def block (count n k : Nat) : Nat × Nat := (k * count / n, (k + 1) * count / n)
/-- Whether the reduce phase goes directly to the owner of each block (R351). -/
def reducesDirect (d : CollDesc) : Bool := d.exact || d.fmt == 2 || d.sched == 2
/-- Whether the work area holds a slot for every element, as a ring or a tree without exact has it (R347). -/
def workWhole (d : CollDesc) : Bool := !d.exact && d.sched != 2
/-- Whether the operation reduces. -/
def reduces (d : CollDesc) : Bool := decide (d.op ≤ 1)
/-- The contribution tag (R352). -/
def collTag (d : CollDesc) : RedTag := tagOf d.exact d.red d.fmt d.e

/-- Whether the descriptor holds an undefined value or combination, or a non-zero field that the combination does not use
(R346 to R348). -/
def collMalformed (f : Flight) : Bool :=
  let d := collDesc f
  let raw (hi lo : Nat) : Nat := dBits f.desc hi lo
  let noRed : Bool := raw 54 49 = 0 && raw 174 135 = 0 && raw 226 209 = 0 && raw 357 230 = 0
  let noGather : Bool := raw 401 358 = 0
  raw 511 402 ≠ 0 || d.sched = 3 ||
  match d.op with
  | 0 | 1 =>
    !(noGather && d.root = 0 && d.fmt ≤ 2 && d.red ≤ 2 && d.out ≤ 2 && (d.rm = 0 || d.rm = 4) && d.workOff % 256 = 0
      && (if d.op = 0 then true else d.sched ≠ 1) && (!(d.exact || d.fmt = 2) || d.sched ≠ 1)
      && (if d.exact then d.red = 0 && windowOkE d.e else d.e = 0)
      && (d.red = 0 || d.out = d.fmt) && (d.rm = 4 || raw 357 230 = 0)
      && !(d.rm = 4 && !d.exact && redSrc d.out = redHeld d.fmt))
  | 2 => !(noRed && noGather && d.root = 0 && d.sched ≠ 1)
  | 3 => !(noRed && noGather && d.root = 0 && d.sched = 2)
  | 4 => !(noRed && noGather)
  | 5 => !(noRed && d.sched = 2 && d.fmt = 0 && raw 174 13 = 0 && bitsOf f.word.toNat 50 46 = 0)
  | _ => true

/-- Bytes of the source, destination and work extents at rank `r` of `n` (R347). -/
def collExtents (d : CollDesc) (n r : Nat) : Nat × Nat × Nat :=
  let z := collElem d.fmt
  let o := elemBytes d.out
  let b := block d.count n r
  let own := b.2 - b.1
  match d.op with
  | 0 => (d.count * z, d.count * o, (if workWhole d then d.count else own) * slotBytes d.exact d.fmt)
  | 1 => (d.count * z, own * o, (if workWhole d then d.count else own) * slotBytes d.exact d.fmt)
  | 2 => (own * z, d.count * z, 0)
  | 3 => (d.count * z, d.count * z, 0)
  | _ => (if r = d.root then d.count * z else 0, d.count * z, 0)

/-- The checks of R112 over the extents, with the region that fails. -/
def collRegions (k : Core) (d : CollDesc) (n r : Nat) : Option (Nat × Nat) :=
  let x := collExtents d n r
  match regionCheck k d.srcR permR d.srcOff x.1 with
  | some c => some (c, d.srcR)
  | none =>
    match regionCheck k d.dstR permW d.dstOff x.2.1 with
    | some c => some (c, d.dstR)
    | none => (regionCheck k d.workR (permD + 3) d.workOff x.2.2).map fun c => (c, d.workR)

/-- The descriptor hash (R350): the CRC-32C of bytes 0 to 29 with offsets, regions, class and the SR4 fields zero. -/
def collHash (f : Flight) : Word32 :=
  let clear (x hi lo : Nat) : Nat := setField x 0 (hi + 1 - lo) lo
  let x := clear (clear (clear f.desc.toNat 54 37) 174 55) 511 227
  BitVec.ofNat 32 (crc0 (leBytes 30 x))

/-! ### The schedules (R351) -/

/-- The steps of the reduce phase. -/
def reduceSteps (d : CollDesc) (n r : Nat) : List CStep :=
  let others := (List.range n).filter fun k => k != r
  let blk (k : Nat) := block d.count n (k % n)
  if reducesDirect d then
    others.map (fun k => .send k 0 0 (blk k).1 (blk k).2 (blk k).1) ++ others.map fun k => .await k 0 (blk r).1 (blk r).2
  else if d.sched = 0 then
    (List.range (n - 1)).flatMap fun i =>
      let a := blk (r + 2 * n - i - 1)
      let b := blk (r + 2 * n - i - 2)
      [.send ((r + 1) % n) 0 1 a.1 a.2 a.1, .await ((r + n - 1) % n) 0 b.1 b.2]
  else
    ([2 * r + 1, 2 * r + 2].filter fun k => decide (k < n)).map (fun k => CStep.await k 0 0 d.count)
      ++ if r > 0 then [.send ((r - 1) / 2) 0 1 0 d.count 0] else []

/-- The steps of the gather phase over the destination. -/
def gatherSteps (d : CollDesc) (n r : Nat) : List CStep :=
  let others := (List.range n).filter fun k => k != r
  let blk (k : Nat) := block d.count n (k % n)
  if d.sched = 0 then
    (List.range (n - 1)).flatMap fun i =>
      let a := blk (r + 2 * n - i)
      let b := blk (r + 2 * n - i - 1)
      [.send ((r + 1) % n) 1 2 a.1 a.2 a.1, .await ((r + n - 1) % n) 1 b.1 b.2]
  else if d.sched = 2 then
    others.map (fun k => .send k 1 2 (blk r).1 (blk r).2 (blk r).1) ++ others.map fun k => .await k 1 (blk k).1 (blk k).2
  else
    (if r > 0 then [.await ((r - 1) / 2) 1 0 d.count] else [])
      ++ ([2 * r + 1, 2 * r + 2].filter fun k => decide (k < n)).map fun k => CStep.send k 1 2 0 d.count 0

/-- The steps of an all-to-all. -/
def exchangeSteps (d : CollDesc) (n r : Nat) : List CStep :=
  let others := (List.range n).filter fun k => k != r
  let blk (k : Nat) := block d.count n k
  others.map (fun k => .send k 1 0 (blk k).1 (blk k).2 (blk r).1) ++ others.map fun k => .await k 1 (blk k).1 (blk k).2

/-- The steps of a broadcast, over ranks relative to the root. -/
def broadcastSteps (d : CollDesc) (n r : Nat) : List CStep :=
  let q := (r + n - d.root) % n
  let abs (x : Nat) := (x + d.root) % n
  let await (x : Nat) : CStep := .await (abs x) 1 0 d.count
  let send (x : Nat) : CStep := .send (abs x) 1 2 0 d.count 0
  if d.sched = 0 then (if q > 0 then [await (q - 1)] else []) ++ (if q + 1 < n then [send (q + 1)] else [])
  else if d.sched = 1 then
    (if q > 0 then [await ((q - 1) / 2)] else []) ++ ([2 * q + 1, 2 * q + 2].filter fun x => decide (x < n)).map send
  else if q = 0 then (((List.range n).filter fun x => x != 0).map send) else [await 0]

/-- The steps of a collective at rank `r` of `n`: own values, READY, then the phases. -/
def collSteps (d : CollDesc) (n r : Nat) : List CStep :=
  [.place, .ready] ++
  match d.op with
  | 0 => reduceSteps d n r ++ [.finish] ++ (if n > 1 then gatherSteps d n r else [])
  | 1 => reduceSteps d n r ++ [.finish]
  | 2 => if n > 1 then gatherSteps d n r else []
  | 3 => exchangeSteps d n r
  | _ => broadcastSteps d n r

/-- What the steps wait for: rank, phase, first element and the one after the last. -/
def awaited (st : List CStep) : List (Nat × Nat × Nat × Nat) :=
  st.filterMap fun x => match x with | .await f ph lo hi => some (f, ph, lo, hi) | _ => none
/-- The ranks that the steps send to. -/
def sentTo (st : List CStep) : List Nat :=
  (st.filterMap fun x => match x with | .send t _ _ _ _ _ => some t | _ => none).eraseDups

/-! ### Records of the engine -/

/-- The record of a COLL. -/
def getColl (s : State) (c tag : Nat) : Option Coll := s.net.colls.find? fun k => k.core == c && k.tag == tag
/-- Changes the record of a COLL. -/
def modColl (s : State) (c tag : Nat) (f : Coll → Coll) : State :=
  { s with net := { s.net with colls := s.net.colls.map fun k => if k.core == c && k.tag == tag then f k else k } }
/-- Removes the record of a COLL. -/
def delColl (s : State) (c tag : Nat) : State :=
  { s with net := { s.net with colls := s.net.colls.filter fun k => !(k.core == c && k.tag == tag) } }
/-- Sets bits of LNK_COLL_CAUSE. -/
def collCause (b : BitVec 5) (s : State) : State := { s with net := { s.net with cause := s.net.cause ||| b } }
/-- The collective of a group with a sequence number. -/
def collOf (s : State) (g : Nat) (seq : Word32) : Option Coll :=
  s.net.colls.find? fun k => k.group == some g && k.seq == seq
/-- The rank of a device in a collective. -/
def rankOf (k : Coll) (dev : BitVec 16) : Option Nat := k.members.findIdx? fun m => m.1 == dev

/-- Where element `e` of a buffer lies at a member: buffer 0 source, 1 work area, 2 destination. -/
def collAddr (k : Core) (d : CollDesc) (n r buf e : Nat) : Nat :=
  let lo := (block d.count n r).1
  let z := collElem d.fmt
  match buf with
  | 0 => regionAddr k d.srcR d.srcOff + (if d.op = 2 then e - lo else e) * z
  | 1 => regionAddr k d.workR d.workOff + (if workWhole d then e else e - lo) * slotBytes d.exact d.fmt
  | _ => regionAddr k d.dstR d.dstOff
      + (if d.op = 0 then e * elemBytes d.out else if d.op = 1 then (e - lo) * elemBytes d.out else e * z)

/-- The element size of a buffer as it is sent. -/
def sendElem (d : CollDesc) (buf : Nat) : Nat := if buf = 2 ∧ d.op = 0 then elemBytes d.out else collElem d.fmt

/-! ### Ends of a collective (R355, R356) -/

/-- Drops a line as KILL does (R351, R356): one that is held is dropped once it is free. -/
def killLine (ln : Nat) (s : State) : State :=
  match killAt 1201 ln s with
  | (s1, .wait) => { s1 with comb := { s1.comb with lastDrops := if s1.comb.lastDrops.contains ln then s1.comb.lastDrops else s1.comb.lastDrops ++ [ln] } }
  | (s1, _) => s1

/-- Drops lines. -/
def killLines (lns : List Nat) (s : State) : State := lns.foldl (fun s ln => killLine ln s) s

/-- Leaves bytes of one line unspecified: a free value (R356; log 4); of a line that is held once it is free. -/
def spoilLine (cls a n : Nat) (s : State) : State :=
  match engineWriteBytes 1201 cls 3 a ((lineBytes (Config.freeBits512 s.free)).take n) (takeFree s) with
  | (s1, .wait) => { s1 with net := { s1.net with spoils := s1.net.spoils ++ [(cls, a, n)] } }
  | (s1, _) => s1

/-- Leaves bytes unspecified. -/
def scramble (cls a n : Nat) (s : State) : State :=
  (cutLines (n + 1) a (List.replicate n 0)).foldl (fun s p => spoilLine cls p.1 p.2.length s) s

/-- Takes up again what waits for held lines behind failed collectives. -/
def retrySpoils (s : State) : State :=
  s.net.spoils.foldl (fun s x => spoilLine x.1 x.2.1 x.2.2 s) { s with net := { s.net with spoils := [] } }

/-- Sends ABORT with a fault code to every other member of a collective (R356). Of a hash mismatch only the member that it was found
with is told 0x31, the others 0x30 (R350; log 36). -/
def sendAborts (k : Coll) (code far : Nat) (s : State) : State :=
  match k.group with
  | none => s
  | some g => k.members.zipIdx.foldl (fun s m =>
      if m.2 = k.rank then s
      else post none { dst := m.1.1, src := 0, typ := 0x04, dgen := m.1.2
                       fields := pFields k.seq.toNat g 0 (if code = 0x31 ∧ m.2 ≠ far then 0x30 else code) } s) s

/-- A collective fails: the fault of its COLL, its work lines dropped, its destination unspecified, and ABORT to every member
unless it is itself the answer to one (R356). -/
def collFail (c tag code detail : Nat) (abort : Bool) (s : State) : State :=
  match getColl s c tag, flightOf (getCore s c) tag with
  | some k, some f =>
    let d := collDesc f
    let n := k.members.length
    let core := getCore s c
    let x := collExtents d n k.rank
    let s1 := flightFault c f code detail (delColl s c tag)
    let s2 := if abort then sendAborts k code detail s1 else s1
    let s3 := if code = 0x2E then collCause 1 s2 else if code = 0x2F then collCause 2 s2 else if code = 0x31 then collCause 8 s2 else s2
    if d.op = 5 then s3
    else scramble d.cls (regionAddr core d.dstR d.dstOff) x.2.1
      (if reduces d then killLines (linesOf (regionAddr core d.workR d.workOff) x.2.2) s3 else s3)
  | _, _ => delColl s c tag

/-- Detail of an unreachable member: its rank, and the device id above (R356). -/
def farDetail (rank : Nat) (dev : BitVec 16) : Nat := rank % 2 ^ 16 + dev.toNat * 2 ^ 16

/-! ### Steps of a collective -/

/-- Sends elements lo to hi of a buffer to a rank as DATA packets; answers how many went (R325, R350). -/
def sendData (k : Coll) (core : Core) (d : CollDesc) (dest phase buf : Nat) :
    Nat → Nat → Nat → Nat → State → State × Nat × Res Unit
  | 0, _, _, _, s => (s, 0, .ok ())
  | fuel + 1, lo, hi, at_, s =>
    if lo ≥ hi then (s, 0, .ok ()) else
    let z := sendElem d buf
    let m := k.members.getD dest (0, 0)
    let cnt := min (hi - lo) (payloadMax m.1 2 s / z)
    let a := collAddr core d k.members.length k.rank buf lo
    match andThen (readSpan 1201 d.cls a (cnt * z) s) fun bs s1 =>
        sendFrom (some (d.cls, a, cnt * z))
          { dst := m.1, src := 0, typ := 0x02, dgen := m.2, payload := bs
            fields := pFields k.seq.toNat (k.group.getD 0) phase at_ } s1 with
    | (s2, .ok _) =>
      match sendData k core d dest phase buf fuel (lo + cnt) hi (at_ + cnt) s2 with
      | (s3, n, r) => (s3, n + cnt, r)
    | (s2, r) => (s2, 0, r)

/-- Reads bytes and writes them elsewhere. -/
def copyBytes (cls src dst n : Nat) (s : State) : State × Res Unit :=
  andThen (readSpan 1201 cls src n s) fun bs s1 => engineWriteBytes 1201 cls (n + 1) dst bs s1

/-- Sends runs of contributions to the homes of a work area, from run `i` on. -/
def contribRuns (cls : Nat) (t : RedTag) (a : Nat) (vals : List Nat) : List (Nat × Nat) → State → State × Nat × Res Unit
  | [], s => (s, 0, .ok ())
  | (lo, n) :: r, s =>
    let slot := slotBytes t.exact t.fmt.toNat
    let u := if t.exact then 256 else 64
    let b := a + lo * slot
    let elems := (List.range n).map fun i => ((b % u) / slot + i, BitVec.ofNat 32 (vals.getD (lo + i) 0))
    match sendContrib 1201 cls (b / u * (u / 64)) t elems s with
    | (s1, .ok _) =>
      match contribRuns cls t a vals r s1 with
      | (s2, m, x) => (s2, m + n, x)
    | (s1, .err e) => (s1, 0, .err e)
    | (s1, .wait) => (s1, 0, .wait)

/-- Applies elements to work slots from an address, as contributions; answers how many were received. -/
def contribute (cls : Nat) (t : RedTag) (a : Nat) (vals : List Nat) (s : State) : State × Nat × Res Unit :=
  contribRuns cls t a vals (splitElems a vals.length (slotBytes t.exact t.fmt.toNat) (if t.exact then 256 else 64)) s

/-- The elements of `z` bytes in a list. -/
def elemsOf (z : Nat) (bs : List Byte) : List Nat := (List.range (bs.length / z)).map fun i => elemAt bs z i

/-- A member's own values are placed (R350, R351). -/
def placeOwn (core : Core) (d : CollDesc) (n r : Nat) (s : State) : State × Res Unit :=
  let z := collElem d.fmt
  let b := block d.count n r
  let src (e : Nat) := collAddr core d n r 0 e
  if reduces d then
    if !(reducesDirect d) then copyBytes d.cls (src 0) (collAddr core d n r 1 0) (d.count * z) s
    else
      andThen (readSpan 1201 d.cls (src b.1) ((b.2 - b.1) * z) s) fun bs s1 =>
        let vs := elemsOf z bs
        if d.exact then
          let slot := slotBytes true d.fmt
          let a := collAddr core d n r 1 b.1
          match readyLines { agent := 1216, master := 1201, cls := d.cls, op := .contrib (collTag d) [] }
              (linesOf (a / 256 * 256) (a % 256 + vs.length * slot)) s1 with
          | (s2, false) => (s2, .wait)
          | (s2, true) => match contribute d.cls (collTag d) a vs s2 with
            | (s3, _, x) => (s3, x)
        else
          let held := vs.flatMap fun v => if d.fmt = 2 then leBytes 4 (widen .fp16 v) else leBytes z v
          engineWriteBytes 1201 d.cls (held.length + 1) (collAddr core d n r 1 b.1) held s1
  else
    match d.op with
    | 2 => copyBytes d.cls (src b.1) (collAddr core d n r 2 b.1) ((b.2 - b.1) * z) s
    | 3 => copyBytes d.cls (src b.1) (collAddr core d n r 2 b.1) ((b.2 - b.1) * z) s
    | _ => if r = d.root then copyBytes d.cls (src 0) (collAddr core d n r 2 0) (d.count * z) s else (s, .ok ())

/-- The CFIN step: the own block, or at rank 0 of a tree the whole work area, converted into dst and cleared; every other
work line dropped (R351, R352). -/
def finishStep (c : Nat) (f : Flight) (core : Core) (d : CollDesc) (n r : Nat) (s : State) : State × Res Unit :=
  let tree : Bool := !(reducesDirect d) && d.sched == 1
  let b : Nat × Nat := if tree then (0, if r = 0 then d.count else 0) else block d.count n r
  let t := collTag d
  let slot := slotBytes d.exact d.fmt
  let a := collAddr core d n r 1 b.1
  let len := (b.2 - b.1) * slot
  let work := regionAddr core d.workR d.workOff
  let workLen := (collExtents d n r).2.2
  match (linesOf a len).find? fun ln => (match redOf s ln with | some u => decide (u ≠ t) | none => false) with
  | some ln => (match homeSlice s ln with | some m => refuseContribution m s | none => s, .err 0x2B)
  | none =>
    andThen (readSpan 1201 d.cls a len s) fun bs s1 =>
      let outs := (List.range (b.2 - b.1)).map fun i =>
        let v := if d.exact && (redOf s1 ((a + i * slot) / 64)).isNone then 0 else elemAt bs slot i
        cfinElem d.exact d.e d.fmt d.out (d.rm == 4) (drawBits 4 f.seed.toNat d.stream d.draw (d.base + b.1 + i)) v
      let bytes := outs.flatMap fun o => leBytes (elemBytes d.out) o.bits
      let own := linesOf a len
      match readyLines { agent := 1216, master := 1201, cls := d.cls, op := .write 0 0 } own s1 with
      | (s2, false) => (s2, .wait)
      | (s2, true) =>
        andThen (engineWriteBytes 1201 d.cls (bytes.length + 1) (collAddr core d n r 2 b.1) bytes s2) fun _ s3 =>
        andThen (engineWriteBytes 1201 d.cls (len + 1) a (List.replicate len 0) s3) fun _ s4 =>
          (census c (fpCensus f.fpctl) (outs.filter fun o => o.counted).length
            (killLines ((linesOf work workLen).filter fun ln => !(own.contains ln)) s4), .ok ())

/-- Whether all elements lo to hi of a phase have come from a rank. -/
def covered (k : Coll) (frm phase lo hi : Nat) : Bool :=
  decide (hi - lo ≤ ((k.got.filter fun g => g.1 == frm && g.2.1 == phase && decide (lo ≤ g.2.2.1) && decide (g.2.2.1 + g.2.2.2 ≤ hi)).map
    fun g => g.2.2.2).sum)

/-- The ranks that a member receives from, by its awaited data. -/
def senders (k : Coll) : List Nat := (k.expect.map Prod.fst).eraseDups

/-- Sends READY to the first member that it has not gone to yet; answers its rank (R350). -/
def sendReady (k : Coll) (r : Nat) (s : State) : State × Res Unit :=
  let m := k.members.getD r (0, 0)
  sendPacket { dst := m.1, src := 0, typ := 0x01, dgen := m.2, fields := pFields k.seq.toNat (k.group.getD 0) 0 k.hash.toNat } s

/-- Sends DONE to a member. -/
def sendDone (k : Coll) (r : Nat) (s : State) : State × Res Unit :=
  let m := k.members.getD r (0, 0)
  sendPacket { dst := m.1, src := 0, typ := 0x03, dgen := m.2, fields := pFields k.seq.toNat (k.group.getD 0) 0 0 } s

/-- A COLL has done all of its work: its tag may pulse (R355). -/
def collDone (c tag : Nat) (s : State) : State :=
  delColl (modCore s c fun k => modFlight k tag fun x => { x with ph := .done }) c tag

/-- Carries an active collective through its steps until one must wait (R351, R355). -/
def collAdvance (c tag : Nat) : Nat → State → State
  | 0, s => s
  | fuel + 1, s =>
    match getColl s c tag, flightOf (getCore s c) tag with
    | some k, some f =>
      let core := getCore s c
      let d := collDesc f
      let n := k.members.length
      let go (s : State) : State := collAdvance c tag fuel (modColl s c tag fun x => { x with steps := x.steps.tail })
      let fail (e : Nat) (det : Nat) (s : State) : State := collFail c tag e det true s
      if !k.active then s else
      match k.steps with
      | [] =>
        if (k.sendTo.all fun r => k.dones.contains r) && ((senders k).all fun r => k.doneSent.contains r) then collDone c tag s else s
      | .place :: _ =>
        match placeOwn core d n k.rank s with
        | (s1, .ok _) => go s1
        | (s1, .err e) => fail e 0xFFFF s1
        | (s1, .wait) => s1
      | .ready :: _ =>
        match (senders k).find? fun r => !(k.readySent.contains r) with
        | none => go s
        | some r =>
          match sendReady k r s with
          | (s1, .ok _) => collAdvance c tag fuel (modColl s1 c tag fun x => { x with readySent := r :: x.readySent })
          | (s1, .err e) => fail e (farDetail r (k.members.getD r (0, 0)).1) s1
          | (s1, .wait) => s1
      | .send dest ph buf lo hi at_ :: _ =>
        if !(k.readys.contains dest) then s
        else match sendData k core d dest ph buf (hi - lo + 1) lo hi at_ s with
          | (s1, _, .ok _) => go s1
          | (s1, m, .wait) => modColl s1 c tag fun x => { x with steps := .send dest ph buf (lo + m) hi (at_ + m) :: x.steps.tail }
          | (s1, _, .err e) => fail e (if e = 0x2E then farDetail dest (k.members.getD dest (0, 0)).1 else 0xFFFF) s1
      | .await frm ph lo hi :: _ => if covered k frm ph lo hi then go s else s
      | .finish :: _ =>
        match finishStep c f core d n k.rank s with
        | (s1, .ok _) => go s1
        | (s1, .err e) => fail e 0xFFFF s1
        | (s1, .wait) => s1
    | _, _ => s

/-- Sends DONE to every member whose data have all been written or applied, once the READYs are out (R355). -/
def collDones (c tag : Nat) : List Nat → State → State
  | [], s => s
  | r :: rest, s =>
    match getColl s c tag with
    | none => s
    | some k =>
      if !k.active || k.doneSent.contains r || !(k.readySent.contains r)
          || !((k.expect.filter fun a => a.1 == r).all fun a => covered k a.1 a.2.1 a.2.2.1 a.2.2.2) then collDones c tag rest s
      else match sendDone k r s with
        | (s1, .ok _) => collDones c tag rest (modColl s1 c tag fun x => { x with doneSent := r :: x.doneSent })
        | (s1, .err e) => collFail c tag e (farDetail r (k.members.getD r (0, 0)).1) true s1
        | (s1, .wait) => collDones c tag rest s1

/-- Carries a collective on as far as it goes: each step is taken once, and a broken-off one again later. -/
def collRun (c tag : Nat) (s : State) : State :=
  match getColl s c tag with
  | some k =>
    let s1 := collDones c tag (senders k) s
    match getColl s1 c tag with
    | some k1 => collAdvance c tag (k1.steps.length + k1.members.length + 1) s1
    | none => s1
  | none => s

/-! ### The gather of shards (R286, R354) -/

/-- A chunk's weights at the destination of a gather: 2P bytes (R271). -/
def replicaAddr (e : BitVec 1024) (i : Nat) : Nat := shardField e 0x18 8 + 2 * shParams e * i

/-- Sends the GREQ of a chunk with a tag. -/
def sendGreq (k : Coll) (d : CollDesc) (chunk tag : Nat) (s : State) : State × Res Unit :=
  sendPacket { dst := BitVec.ofNat 16 (shardField k.entry 4 2), src := 0, typ := 0x10, tag := BitVec.ofNat 16 tag
               fields := pFields d.shard (chunk % 256) (chunk / 256 % 256) 0 + BitVec.ofNat 96 (chunk / 2 ^ 16 % 2 ^ 16 * 2 ^ 48) } s

/-- The device id of a shard's owner. -/
def ownerOf (k : Coll) : BitVec 16 := BitVec.ofNat 16 (shardField k.entry 4 2)

/-- The next chunk of a gather is requested, one at a time (log 36); with none left it ends: a stale chunk faults it with 0x10. -/
def gatherNext (c tag : Nat) (s : State) : State :=
  match getColl s c tag, flightOf (getCore s c) tag with
  | some k, some f =>
    if !k.active || !k.gathers.isEmpty || !k.held.isEmpty then s else
    match k.todo with
    | ch :: rest =>
      let t := s.net.nextTag
      match sendGreq k (collDesc f) ch t.toNat s with
      | (s1, .ok _) =>
        modColl { s1 with net := { s1.net with nextTag := t + 1 } } c tag fun x =>
          { x with todo := rest, gathers := [{ chunk := ch, tag := t.toNat, tries := 1 }] }
      | (s1, .err e) => collFail c tag e (farDetail 0xFFFF (ownerOf k)) false s1
      | (s1, .wait) => s1
    | [] =>
      match k.stale with
      | [] => collDone c tag s
      | x :: r => flightFault c f 0x10 (r.foldl min x - (collDesc f).first) (delColl s c tag)
  | _, _ => s

/-- A chunk of a gather has been handled. -/
def gatherHandled (c tag chunk : Nat) (stale : Bool) (s : State) : State :=
  gatherNext c tag (modColl s c tag fun x =>
    { x with gathers := x.gathers.filter fun g => g.chunk != chunk, stale := if stale then chunk :: x.stale else x.stale })

/-- Makes the replica's weight tag of a chunk the stale marker; one that meets a held line waits with its packet. -/
def gatherStale (c tag chunk : Nat) (p : Packet) (s : State) : State :=
  match getColl s c tag, flightOf (getCore s c) tag with
  | some k, some f =>
    let cls := (collDesc f).cls
    let fail (e : Nat) (s : State) : State := collFail c tag e 0xFFFF false s
    match andThen (readTag 1201 cls k.entry chunk s) fun t s1 =>
        engineWriteBytes 1201 cls 3 (tagAddr k.entry chunk) (tagBytes { t with wt := staleMarker }) s1 with
    | (s1, .ok _) => gatherHandled c tag chunk true s1
    | (s1, .err e) => fail e s1
    | (s1, .wait) => modColl s1 c tag fun x => { x with held := x.held ++ [p] }
  | _, _ => s

/-- The gather and chunk request that an answer with a request tag belongs to. -/
def gatherOf (s : State) (p : Packet) : Option (Coll × Gather) :=
  s.net.colls.findSome? fun k =>
    if k.group.isNone && p.src == ownerOf k then (k.gathers.find? fun g => g.tag == p.tag.toNat).map fun g => (k, g) else none

/-- GDATA arrives (R286): bytes into the replica, then the tag entry with the owner's weight tag, or the stale marker. Over an
Ethernet port the chunk may come in several packets, in their order (R335; log 36). -/
def takeGdata (p : Packet) (s : State) : State :=
  match gatherOf s p with
  | none => s
  | some (k, g) =>
    match flightOf (getCore s k.core) k.tag with
    | none => s
    | some f =>
      let cls := (collDesc f).cls
      let bytes := g.part ++ p.payload
      if bytes.length < 2 * shParams k.entry ∧ (peerOf s p.src).isSome then
        modColl s k.core k.tag fun x => { x with
          gathers := x.gathers.map fun y => if y.tag = g.tag then { y with part := bytes } else y }
      else if bytes.length ≠ 2 * shParams k.entry then gatherStale k.core k.tag g.chunk p s
      else
        let dig := pField p 0x14 8
        match engineWriteBytes 1201 cls (bytes.length + 1) (replicaAddr k.entry g.chunk) bytes s with
        | (s1, .err e) => collFail k.core k.tag e 0xFFFF false s1
        | (s1, .wait) => modColl s1 k.core k.tag fun x => { x with held := x.held ++ [p] }
        | (s1, .ok _) =>
          if digest bytes ≠ dig then gatherStale k.core k.tag g.chunk p s1
          else
            let t : TagEntry := { mt := 0, wt := pField p 0x1C 4, wdig := dig, mdig := 0, cdig := 0 }
            match engineWriteBytes 1201 cls 3 (tagAddr k.entry g.chunk) (tagBytes t) s1 with
            | (s2, .ok _) => gatherHandled k.core k.tag g.chunk false s2
            | (s2, .err e) => collFail k.core k.tag e 0xFFFF false s2
            | (s2, .wait) => modColl s2 k.core k.tag fun x => { x with held := x.held ++ [p] }

/-- GSUPER arrives (R354): the request is repeated after 10 µs, and the fifth one's GSUPER makes the chunk stale. -/
def takeGsuper (p : Packet) (s : State) : State :=
  match gatherOf s p with
  | none => s
  | some (k, g) =>
    if g.tries ≥ 5 then gatherStale k.core k.tag g.chunk p s
    else modColl s k.core k.tag fun x => { x with
      gathers := x.gathers.map fun y => if y.tag = g.tag then { y with waits := true, part := [] } else y }

/-- GCORRUPT arrives (R354). -/
def takeGcorrupt (p : Packet) (s : State) : State :=
  match gatherOf s p with
  | none => s
  | some (k, g) => gatherStale k.core k.tag g.chunk p s

/-- 10 µs after a GSUPER the GREQ goes again (R354). -/
def gatherRetry (tag : Nat) (s : State) : State :=
  match s.net.colls.findSome? fun k => (k.gathers.find? fun g => g.tag == tag && g.waits).map fun g => (k, g) with
  | none => s
  | some (k, g) =>
    match flightOf (getCore s k.core) k.tag with
    | none => s
    | some f =>
      match sendGreq k (collDesc f) g.chunk g.tag s with
      | (s1, .ok _) =>
        modColl s1 k.core k.tag fun x => { x with
          gathers := x.gathers.map fun y => if y.tag = g.tag then { y with waits := false, tries := y.tries + 1 } else y }
      | (s1, .err e) => collFail k.core k.tag e (farDetail 0xFFFF (ownerOf k)) false s1
      | (s1, .wait) => s1

/-- The packets of an answer with `n` payload bytes at an address: as large as the way to the requester carries (R335). -/
def replyRun (p : Packet) (max_ a : Nat) (fields : BitVec 96) : Nat → List Byte → State → State
  | 0, _, s => s
  | fuel + 1, bs, s =>
    match bs with
    | [] => s
    | _ =>
      let part := bs.take max_
      replyRun p max_ (a + part.length) fields fuel (bs.drop max_)
        (post (some (0, a, part.length)) { dst := p.src, src := 0, typ := 0x11, dgen := p.sgen, tag := p.tag, fields, payload := part } s)

/-- GREQ at an owner (R286, R354). `superseded` says whether the two readings of the tag entry differed; they do while an update pass
holds the tag line (R35). A request for a shard that this device does not own gets no answer, and the owner's reads are of class 0
(log 36). One that meets a held line waits. -/
def serveGreq (p : Packet) (superseded : Bool) (s : State) : State :=
  let i := pField p 0x14 2
  let ch := pField p 0x18 4
  let reply (typ : Byte) (s : State) : State :=
    post none { dst := p.src, src := 0, typ, dgen := p.sgen, tag := p.tag } s
  let keep (s : State) : State := { s with net := { s.net with greqs := s.net.greqs ++ [p] } }
  if i ≥ s.comb.shardCnt then s else
  match readShard 1201 0 i s with
  | (s1, .ok e) =>
    if !(shValid e) || !(shOwned e) || decide (ch ≥ shChunks e) then s1
    else if superseded || tagHeld s1 (tagAddr e ch / 64) then reply 0x12 s1
    else
      let a := chunkAt e ch
      match andThen (readTag 1201 0 e ch s1) fun t s2 =>
          andThen (readSpan 1201 0 (if shMaster e then a.cp else a.w) (2 * shParams e) s2) fun bs s3 => (s3, .ok (t, bs)) with
      | (s3, .ok (t, bs)) =>
        if digest bs ≠ (if shMaster e then t.cdig else t.wdig) then
          reply 0x13 (shardCorrupt ((updEngine s3 e ch).getD (hashHome s3 (a.w / 64))) i ch s3)
        else
          replyRun p (payloadMax p.src 1 s3) (if shMaster e then a.cp else a.w) (BitVec.ofNat 96 (digest bs + t.wt * 2 ^ 64))
            (bs.length + 1) bs s3
      | (s3, .wait) => keep s3
      | (s3, .err _) => s3
  | (s1, .wait) => keep s1
  | (s1, .err _) => s1

/-- Takes up again the GREQs that wait. -/
def retryGreqs (s : State) : State :=
  s.net.greqs.foldl (fun s p => serveGreq p false s) { s with net := { s.net with greqs := [] } }

/-! ### Acceptance (R345, R348, R349) -/

/-- Makes waiting collectives of a group active while fewer than four are, in their order; an early READY counts at once, and
one whose hash differs fails it. -/
def activate (g : Nat) : Nat → State → State
  | 0, s => s
  | fuel + 1, s =>
    let mine := s.net.colls.filter fun k => k.group == some g
    if (mine.filter fun k => k.active).length ≥ 4 then s else
    match mine.find? fun k => !k.active with
    | none => s
    | some k => activate g fuel (collRun k.core k.tag (modColl s k.core k.tag fun x => { x with active := true }))

/-- After a collective has ended, the next of its group begins. -/
def settleColls (s : State) : State :=
  ((s.net.colls.filterMap fun k => if k.active then none else k.group).eraseDups).foldl (fun s g => activate g 4 s) s

/-- READY of a rank at a collective: its hash must agree (R350). -/
def noteReady (k : Coll) (frm : Nat) (hash : Word32) (s : State) : State :=
  if hash ≠ k.hash then collFail k.core k.tag 0x31 frm true s
  else collRun k.core k.tag (modColl s k.core k.tag fun x => { x with readys := frm :: x.readys })

/-- The group entry and member list of a group: member count, own rank and members; none when invalid (R345). -/
def readGroup (cls g : Nat) (s : State) : State × Res (Option (Nat × List (BitVec 16 × Byte))) :=
  andThen (readSpan 1201 cls (s.net.grpBase.toNat + 64 * g) 64 s) fun bs s1 =>
    let n := bytesAt bs 4 2
    let r := bytesAt bs 6 2
    let a := bytesAt bs 8 8
    if bytesAt bs 0 4 % 2 = 0 ∨ n = 0 ∨ n > 4096 ∨ r ≥ n ∨ a % 64 ≠ 0 then (s1, .ok none)
    else
      andThen (readSpan 1201 cls a (4 * n) s1) fun ms s2 =>
        let mem := (List.range n).map fun i => (BitVec.ofNat 16 (bytesAt ms (4 * i) 2), BitVec.ofNat 8 (bytesAt ms (4 * i + 2) 1))
        if (mem.getD r (0, 0)).1 = s2.net.devid then (s2, .ok (some (r, mem))) else (s2, .ok none)

/-- Enters an accepted COLL in the engine's records. -/
def enterColl (c : Nat) (f : Flight) (k : Coll) (s : State) : State :=
  let s1 := modCore s c fun x => modFlight x f.tag fun y => { y with ph := .started }
  { s1 with net := { s1.net with colls := s1.net.colls ++ [k] } }

/-- Accepts a COLL of operations 0 to 4. -/
def acceptGroup (c : Nat) (f : Flight) (s : State) : State :=
  let d := collDesc f
  let core := getCore s c
  match readGroup d.cls d.group s with
  | (s1, .wait) => s1
  | (s1, .err e) => flightFault c f e 0 s1
  | (s1, .ok none) => flightFault c f 0x0E 0 s1
  | (s1, .ok (some (r, mem))) =>
    let n := mem.length
    if (d.op = 3 ∧ d.count % n ≠ 0) ∨ (d.op = 4 ∧ d.root ≥ n) then flightFault c f 0x0E 0 s1
    else
      let seq := tblGet 0 s1.net.seqs d.group + 1
      let next (s : State) : State := { s with net := { s.net with seqs := tblPut s.net.seqs d.group seq } }
      if d.count = 0 then modCore (next s1) c fun x => modFlight x f.tag fun y => { y with ph := .done }
      else match collRegions core d n r with
      | some (code, rg) => flightFault c f code rg s1
      | none =>
        if reduces d ∧ d.exact ∧ inHbm (regionAddr core d.workR d.workOff) then flightFault c f 0x2C 0 s1
        else
          let st := collSteps d n r
          let early := s1.net.early.filter fun x => x.1 == d.group && x.2.1 == seq
          let k : Coll := { core := c, tag := f.tag, group := some d.group, seq, rank := r, members := mem, hash := collHash f
                            steps := st, expect := awaited st, sendTo := sentTo st }
          let s2 := enterColl c f k (next s1)
          let s3 := { s2 with net := { s2.net with
            early := s2.net.early.filter fun x => !(x.1 == d.group && x.2.1 == seq)
            aborts := s2.net.aborts.filter fun x => !(x.1 == d.group && x.2.1 == seq) } }
          match s1.net.aborts.find? fun x => x.1 == d.group && x.2.1 == seq with
          | some x => collFail c f.tag 0x30 ((rankOf k x.2.2).getD 0xFFFF) false s3
          | none =>
            let s4 := activate d.group 4 s3
            early.foldl (fun s x => match getColl s c f.tag with
              | some k => (match rankOf k x.2.2.1 with | some q => noteReady k q x.2.2.2 s | none => s)
              | none => s) s4

/-- Accepts a shard gather (R354). -/
def acceptGather (c : Nat) (f : Flight) (s : State) : State :=
  let d := collDesc f
  if d.count = 0 then modCore s c fun x => modFlight x f.tag fun y => { y with ph := .done }
  else if d.shard ≥ s.comb.shardCnt then flightFault c f 0x0E 0 s
  else match readShard 1201 d.cls d.shard s with
  | (s1, .wait) => s1
  | (s1, .err e) => flightFault c f e 0 s1
  | (s1, .ok e) =>
    if !(shValid e) || shOwned e then flightFault c f 0x0E 0 s1
    else if d.first + d.count > shChunks e then flightFault c f 0x01 0 s1
    else gatherNext c f.tag (enterColl c f
      { core := c, tag := f.tag, group := none, active := true, entry := e
        todo := (List.range d.count).map fun i => d.first + i } s1)

/-- The oldest COLL in a core's queue. -/
def queuedColl (k : Core) : Option Flight := k.flights.find? fun f => f.eng == 5 && decide (f.ph = .queued)

/-- How far a core stands behind the one whose COLL was accepted last. -/
def collTurn (s : State) (c : Nat) : Nat := (c + 1199 - s.net.lastCore) % 1200

/-- Whether it is a core's turn: no core before it, behind the one accepted last, has a COLL in its queue (R344). -/
def collNext (s : State) (c : Nat) : Bool :=
  s.cores.all fun e => (queuedColl e.2).isNone || decide (collTurn s c ≤ collTurn s e.1)

/-- The engine takes the oldest COLL of a core's queue in the core's turn, when fewer than 64 are in it (R344, R348). -/
def acceptColl (c tag : Nat) (s : State) : State :=
  match queuedColl (getCore s c) with
  | none => s
  | some f =>
    if f.tag ≠ tag ∨ s.net.colls.length ≥ 64 ∨ collNext s c = false then s
    else
      let s1 := if collMalformed f then flightFault c f 0x0E 0 s
        else if (collDesc f).op = 5 then acceptGather c f s
        else acceptGroup c f s
      if (queuedColl (getCore s1 c)).any fun x => x.tag == tag then s1 else { s1 with net := { s1.net with lastCore := c } }

/-! ### Packets of collectives (R350 to R356) -/

/-- READY arrives; one for a collective not accepted yet is kept. -/
def takeReady (p : Packet) (s : State) : State :=
  let g := pField p 0x18 1
  let seq := BitVec.ofNat 32 (pField p 0x14 4)
  let hash := BitVec.ofNat 32 (pField p 0x1C 4)
  match collOf s g seq with
  | some k => (match rankOf k p.src with | some r => settleColls (noteReady k r hash s) | none => s)
  | none =>
    if (seq - (tblGet 0 s.net.seqs g + 1)).toNat < 2 ^ 31 then
      { s with net := { s.net with early := s.net.early ++ [(g, seq, p.src, hash)] } }
    else s

/-- Writes or applies the elements of a DATA packet that a collective awaits; answers how many are done. -/
def applyData (k : Coll) (f : Flight) (phase lo : Nat) (bs : List Byte) (s : State) : State × Nat × Res Unit :=
  let d := collDesc f
  let core := getCore s k.core
  let n := k.members.length
  let z := if phase = 0 then collElem d.fmt else sendElem d 2
  if phase = 0 then contribute d.cls (collTag d) (collAddr core d n k.rank 1 lo) (elemsOf z bs) s
  else
    match engineWriteBytes 1201 d.cls (bs.length + 1) (collAddr core d n k.rank 2 lo) bs s with
    | (s1, .ok _) => (s1, bs.length / z, .ok ())
    | (s1, .err e) => (s1, 0, .err e)
    | (s1, .wait) => (s1, 0, .wait)

/-- DATA arrives (R351): elements that the collective awaits of that rank are written or applied, or wait for a held line. -/
def takeData (p : Packet) (s : State) : State :=
  let phase := pField p 0x19 1
  let lo := pField p 0x1C 4
  match collOf s (pField p 0x18 1) (BitVec.ofNat 32 (pField p 0x14 4)) with
  | none => s
  | some k =>
    match rankOf k p.src, flightOf (getCore s k.core) k.tag with
    | some r, some f =>
      let d := collDesc f
      let z := if phase = 0 then collElem d.fmt else sendElem d 2
      let n := p.payload.length / z
      if !k.active || p.payload.length % z != 0
          || !(k.expect.any fun a => a.1 == r && a.2.1 == phase && decide (a.2.2.1 ≤ lo) && decide (lo + n ≤ a.2.2.2)) then s
      else match applyData k f phase lo p.payload s with
        | (s1, m, res) =>
          let s2 := modColl s1 k.core k.tag fun x => { x with got := if m = 0 then x.got else x.got ++ [(r, phase, lo, m)] }
          match res with
          | .ok _ => settleColls (collRun k.core k.tag s2)
          | .err e => settleColls (collFail k.core k.tag e 0xFFFF true s2)
          | .wait => modColl s2 k.core k.tag fun x => { x with held := x.held ++ [{ p with
              payload := p.payload.drop (m * z), fields := pFields k.seq.toNat (k.group.getD 0) phase (lo + m) }] }
    | _, _ => s

/-- DONE arrives (R355). -/
def takeDone (p : Packet) (s : State) : State :=
  match collOf s (pField p 0x18 1) (BitVec.ofNat 32 (pField p 0x14 4)) with
  | none => s
  | some k =>
    match rankOf k p.src with
    | some r => settleColls (collRun k.core k.tag (modColl s k.core k.tag fun x => { x with dones := r :: x.dones }))
    | none => s

/-- ABORT arrives (R356): at once, or for one of the next four collectives of the group at its acceptance. One with code 0x31
from a member to which READY has gone, and whose own READY has not agreed, tells of that READY's mismatch (R350). -/
def takeAbort (p : Packet) (s : State) : State :=
  let g := pField p 0x18 1
  let seq := BitVec.ofNat 32 (pField p 0x14 4)
  let s0 := collCause 4 s
  match collOf s0 g seq with
  | some k =>
    let r := (rankOf k p.src).getD 0xFFFF
    let code := if pField p 0x1C 1 = 0x31 ∧ k.readySent.contains r ∧ !(k.readys.contains r) then 0x31 else 0x30
    settleColls (collFail k.core k.tag code r false s0)
  | none =>
    if (seq - (tblGet 0 s0.net.seqs g + 1)).toNat < 4 then
      { s0 with net := { s0.net with aborts := (g, seq, p.src) :: s0.net.aborts.filter fun x => !(x.1 == g && x.2.1 == seq) } }
    else s0

/-- No packet of an active collective for LNK_COLL_TIMEOUT ms (R356). -/
def collTimeout (c tag : Nat) (s : State) : State :=
  match getColl s c tag with
  | some k => if k.active then settleColls (collFail c tag 0x2F 0xFFFF true s) else s
  | none => s

/-- Takes up again the work of a COLL that met a held line: packets kept back first. -/
def collRetry (c tag : Nat) (s : State) : State :=
  match getColl s c tag with
  | none => s
  | some k =>
    let s1 := modColl s c tag fun x => { x with held := [] }
    let s2 := k.held.foldl (fun s p =>
      match p.typ.toNat with
      | 0x02 => takeData p s
      | 0x11 => takeGdata p s
      | 0x12 => takeGsuper p s
      | _ => takeGcorrupt p s) s1
    settleColls (if k.group.isNone then gatherNext c tag s2 else collRun c tag s2)

/-- Whether an active operation uses the context of a member on a channel (R336): READY and DATA on 2, DONE on 1, GREQ on 0. -/
def usesCtx (k : Coll) (rank vc : Nat) : Bool :=
  k.active && (if k.group.isNone then vc == 0
    else if vc = 2 then k.sendTo.contains rank || (senders k).contains rank else vc == 1 && (senders k).contains rank)

/-- Faults every operation that uses a context of a peer with 0x2E: it is reset or has FAILED (R336, R359). -/
def failContexts (peer : Nat) (vcs : List Nat) (s : State) : State :=
  settleColls (s.net.colls.foldl (fun s k =>
    let devs := if k.group.isNone then [(ownerOf k, 0xFFFF)]
      else (k.members.zipIdx.filter fun m => m.2 != k.rank).map fun m => (m.1.1, m.2)
    match devs.find? fun x => peerOf s x.1 == some peer && vcs.any fun v => usesCtx k x.2 v with
    | some x => collFail k.core k.tag 0x2E (farDetail x.2 x.1) true s
    | none => s) s)

/-- Takes up again everything of the collective engine that waits for a line. -/
def retryColls (s : State) : State :=
  s.net.colls.foldl (fun s k => collRetry k.core k.tag s) (retryGreqs (retrySpoils (retryOutbox s)))

/-- Aborts the COLLs of a core that resets (R383). -/
def abortColls (c : Nat) (s : State) : State :=
  settleColls ((s.net.colls.filter fun k => k.core == c).foldl (fun s k => collFail c k.tag 0x30 0xFFFF true s) s)

end Sys2Proof.Machine
end

