-- ==== Sys2Proof/Machine/LinkOps.lean ====
section
/-! DEFINITION. The commands of links, routing, Ethernet mode and the collective engine (chapter 12). -/
namespace Sys2Proof.Machine

/-! ### Delivery (R325 to R327) -/

/-- A packet that the destination discards is counted (R326, R327). -/
def collDrop (s : State) : State := { s with net := { s.net with drop := satInc s.net.drop 1 } }

/-- Hands a good packet to what its type names (R325). -/
def dispatch (p : Packet) (superseded : Bool) (s : State) : State :=
  match p.typ.toNat with
  | 0x01 => takeReady p s
  | 0x02 => takeData p s
  | 0x03 => takeDone p s
  | 0x04 => takeAbort p s
  | 0x10 => serveGreq p superseded s
  | 0x11 => settleColls (takeGdata p s)
  | 0x12 => settleColls (takeGsuper p s)
  | 0x13 => settleColls (takeGcorrupt p s)
  | 0x20 => { s with frames := { s.frames with inbox := s.frames.inbox ++ [(p.src, p.payload)] } }
  | _ => s

/-- Delivers a packet addressed to this device: one for another generation, or a bad one, is discarded. -/
def deliver (eth : Bool) (p : Packet) (s : State) : State :=
  if (p.dgen ≠ 0 ∧ p.dgen ≠ s.boot.gen) ∨ packetBad eth p then collDrop s else dispatch p false s

/-- Delivers the packets that this device has sent to itself. -/
def drainLoop : Nat → State → State
  | 0, s => s
  | n + 1, s =>
    match s.net.loop with
    | [] => s
    | p :: r => drainLoop n (deliver false p { s with net := { s.net with loop := r } })

/-- The end of every network command: packets to this device itself are delivered, and frames go whose pause has ended. -/
def netSettle (s : State) : State :=
  s.net.links.foldl (fun s e => unpause e.1 s) (drainLoop 64 s)

/-- A command about packets: nothing happens while the logic clocks are stopped. -/
def netStep (s : State) (f : State → State) : Out :=
  .next (if frozen s then s else netSettle (f (clearAnswers s)))

/-! ### Flits (R314 to R323) -/

/-- The first discard since a data flit was accepted is told to the sender by a NAK (R318). -/
def discardFlit (l : Nat) (s : State) : State :=
  if (getLink s l).nakOut then s
  else emitFlit l { kind := 2 } (modLink s l fun k => { k with nakOut := true })

/-- A credit of a pool is owed to the partner. -/
def oweCredit (l pool n : Nat) (s : State) : State :=
  modLink s l fun k => { k with owed := tblMod 0 k.owed pool fun x => x + n }

/-- The assembly on a channel is replaced. -/
def setAsm (l vc : Nat) (a : Option RxAsm) (s : State) : State :=
  modLink s l fun k => { k with rx := k.rx.filter (fun r => r.vc != vc) ++ a.toList }

/-- Whether a packet at an egress is the one whose flits come from an ingress channel. -/
def isFrom (l pool : Nat) (p : TxPkt) : Bool := p.src == some (l, pool) && p.more

/-- Appends a flit to the packet at its egress; with no such packet there any more the flit is discarded. -/
def passFlit (l pool e : Nat) (f : TxFlit) (s : State) : State :=
  if !((getLink s e).tx.any (isFrom l pool)) then oweCredit l pool 1 s
  else
    let grow (p : TxPkt) : TxPkt :=
      if isFrom l pool p then { p with flits := p.flits ++ [{ f with cls := p.cls }], more := !f.eop } else p
    pumpAll e (modLink s e fun k => { k with tx := k.tx.map grow })

/-- What becomes of a packet by its first flit (R327, R330): kept for this device, forwarded with its hop limit lowered, or
discarded. -/
def beginPacket (l vc : Nat) (cls : Bool) (bs : List Byte) (s : State) : State × RxAsm × List Byte :=
  let drop (s : State) : State × RxAsm × List Byte := (linkDrop l 1 s, { vc, cls, drop := true }, bs)
  match packetOf bs with
  | none => drop s
  | some p =>
    if p.dst = s.net.devid then (s, { vc, cls }, bs)
    else if p.hop = 0 then drop s
    else match forwardRoute p.dst s with
    | .native e slot dl =>
      let pkt : TxPkt := { vc, cls := cls || dl, flits := [], src := some (l, 2 * vc + b2n cls), more := true }
      let s2 := modLink { s with net := { s.net with rr := tblPut s.net.rr slot e } } e fun k => { k with tx := k.tx ++ [pkt] }
      (s2, { vc, cls, fwd := some e }, bs.take 5 ++ [p.hop - 1] ++ bs.drop 6)
    | _ => drop s

/-- An accepted data flit joins its packet (R321, R323). -/
def takeFlit (l : Nat) (f : Flit) (s : State) : State :=
  let pool := 2 * f.vc + b2n f.cls
  let data := f.data.take f.bytes
  let st : State × Option RxAsm × List Byte :=
    if f.sop then (match beginPacket l f.vc f.cls data s with | (s1, a, d) => (s1, some a, d))
    else (s, (getLink s l).rx.find? fun r => r.vc == f.vc, data)
  match st with
  | (s1, none, _) => oweCredit l pool 1 s1
  | (s1, some a, d) =>
    let stop : Option RxAsm := if f.eop then none else some a
    if a.drop then oweCredit l pool 1 (setAsm l f.vc stop s1)
    else match a.fwd with
    | some e =>
      passFlit l pool e { vc := f.vc, cls := f.cls, sop := f.sop, eop := f.eop, abort := f.abort, bytes := d }
        (setAsm l f.vc stop s1)
    | none =>
      let s2 := oweCredit l pool 1 s1
      let all := a.bytes ++ d
      if !f.eop then setAsm l f.vc (some { a with bytes := all }) s2
      else
        let s3 := setAsm l f.vc none s2
        if f.abort then s3 else match packetOf all with
          | some p => deliver false p s3
          | none => collDrop s3

/-- A control flit (R314, R317): a swap request makes the transmitter repeat the lane on the spare, and its acknowledgement names the
control-slot index at which the lane moves there. -/
def takeControl (l : Nat) (f : Flit) (s : State) : State :=
  let lane := bytesAt f.data 1 1 % 4
  match bytesAt f.data 0 1 with
  | 1 => modLink s l fun k => if k.txSpare || k.txSwap.isSome then k else { k with txRepeat := some lane }
  | 2 =>
    if (getLink s l).txRepeat = some lane then
      settleSwap false l (modLink s l fun k => { k with txSwap := some (lane, BitVec.ofNat 16 (bytesAt f.data 2 2)) })
    else s
  | _ => s

/-- The codewords of a slot that the decoder marks uncorrectable. -/
def lostCodewords (slot : Nat) (uncorr : BitVec 2) : List Nat :=
  ((slotCodewords slot).zipIdx.filter fun x => uncorr.getLsbD x.2).map Prod.fst

/-- A slot has come: its number, and the uncorrectable codewords that no slot before it has shown (R312, R313). -/
def slotIn (l slot : Nat) (uncorr : BitVec 2) (s : State) : State :=
  let k := getLink s l
  let new := (lostCodewords slot uncorr).filter fun c => decide (k.fecSeen ≤ c)
  settleSwap false l (modLink s l fun k => { k with
    rxSlot := slot, fecUncorr := satInc k.fecUncorr new.length, fecSeen := new.foldl (fun m c => max m (c + 1)) k.fecSeen })

/-- A flit is received on an ACTIVE native link (R316, R318, R319, R321); bit `j` of `uncorr` says that codeword `j` of those that its
slot lies in is uncorrectable. -/
def flitIn (l slot : Nat) (uncorr : BitVec 2) (bits : BitVec 2048) (s : State) : State :=
  if (getLink s l).st ≠ .active ∨ (getLink s l).eth then s else
  let s0 := slotIn l slot uncorr s
  let fc := flitOf bits
  let f := fc.1
  let ctlSlot := isControlSlot slot
  if !(lostCodewords slot uncorr).isEmpty || !fc.2 || decide (f.kind > 3) || ((f.kind == 3) != ctlSlot) then
    (if ctlSlot then s0 else discardFlit l s0)
  else
    match takeCredits l f.pool f.credits (takeAck l f.ack s0) with
    | none => linkDown .down l s0
    | some s1 =>
      let s2 := match f.kind with
        | 1 =>
          if f.seq = (getLink s1 l).rxSeq.toNat then
            takeFlit l f (modLink s1 l fun k => { k with rxSeq := k.rxSeq + 1, nakOut := false })
          else discardFlit l s1
        | 2 => replay l s1
        | 3 => takeControl l f s1
        | _ => s1
      let before := s2.answers.length
      let s3 := pumpAll l s2
      if s3.answers.length = before ∧ (f.kind = 1 ∨ (owedOf (getLink s3 l)).2 > 0) ∧ (getLink s3 l).st = .active then
        emitFlit l { kind := 0 } s3
      else s3

/-- FLIT_RECEIVED (R318). -/
def execFlitReceived (l : LinkNo) (slot : Nat) (uncorr : BitVec 2) (flit : BitVec 2048) (s : State) : Out :=
  netStep s (flitIn l.val slot uncorr flit)

/-- REPLAY_TIMEOUT (R318): the oldest unacknowledged flit has waited 2 µs. -/
def execReplayTimeout (l : LinkNo) (s : State) : Out :=
  netStep s fun s => if (getLink s l.val).st = .active then replay l.val s else s

/-- LANE_SWAP (R314): the spare carries the named logical lane and is locked; the acknowledgement names the control-slot index at which
the lane moves. A lane that has lost lock is asked for first. -/
def execLaneSwap (l : LinkNo) (lane : Fin 4) (index : BitVec 16) (s : State) : Out :=
  netStep s fun s =>
    let k := getLink s l.val
    if k.st ≠ .active ∨ k.eth then s else
    let s1 := laneFault l.val lane.val s
    if (getLink s1 l.val).rxRequest ≠ some lane.val ∨ (getLink s1 l.val).rxSwap.isSome then s1
    else
      settleSwap false l.val (emitFlit l.val (controlFlit s1 l.val 2 lane.val index.toNat)
        (modLink s1 l.val fun k => { k with rxSwap := some (lane.val, index) }))

/-- LINK_ADAPTATION (R340): the receiver adapts its equalisation, and each logical lane whose corrected symbols over the period exceed
the swap threshold is a faulty one (R314). -/
def execLinkAdaptation (l : LinkNo) (c0 c1 c2 c3 : Word32) (s : State) : Out :=
  netStep s fun s =>
    let k := getLink s l.val
    if k.st ≠ .active then s else
    let cs := [c0.toNat, c1.toNat, c2.toNat, c3.toNat]
    let s1 := takeFree (modLink s l.val fun k => { k with fecCorr := satInc k.fecCorr cs.sum, eq := s.free })
    if k.eth then s1
    else ((List.range 4).filter fun i => decide (cs.getD i 0 > bitsOf k.ctl.toNat 31 16)).foldl (fun s i =>
      if (getLink s l.val).st = .active then laneFault l.val i s else s) s1

/-! ### Link states (R319, R338, R339) -/

/-- RECOVER_ENTRY (R319): loss of FEC alignment or of lane deskew. -/
def execRecoverEntry (l : LinkNo) (s : State) : Out :=
  netStep s fun s => if (getLink s l.val).st = .active then enterRecover l.val s else s

/-- RECOVER_COMPLETE (R319): traffic resumes with the replay buffer intact. -/
def execRecoverComplete (l : LinkNo) (s : State) : Out :=
  netStep s fun s =>
    if (getLink s l.val).st = .recover then pumpAll l.val (modLink s l.val fun k => { k with st := .active, replayRow := 0 }) else s

/-- RECOVER_TIMEOUT (R319). -/
def execRecoverTimeout (l : LinkNo) (s : State) : Out :=
  netStep s fun s => if (getLink s l.val).st = .recover then linkDown .down l.val s else s

/-- LOSS_OF_SIGNAL (R338). -/
def execLossOfSignal (l : LinkNo) (s : State) : Out :=
  netStep s fun s =>
    let k := getLink s l.val
    if k.st = .active ∨ k.st = .recover then linkDown .down l.val s else s

/-- CUT_THROUGH_TIMEOUT (R323): the packet of a channel and class that would send next has waited 10 ms for egress credit and is
abandoned. -/
def execCutThroughTimeout (l : LinkNo) (vc : BitVec 2) (s : State) (cls : Bool := false) : Out :=
  netStep s fun s =>
    let k := getLink s l.val
    let mine := k.tx.filter fun p => p.vc == vc.toNat && p.cls == cls && !p.flits.isEmpty
    let head : Option TxPkt := (mine.find? fun p => p.begun).or mine.head?
    match head with
    | none => s
    | some p =>
      if k.st ≠ .active ∨ tblGet 0 k.credits (poolOf p) > 0 then s else
      let s1 := linkDrop l.val 1 (freeFlits p s)
      let s2 := match p.src, p.more with
        | some (i, ip), true => setAsm i (ip / 2) (some { vc := ip / 2, cls := ip % 2 == 1, drop := true }) s1
        | _, _ => s1
      pumpAll l.val (modLink s2 l.val fun k =>
        { k with tx := replacePkt p (if p.begun then some (abandoned p) else none) k.tx })

/-- Whether a port entry lets a link leave DOWN: valid, with an MTU in its range (R334). -/
def portGood (e : BitVec 512) : Bool := e.getLsbD 0 && decide (1280 ≤ entryMtu e) && decide (entryMtu e ≤ 9216)

/-- Enters TRAIN: by saved settings unless full training is asked for (R339). -/
def enterTrain (l : Nat) (s : State) : State :=
  modLink s l fun k => { k with st := .train, restoring := k.saved.isSome && !(k.ctl.getLsbD 2) && !k.fullNext, reading := false }

/-- A link with its port entry read: it trains, or stays DOWN behind a bad entry (R334). -/
def portRead (l : Nat) (port : BitVec 512) (s : State) : State :=
  let s1 := modLink s l fun k => { k with port, reading := false }
  if portGood port then enterTrain l s1 else modLink s1 l fun k => { k with st := .down, cause := k.cause ||| 1 }

/-- Reads the port entry of a link; one whose line is held is read later, and one that cannot be read is no valid one. -/
def readPort (l : Nat) (s : State) : State :=
  match readPeer (4048 + l) s with
  | (s1, .ok e) => portRead l e s1
  | (s1, .err _) => portRead l 0 s1
  | (s1, .wait) => modLink s1 l fun k => { k with st := .down, reading := true }

/-- A link starts: TRAIN, or DOWN in Ethernet mode with a bad port entry; links 46 and 47 stay DISABLED behind a closed
bypass (R334, R338, R341). -/
def startLink (l : Nat) (s : State) : State :=
  let k := getLink s l
  if k.st ≠ .disabled ∨ s.sec.purged ∨ (l ≥ 46 ∧ s.net.bypClosed) then s
  else if k.ctl.getLsbD 1 then readPort l (modLink s l fun k => { k with eth := true })
  else enterTrain l (modLink s l fun k => { k with eth := false })

/-- Takes up again the ports whose entry waits for its line, and the swaps whose index idle slots have reached. -/
def retryLinks (s : State) : State :=
  s.net.links.foldl (fun s e =>
    let s1 := settleSwap true e.1 s
    unpause e.1 (if (getLink s1 e.1).reading then readPort e.1 s1 else s1)) s

/-- A write of LNK_CTL (R338, R358). -/
def writeLinkCtl (l : Nat) (v : Word32) (s : State) : State :=
  let s1 := modLink s l fun k => { k with ctl := v &&& 0xFFFF0007 }
  if v.getLsbD 0 then startLink l s1
  else if (getLink s1 l).st = .disabled then s1 else linkDown .disabled l s1

/-- LINK_ENABLE (R338): a write of LNK_CTL. -/
def execLinkEnable (by_ : By) (l : LinkNo) (v : Word32) (s : State) : Out :=
  .next (ctlGlobal by_ false (4 + l.val / 12) (l.val % 12) (fun s => written (writeLinkCtl l.val v s)) s)

/-- Training locks four lanes, or fails (R338): with the saved maps and equalisation, or with those that full training has found
(R339). Slots are numbered from here (R313). -/
def trainEnds (l : Nat) (lanes : Option LaneMaps) (s : State) : State :=
  let k := getLink s l
  if k.st ≠ .train then s else
  let align (m : LaneMaps) (eq : Nat) (s : State) : State := modLink s l fun k => { k with
    st := .align, savedUsed := k.restoring, fullNext := k.fullNext && k.restoring, eq
    rxMap := m.rx, txMap := m.tx, rxBad := m.bad, rxSpare := usesSpare m.rx, txSpare := usesSpare m.tx
    rxSlot := 0, txSlot := 0, fecSeen := 0 }
  match lanes, k.restoring, k.saved with
  | some _, true, some x => align { rx := x.rxMap, tx := x.txMap, bad := x.rxBad } x.eq s
  | some m, _, _ => align m s.free (takeFree s)
  | none, true, _ => modLink s l fun k => { k with restoring := false }
  | none, false, _ => modLink s l fun k => { k with st := .down }

/-- EQUALISATION_LOCK (R338). -/
def execEqualisationLock (l : LinkNo) (lanes : Option LaneMaps) (s : State) : Out := netStep s (trainEnds l.val lanes)

/-- The link becomes ACTIVE: full credits; after full training its settings are saved; another partner than the saved one asks
for full training at the next DOWN (R321, R338, R339). -/
def alignEnds (l : Nat) (dev : BitVec 16) (lnk : BitVec 6) (gen : Byte) (s : State) : State :=
  let k := getLink s l
  if k.st ≠ .align then s else
  let who := (dev, lnk, gen)
  let differs : Bool := k.savedUsed && !k.eth &&
    (match k.saved with | some x => !(x.partner.1 == dev && x.partner.2.1 == lnk) | none => false)
  logEvent 0x10A (linkSrc l) 0 (modLink s l fun k => { k with
    st := .active, partner := if k.eth then none else some who
    saved := if k.savedUsed then k.saved
      else some { partner := who, rxMap := k.rxMap, txMap := k.txMap, rxBad := k.rxBad, eq := k.eq }
    fullNext := k.fullNext || differs, recTimes := []
    credits := (List.range 8).map fun p => (p, poolSize p) })

/-- ALIGN_LOCK (R338): FEC and deskew lock, and the partner's identity has arrived. -/
def execAlignLock (l : LinkNo) (dev : BitVec 16) (lnk : BitVec 6) (gen : Byte) (s : State) : Out :=
  netStep s (alignEnds l.val dev lnk gen)

/-- DOWN_RETRY (R338): firmware trains again, 10 s after DOWN; a bad port entry keeps the link DOWN (R334). -/
def execDownRetry (l : LinkNo) (s : State) : Out :=
  netStep s fun s =>
    let k := getLink s l.val
    if k.st = .down ∧ k.reading = false ∧ (!k.eth || portGood k.port) then enterTrain l.val s else s

/-! ### Packets -/

/-- PACKET_RECEIVED (R326): a whole packet addressed to this device. -/
def execPacketReceived (l : LinkNo) (p : Packet) (s : State) : Out :=
  netStep s fun s => if p.dst = s.net.devid then deliver (getLink s l.val).eth p s else s

/-- Forwards a packet received on a native link in a buffer class; one that came in Ethernet mode is discarded (R330). -/
def forwardPacket (l : Nat) (cls : Bool) (p : Packet) (s : State) : State :=
  match forwardRoute p.dst s with
  | .here => deliver (getLink s l).eth p s
  | .native e slot dl =>
    if p.hop = 0 ∨ (getLink s l).eth then linkDrop l 1 s
    else queuePacket e (cls || dl) { p with hop := p.hop - 1 } { s with net := { s.net with rr := tblPut s.net.rr slot e } }
  | _ => linkDrop l 1 s

/-- PACKET_FORWARD (R330). -/
def execPacketForward (l : LinkNo) (cls : Bool) (p : Packet) (s : State) : Out := netStep s (forwardPacket l.val cls p)

/-- READY_RECEIVED (R350). -/
def execReadyReceived (p : Packet) (s : State) : Out := netStep s (takeReady p)
/-- DATA_RECEIVED (R351). -/
def execDataReceived (p : Packet) (s : State) : Out := netStep s (takeData p)
/-- DONE_RECEIVED (R355). -/
def execDoneReceived (p : Packet) (s : State) : Out := netStep s (takeDone p)
/-- ABORT_RECEIVED (R356). -/
def execAbortReceived (p : Packet) (s : State) : Out := netStep s (takeAbort p)
/-- COLLECTIVE_TIMEOUT (R356). -/
def execCollectiveTimeout (c : CoreNo) (tag : BitVec 5) (s : State) : Out := netStep s (collTimeout c.val tag.toNat)
/-- GREQ_RECEIVED (R286). -/
def execGreqReceived (p : Packet) (superseded : Bool) (s : State) : Out := netStep s (serveGreq p superseded)
/-- GDATA_RECEIVED (R286). -/
def execGdataReceived (p : Packet) (s : State) : Out := netStep s fun s => settleColls (takeGdata p s)
/-- GSUPER_RECEIVED (R354). -/
def execGsuperReceived (p : Packet) (s : State) : Out := netStep s fun s => settleColls (takeGsuper p s)
/-- GCORRUPT_RECEIVED (R354). -/
def execGcorruptReceived (p : Packet) (s : State) : Out := netStep s fun s => settleColls (takeGcorrupt p s)
/-- GREQ_RETRY (R354). -/
def execGreqRetry (tag : BitVec 16) (s : State) : Out := netStep s (gatherRetry tag.toNat)
/-- COLL_ACCEPT (R348). -/
def execCollAccept (c : CoreNo) (tag : BitVec 5) (s : State) : Out :=
  netStep s fun s => settleColls (acceptColl c.val tag.toNat (collRetry c.val tag.toNat s))

/-! ### Ethernet mode (R333 to R337) -/

/-- Pads a frame to the 60 bytes that stand before the FCS of the shortest one. -/
def padFrame (bs : List Byte) : List Byte := bs ++ List.replicate (60 - bs.length) 0

/-- The reply to an ARP request for the port's own address, if the bytes after the EtherType are one. -/
def arpReply (port : BitVec 512) (b : List Byte) : Option (List Byte) :=
  if !(entryV6 port) && beAt b 0 8 == 0x0001080006040001 && (b.drop 24).take 4 == entryIp port then
    some (padFrame ((b.drop 8).take 6 ++ entryMac port ++ beBytes 2 0x0806 ++ beBytes 8 0x0001080006040002
      ++ entryMac port ++ entryIp port ++ (b.drop 8).take 10))
  else none

/-- The ICMPv6 checksum over its pseudo header. -/
def icmp6 (src dst body : List Byte) : List Byte :=
  let sum := inetSum (src ++ dst ++ beBytes 4 body.length ++ [0, 0, 0, 58] ++ body)
  body.take 2 ++ beBytes 2 sum ++ body.drop 4

/-- The advertisement that answers a Neighbour Solicitation for the port's own address, if the IPv6 packet is one. -/
def nsReply (port : BitVec 512) (mac : List Byte) (b : List Byte) : Option (List Byte) :=
  let own := entryIp port
  if entryV6 port && beAt b 6 1 == 58 && beAt b 40 1 == 135 && (b.drop 48).take 16 == own then
    let from_ := (b.drop 8).take 16
    let none_ := leNat from_ == 0
    let dest := if none_ then [0xFF, 0x02] ++ List.replicate 13 0 ++ [1] else from_
    let body := icmp6 own dest ([136, 0, 0, 0] ++ beBytes 4 (if none_ then 0x20000000 else 0x60000000) ++ own ++ [2, 1] ++ entryMac port)
    some (mac ++ entryMac port ++ beBytes 2 0x86DD ++ beBytes 4 (6 * 2 ^ 28) ++ beBytes 2 body.length ++ [58, 255] ++ own ++ dest ++ body)
  else none

/-- The UDP datagram of an IP packet for the port's own address, with its congestion mark; none when it is a fragment, has
extension headers or is not UDP (R335). -/
def udpOf (port : BitVec 512) (v6 : Bool) (b : List Byte) : Option (List Byte × Bool) :=
  if v6 != entryV6 port then none
  else if v6 then
    if beAt b 6 1 = 17 ∧ (b.drop 24).take 16 = entryIp port then
      some ((b.drop 40).take (beAt b 4 2), decide (beAt b 0 4 / 2 ^ 20 % 4 = 3)) else none
  else if beAt b 0 1 = 0x45 ∧ beAt b 6 2 % 2 ^ 14 = 0 ∧ beAt b 9 1 = 17 ∧ (b.drop 16).take 4 = entryIp port then
    some ((b.take (beAt b 2 2)).drop 20, decide (beAt b 1 1 % 4 = 3))
  else none

/-- Whether a datagram is for port 49811 with a valid checksum; a zero one is accepted on IPv4 (R335). -/
def udpGood (v6 : Bool) (src dst u : List Byte) : Bool :=
  decide (u.length ≥ 8) && beAt u 2 2 == 49811 && beAt u 4 2 == u.length
    && ((!v6 && beAt u 6 2 == 0) || inetSum (pseudo v6 src dst u.length ++ u) == 0)

/-- Resends packets of a context, each with its payload read again from its source (R336). One whose source cannot be read now goes,
with those behind it, at the next expiry. -/
def resendAll : List Sent → State → State
  | [], s => s
  | x :: r, s =>
    match x.src with
    | none => resendAll r (ctxEmit x.pkt s).1
    | some (cls, a, n) =>
      match readSpan 1201 cls a n s with
      | (s1, .ok bs) => resendAll r (ctxEmit (sealPacket { x.pkt with payload := bs }) s1).1
      | (s1, _) => s1

/-- Resends a context's unacknowledged packets, oldest first. -/
def retransmit (key : Nat) (s : State) : State := resendAll (getCtx s key).unacked s

/-- An EACK advances its context, or counts as a duplicate; congestion echo halves the window (R336, R337). -/
def takeEack (p : Packet) (s : State) : State :=
  match peerOf s p.src with
  | none => s
  | some peer =>
    let key := ctxKey peer p.vc.toNat
    let c := getCtx s key
    let cum := BitVec.ofNat 32 (pField p 0x14 4)
    let echo := pField p 0x18 1 % 2 == 1
    let left := c.unacked.filter fun e => decide ((cum - e.pkt.seq).toNat ≥ 2 ^ 31)
    let n := c.unacked.length - left.length
    let cut := echo && (!c.cut || decide (c.sinceCut + n ≥ c.window))
    let w := if cut then max 4 (c.window / 2) else c.window
    let grow := if echo then 0 else c.sinceGrow + n
    let grows := decide (grow ≥ w) && !echo
    let s1 := modCtx s key fun c => { c with
      unacked := left, window := if grows then min s.net.ethWindow.toNat (w + 1) else w
      sinceGrow := if grows then grow - w else grow
      sinceCut := if cut then 0 else c.sinceCut + n, cut := c.cut || cut
      dups := if n > 0 then 0 else c.dups + 1
      rto := if n > 0 then s.net.ethRto.toNat else c.rto, expiries := if n > 0 then 0 else c.expiries }
    if n = 0 ∧ c.unacked ≠ [] ∧ c.dups + 1 = 3 then retransmit key (modCtx s1 key fun c => { c with dups := 0 })
    else ctxPump key 256 s1

/-- A frame that R335 accepts reaches its context, and its packet is delivered when the context takes it. -/
def ethPacket (l : Nat) (p : Packet) (ce : Bool) (s : State) : State :=
  if p.typ = 0x30 then
    (if (p.dgen ≠ 0 ∧ p.dgen ≠ s.boot.gen) ∨ packetBad true p then collDrop s else takeEack p s)
  else match peerOf s p.src with
  | none => linkDrop l 1 s
  | some peer =>
    match ctxReceive (ctxKey peer p.vc.toNat) p ce s with
    | (s1, true) => deliver true p s1
    | (s1, false) => s1

/-- A priority flow control frame of IEEE 802.1Qbb: the pauses of the priorities that the port entry honours start anew, or end with a
time of zero (R332). A quantum is 512 bit times at 400 Gb/s, 0.576 management cycles (log 51). -/
def pauseFrame (l : Nat) (b : List Byte) (s : State) : State :=
  let port := (getLink s l).port
  let ps := (List.range 8).filter fun i => (beAt b 2 2).testBit i && bitOf (bitsOf port.toNat 11 4) i
  unpause l (modLink s l fun k => { k with
    paused := ps.foldl (fun t i => tblPut t i (s.mgt.time + ceilDiv (beAt b (4 + 2 * i) 2 * 576) 1000)) k.paused })

/-- A frame arrives on an ACTIVE Ethernet port (R332, R335). -/
def ethIn (l : Nat) (whole : List Byte) (s : State) : State :=
  let k := getLink s l
  if k.st ≠ .active ∨ !k.eth then s else
  let drop := linkDrop l 1 s
  match withoutFcs whole with
  | none => drop
  | some fr =>
  let off := if beAt fr 12 2 = 0x8100 then 18 else 14
  let et := beAt fr (off - 2) 2
  let b := fr.drop off
  let mine : Bool := fr.take 6 == entryMac k.port
  if et = 0x8808 then
    (if beAt b 0 2 = 0x0101 ∧ beAt fr 0 6 = 0x0180C2000001 then pauseFrame l b s else drop)
  else if et = 0x0806 then
    (match arpReply k.port b with | some r => emitEth l (withFcs r) s | none => drop)
  else if et ≠ 0x0800 ∧ et ≠ 0x86DD then drop
  else
    let v6 := decide (et = 0x86DD)
    match (if v6 then nsReply k.port ((fr.drop 6).take 6) b else none) with
    | some r => emitEth l (withFcs r) s
    | none =>
      match udpOf k.port v6 b with
      | none => drop
      | some (u, ce) =>
        let src := if v6 then (b.drop 8).take 16 else (b.drop 12).take 4
        if !mine || !(udpGood v6 src (entryIp k.port) u) then drop
        else match packetOf (u.drop 8) with
          | some p => if p.dst = s.net.devid then ethPacket l p ce s else drop
          | none => drop

/-- ETH_FRAME_RECEIVED (R335): a frame with its FCS. -/
def execEthFrameReceived (l : LinkNo) (frame : List Byte) (s : State) : Out := netStep s (ethIn l.val frame)

/-- EACK_RECEIVED (R336). -/
def execEackReceived (p : Packet) (s : State) : Out := netStep s (takeEack p)

/-- EACK_TIMER (R336): 2 µs after the first packet not yet acknowledged. -/
def execEackTimer (peer : BitVec 12) (vc : BitVec 2) (s : State) : Out :=
  netStep s fun s =>
    let key := ctxKey peer.toNat vc.toNat
    if (getCtx s key).rxUnacked = 0 then s else sendEack key s

/-- RETRANSMISSION_TIMEOUT (R336): the timeout doubles up to 1,024 µs; the twelfth expiry in a row fails the context. -/
def execRetransmissionTimeout (peer : BitVec 12) (vc : BitVec 2) (s : State) : Out :=
  netStep s fun s =>
    let key := ctxKey peer.toNat vc.toNat
    let c := getCtx s key
    if c.unacked = [] ∨ c.failed then s
    else if c.expiries + 1 ≥ 12 then
      failContexts peer.toNat [vc.toNat] (collCause 16 (modCtx s key fun c =>
        { c with failed := true, expiries := c.expiries + 1, unacked := [], queue := [] }))
    else retransmit key (modCtx s key fun c => { c with expiries := c.expiries + 1, rto := min 1024 (2 * c.rto) })

/-! ### Registers of routing and the collective engine (R329, R359) -/

/-- Whether a link set lies on one link die. -/
def setOk (first width : Nat) : Bool :=
  width == 0 || (decide (first + width ≤ 48) && first / 12 == (first + width - 1) / 12)

/-- A routing entry as a write stores it: a set across link dies, or wider than 12, is stored not valid (R329). -/
def rtStored (v : Word32) : Word32 × Bool :=
  let ok := decide (rtWidth v ≤ 12) && setOk (rtFirst v) (rtWidth v) && (!(rtAltValid v) || setOk (rtAlt v) (rtWidth v))
  (if ok then v else v &&& 0x7FFFFFFF, ok)

/-- An access to LNK_RT_DATA: the entry at the index, which then advances and wraps (R328, R359). -/
def rtAccess (wr : Option Word32) (s : State) : State :=
  let i := s.net.rtAddr.toNat
  let next (s : State) : State := { s with net := { s.net with rtAddr := s.net.rtAddr + 1 } }
  match wr with
  | none => readAs (rtEntry s i) (next s)
  | some v =>
    let st := rtStored v
    let s1 := { s with net := { s.net with rt := tblPut s.net.rt i st.1 } }
    written (next (if st.2 then s1 else logEvent 0x10E (blockSrc 0 31 64) i s1))

/-- LNK_RT_DATA_ACCESS (R328). -/
def execLnkRtDataAccess (by_ : By) (wr : Option Word32) (s : State) : Out :=
  .next (ctlGlobal by_ false 0 64 (rtAccess wr) s)

/-- A write of LNK_COLL_CTL: group and peer index stored, and what its two bits ask for (R359). -/
def writeCollCtl (v : Word32) (s : State) : State :=
  let s1 := { s with net := { s.net with ctl := v &&& 0xFFFFF } }
  let s2 := if v.getLsbD 20 then { s1 with net := { s1.net with seqs := tblPut s1.net.seqs (wField v 0 8) 0 } } else s1
  if v.getLsbD 21 then
    let peer := wField v 8 12
    failContexts peer [0, 1, 2, 3] { s2 with net := { s2.net with ctxs := s2.net.ctxs.filter fun e => e.1 / 4 != peer } }
  else s2

/-- SEQ_RESET (R359): a write of LNK_COLL_CTL with seq_reset. -/
def execSeqReset (by_ : By) (v : Word32) (s : State) : Out :=
  .next (ctlGlobal by_ false 0 64 (fun s => written (netSettle (writeCollCtl (v ||| 0x100000) s))) s)

/-- CTX_RESET (R359): a write of LNK_COLL_CTL with ctx_reset. -/
def execCtxReset (by_ : By) (v : Word32) (s : State) : Out :=
  .next (ctlGlobal by_ false 0 64 (fun s => written (netSettle (writeCollCtl (v ||| 0x200000) s))) s)

/-! ### The traverse bypass (R341, R342, R360) -/

/-- Closes the switches: links 46 and 47 first become DISABLED. -/
def closeBypass (s : State) : State :=
  let s1 := linkDown .disabled 47 (linkDown .disabled 46 s)
  { s1 with net := { s1.net with bypClosed := true, bypOpen := false } }

/-- A write of LNK_BYP_CTL. The switches stay closed while PWR_GOOD is low or RESET_N is asserted (R341). -/
def writeBypass (open_ hold : Bool) (s : State) : State :=
  let s1 := { s with net := { s.net with bypHold := hold } }
  if open_ then
    (if s.net.bypHold then s1
     else { s1 with net := { s1.net with bypOpen := true, bypClosed := s.net.bypClosed && (!s.pins.pwrGood || s.pins.reset) } })
  else if s1.net.bypOpen then closeBypass s1 else s1

/-- BYPASS_OPEN (R342): ignored while hold_closed is 1. -/
def execBypassOpen (by_ : By) (s : State) : Out :=
  .next (ctlGlobal by_ false 8 2 (fun s => written (writeBypass true s.net.bypHold s)) s)

/-- BYPASS_CLOSE (R342). -/
def execBypassClose (by_ : By) (s : State) : Out :=
  .next (ctlGlobal by_ false 8 2 (fun s => written (writeBypass false s.net.bypHold s)) s)

end Sys2Proof.Machine
end

