-- ==== Sys2Proof/Machine/Mailbox.lean ====
section
/-! DEFINITION. Waggle boxes, their core end, and the post service (R366 to R373). -/
namespace Sys2Proof.Machine

/-- The number of a box. -/
def boxNo : BoxId → Nat
  | .h2c c => c.val
  | .c2h c => 1200 + c.val
  | .h2m i => 2400 + i.val
  | .m2h i => 2404 + i.val
  | .m2r n => 2408 + n.val
  | .r2m n => 2432 + n.val

/-- The control-space block of a box: layer, region and block (R366). -/
def boxBlock (s : State) (i : Nat) : Option (Nat × Nat × Nat) :=
  if i < 2400 then (siteOf s (i % 1200)).map fun k => (3, k / 54, k % 54)
  else if i < 2408 then some (0, 31, 140)
  else some (3, (i - 2408) % 24, 64)

/-- An access to a box: host cores may not reach M2R and R2M (R366); a region controller reaches its own while it has power. -/
def boxAccess (by_ : Boxer) (i : Nat) (f : State → State) (s : State) : State :=
  match boxBlock s i with
  | none => answer (clearAnswers s) (.error 0x0D)
  | some (l, r, b) =>
    match by_ with
    | .via x => ctl x false l r b (fun s => if isHost x && decide (i ≥ 2408) then refuse s else f s) s
    | .controller => if i ≥ 2408 ∧ blockPowered s l r b ∧ !(frozen s) then f (clearAnswers s) else clearAnswers s

/-- A write to a FULL box: bus error, logged with code 0x0C (R369). -/
def boxFullError (i : Nat) (s : State) : State :=
  let src := match boxBlock s i with | some (l, r, b) => blockSrc l r b | none => 0
  refuse (logEvent 0x0C src 0 s)

/-- A write of MBX_DATA[w]. -/
def boxData (i w : Nat) (v : Word32) (s : State) : State :=
  if (getBox s i).full then boxFullError i s
  else written (modBox s i fun b => { b with data := BitVec.ofNat 512 (setField b.data.toNat v.toNat 32 (32 * w)) })

/-- A write of MBX_HDR: the box fills, with the receiver's event and the delivery to a core's area (R368, R369, R372). -/
def boxSend (i : Nat) (v : Word32) (s : State) : State :=
  if (getBox s i).full then boxFullError i s
  else if wField v 0 7 > 64 then refuse s
  else
    let s1 := boxFilled i (modBox s i fun b => { b with full := true, ackValid := false, hdr := v &&& 0xFFFFFF7F#32 })
    written (if i < 1200 then deliverBox i s1 else s1)

/-- A release (R369). -/
def boxRelease (i : Nat) (s : State) : State :=
  if !(getBox s i).full || privileged i then refuse s else written (releaseBox i s)

/-- A write of MBX_ACK (R369). -/
def boxAck (i : Nat) (v : Word32) (s : State) : State :=
  if !(getBox s i).full || !(privileged i) then refuse s
  else written (boxEmptied i (modBox s i fun b => { b with full := false, ack := v.truncate 16, ackValid := true }))

/-- A write of MBX_CTL: a release that is refused writes nothing; poll is written by MP and the debug port only (R367). -/
def boxCtl (by_ : By) (i : Nat) (v : Word32) (s : State) : State :=
  let set (s : State) : State := modBox s i fun b =>
    { b with poll := if isHost by_ then b.poll else v.getLsbD 3, intEmpty := v.getLsbD 2, intFull := v.getLsbD 1 }
  if !(v.getLsbD 0) then written (set s)
  else if !(getBox s i).full || privileged i then refuse s
  else written (releaseBox i (set s))

/-- MAILBOX_DATA_WRITE (R369). -/
def execMailboxDataWrite (by_ : Boxer) (box : BoxId) (w : Fin 16) (v : Word32) (s : State) : Out :=
  .next (boxAccess by_ (boxNo box) (boxData (boxNo box) w.val v) s)
/-- MAILBOX_SEND (R369). -/
def execMailboxSend (by_ : Boxer) (box : BoxId) (v : Word32) (s : State) : Out :=
  .next (boxAccess by_ (boxNo box) (boxSend (boxNo box) v) s)
/-- MAILBOX_RELEASE (R369). -/
def execMailboxRelease (by_ : Boxer) (box : BoxId) (s : State) : Out :=
  .next (boxAccess by_ (boxNo box) (boxRelease (boxNo box)) s)
/-- MAILBOX_ACK (R369). -/
def execMailboxAck (by_ : Boxer) (box : BoxId) (v : Word32) (s : State) : Out :=
  .next (boxAccess by_ (boxNo box) (boxAck (boxNo box) v) s)

/-- Whether two of four counter fields are equal. -/
def twoEqual (v : Word32) : Bool :=
  let f (i : Nat) := wField v (4 * i) 4
  f 0 == f 1 || f 0 == f 2 || f 0 == f 3 || f 1 == f 2 || f 1 == f 3 || f 2 == f 3

/-- A write of MBX_CAREA_LO, MBX_CAREA_HI or MBX_CCNT (R372). -/
def writeCoreEnd (c reg : Nat) (v : Word32) (s : State) : State :=
  let st := (getCore s c).st
  if st = .run ∨ st = .faulted then refuse s
  else match reg with
  | 0 => written (modBox s c fun b => { b with carea := BitVec.ofNat 48 (setField b.carea.toNat (wField v 8 24) 24 8) })
  | 1 => written (modBox s c fun b => { b with carea := BitVec.ofNat 48 (setField b.carea.toNat (wField v 0 16) 16 32) })
  | _ =>
    if v.getLsbD 31 ∧ (twoEqual v ∨ inWindows (getBox s c).carea.toNat 256 = false) then
      refuse (modBox s c fun b => { b with ccnt := b.ccnt &&& 0x7FFFFFFF })
    else written (modBox s c fun b => { b with ccnt := v &&& 0x8000FFFF })

/-- MBX_CCNT_WRITE (R372): register 0 MBX_CAREA_LO, 1 MBX_CAREA_HI, 2 MBX_CCNT. -/
def execMbxCcntWrite (by_ : By) (c : CoreNo) (reg : Fin 3) (v : Word32) (s : State) : Out :=
  .next (ctlCore by_ false c.val (writeCoreEnd c.val reg.val v) s)

/-! ### The post service (R373) -/

/-- Whether a box's block answers: it has power and no layer in reset lies on the way. -/
def boxReachable (s : State) (i : Nat) : Bool :=
  match boxBlock s i with
  | some (l, r, b) => blockPowered s l r b && !(pathReset s true l r b)
  | none => false

/-- Delivers held messages to a box in the order posted, while it is EMPTY and reachable. -/
def postTry (i : Nat) : Nat → State → State
  | 0, s => s
  | n + 1, s =>
    match s.mbx.posts.find? fun p => p.box == i with
    | none => s
    | some p =>
      if (getBox s i).full || !(boxReachable s i) then s
      else
        let s1 := { s with mbx := { s.mbx with posts := s.mbx.posts.filter fun x => x.handle != p.handle } }
        let s2 := boxFilled i (modBox s1 i fun b =>
          { b with data := p.data, full := true, ackValid := false, hdr := p.hdr &&& 0xFFFFFF7F#32 })
        postTry i n (if i < 1200 then deliverBox i s2 else s2)

/-- The most messages that the post service holds: one at least (R373; log 23). -/
def postLimit : Nat := Config.postMore + 1

/-- Posts, withdraws or retries. -/
def postOp (op : PostOp) (s : State) : State :=
  match op with
  | .post box hdr data =>
    let i := boxNo box
    if s.mbx.posts.length ≥ postLimit ∨ hostSends i = false ∨ wField hdr 0 7 > 64 then answer s .refused
    else
      let h := s.mbx.nextHandle
      let s1 := { s with mbx := { s.mbx with nextHandle := h + 1, posts := s.mbx.posts ++ [{ handle := h, box := i, hdr, data }] } }
      postTry i s1.mbx.posts.length (answer s1 (.handle h))
  | .withdraw h =>
    if s.mbx.posts.any fun p => p.handle == h then
      answer { s with mbx := { s.mbx with posts := s.mbx.posts.filter fun p => p.handle != h } } .done
    else answer s .refused
  | .retry box => postTry (boxNo box) s.mbx.posts.length s

/-- POST (R373). -/
def execPost (op : PostOp) (s : State) : Out := .next (if frozen s then s else postOp op (clearAnswers s))

end Sys2Proof.Machine
end

