-- ==== Sys2Proof/Machine/Reset.lean ====
section
/-! DEFINITION. Clock sources, swallowing, peripheral gates and resets (chapter 14). -/
namespace Sys2Proof.Machine

/-! ### Units after a reset or a power-up (R383, R442, R444) -/

/-- A core after a reset: EMPTY, its registers at reset, and the words of its banks, tile buffer and descriptor memory free
(R383, R444; log 4). The translation is the region controller's. -/
def freshCore (k : Core) (e : Nat) : Core :=
  { bankA := memLost e, bankB := memLost (e + 1), tile := memLost (e + 2), descMem := memLost (e + 3), image := k.image, xlat := k.xlat }

/-- The generation of a core site advances (R442). -/
def bumpSite (site : Nat) (s : State) : State :=
  { s with pwr := { s.pwr with siteGen := tblMod 0 s.pwr.siteGen site fun g => g + 1 } }

/-- A core's boxes return to EMPTY (R371). -/
def clearBoxes (is : List Nat) (s : State) : State :=
  { s with mbx := { s.mbx with boxes := s.mbx.boxes.filter (fun e => !(is.contains e.1))
                               owed := s.mbx.owed.filter fun o => !(is.contains o.1) } }

/-- The last step of a core reset, or a core's return to power: its COLLs are aborted, it is EMPTY, its generation advances. -/
def resetCoreNow (c : Nat) (s : State) : State :=
  let s1 := abortColls c s
  let s2 := { putCore s1 c (freshCore (getCore s1 c) s1.free) with free := s1.free + 4 }
  let s3 := clearBoxes [c, 1200 + c]
    { s2 with comb := { s2.comb with abandoned := s2.comb.abandoned.filter fun a => a.2.1 != c } }
  match siteOf s3 c with
  | some k => bumpSite k { s3 with swarm := { s3.swarm with
      sites := s3.swarm.sites.map fun e => if e.1 = k ∧ e.2.enable then (e.1, { e.2 with failed := true, got := 0 }) else e } }
  | none => s3

/-- The logical cores of a footprint that have power. -/
def regionCores (s : State) (n : Nat) : List Nat :=
  (List.range 50).filterMap fun r => if coreUp s (50 * n + r) then some (50 * n + r) else none
where
  /-- Whether a core's site has power. -/
  coreUp (s : State) (c : Nat) : Bool :=
    match siteOf s c with
    | some k => decide ((getFp s (k / 54)).compute = .on)
    | none => false

/-- A region controller's reset (R383, R416): translation and swarm bitmaps clear, enabled sites failed, its boxes EMPTY. -/
def resetController (n : Nat) (s : State) : State :=
  let s1 := { s with
    cores := s.cores.map fun e => if e.1 / 50 = n then (e.1, { e.2 with image := none, xlat := [] }) else e
    rgn := tblDel s.rgn n
    swarm := { s.swarm with
      drops := tblDel s.swarm.drops n
      sites := s.swarm.sites.map fun e =>
        if e.1 / 54 = n ∧ e.2.enable then (e.1, { e.2 with failed := true, got := 0, done := false }) else e } }
  clearBoxes [2408 + n, 2432 + n] s1

/-! ### Slices forced off (R388, R445) -/

/-- Whether a line of a slice would be lost with it: DIRTY or REDUCE, or a valid scratch line. -/
def atRisk (e : Nat × CombLine) : Bool := !(inHbm (64 * e.1)) || decide (e.2.dir.st = .dirty) || decide (e.2.dir.st = .reduce)

/-- A slice loses its lines: when one of them was at risk it is reported and sets the step-integrity flag; every L1 drops the
lines homed there. -/
def forceOff (source n : Nat) (s : State) : State :=
  let mine := sliceLines s n
  let s1 := mine.foldl (fun s e => dropLine e.1 (l1DropAll e.1 none s)) s
  let s2 := modSlice s1 n fun x => { x with miss := [], refusals := [] }
  if mine.any atRisk then setStepInt source (logEvent 0x109 (sliceSrc n) n s2) else s2

/-- A write, atomic or contribution abandoned with 0x0B was applied to its line whole or not at all: which of the two is free
(R387; log 37). What it meets in scratch is lost with its slice. -/
def abandonedReq (ln : Nat) (q : Req) (s : State) : State :=
  let d := hbmLine s ln
  let applied : Option Line := match q.op with
    | .write m v => some (maskLine d v m)
    | .atomic op w lanes => some (atomApply op.toNat w d lanes).1
    | .contrib t el => if t.exact then none else some (combineLine t.op.toNat t.fmt.toNat d el)
    | _ => none
  match applied with
  | none => s
  | some v =>
    if inHbm (64 * ln) && (Config.freeWord s.free).getLsbD 0 then hbmStore ln v (takeFree s) else takeFree s

/-- Tells a requester that its request is abandoned: a command's by an answer, an access of a core or an engine when it asks again. -/
def tellAbandoned (ln : Nat) (q : Req) (s : State) : State :=
  if q.op = .again then { s with comb := { s.comb with abandoned := s.comb.abandoned ++ [(q.agent, q.master, ln)] } }
  else answer s (.fail q.agent ln 0x0B)

/-- Requests waiting at a slice are abandoned with 0x0B, those of whole miss registers and those of some requesters; how many there
were (R386, R387, R445). -/
def abandonAt (n : Nat) (which : Miss → Bool) (whose : Req → Bool) (s : State) : State × Nat :=
  let ws := (getSlice s n).miss.flatMap fun m => (m.waiters.filter fun q => which m || whose q).map fun q => (m.line, q)
  let s1 := ws.foldl (fun s w => abandonedReq w.1 w.2 (tellAbandoned w.1 w.2 s)) s
  (modSlice s1 n fun x => { x with miss := (x.miss.filter fun m => !(which m)).map fun m =>
    { m with waiters := m.waiters.filter fun q => !(whose q), starter := m.starter && !(m.waiters.head?.any whose) } }, ws.length)

/-! ### Cold and warm reset (R382, R399, R462, R469) -/

/-- The lifecycle state by the highest bit set: 0 BLANK, 1 PROVISIONED, 2 DEPLOYED, 3 RETURNED (R453). -/
def lifecycle (s : State) : Nat :=
  let b := s.sec.otp.lifecycle
  if b.getLsbD 2 then 3 else if b.getLsbD 1 then 2 else if b.getLsbD 0 then 1 else 0

/-- What a reset leaves of a link: its saved settings, which the NVM holds (R339). -/
def resetLinks (s : State) : List (Nat × Link) :=
  (s.net.links.filter fun e => e.2.saved.isSome || e.2.fullNext).map fun e => (e.1, { saved := e.2.saved, fullNext := e.2.fullNext })

/-- Counts up to 0xFFFF. -/
def sat16 (x : BitVec 16) : BitVec 16 := if x = 0xFFFF then x else x + 1

/-- The security block after a reset that restarts the boot ROM: measurements zero, a new nonce, the debug level LOCKED, or
FULL in BLANK (R462, R469, R470). `cold` clears the cause as well. -/
def resetSec (cold : Bool) (s : State) : Sec :=
  let kept : Sec := if cold then {} else { cause := s.sec.cause, causeMask := s.sec.causeMask, rngValid := s.sec.rngValid
                                           rngFail := s.sec.rngFail, rngBlocks := s.sec.rngBlocks, rngBlock := s.sec.rngBlock }
  { kept with otp := s.sec.otp, slotA := s.sec.slotA, slotB := s.sec.slotB, nonce := s.free
              level := if lifecycle s = 0 then 2 else 0 }

/-- Every core after a reset of the device. -/
def resetCores (s : State) : List (Nat × Core) :=
  s.cores.zipIdx.map fun e => (e.1.1, { freshCore e.1.2 (s.free + 2 + 4 * e.2) with image := none, xlat := [] })

/-- RST_CAUSE (R390). -/
def rstCause (requester kind cause : Nat) : BitVec 14 := BitVec.ofNat 14 (requester * 2 ^ 12 + kind * 2 ^ 8 + cause)

/-- A cold reset (R382): what the NVM, the OTP, RST_CAUSE and the thermal record hold is kept, and the feeds stay as they are;
unit generations go on counting, and every memory's bytes are free. A device held in THERMAL-OFF stays there (R437). The bypass closes (R341). -/
def coldReset (requester cause : Nat) (s : State) : State :=
  let s1 : State := { State.reset with
    pending := s.pending, answers := s.answers, free := s.free + 2 + 4 * s.cores.length
    cores := resetCores s
    comb := { slices := s.comb.slices.map fun e => (e.1, { gen := e.2.gen }) }
    hbm := { mem := memLost (s.free + 1) }
    mgt := { nvm := s.mgt.nvm, nextSeq := s.mgt.nextSeq }
    rst := { cause := rstCause requester 0 cause, cold := sat16 s.rst.cold, warm := s.rst.warm }
    pwr := { st := if s.thm.held then .thermalOff else .emptyStandby, feeds := s.pwr.feeds, siteGen := s.pwr.siteGen, rgnGen := s.pwr.rgnGen
             fps := (s.pwr.fps.filter fun e => e.2.vBase.isSome).map fun e => (e.1, { vBase := e.2.vBase }) }
    thm := { held := s.thm.held, shutdowns := s.thm.shutdowns, restarts := s.thm.restarts, wear := s.thm.wearSaved
             clockBase := s.thm.clockBase + s.mgt.time / msCycles
             wearSaved := s.thm.wearSaved }
    boot := { learnedNvm := s.boot.learnedNvm, learnedSeq := s.boot.learnedSeq, listBefore := s.boot.listBefore
              removals := s.boot.removals, fuseBad := s.boot.fuseBad, fuseIsolated := s.boot.fuseIsolated, gen := s.boot.gen
              cfgA := s.boot.cfgA, cfgB := s.boot.cfgB, consumed := s.boot.consumed, fullNext := s.boot.fullNext
              savedHbm := s.boot.savedHbm }
    net := { links := resetLinks s }
    sec := resetSec true s
    pins := { alwaysOn := s.pins.alwaysOn, pwrEn := s.pins.pwrEn, reset := s.pins.reset, freeze := s.pins.freeze } }
  logEvent 0x10C (blockSrc 0 31 176) (resetDetail 0 false 0 cause requester) s1

/-- A warm reset (R382): the always-on domain (with the privileged boxes of block 140, R371), HBM contents in self-refresh, the bypass and
the stack window set are kept.
Before the first ready after a cold reset it is a cold reset (R399). -/
def warmReset (requester cause : Nat) (s : State) : State :=
  if !s.boot.everReady then coldReset requester cause s else
  let s1 : State := { State.reset with
    pending := s.pending, answers := s.answers, free := s.free + 2 + 4 * s.cores.length
    cores := resetCores s
    comb := { slices := s.comb.slices.map fun e => (e.1, { gen := e.2.gen }) }
    hbm := { mem := s.hbm.mem, bad := s.hbm.bad, winSize := s.hbm.winSize, winBase := s.hbm.winBase
             ctrls := (List.range 12).map fun i => (i, { temp := (getStack s i).temp, trained := true, selfRefresh := true }) }
    mgt := s.mgt, clk := { s.clk with stopped := false }, thm := s.thm
    rst := { cause := rstCause requester 1 cause, cold := s.rst.cold, warm := sat16 s.rst.warm }
    pwr := { s.pwr with st := .standby, xtalHold := false }
    boot := { s.boot with ready := false, failed := false, degraded := false, step := 0, time := 0, hostHeld := true }
    net := { links := resetLinks s, bypClosed := s.net.bypClosed, bypHold := s.net.bypHold, bypOpen := s.net.bypOpen }
    mbx := { boxes := s.mbx.boxes.filter fun e => 2400 ≤ e.1 && e.1 < 2408 }
    sec := resetSec false s
    pins := { s.pins with alertLive := false } }
  logEvent 0x10C (blockSrc 0 31 176) (resetDetail 1 false 0 cause requester) s1

/-- A write of RST_CTL (R390): only with the key, and cold before warm. -/
def writeRstCtl (by_ : By) (v : Word32) (s : State) : State :=
  if wField v 24 8 ≠ 0xA5 then s
  else if v.getLsbD 0 then coldReset (byCode by_) 0x03 s
  else if v.getLsbD 1 then warmReset (byCode by_) 0x10 s
  else s

/-- COLD_RESET (R382): a write of RST_CTL; bit 0 asks for it. -/
def execColdReset (by_ : By) (v : Word32) (s : State) : Out :=
  .next (ctlGlobal by_ false 0 176 (fun s => written (writeRstCtl by_ (v ||| 1) s)) s)

/-- WARM_RESET (R382): a write of RST_CTL; bit 1 asks for it. -/
def execWarmReset (by_ : By) (v : Word32) (s : State) : Out :=
  .next (ctlGlobal by_ false 0 176 (fun s => written (writeRstCtl by_ (v ||| 2) s)) s)

/-! ### Layer, region and core reset (R383 to R388) -/

/-- A reset request that is ignored: logged, and CHIP_CAUSE.reset set (R384, R500). -/
def resetIgnored (kind named : Nat) (by_ : By) (s : State) : State :=
  chipCause 4 (logEvent 0x10C (blockSrc 0 31 176) (resetDetail kind true named 0 (byCode by_)) s)

/-- Puts the stacks into self-refresh (R301). -/
def selfRefreshAll (s : State) : State := (List.range 12).foldl (fun s i => modStack s i fun k => { k with selfRefresh := true }) s

/-- A write of RST_LAYER (R384, R386, R390, R399). -/
def writeRstLayer (by_ : By) (v : Word32) (s : State) : State :=
  let l := wField v 0 4
  if !(v.getLsbD 4) then { s with rst := { s.rst with layerSel := BitVec.ofNat 4 l } }
  else if s.rst.layerOp.isSome || decide (l > 7) || (isHost by_ && l == 0) || !s.boot.ready then resetIgnored 2 l by_ s
  else
    let s1 := { s with rst := { s.rst with
      layerSel := BitVec.ofNat 4 l, lost := false, layerOp := some { layer := l, force := v.getLsbD 5, phase := .drain, by_ := byCode by_ } } }
    if l = 0 then selfRefreshAll s1 else s1

/-- LAYER_RESET (R386): a write of RST_LAYER with request. -/
def execLayerReset (by_ : By) (v : Word32) (s : State) : Out :=
  .next (ctlGlobal by_ false 0 176 (fun s => written (writeRstLayer by_ (v ||| 0x10) s)) s)

/-- Whether a request held at a miss register of a slice crosses a layer: every one at a slice of the layer, and for the base
and comb 0, and for comb 1 at its own homes, those on their way to HBM (R385). -/
def missCrosses (layer n : Nat) (m : Miss) : Bool :=
  layer == dieLayer n || ((layer == 0 || layer == 1) && decide (m.op = .fetch))

/-- Whether a requester's requests cross a layer wherever they go: those of cores the compute layer, those of host cores and of the
collective engine the base (R385). -/
def requesterCrosses (layer : Nat) (q : Req) : Bool :=
  (layer == 3 && decide (q.master < 1200)) || (layer == 0 && (q.master == 1200 || q.master == 1201))

/-- Abandons with 0x0B what is still in flight across a layer; how many requests that was (R386). -/
def abandonLayer (layer : Nat) (s : State) : State × Nat :=
  let a := (s.comb.slices.map Prod.fst).foldl (fun (x : State × Nat) n =>
    match abandonAt n (missCrosses layer n) (requesterCrosses layer) x.1 with | (s1, k) => (s1, x.2 + k)) (s, 0)
  if layer = 0 then
    let w := a.1.reg.waiting.length
    let s1 := { a.1 with reg := { a.1.reg with waiting := [] } }
    let colls := s1.net.colls
    let s2 := colls.foldl (fun s k => collFail k.core k.tag 0x0B 0xFFFF false s) s1
    (s2, a.2 + w + colls.length)
  else a

/-- LAYER_DRAIN_END (R386): the drain has emptied or run out, or was skipped. -/
def execLayerDrainEnd (s : State) : Out :=
  .next (
    match s.rst.layerOp with
    | some o =>
      if o.phase ≠ .drain ∨ frozen s then s
      else
        match abandonLayer o.layer (clearAnswers s) with
        | (s1, n) =>
          let s2 := { s1 with rst := { s1.rst with
            layerOp := some { o with phase := .hold }, lost := decide (n > 0), lostCount := BitVec.ofNat 32 n } }
          if n > 0 then chipCause 4 s2 else s2
    | none => s)

/-- Host cores that hold lines of a slice: their shared cache drops these lines, and writes the modified ones to HBM (R388). -/
def hostDrops (n : Nat) (s : State) : State :=
  let held := (sliceLines s n).filterMap fun e =>
    if inHbm (64 * e.1) ∧ e.2.dir.st = .hostown then some (e.1, e.2.dir.ptrs.headD 0) else none
  if held.isEmpty then s else { s with comb := { s.comb with hostLeft := s.comb.hostLeft ++ held } }

/-- The units of a layer after its reset (R382, R388). Cores under their own reset are left to it (R384). -/
def resetLayerUnits (layer : Nat) (s : State) : State :=
  if layer = 0 then
    { s with
      boot := { s.boot with portCause := [], ucieCause := [] }
      hbm := { s.hbm with ctrls := (List.range 12).map fun i => (i, { temp := (getStack s i).temp, trained := true, selfRefresh := true }) }
      reg := {}
      net := { links := s.net.links, bypClosed := s.net.bypClosed, bypHold := s.net.bypHold, bypOpen := s.net.bypOpen } }
  else if layer ≤ 2 then
    let ns := (List.range 1296).map fun i => 1296 * (layer - 1) + i
    let s1 := (ns.filter fun n => sliceUp s n).foldl (fun s n => wakeSlice n (forceOff 4 n (hostDrops n s))) s
    { s1 with cores := s1.cores.map fun e => (e.1, { e.2 with l1 := [] }) }
  else if layer = 3 then
    let s1 := (List.range 24).foldl (fun s n => resetController n s) { s with swarm := { sites := s.swarm.sites } }
    (List.range 24).foldl (fun s n => (regionCores s n).foldl (fun s c => if (getCore s c).resetting then s else resetCoreNow c s) s) s1
  else
    (List.range 12).foldl (fun s i =>
      let l := 12 * (layer - 4) + i
      modLink (linkDown .disabled l s) l fun k => { saved := k.saved, fullNext := k.fullNext }) s

/-- LAYER_RESET_RELEASE (R386): after 1 µs in reset the layer is released. -/
def execLayerResetRelease (s : State) : Out :=
  .next (
    match s.rst.layerOp with
    | some o =>
      if o.phase ≠ .hold ∨ frozen s then s
      else
        let s1 := resetLayerUnits o.layer s
        { s1 with rst := { s1.rst with layerOp := some { o with phase := .restore } } }
    | none => s)

/-- LAYER_READY (R386): for the base, the stacks that had to be trained fully after their restore failed, and whether one of
them failed training, which makes MP reset the module. -/
def execLayerReady (retrained : List StackNo) (dead : Bool) (s : State) : Out :=
  .next (
    match s.rst.layerOp with
    | some o =>
      if o.phase ≠ .restore ∨ frozen s then s
      else if o.layer = 3 ∧ s.cores.any (fun e => e.2.resetting) then s
      else if o.layer = 0 ∧ dead then coldReset 2 0x03 s
      else
        let s1 := if o.layer = 0 then (List.range 12).foldl (fun s i => modStack s i fun k => { k with selfRefresh := false }) s else s
        let s2 := if o.layer = 0 ∧ retrained ≠ [] then
            retrained.foldl (fun s st => setStepInt 6 (logEvent 0x09 (stackSrc st.val) st.val s))
              { s1 with hbm := { s1.hbm with mem := memLost s1.free, bad := [] }, free := s1.free + 1 }
          else s1
        let s3 := { s2 with rst := { s2.rst with layerOp := none } }
        logEvent 0x10C (blockSrc 0 31 176) (resetDetail 2 false o.layer 0 o.by_) s3
    | none => s)

/-- Begins a core's reset: issue stops (R383). -/
def beginCoreReset (c : Nat) (s : State) : State := modCore s c fun k => { k with resetting := true }

/-- A region reset completes, with its event, once no core of the region is under reset (R384, R522). -/
def settleRegion (n : Nat) (s : State) : State :=
  if !(s.rst.regionBusy.contains n) || (List.range 50).any (fun r => (getCore s (50 * n + r)).resetting) then s
  else logEvent 0x10C (blockSrc 0 31 176) (resetDetail 3 false n 0 (tblGet 0 s.rst.regionBy n))
    { s with rst := { s.rst with regionBusy := s.rst.regionBusy.filter fun x => x != n, regionBy := tblDel s.rst.regionBy n } }

/-- A write of RST_REGION (R383, R384, R390, R429). -/
def writeRstRegion (by_ : By) (v : Word32) (s : State) : State :=
  let n := wField v 0 5
  let s0 := { s with rst := { s.rst with regionSel := BitVec.ofNat 5 n } }
  if !(v.getLsbD 5) then s0
  else if n > 23 ∨ (getFp s n).compute ≠ .on ∨ s.boot.ready = false ∨ s.rst.regionBusy.contains n ∨ layerDown s 3 then resetIgnored 3 n by_ s0
  else
    let s1 := (regionCores s0 n).foldl (fun s c => if (getCore s c).resetting then s else beginCoreReset c s) (resetController n s0)
    settleRegion n { s1 with rst := { s1.rst with regionBusy := s1.rst.regionBusy ++ [n], regionBy := tblPut s1.rst.regionBy n (byCode by_) } }

/-- REGION_RESET (R383): a write of RST_REGION with request. -/
def execRegionReset (by_ : By) (v : Word32) (s : State) : Out :=
  .next (ctlGlobal by_ false 0 176 (fun s => written (writeRstRegion by_ (v ||| 0x20) s)) s)

/-- A write of RST_CORE (R383, R384, R390, R429). -/
def writeRstCore (by_ : By) (v : Word32) (s : State) : State :=
  let c := wField v 0 11
  let s0 := { s with rst := { s.rst with coreSel := BitVec.ofNat 11 c } }
  if !(v.getLsbD 11) then s0
  else if c ≥ 1200 ∨ siteOf s c = none ∨ (getFp s (c / 50)).compute ≠ .on ∨ s.boot.ready = false ∨ (getCore s c).resetting ∨ s.rst.regionBusy.contains (c / 50)
      ∨ layerDown s 3 then resetIgnored 4 c by_ s0
  else modCore (beginCoreReset c s0) c fun k => { k with resetBy := byCode by_ }

/-- CORE_RESET (R383): a write of RST_CORE with request. -/
def execCoreReset (by_ : By) (v : Word32) (s : State) : Out :=
  .next (ctlGlobal by_ false 0 176 (fun s => written (writeRstCore by_ (v ||| 0x800) s)) s)

/-- Whether a core's UPD has a chunk pass that has begun to write and has not ended. -/
def passOpen (k : Core) : Bool :=
  k.flights.any fun f => match f.ph, f.aux with | .started, .upd p => !p.passes.isEmpty | _, _ => false

/-- CORE_RESET_COMPLETE (R383, R384, R522): a chunk pass that runs completes first; a core's own reset has its event, and a region reset
completes with the last core of its scope. -/
def execCoreResetComplete (c : CoreNo) (s : State) : Out :=
  .next (
    if !(getCore s c.val).resetting || frozen s then s
    else if passOpen (getCore s c.val) then settleUpd c.val s
    else
      let own := (getCore s c.val).resetBy
      let s1 := resetCoreNow c.val s
      settleRegion (c.val / 50)
        (if own = 0 then s1 else logEvent 0x10C (blockSrc 0 31 176) (resetDetail 4 false c.val 0 own) s1))

/-! ### Clock sources (R374 to R376) -/

/-- CRYSTAL_GOOD (R375, R376): 16 good windows; the RC oscillator is trimmed and the management domain moves to the datum
clock. After a trip MP performs a warm reset. -/
def execCrystalGood (s : State) : Out :=
  .next (
    if !s.pins.alwaysOn then s else
    let s1 := { s with clk := { s.clk with xtalOk := true, rcTrimmed := true, pllLock := true, datum := true } }
    if s.pwr.xtalHold then warmReset 2 0x12 s1 else s1)

/-- The swallow level of a rail's clock: rail 0 compute, 1 and 2 the comb rails (R379). -/
def setLevel (n rail level : Nat) (s : State) : State :=
  if rail = 0 then { s with clk := { s.clk with rgn := tblMod {} s.clk.rgn n fun r => { r with level } } }
  else { s with clk := { s.clk with combLevel := tblPut s.clk.combLevel ((rail - 1) * 24 + n) level } }

/-- The level in force. -/
def levelOf (s : State) (n rail : Nat) : Nat :=
  if rail = 0 then (tblGet {} s.clk.rgn n).level else tblGet 0 s.clk.combLevel ((rail - 1) * 24 + n)

/-- DROOP_CROSSING (R379): the rail falls below the threshold of level 1, or of level 2 when `deep`. -/
def execDroopCrossing (n : RegionNo) (rail : Fin 3) (deep : Bool) (s : State) : Out :=
  .next (
    if frozen s then s else
    let want := if deep then 2 else 1
    let s1 := if levelOf s n.val rail.val < want then setLevel n.val rail.val want s else s
    if deep then { s1 with clk := { s1.clk with cause := s1.clk.cause ||| 4 } } else s1)

/-- DROOP_RELEASE (R379): the rail has stayed above the level's threshold for 64 cycles; `edges` datum edges were swallowed on
the compute clock meanwhile (log 11). -/
def execDroopRelease (n : RegionNo) (rail : Fin 3) (edges : Nat) (s : State) : Out :=
  .next (
    if frozen s then s else
    let s1 := setLevel n.val rail.val (levelOf s n.val rail.val - 1) s
    if rail.val = 0 then { s1 with clk := { s1.clk with rgn := tblMod {} s1.clk.rgn n.val fun r => { r with swallow := satInc r.swallow edges } } }
    else s1)

/-- PERIPHERAL_GATE (R381): a write of CLK_PERIPH_EN. -/
def execPeripheralGate (by_ : By) (v : Word32) (s : State) : Out :=
  .next (ctlGlobal by_ false 0 160 (fun s => written { s with clk := { s.clk with periphEn := v.truncate 6 } }) s)

end Sys2Proof.Machine
end

