-- ==== Sys2Proof/Machine/Security.lean ====
section
/-! DEFINITION. OTP, signatures, measurements, identity, debug levels, purge and freeze (chapter 17), and the answers of the
management processor (R484). -/
namespace Sys2Proof.Machine

/-! ### OTP (R453, R454, R460) -/

/-- All ones in a key hash. -/
def ones512 : BitVec 512 := BitVec.allOnes 512

/-- The owner slot: 0 empty, 1 enrolled, 2 destroyed, 3 partial (R453). -/
def ownerSlot (o : Otp) : Nat :=
  if o.ownerHash = ones512 then 2 else if o.enrolled then 1 else if o.ownerHash = 0 then 0 else 3

/-- Changes the security block. -/
def modSec (s : State) (f : Sec → Sec) : State := { s with sec := f s.sec }
/-- Control-space block of the security block. -/
def secSrc : Nat := blockSrc 0 31 192

/-- Sets OTP bits but those that fail; a write that does not read back is logged (R453, R454). -/
def program (want : OtpMiss) (miss : OtpMiss) (s : State) : State :=
  let o := s.sec.otp
  let o' : Otp := { o with
    policy := o.policy ||| (want.policy &&& ~~~miss.policy), ownerHash := o.ownerHash ||| (want.hash &&& ~~~miss.hash)
    enrolled := o.enrolled || (want.enrolled && !miss.enrolled)
    lifecycle := o.lifecycle ||| (want.lifecycle &&& ~~~miss.lifecycle)
    purgeDone := o.purgeDone || (want.purgeDone && !miss.purgeDone) }
  let full := (o'.policy ||| want.policy) == o'.policy && (o'.ownerHash ||| want.hash) == o'.ownerHash
    && (o'.enrolled || !want.enrolled) && (o'.lifecycle ||| want.lifecycle) == o'.lifecycle && (o'.purgeDone || !want.purgeDone)
  let s1 := modSec s fun x => { x with otp := o' }
  if full then s1 else logEvent 0x10E secSrc 0 s1

/-- A counter's words. -/
def arbWords (o : Otp) (c : Nat) : List Word64 := if c = 0 then o.arb0 else o.arb1
/-- A counter's value: its last programmed word (R460). -/
def arbValue (o : Otp) (c : Nat) : Nat := match (arbWords o c).getLast? with | some w => w.toNat | none => 0

/-- Puts a word on a counter. -/
def arbPush (c : Nat) (w : Word64) (s : State) : State :=
  modSec s fun x => { x with otp := if c = 0 then { x.otp with arb0 := x.otp.arb0 ++ [w] } else { x.otp with arb1 := x.otp.arb1 ++ [w] } }

/-- Raises a counter; `reads` are what the words programmed first read back, and a word that reads back wrong is abandoned
(R460; log 11). -/
def arbRaise (c : Nat) (v : Word64) : List Word64 → State → State
  | [], s => if (arbWords s.sec.otp c).length ≥ 256 then logEvent 0x10E secSrc 0 s else arbPush c v s
  | r :: rs, s =>
    if (arbWords s.sec.otp c).length ≥ 256 then logEvent 0x10E secSrc 0 s
    else if r = v then arbPush c v s else arbRaise c v rs (arbPush c r s)

/-! ### Keys (R455) -/

/-- Sets bits of SEC_CAUSE. -/
def secCause (b : BitVec 6) (s : State) : State := modSec s fun x => { x with cause := x.cause ||| b }
/-- The serial number's bytes. -/
def serialBytes (s : State) : List Byte := leBytes 16 s.sec.otp.serial.toNat
/-- Whether a key hash is that of the root key. -/
def isRootKey (s : State) (h : BitVec 512) : Bool := h == s.sec.otp.rootHash
/-- Whether a key hash is that of the enrolled owner's key. -/
def isOwnerKey (s : State) (h : BitVec 512) : Bool := ownerSlot s.sec.otp == 1 && h == s.sec.otp.ownerHash
/-- The hash of the key that signs configuration blocks and control commands: the owner's when one is enrolled, else the
root key's, and the root key's alone in RETURNED (R455, R468, R486). -/
def cfgKey (s : State) : BitVec 512 :=
  if lifecycle s ≠ 3 ∧ ownerSlot s.sec.otp = 1 then s.sec.otp.ownerHash else s.sec.otp.rootHash

/-! ### Measurements and identity (R462, R463) -/

/-- A measurement register. -/
def getMeas (s : State) (r : Nat) : BitVec 512 := tblGet 0 s.sec.meas r
/-- Extends a measurement register. -/
def extend (r : Nat) (d : BitVec 512) (s : State) : State :=
  modSec s fun x => { x with meas := tblPut x.meas r (sha3 (leBytes 64 (getMeas s r).toNat ++ leBytes 64 d.toNat)) }

/-- The ASCII bytes of a text. -/
def ascii (t : String) : List Byte := t.toList.map fun c => BitVec.ofNat 8 c.toNat
/-- The seed of the DeviceID key. -/
def deviceSeed (s : State) : BitVec 256 := shake (leBytes 64 s.sec.otp.uds.toNat ++ ascii "druov-deviceid")
/-- The owner slot's bytes. -/
def ownerBytes (s : State) : List Byte := leBytes 64 s.sec.otp.ownerHash.toNat
/-- The lifecycle byte. -/
def lifeByte (s : State) : List Byte := leBytes 1 (lifecycle s)

/-- The ROM derives the alias key and signs its certificate (R463). -/
def deriveAlias (s : State) : State :=
  let m := leBytes 64 (getMeas s 0).toNat ++ leBytes 64 (getMeas s 1).toNat
  let cdi := sha3 (leBytes 64 s.sec.otp.uds.toNat ++ m ++ ownerBytes s ++ lifeByte s)
  let seed := shake (leBytes 64 cdi.toNat ++ ascii "druov-alias")
  let key := Config.publicKey seed
  takeFree (modSec s fun x => { x with
    alias_ := some seed, cert := key ++ Config.sign (deviceSeed s) "druov-alias" (key ++ m ++ lifeByte s ++ ownerBytes s) s.free })

/-! ### The management processor's answers (R484, R485) -/

/-- MP's firmware runs, or MP stays on the management port after a failed start-up (R397), or in THERMAL-OFF (R436, R437). -/
def mpUp (s : State) : Bool := s.pins.alertLive || s.boot.failed || decide (s.pwr.st = .thermalOff)

/-- Whether MP hears what a source sends: the management port and the links stop with the crystal, the JTAG port does not (R376), and
the port's MAC can be gated (R381). -/
def mpHears (src : FrameSrc) (s : State) : Bool :=
  mpUp s && (match src with
    | .debug => true
    | .port => !(s.clk.stopped && !s.clk.xtalOk) && s.clk.periphEn.getLsbD 1
    | .device _ => !(s.clk.stopped && !s.clk.xtalOk))

/-- Whether MP works on the NVM: its controller can be gated, and an operation then waits (R381). -/
def nvmRuns (s : State) : Bool := mpUp s && s.clk.periphEn.getLsbD 0

/-- The pieces of a payload in fragments of at most `size` bytes; an empty payload takes one. -/
def fragments (size : Nat) (p : List Byte) : List (List Byte) :=
  (List.range (max 1 (ceilDiv p.length size))).map fun i => (p.drop (size * i)).take size

/-- The frames of a response (R484), with at most `size` payload bytes in each. -/
def responseFrames (size code : Nat) (id : Word32) (status : Nat) (payload : List Byte) : List (List Byte) :=
  let fs := fragments size payload
  fs.zipIdx.map fun f =>
    leBytes 2 0x4D46 ++ [1, BitVec.ofNat 8 code] ++ leBytes 4 id.toNat ++ leBytes 2 f.2 ++ leBytes 2 fs.length
      ++ leBytes 2 f.1.length ++ [BitVec.ofNat 8 status, 0] ++ f.1

/-- Answers a request: by a reply on the port, and to a device also by MFRAME packets (R325, R484), as large as the way there carries
(R335). -/
def respond (src : FrameSrc) (code : Nat) (id : Word32) (status : Nat) (payload : List Byte) (s : State) : State :=
  let s1 := answer s (.reply status payload)
  match src with
  | .device d =>
    if frozen s1 then s1 else
      (responseFrames (min 1408 (payloadMax d 3 s1 - 16)) code id status payload).foldl (fun s f =>
        post none { dst := d, src := 0, typ := 0x20, payload := f } s) s1
  | _ => s1

/-- Takes the oldest frame of a device from MP's inbox. -/
def takeInbox (src : FrameSrc) (s : State) : State :=
  match src with
  | .device d => { s with frames := { s.frames with inbox := s.frames.inbox.eraseP fun e => e.1 == d } }
  | _ => s

/-- MP holds every fragment of a request and acts on it: `f` gives the state after it, the status and the payload of the
response. While the fragments of another request are being put together, MP is busy (R484). -/
def mpRequest (src : FrameSrc) (code : Nat) (id : Word32) (f : State → State × Nat × List Byte) (s : State) : State :=
  let s0 := takeInbox src (clearAnswers s)
  if !(mpHears src s0) then s0
  else if (match s0.frames.asm with | some a => a.id != id | none => false) then respond src code id 6 [] s0
  else match f { s0 with frames := { s0.frames with asm := none } } with
    | (s1, st, p) => respond src code id st p s1

/-- Sixty seconds in management cycles. -/
def nonceLife : Nat := 60000 * msCycles

/-- Consumes an issued nonce; whether it was issued and is fresh (R485, R486). -/
def takeNonce (v : BitVec 256) (s : State) : State × Bool :=
  let ok := s.frames.nonces.any fun e => Config.freeBits256 e.1 == v && decide (s.mgt.time ≤ e.2 + nonceLife)
  ({ s with frames := { s.frames with nonces := s.frames.nonces.filter fun e => Config.freeBits256 e.1 != v } }, ok)

/-! ### Debug levels and tokens (R469 to R472) -/

/-- Sets the debug level; a change is reported and logged. -/
def setLevelDbg (l : BitVec 2) (s : State) : State :=
  if s.sec.level = l then s
  else logEvent 0x10D secSrc 0 (secCause 2 (modSec s fun x => { x with level := l }))

/-- Clears customer state (R472): the host complex is held in reset, every link is disabled, the compute layer is reset, and
HBM, comb and core memories are overwritten with zero. -/
def purgeCustomer (s : State) : State :=
  let s1 := (List.range 48).foldl (fun s l => modLink (linkDown .disabled l s) l fun k => { k with ctl := k.ctl &&& 0xFFFFFFFE }) s
  let s2 := resetLayerUnits 3 s1
  let zeroCore (k : Core) : Core := { k with bankA := {}, bankB := {}, tile := {}, descMem := {}, l1 := [], arr := {}, tg := {} }
  let s3 := { s2 with
    cores := s2.cores.map fun e => (e.1, zeroCore e.2)
    comb := { s2.comb with lines := [], lastDrops := [], abandoned := [], hostLeft := [], slices := s2.comb.slices.map fun e => (e.1, { e.2 with miss := [], refusals := [] }) }
    hbm := { s2.hbm with mem := {}, bad := [] }
    boot := { s2.boot with hostHeld := true }
    mbx := { s2.mbx with eip := [], posts := [] } }
  logEvent 0x10C (blockSrc 0 31 176) (resetDetail 2 false 3 0 2) s3

/-- Whether a token is accepted (R470, R471); its bytes are those of the table of R470. -/
def tokenOk (t : List Byte) (s : State) : Bool :=
  let lvl := bytesAt t 6 1
  let owner := bytesAt t 7 1 == 1
  let kh := sha3 ((t.drop 0x40).take 2592)
  let life := lifecycle s
  t.length == 0xA60 + 4627 && bytesAt t 0 4 == 0x4B545644 && bytesAt t 4 2 == 1 && (lvl == 1 || lvl == 2) && bytesAt t 7 1 ≤ 1
    && (t.drop 8).take 16 == serialBytes s && (t.drop 0x18).take 32 == leBytes 32 (Config.freeBits256 s.sec.nonce).toNat
    && bytesAt t 0x38 8 == 0 && (if owner then isOwnerKey s kh else isRootKey s kh)
    && Config.verify "druov-dbg" kh (t.take 0x40) (t.drop 0xA60)
    && (if owner then life == 2 else (life == 2 && (lvl == 1 || s.sec.otp.policy.getLsbD 1)) || life == 1 || life == 3)
    && decide (lvl > s.sec.level.toNat)
    && !(life == 2 && lvl == 2 && decide (s.pwr.st ≠ .on))

/-- A debug token is checked: an accepted one sets the level, after the purge that FULL takes in DEPLOYED; the nonce is drawn
anew either way (R470 to R472). -/
def token (t : List Byte) (s : State) : State × Bool :=
  let ok := tokenOk t s
  let lvl : BitVec 2 := BitVec.ofNat 2 (bytesAt t 6 1)
  let s1 := takeFree (modSec s fun x => { x with nonce := s.free })
  if ok then
    let s2 := if lvl = 2 ∧ lifecycle s = 2 then modSec (purgeCustomer s1) fun x => { x with purged := true } else s1
    (setLevelDbg lvl (extend 0 (sha3 t) s2), true)
  else (logEvent 0x10D secSrc 0 (secCause 4 s1), false)

/-- TOKEN (R470, R471): from the management port as a request, or through a JTAG data register without an answer. -/
def execToken (src : FrameSrc) (id : Word32) (t : List Byte) (s : State) : Out :=
  .next (
    if src = .debug then (if mpUp s then (token t (clearAnswers s)).1 else s)
    else mpRequest src 0x04 id (fun s => match token t s with | (s1, ok) => (s1, if ok then 0 else 3, [])) s)

/-- Whether a freeze is accepted: at FULL, in power state ON or REGION-SLEEP, and not a second time (R474, R476). -/
def freezeOk (s : State) : Bool := decide (s.sec.level = 2) && decide (s.pwr.st = .on) && !s.pins.reset

/-- A freeze request: the controllers take no new request and the stacks enter self-refresh; one that is not accepted is
logged, but for a second one (R474 to R476). -/
def freeze (s : State) : State :=
  if s.sec.frozen then s
  else if freezeOk s then
    modSec (secCause 32 (selfRefreshAll s)) fun x => { x with frozen := true, freezing := true }
  else logEvent 0x10D secSrc 0 s

/-- A write of SEC_DBG_CTL (R471, R474, R479): lock from any requester, the rest from the debug port only, the level in BLANK
only. A freeze is judged at the level before the write, and lock comes last. -/
def writeDbgCtl (by_ : By) (v : Word32) (s : State) : State :=
  let dbg := decide (by_ = .debug)
  let s1 := if dbg && v.getLsbD 2 then freeze s else s
  let lvl := wField v 4 2
  let s2 := if dbg && lifecycle s1 == 0 && decide (lvl < 3) then setLevelDbg (BitVec.ofNat 2 lvl) s1 else s1
  if v.getLsbD 1 then setLevelDbg 0 s2 else s2

/-- An access that writes SEC_DBG_CTL: the debug port reaches it below FULL in BLANK, for the level, and to lock (R469, R471). -/
def dbgCtl (by_ : By) (v : Word32) (s : State) : State :=
  if by_ = .debug ∧ (lifecycle s = 0 ∨ v.getLsbD 1) then ctlGlobal .mp false 0 192 (fun s => written (writeDbgCtl .debug v s)) s
  else ctlGlobal by_ false 0 192 (fun s => written (writeDbgCtl by_ v s)) s

/-- DEBUG_LOCK (R469): a write of SEC_DBG_CTL with lock. -/
def execDebugLock (by_ : By) (v : Word32) (s : State) : Out := .next (dbgCtl by_ (v ||| 2) s)

/-- DEBUG_LEVEL_SET (R471): a write of SEC_DBG_CTL. -/
def execDebugLevelSet (by_ : By) (v : Word32) (s : State) : Out := .next (dbgCtl by_ v s)

/-- FREEZE_REQUEST (R474, R514): by the pin, by JTAG, or by a write of SEC_DBG_CTL. -/
def execFreezeRequest (via : FreezeVia) (s : State) : Out :=
  .next (
    match via with
    | .ctl b v => dbgCtl b (v ||| 4) s
    | .pin => if s.pins.alwaysOn then freeze { s with pins := { s.pins with freeze := true } } else { s with pins := { s.pins with freeze := true } }
    | .jtag => if s.pins.alwaysOn then freeze s else s)

/-- FREEZE_CLOCK_STOP (R475): the logic clocks stop and the links go DISABLED. -/
def execFreezeClockStop (s : State) : Out :=
  .next (
    if !s.sec.freezing then s
    else
      let s1 := (List.range 48).foldl (fun s l => linkDown .disabled l s) (modSec s fun x => { x with freezing := false })
      { s1 with clk := { s1.clk with stopped := true } })

/-- MEASUREMENT_EXTEND (R462, R479): a write of SEC_MEAS_CMD. -/
def writeMeasCmd (v : Word32) (s : State) : State := if v.getLsbD 0 then extend 7 s.sec.ext s else s

/-- MEASUREMENT_EXTEND (R462). -/
def execMeasurementExtend (by_ : By) (v : Word32) (s : State) : Out :=
  .next (ctlGlobal by_ false 0 192 (fun s => written (writeMeasCmd (v ||| 1) s)) s)

/-! ### Entropy source (R465, R480) -/

/-- A write of SEC_RNG_CTL, MP's alone; the start-up test passes or fails (log 11). -/
def writeRngCtl (by_ : By) (v : Word32) (pass : Bool) (s : State) : State :=
  if by_ ≠ .mp then refuse s
  else written (
    if !(v.getLsbD 0) then s
    else if pass then takeFree (modSec s fun x => { x with rngValid := true, rngFail := false, rngBlock := s.free })
    else s)

/-- ENTROPY_RESTART (R465). -/
def execEntropyRestart (by_ : By) (v : Word32) (pass : Bool) (s : State) : Out :=
  .next (ctlGlobal by_ false 0 147 (writeRngCtl by_ (v ||| 1) pass) s)

/-- ENTROPY_HEALTH_FAIL (R465); a gated source runs no test (R381). -/
def execEntropyHealthFail (s : State) : Out :=
  .next (
    if !s.pins.alwaysOn || !(s.clk.periphEn.getLsbD 3) then s
    else logEvent 0x111 (blockSrc 0 31 147) 0 (secCause 8 (modSec s fun x => { x with rngValid := false, rngFail := true })))

/-- Word `w` of the current block; withheld output reads zero. -/
def rngWord (s : State) (w : Nat) : Word32 :=
  if s.sec.rngValid then BitVec.ofNat 32 ((Config.freeBits512 s.sec.rngBlock).toNat >>> (32 * w)) else 0

/-- A read of word 15 consumes the block. -/
def readRng15 (s : State) : State :=
  let s1 := readAs (rngWord s 15) s
  if s.sec.rngValid then
    takeFree (modSec s1 fun x => { x with rngBlocks := x.rngBlocks + 1, rngBlock := s1.free })
  else s1

/-- ENTROPY_BLOCK_READ (R480). -/
def execEntropyBlockRead (by_ : By) (s : State) : Out := .next (ctlGlobal by_ false 0 147 readRng15 s)

end Sys2Proof.Machine
end

