-- ==== Sys2Proof/Machine/Power.lean ====
section
/-! DEFINITION. Feeds, regulator phases, region power, standby, temperature, shutdown and bond wear (chapter 16). -/
namespace Sys2Proof.Machine

/-- Control-space block of a footprint's power block. -/
def fpSrc (n : Nat) : Nat := blockSrc 0 n 64
/-- Control-space block of the feed monitors. -/
def feedSrc : Nat := blockSrc 8 31 1

/-- The device has become degraded while it runs (R410, R500). -/
def degrade (s : State) : State :=
  if s.boot.degraded then s else
    let s1 := { s with boot := { s.boot with degraded := true } }
    if s.boot.ready then chipCause 32 s1 else s1

/-! ### The device's power (R419, R430, R436) -/

/-- The logic and its links lose power: links go down, the bypass closes, and nothing of a ramp or a reset is left. -/
def logicOff (s : State) : State :=
  let s1 := closeBypass ((List.range 48).foldl (fun s l => linkDown .disabled l s) s)
  { s1 with
    pins := { s1.pins with pwrGood := false }
    boot := { s1.boot with hostHeld := true }
    rst := { s1.rst with layerOp := none, regionBusy := [], regionBy := [] }
    pwr := { s1.pwr with fps := s1.pwr.fps.map fun e => (e.1, { e.2 with ramps := [], pend := [], waiting := false }) } }

/-- Both feeds are gone: the always-on domain and every memory but the NVM and the OTP lose what they hold. -/
def powerLoss (s : State) : State :=
  let s1 := coldReset 0 0x01 (logicOff { s with thm := { s.thm with held := false } })
  { s1 with
    pins := { s1.pins with alwaysOn := false, pwrGood := false }
    rst := { cold := s.rst.cold, warm := s.rst.warm }
    thm := { wear := s.thm.wearSaved, wearSaved := s.thm.wearSaved }
    mgt := { nvm := s.mgt.nvm, nextSeq := s.mgt.nextSeq }
    sec := { s1.sec with rngValid := false }
    pwr := { s1.pwr with st := .emptyStandby } }

/-- Retaining standby: stacks in self-refresh, every other rail but the management domain's off, the wear counters saved
(R430, R440). -/
def enterStandby (s : State) : State :=
  let s1 := logicOff (selfRefreshAll s)
  { s1 with pwr := { s1.pwr with st := .standby }, thm := { s1.thm with wearSaved := s1.thm.wear } }

/-- CRYSTAL_TRIP (R376, R476): with the datum clock in use, the stacks enter self-refresh, the logic clocks stop and the device
waits in STANDBY, which takes PWR_GOOD low and closes the bypass (R341); a frozen device stays frozen. -/
def execCrystalTrip (s : State) : Out :=
  .next (
    if !s.clk.datum then { s with clk := { s.clk with xtalOk := false } }
    else
      let s1 := { selfRefreshAll s with clk := { s.clk with
        xtalOk := false, pllLock := false, datum := false, stopped := true, cause := s.clk.cause ||| 3 } }
      if s.sec.frozen then s1
      else
        let s2 := enterStandby s1
        { s2 with pwr := { s2.pwr with xtalHold := true } })

/-- Milliseconds since the feeds were applied. -/
def nowMs (s : State) : Nat := s.thm.clockBase + s.mgt.time / msCycles
/-- How many of the last three restarts lie within the last 60 min (R437). -/
def recentRestarts (s : State) : Nat := (s.thm.restarts.filter fun t => decide (nowMs s ≤ t + 3600000)).length

/-- Thermal shutdown (R436, R437): every rail but the management domain's is removed, with the contents of the stacks; it
preempts every reset, ramp and freeze. -/
def thermalShutdown (s : State) : State :=
  if s.pwr.st = .thermalOff ∨ s.pins.alwaysOn = false then s else
  let s1 := logicOff s
  logEvent 0x107 (blockSrc 0 31 133) 0 { s1 with
    pwr := { s1.pwr with st := .thermalOff, xtalHold := false }
    sec := { s1.sec with frozen := false, freezing := false }
    clk := { s1.clk with stopped := false }
    hbm := { s1.hbm with mem := memLost s1.free, bad := [] }, free := s1.free + 1
    thm := { s1.thm with shutdowns := sat16 s1.thm.shutdowns, held := s1.thm.held || decide (recentRestarts s = 3)
                         wearSaved := s1.thm.wear } }

/-! ### Feeds (R419 to R422) -/

/-- A feed. -/
def getFeed (s : State) (f : Nat) : Feed := tblGet {} s.pwr.feeds f
/-- Changes a feed. -/
def modFeed (s : State) (f : Nat) (g : Feed → Feed) : State :=
  { s with pwr := { s.pwr with feeds := tblPut s.pwr.feeds f (g (getFeed s f)) } }
/-- Sets bits of PWR_FEED_CAUSE. -/
def feedCause (b : BitVec 4) (s : State) : State := { s with pwr := { s.pwr with feedCause := s.pwr.feedCause ||| b } }
/-- Whether a voltage in 0.1 V lies in the range of a feed in use. -/
def inRange (v : BitVec 10) : Bool := decide (440 ≤ v.toNat) && decide (v.toNat ≤ 600)

/-- FEED_OUT_OF_RANGE (R419): the feed is disconnected; with the other out of use too, the device loses power. -/
def execFeedOutOfRange (f : FeedNo) (volts : BitVec 10) (s : State) : Out :=
  .next (
    if inRange volts || !(getFeed s f.val).inUse then modFeed s f.val fun x => { x with dVolts := volts }
    else
      let s1 := modFeed s f.val fun x => { x with inUse := false, dVolts := volts, dAmps := 0 }
      if (getFeed s1 (1 - f.val)).inUse then logEvent 0x105 feedSrc f.val (feedCause (BitVec.ofNat 4 (2 ^ f.val)) s1)
      else powerLoss s1)

/-- FEED_RECONNECT (R419): a feed has stayed in range for 100 ms. -/
def execFeedReconnect (f : FeedNo) (volts : BitVec 10) (s : State) : Out :=
  .next (
    let s1 := modFeed s f.val fun x => { x with dVolts := volts, inUse := x.inUse || inRange volts }
    if inRange volts && !(getFeed s f.val).inUse && s.pins.alwaysOn then logEvent 0x105 feedSrc f.val s1 else s1)

/-- Whether a drop in µV at a current in 10 mA exceeds 1.3 times a baseline in µV/A. -/
def overDrop (drop amps10mA base : Nat) : Bool := decide (1000 * drop > 13 * base * amps10mA)

/-- FEED_INTEGRITY_CHECK (R420): a reading of a feed, its current in 0.1 A and its drop in µV. -/
def execFeedIntegrityCheck (f : FeedNo) (volts amps : BitVec 10) (drop : Nat) (s : State) : Out :=
  .next (
    if !(mpUp s) then s else
    let s1 := modFeed s f.val fun x => { x with dVolts := volts, dAmps := amps }
    let x := getFeed s1 f.val
    match x.base with
    | none => s1
    | some b =>
      if !x.inUse || decide (amps.toNat < 100) then s1
      else if overDrop drop (10 * amps.toNat) b.toNat then
        let raise := decide (x.high + 1 ≥ 100) && !x.integrity
        let s2 := modFeed s1 f.val fun x => { x with high := x.high + 1, low := 0, integrity := x.integrity || raise }
        if raise then logEvent 0x106 feedSrc f.val (feedCause (BitVec.ofNat 4 (4 * 2 ^ f.val)) s2) else s2
      else
        modFeed s1 f.val fun x => { x with high := 0, low := x.low + 1, integrity := x.integrity && decide (x.low + 1 < 1000) })

/-- The lowest step a footprint may hold (R435). -/
def floorStep (f : Fp) : Nat := if f.vfault then 5 else 0

/-- VERTICAL_SUPPLY_CHECK (R421): a reading of a footprint's compute rail, its current in 10 mA and its drop in µV. -/
def execVerticalSupplyCheck (n : RegionNo) (drop amps : Nat) (s : State) : Out :=
  .next (
    if !(mpUp s) then s else
    let f := getFp s n.val
    match f.vBase with
    | none => s
    | some b =>
      if f.compute ≠ .on ∨ amps < 1000 then s
      else if overDrop drop amps b.toNat then
        let raise := decide (f.vHigh + 1 ≥ 100) && !f.vfault
        let s1 := modFp s n.val fun f => { f with
          vHigh := f.vHigh + 1, vfault := f.vfault || raise, step := if raise then max 5 f.step else f.step
          cause := if raise then f.cause ||| 8 else f.cause }
        if raise then logEvent 0x106 (fpSrc n.val) n.val s1 else s1
      else modFp s n.val fun f => { f with vHigh := 0 })

/-- BASELINE_CAPTURE (R422): 60 s of a path without a baseline have been captured. -/
def execBaselineCapture (p : SupplyPath) (base : BitVec 16) (s : State) : Out :=
  .next (
    if !(mpUp s) then s else
    match p with
    | .feed f => if (getFeed s f.val).base = none then modFeed s f.val fun x => { x with base := some base } else s
    | .vertical n => if (getFp s n.val).vBase = none then modFp s n.val fun x => { x with vBase := some base } else s)

/-! ### Phases and current limits (R423 to R425) -/

/-- The group of a phase: 0 compute, 1 comb 0, 2 comb 1. -/
def phaseGroup (ph : Nat) : Nat := if ph < 8 then 0 else if ph < 10 then 1 else 2

/-- The phases of a footprint that do not work: failed since start or bad in the cadastre. -/
def deadPhases (s : State) (n : Nat) : List Nat :=
  (List.range 12).filter fun ph => (getFp s n).failed.contains ph || s.boot.badPhases.contains (12 * n + ph)
/-- How many of a group's. -/
def deadOf (s : State) (n g : Nat) : Nat := ((deadPhases s n).filter fun ph => phaseGroup ph == g).length

/-- The effective limit of a compute rail in 10 mA (R425). -/
def effLimit (s : State) (n : Nat) : Nat := 8000 * (8 - deadOf s n 0) / 8 * (100 - 5 * (getFp s n).step) / 100

/-- State of a group. -/
def groupSt (f : Fp) (g : Nat) : GrpSt := if g = 0 then f.compute else if g = 1 then f.comb0 else f.comb1
/-- Sets the state of a group. -/
def setGroup (n g : Nat) (st : GrpSt) (s : State) : State :=
  modFp s n fun f => if g = 0 then { f with compute := st } else if g = 1 then { f with comb0 := st } else { f with comb1 := st }

/-- The slices of a footprint on a die. -/
def groupSlices (n die : Nat) : List Nat := (List.range 54).map fun i => 1296 * die + 54 * n + i

/-- Enabled sites of a swarm load end failed with their region's power-down (R416). -/
def swarmFails (n : Nat) (s : State) : State :=
  { s with swarm := { s.swarm with sites := s.swarm.sites.map fun e =>
      if e.1 / 54 = n ∧ e.2.enable then (e.1, { e.2 with failed := true, got := 0, done := false }) else e } }

/-- A region controller without power loses what it holds (R424, R444). -/
def controllerOff (n : Nat) (s : State) : State :=
  if (getFp s n).comb0 = .on ∨ (getFp s n).comb1 = .on then s else swarmFails n (resetController n s)

/-- A slice is forced off by a rail fault (R445): its requests end with 0x0B, its lines are lost, and the loss is logged and
sets the step-integrity flag. -/
def forceOffRail (n : Nat) (s : State) : State :=
  let lines := sliceLines s n
  let s1 := (abandonAt n (fun _ => true) (fun _ => false) s).1
  let s2 := lines.foldl (fun s e => dropLine e.1 (l1DropAll e.1 none s)) s1
  let s3 := modSlice s2 n fun x => { x with miss := [], refusals := [], lost := true }
  setStepInt 5 (logEvent 0x109 (sliceSrc n) n s3)

/-- A comb rail group fails: it is forced off at once, with its slices (R424, R445). -/
def combLost (n g : Nat) (s : State) : State :=
  if groupSt (getFp s n) g = .lost ∨ groupSt (getFp s n) g = .off then s else
  let s1 := (groupSlices n (g - 1)).foldl (fun s i => if sliceUp s i then forceOffRail i s else s) s
  let s2 := modFp (setGroup n g .lost s1) n fun f => { f with
    cause := f.cause ||| 4, ramps := f.ramps.filter (fun r => r.1 != g), pend := f.pend.filter fun r => r.1 != g }
  degrade (controllerOff n s2)

/-- A compute rail is powered down (R424, R427, R429): the region-reset procedure, then the ramp; a ramp under way reverses. -/
def computeDown (n : Nat) (s : State) : State :=
  if (getFp s n).compute = .lost ∨ (getFp s n).compute = .off then s else
  let s1 := (regionCores s n).foldl (fun s c => resetCoreNow c s) (resetController n s)
  let s2 := modFp (setGroup n 0 .lost s1) n fun f => { f with
    cause := f.cause ||| 2, waiting := false, pend := f.pend.filter (fun r => r.1 != 0)
    ramps := f.ramps.filter (fun r => r.1 != 0) ++ [(0, false)] }
  degrade (swarmFails n { s2 with rst := { s2.rst with
    regionBusy := s2.rst.regionBusy.filter fun x => x != n, regionBy := tblDel s2.rst.regionBy n } })

/-- PHASE_FAIL (R423, R424, R429): a phase leaves its group within 1 µs. -/
def execPhaseFail (n : RegionNo) (ph : Fin 12) (s : State) : Out :=
  .next (
    if !s.pins.alwaysOn || (deadPhases s n.val).contains ph.val then s
    else
      let s1 := modFp s n.val fun f => { f with failed := f.failed ++ [ph.val], cause := f.cause ||| 1 }
      let i := 12 * n.val + ph.val
      let s2 := if s1.boot.learned.any fun x => x.kind == 7 && x.index == i then
          { s1 with boot := { s1.boot with learned := s1.boot.learned.map fun x => if x.kind = 7 ∧ x.index = i then { x with bad := true } else x } }
        else addLearned { kind := 7, bad := true, origin := 5, index := i } s1
      let s3 := logEvent 0x108 (blockSrc 0 n.val ph.val) i s2
      let g := phaseGroup ph.val
      if s3.pwr.st ≠ .on then s3
      else if g = 0 then (if deadOf s3 n.val 0 ≥ 2 then computeDown n.val s3 else s3)
      else combLost n.val g s3)

/-- EFFECTIVE_LIMIT_ENFORCEMENT (R425): the edges that the divider swallowed to keep the 10 µs mean current within the limit
(log 11). -/
def execEffectiveLimitEnforcement (n : RegionNo) (edges : Nat) (s : State) : Out :=
  .next (
    if frozen s || decide ((getFp s n.val).compute ≠ .on) then s
    else { s with clk := { s.clk with rgn := tblMod {} s.clk.rgn n.val fun r => { r with swallow := satInc r.swallow edges } } })

/-! ### Sleep and wake (R427 to R429) -/

/-- Whether a ramp of a group is in progress. -/
def ramping (f : Fp) (g : Nat) : Bool := f.ramps.any fun r => r.1 == g

/-- Writes back the DIRTY and REDUCE lines of slices, and whether all of them went; a line held at its home keeps the group
awake until it is let go. -/
def writeBack (ns : List Nat) (s : State) : State × Bool :=
  let lns := ns.flatMap fun i => ((sliceLines s i).filter fun e => inHbm (64 * e.1)).map Prod.fst
  lns.foldl (fun (x : State × Bool) ln =>
    match homeFlush true 1204 (bitsOf s.reg.cfg.toNat 8 6) ln x.1 with
    | (s1, .ok _) => (s1, x.2)
    | (s1, _) => (s1, false)) (s, true)

/-- A group goes to sleep. -/
def sleepGroup (n g : Nat) (s : State) : State :=
  let go (s : State) : State := modFp (setGroup n g .asleep s) n fun f => { f with ramps := f.ramps ++ [(g, false)] }
  let wait (s : State) : State := modFp s n fun f => { f with pend := f.pend ++ [(g, true)] }
  if g = 0 then swarmFails n (go s)
  else
    let ns := groupSlices n (g - 1)
    if ns.any fun i => decide ((getSlice s i).miss ≠ []) then wait s
    else match writeBack ns s with
      | (s1, true) =>
        let s2 := ns.foldl (fun s i => (sliceLines s i).foldl (fun s e => dropLine e.1 (l1DropAll e.1 none s)) s) s1
        controllerOff n (go s2)
      | (s1, false) => wait s1

/-- A group wakes: a compute rail waits for headroom, a comb rail ramps at once. -/
def wakeGroup (n g : Nat) (s : State) : State :=
  if g = 0 then modFp s n fun f => { f with waiting := true }
  else modFp s n fun f => { f with ramps := f.ramps ++ [(g, true)] }

/-- A request of sleep or wake of a group: it waits for the end of a ramp, and applies when the group is not so already. -/
def askGroup (n g : Nat) (sleep : Bool) (s : State) : State :=
  let f := getFp s n
  if ramping f g then modFp s n fun f => { f with pend := f.pend.filter (fun r => r.1 != g) ++ [(g, sleep)] }
  else
    let s1 := modFp s n fun f => { f with pend := f.pend.filter fun r => r.1 != g }
    if sleep then
      if groupSt f g = .on then sleepGroup n g s1
      else if g = 0 ∧ f.waiting then modFp s1 n fun f => { f with waiting := false } else s1
    else if groupSt f g = .asleep ∧ !(g = 0 ∧ f.waiting) then wakeGroup n g s1 else s1

/-- Sleeps that waited for a held line are asked for again. -/
def retrySleep (s : State) : State :=
  if frozen s then s else
    s.pwr.fps.foldl (fun s e => e.2.pend.foldl (fun s r => if ramping (getFp s e.1) r.1 then s else askGroup e.1 r.1 r.2 s) s) s

/-- A write of PWR_FP_CTL (R427): compute sleep is refused while a core of the footprint is not in EMPTY. -/
def writeFpCtl (n : Nat) (v : Word32) (s : State) : State :=
  let busy := (List.range 50).any fun r => decide ((getCore s (50 * n + r)).st ≠ .empty)
  if v.getLsbD 0 && decide ((getFp s n).compute = .on) && busy then refuse s
  else if s.pwr.st ≠ .on then written (modFp s n fun f => { f with ctl := v.truncate 3 })
  else
    written ([0, 1, 2].foldl (fun s g => askGroup n g (v.getLsbD g) s) (modFp s n fun f => { f with ctl := v.truncate 3 }))

/-- A write of PWR_FP_CTL with one bit as asked and the others as they stand. -/
def askBit (by_ : By) (n g : Nat) (sleep : Bool) (s : State) : State :=
  ctl by_ false 0 n 64 (fun s =>
    writeFpCtl n (BitVec.ofNat 32 (setField (getFp s n).ctl.toNat (b2n sleep) 1 g)) s) s

/-- SLEEP_COMPUTE (R427). -/
def execSleepCompute (by_ : By) (n : RegionNo) (sleep : Bool) (s : State) : Out := .next (askBit by_ n.val 0 sleep s)
/-- SLEEP_COMB0 (R427). -/
def execSleepComb0 (by_ : By) (n : RegionNo) (sleep : Bool) (s : State) : Out := .next (askBit by_ n.val 1 sleep s)
/-- SLEEP_COMB1 (R427). -/
def execSleepComb1 (by_ : By) (n : RegionNo) (sleep : Bool) (s : State) : Out := .next (askBit by_ n.val 2 sleep s)

/-- A compute ramp starts. -/
def computeRamp (n : Nat) (s : State) : State := modFp s n fun f => { f with waiting := false, ramps := f.ramps ++ [(0, true)] }

/-- HEADROOM_RECHECK (R428): `sum` is that of the 24 compute-rail currents in 10 mA (log 11). -/
def execHeadroomRecheck (n : RegionNo) (sum : Nat) (s : State) : Out :=
  .next (
    if frozen s || !(getFp s n.val).waiting then s
    else if 100 * s.pwr.railLimit.toNat ≥ sum + 100 * (40 + s.pwr.inrush.toNat) then computeRamp n.val s
    else s)

/-- The footprints that share an edge with one in the grid of four bands of six (R17). -/
def neighbours (n : Nat) : List Nat :=
  (if n ≥ 6 then [n - 6] else []) ++ (if n % 6 > 0 then [n - 1] else []) ++ (if n % 6 < 5 then [n + 1] else [])
    ++ (if n < 18 then [n + 6] else [])

/-- A footprint's step rises by one, up to 16. -/
def raiseStep (n : Nat) (s : State) : State := modFp s n fun f => { f with step := min 16 (f.step + 1) }

/-- HEADROOM_TIMEOUT (R428). -/
def execHeadroomTimeout (n : RegionNo) (s : State) : Out :=
  .next (
    if frozen s || !(getFp s n.val).waiting then s
    else
      let s1 := (neighbours n.val).foldl (fun s i => raiseStep i s) s
      computeRamp n.val (modFp s1 n.val fun f => { f with cause := f.cause ||| 16 }))

/-- A core site returns to power (R442, R444). -/
def coreReturns (n : Nat) (s : State) : State := (List.range 50).foldl (fun s r =>
    if (siteOf s (50 * n + r)).isSome then resetCoreNow (50 * n + r) s else s) s

/-- A region controller's generation advances with its power-up (R442). -/
def bumpController (n : Nat) (s : State) : State :=
  { s with pwr := { s.pwr with rgnGen := tblMod 0 s.pwr.rgnGen n fun g => g + 1 } }

/-- A comb group returns to power: its slices with the wake sweep running, and the region controller with the first of the two
groups (R424, R442, R444). -/
def combReturns (n g : Nat) (s : State) : State :=
  let dark : Bool := !(decide ((getFp s n).comb0 = .on) || decide ((getFp s n).comb1 = .on))
  let s1 := setGroup n g .on s
  let s2 := (groupSlices n (g - 1)).foldl (fun s i => if sliceGood s i then wakeSlice i (modSlice s i fun x => { x with lost := false }) else s) s1
  if dark then bumpController n (resetController n s2) else s2

/-- RAMP_END (R428, R429): the group is on, or off; a request that waited applies now. -/
def execRampEnd (n : RegionNo) (g : Fin 3) (s : State) : Out :=
  .next (
    let f := getFp s n.val
    match f.ramps.find? fun r => r.1 == g.val with
    | none => s
    | some r =>
      if frozen s then s else
      let s1 := modFp s n.val fun f => { f with ramps := f.ramps.filter fun x => x.1 != g.val }
      let s2 := if r.2 then
          (if g.val = 0 then coreReturns n.val (modFp (setGroup n.val 0 .on s1) n.val fun f => { f with step := floorStep f })
           else combReturns n.val g.val s1)
        else s1
      match f.pend.find? fun x => x.1 == g.val with
      | some x => askGroup n.val g.val x.2 (modFp s2 n.val fun f => { f with pend := f.pend.filter fun y => y.1 != g.val })
      | none => s2)

/-! ### Standby and currents (R430, R431) -/

/-- STANDBY_ENTRY (R430, R514, R517): PWR_EN falls. -/
def execStandbyEntry (s : State) : Out :=
  .next (
    let s1 := { s with pins := { s.pins with pwrEn := false } }
    if s.pwr.st = .on then enterStandby s1 else s1)

/-- STANDBY_EXIT (R430, R514): PWR_EN rises; a retaining standby ends by a warm reset, but for one after a crystal trip. -/
def execStandbyExit (s : State) : Out :=
  .next (
    let s1 := { s with pins := { s.pins with pwrEn := true } }
    if s.pwr.st = .standby ∧ !s.pwr.xtalHold then warmReset 2 0x10 s1 else s1)

/-- CURRENT_SAMPLE (R431): the 1 ms means by domain, in 10 mA. -/
def execCurrentSample (cur : List (Fin 90 × BitVec 20)) (s : State) : Out :=
  .next (
    if !(mpUp s) then s
    else { s with pwr := { s.pwr with cur := cur.foldl (fun t e => tblPut t e.1.val e.2) s.pwr.cur } })

/-! ### Temperature (R432 to R439) -/

/-- A sensor's number. -/
def sensorNo : SensorId → Nat
  | .tower l n => 24 * l.val + n.val
  | .linkDie d => 96 + d.val
  | .stack st => 100 + st.val

/-- The control-space block of a sensor: layer, region and block. -/
def sensorBlock : SensorId → Nat × Nat × Nat
  | .tower l n => (l.val, n.val, 65)
  | .linkDie d => (4 + d.val, 31, 64)
  | .stack st => (0, 24 + st.val / 3, st.val % 3)

/-- Source of a sensor's events. -/
def sensorSrc (x : SensorId) : Nat := match sensorBlock x with | (l, r, b) => blockSrc l r b

/-- THM_TEMP. -/
def thmTempWord (x : Sensor) : Word32 :=
  BitVec.ofNat 32 (b2n x.valid * 2 ^ 31 + b2n x.busy * 2 ^ 30 + x.seq.toNat * 2 ^ 16 + x.temp.toNat)

/-- A read of THM_TEMP: the last conversion, and a new one is started (R433). -/
def readTemp (i : Nat) (s : State) : State :=
  readAs (thmTempWord (getSensor s i)) (modSensor s i fun x => { x with busy := true })

/-- THM_TEMP_READ (R433): of a sensor with a register; a stack's temperature is HBM_TEMP's. -/
def execThmTempRead (by_ : By) (x : SensorId) (s : State) : Out :=
  .next (match x, sensorBlock x with
    | .stack _, _ => s
    | _, (l, r, b) => ctl by_ true l r b (readTemp (sensorNo x)) s)

/-- CONVERSION_COMPLETE (R433). -/
def execConversionComplete (x : SensorId) (temp : BitVec 16) (s : State) : Out :=
  .next (
    if s.pins.alwaysOn && (getSensor s (sensorNo x)).busy then
      modSensor s (sensorNo x) fun k => { k with busy := false, valid := true, seq := k.seq + 1, temp }
    else s)

/-- Whether a footprint's throttle input is driven: by a tower sensor's comparator, or by an estimate in its place. -/
def throttled (s : State) (n : Nat) : Bool :=
  (List.range 4).any fun l => (getSensor s (24 * l + n)).throttle || (getSensor s (24 * l + n)).estThrottle

/-- A warning: the cause bit and an event (R434). -/
def warn (x : SensorId) (s : State) : State :=
  logEvent Config.warningEvent (sensorSrc x) 0 (modSensor s (sensorNo x) fun k => { k with cause := k.cause ||| 1 })

/-- A throttle input begins to be driven: the step rises by one, unless another sensor has driven it already (R435). -/
def driveThrottle (n : Nat) (before : Bool) (s : State) : State := if before then s else raiseStep n s

/-- COMPARATOR_TRIP (R434 to R436). -/
def execComparatorTrip (x : SensorId) (th : Threshold) (s : State) : Out :=
  .next (
    let i := sensorNo x
    if !s.pins.alwaysOn then s
    else match th with
    | .warning => if (getSensor s i).warning then s else warn x (modSensor s i fun k => { k with warning := true })
    | .throttle =>
      if (getSensor s i).throttle then s
      else match x with
        | .tower _ n => driveThrottle n.val (throttled s n.val) (modSensor s i fun k => { k with throttle := true, cause := k.cause ||| 2 })
        | .linkDie _ => logEvent Config.warningEvent (sensorSrc x) 0 (modSensor s i fun k => { k with throttle := true, cause := k.cause ||| 2 })
        | .stack _ => s
    | .shutdown => thermalShutdown (modSensor s i fun k => { k with shutdown := true }))

/-- COMPARATOR_RELEASE (R434). -/
def execComparatorRelease (x : SensorId) (th : Threshold) (s : State) : Out :=
  .next (
    if !s.pins.alwaysOn then s
    else modSensor s (sensorNo x) fun k =>
      match th with
      | .warning => { k with warning := false }
      | .throttle => { k with throttle := false }
      | .shutdown => { k with shutdown := false })

/-- THROTTLE_STEP_RAISE (R435): another millisecond with the input driven. -/
def execThrottleStepRaise (n : RegionNo) (s : State) : Out :=
  .next (if throttled s n.val && !(frozen s) then raiseStep n.val s else s)

/-- THROTTLE_STEP_FALL (R435): 10 ms have passed; `below` when all four sensors stayed below 100 °C (log 11). -/
def execThrottleStepFall (n : RegionNo) (below : Bool) (s : State) : Out :=
  .next (
    if throttled s n.val || !below || frozen s then s
    else modFp s n.val fun f => { f with step := max (floorStep f) (f.step - 1) })

/-- A write of THM_GLB_CTL (R437, R451): shutdown from MP and the debug port, release through the management port. -/
def writeThmCtl (by_ : By) (v : Word32) (s : State) : State :=
  if isHost by_ || (v.getLsbD 0 && decide (by_ ≠ .mp)) then refuse s
  else
    let s1 := if v.getLsbD 0 then { s with thm := { s.thm with held := false } } else s
    written (if v.getLsbD 1 then thermalShutdown s1 else s1)

/-- THERMAL_SHUTDOWN (R436): a write of THM_GLB_CTL with shutdown. -/
def execThermalShutdown (by_ : By) (v : Word32) (s : State) : Out :=
  .next (ctlGlobal by_ false 0 133 (writeThmCtl by_ (v ||| 2)) s)

/-- THERMAL_RELEASE (R437): a write of THM_GLB_CTL with release. -/
def execThermalRelease (by_ : By) (v : Word32) (s : State) : Out :=
  .next (ctlGlobal by_ false 0 133 (writeThmCtl by_ (v ||| 1)) s)

/-- THERMAL_RESTART (R437): every tower and link-die sensor has read below 85 °C for 1 s. -/
def execThermalRestart (s : State) : Out :=
  .next (
    if s.pwr.st ≠ .thermalOff ∨ s.thm.held then s
    else
      let now := nowMs s
      logEvent 0x107 (blockSrc 0 31 133) 0 (coldReset 2 0x04 { s with thm := { s.thm with restarts := (now :: s.thm.restarts).take 3 } }))

/-! ### Cross-check and wear (R438 to R441) -/

/-- A value in use in 0.00001 °C: the reading, or the estimate once the sensor is distrusted. -/
def inUseTemp (x : Sensor) : Int := if x.distrusted then x.est else toSigned 16 x.temp.toNat * 6250

/-- T_est in 0.00001 °C from the values above and below, the power in mW and the current in 10 mA (R438). -/
def estimate (s : State) (up down : Int) (p i : Nat) : Int :=
  (up + down) / 2 + (s.thm.thetaC.toNat * p + s.thm.thetaX.toNat * i : Nat)

/-- The outcome of one comb sensor's check against an estimate (R439). -/
def judgeSensor (layer : Fin 4) (n : RegionNo) (est : Int) (s : State) : State :=
  let i := 24 * layer.val + n.val
  let x := getSensor s i
  let dev := if est > toSigned 16 x.temp.toNat * 6250 + 800000 then x.dev + 1 else 0
  let newly := !x.distrusted && decide (dev ≥ 3)
  let s1 := modSensor s i fun k => { k with est, dev, distrusted := k.distrusted || newly, cause := if newly then k.cause ||| 4 else k.cause }
  let s2 := if newly then logEvent 0x104 (sensorSrc (.tower layer n)) 0 s1 else s1
  if !(x.distrusted || newly) then s2
  else
    let wasWarn := x.estWarning
    let warnNow := if est ≥ 9500000 then true else if est < 9000000 then false else wasWarn
    let thrNow := if est ≥ 10500000 then true else if est < 10000000 then false else x.estThrottle
    let before := throttled s2 n.val
    let s3 := modSensor s2 i fun k => { k with estWarning := warnNow, estThrottle := thrNow, cause := if thrNow && !k.estThrottle then k.cause ||| 2 else k.cause }
    let s4 := if warnNow && !wasWarn then warn (.tower layer n) s3 else s3
    let s5 := if thrNow && !x.estThrottle then driveThrottle n.val before s4 else s4
    if est ≥ 12000000 then thermalShutdown s5 else s5

/-- Whether every tower sensor of a footprint has a reading. -/
def sensorsValid (s : State) (n : Nat) : Bool := (List.range 4).all fun l => (getSensor s (24 * l + n)).valid

/-- The check of one footprint's comb sensors (R438): with both distrusted, each estimate uses the other's from the check
before. -/
def checkFootprint (l : FpLoad) (s : State) : State :=
  let n := l.n.val
  if !(sensorsValid s n) then s else
  let up := inUseTemp (getSensor s (72 + n))
  let down := inUseTemp (getSensor s n)
  let c0 := getSensor s (24 + n)
  let c1 := getSensor s (48 + n)
  let e0 (mid : Int) := estimate s mid down l.comb0 l.compute
  let e1 (mid : Int) := estimate s up mid l.comb1 l.compute
  let both := c0.distrusted && c1.distrusted
  let est0 := if c1.distrusted && !both then e0 (e1 (inUseTemp c0)) else e0 (inUseTemp c1)
  let est1 := if c0.distrusted && !both then e1 (e0 (inUseTemp c1)) else e1 (inUseTemp c0)
  judgeSensor 2 l.n est1 (judgeSensor 1 l.n est0 s)

/-- The temperature of an interface: 0 upper, 1 middle, 2 lower (R440). -/
def interfaceTemp (s : State) (i : Nat) : Option Int :=
  ((List.range 24).filter fun n => sensorsValid s n).foldl (fun m n =>
    let t := (inUseTemp (getSensor s (24 * (3 - i) + n)) + inUseTemp (getSensor s (24 * (2 - i) + n))) / 2
    match m with | some x => some (max x t) | none => some t) none

/-- The cycle counter of R440; temperatures in 0.00001 °C. -/
def wearStep (t : Int) (w : Wear) : Wear :=
  let w1 := if w.rising && decide (t > w.peak) then { w with peak := t } else w
  let w2 := if w1.rising && decide (t < w1.peak - 4000000) then { w1 with rising := false, trough := t } else w1
  let w3 := if !w2.rising && decide (t < w2.trough) then { w2 with trough := t } else w2
  if !w3.rising && decide (t > w3.trough + 4000000) then { w3 with rising := true, peak := t, count := w3.count + 1 } else w3

/-- Wear of an interface. -/
def getWear (s : State) (i : Nat) : Wear := tblGet {} s.thm.wear i

/-- THERMAL_CROSS_CHECK (R438 to R440): every footprint's comb sensors, and a reading for each bonded interface. -/
def execThermalCrossCheck (loads : List FpLoad) (s : State) : Out :=
  .next (
    if !(mpUp s) then s
    else
      let s1 := loads.foldl (fun s l => checkFootprint l s) s
      [0, 1, 2].foldl (fun s i =>
        match interfaceTemp s i with
        | some t => { s with thm := { s.thm with wear := tblPut s.thm.wear i (wearStep t (getWear s i)) } }
        | none => s) s1)

/-- WEAR_SAVE (R440). -/
def execWearSave (s : State) : Out := .next (if nvmRuns s then { s with thm := { s.thm with wearSaved := s.thm.wear } } else s)

end Sys2Proof.Machine
end

