-- ==== Sys2Proof/Machine/Boot.lean ====
section
/-! DEFINITION. The configuration block, firmware slots, the cadastre and start-up (R391 to R410, R456 to R459). -/
namespace Sys2Proof.Machine

/-- Changes the start-up state. -/
def modBoot (s : State) (f : Boot → Boot) : State := { s with boot := f s.boot }
/-- Control-space block of the start-up registers. -/
def bootSrc : Nat := blockSrc 0 31 131

/-! ### The configuration block (R393 to R395) -/

/-- `n` bytes of a configuration block from an offset, as a number. -/
def cfgField (b : BitVec 2048) (off n : Nat) : Nat := bitsOf b.toNat (8 * (off + n) - 1) (8 * off)
/-- Sequence number. -/
def cfgSeq (b : BitVec 2048) : Nat := cfgField b 8 8

/-- Whether a block is well formed: magic, version, digest, reserved fields. -/
def cfgForm (b : BitVec 2048) : Bool :=
  cfgField b 0 4 == 0x47464344 && cfgField b 4 2 == 1 && cfgField b 6 2 == 0 && cfgField b 0x16 2 < 4
    && cfgField b 0x1E 2 == 0 && cfgField b 0x26 2 == 0 && cfgField b 0x2E 1 < 8 && cfgField b 0x80 128 == 0
    && BitVec.ofNat 512 (cfgField b 0x40 64) == sha3 (leBytes 64 (b.toNat % 2 ^ 512))

/-- Whether the signature of a block verifies. -/
def cfgSigned (s : State) (c : CfgCopy) : Bool := Config.verify "druov-cfg" (cfgKey s) (leBytes 256 c.block.toNat) c.sig

/-- Whether a copy is valid. -/
def cfgValid (s : State) (c : CfgCopy) : Bool := cfgForm c.block && cfgSigned s c

/-- The block that a cold start uses: the valid copy with the higher sequence number. -/
def cfgChoice (s : State) : Option (BitVec 2048) :=
  let ok (c : Option CfgCopy) : Option (BitVec 2048) := match c with | some x => if cfgValid s x then some x.block else none | none => none
  match ok s.boot.cfgA, ok s.boot.cfgB with
  | some a, some b => if cfgSeq b > cfgSeq a then some b else some a
  | some a, none => some a
  | none, b => b

/-- The block in use, all zero when the defaults apply. -/
def cfgInUse (s : State) : BitVec 2048 := s.boot.cfg.getD 0

/-- Whether the full-training flag of the block in use counts for this start. -/
def cfgFull (s : State) : Bool :=
  match s.boot.cfg with
  | some b => (cfgField b 0x16 2).testBit 0 && s.boot.consumed != some (BitVec.ofNat 64 (cfgSeq b))
  | none => false

/-- A cold start reads the block and puts its values in force (R294 to R296, R327, R394, R395). -/
def readCfg (s : State) : State :=
  let b := cfgChoice s
  let s1 := modBoot s fun x => { x with cfg := b }
  let s2 := if b.isNone then logEvent 0x10E bootSrc 0 s1 else s1
  let v := b.getD 0
  let gib := cfgField v 0x10 1
  let okCarve := decide (gib = 0) || (decide (4 ≤ gib) && decide (gib ≤ 64))
  let s3 := modBoot s2 fun x => { x with carve := if gib = 0 ∨ !okCarve then 16 else gib }
  let s4 := if okCarve then s3 else logEvent 0x10E bootSrc 0 s3
  let w := cfgField v 0x11 1
  let okWin := w == 0 || windowOk w (cfgField v 0x12 2)
  let s5 := { s4 with hbm := { s4.hbm with winSize := if okWin then w else 0, winBase := if okWin && w != 0 then cfgField v 0x12 2 else 0 } }
  if okWin then s5 else logEvent 0x10E bootSrc 1 s5

/-! ### Firmware slots (R456 to R460) -/

/-- The bytes of a slot. -/
def slotMem (s : State) (b : Bool) : ByteMem := if b then s.sec.slotB else s.sec.slotA
/-- `n` bytes of a slot; an erased byte reads 0xFF. -/
def fwBytes (s : State) (b : Bool) (off n : Nat) : List Byte := (memBytes (slotMem s b) off n).map fun x => ~~~x
/-- Replaces a slot's bytes. -/
def setSlot (s : State) (b : Bool) (m : ByteMem) : State :=
  modSec s fun x => if b then { x with slotB := m } else { x with slotA := m }
/-- Programs bytes of a slot: a program clears bits and never sets one. -/
def slotProgram (s : State) (b : Bool) (off : Nat) (bs : List Byte) : State :=
  setSlot s b (bs.zipIdx.foldl (fun m x => memPut m (off + x.2) (memGet m (off + x.2) ||| ~~~x.1)) (slotMem s b))

/-- Component `i` of a slot header: type, offset, length, digest. -/
def component (h : List Byte) (i : Nat) : Nat × Nat × Nat × BitVec 512 :=
  let a := 0x40 + 96 * i
  (bytesAt h a 4, bytesAt h (a + 8) 8, bytesAt h (a + 16) 8, BitVec.ofNat 512 (bytesAt h (a + 32) 64))
/-- The component of a type. -/
def componentOf (h : List Byte) (t : Nat) : Option (Nat × Nat × Nat × BitVec 512) :=
  ((List.range 8).map fun i => component h i).find? fun c => c.1 == t

/-- Bytes of a slot. -/
def slotSize : Nat := 48 * 2 ^ 20

/-- Whether the component table keeps R456 and R457. -/
def componentsOk (h : List Byte) : Bool :=
  let cs := (List.range 8).map fun i => component h i
  let used := cs.filter fun c => c.1 != 0
  let blank (i : Nat) : Bool := bytesAt h (0x40 + 96 * i) 96 == 0
  ((List.range 8).all fun i => bytesAt h (0x44 + 96 * i) 4 == 0 && bytesAt h (0x58 + 96 * i) 8 == 0
      && ((component h i).1 != 0 || blank i))
    && used.length == 5 && ([1, 2, 3, 4, 5].all fun t => used.any fun c => c.1 == t)
    && (used.all fun c => c.2.1 % 4096 == 0 && decide (0x4000 ≤ c.2.1) && decide (c.2.1 + c.2.2.1 ≤ slotSize))
    && (used.zipIdx.all fun c => used.zipIdx.all fun d =>
        c.2 == d.2 || decide (c.1.2.1 + c.1.2.2.1 ≤ d.1.2.1) || decide (d.1.2.1 + d.1.2.2.1 ≤ c.1.2.1))

/-- Sequence number of a slot header. -/
def slotSeq (h : List Byte) : Nat := bytesAt h 8 8
/-- Security version. -/
def slotSvn (h : List Byte) : Nat := bytesAt h 16 8
/-- Hash of the signer's key. -/
def slotKey (h : List Byte) : BitVec 512 := sha3 ((h.drop 0x400).take 2592)

/-- Whether a header of 0x3000 bytes passes R457 but for the digests of its components. -/
def headerSigned (s : State) (h : List Byte) : Bool :=
  let signer := bytesAt h 0x18 1
  let kh := slotKey h
  bytesAt h 0 4 == 0x57465644 && bytesAt h 4 2 == 1 && bytesAt h 6 2 == 0 && decide (bytesAt h 0x19 1 < 2)
    && bytesAt h 0x1A 38 == 0 && bytesAt h 0x340 192 == 0 && componentsOk h
    && (if signer = 1 then isOwnerKey s kh else signer == 0 && isRootKey s kh && !(s.sec.otp.policy.getLsbD 0))
    && Config.verify "druov-fw" kh (h.take 0x400) ((h.drop 0xE20).take 4627)
    && decide (slotSvn h ≥ arbValue s.sec.otp signer)

/-- A slot's header. -/
def slotHeader (s : State) (b : Bool) : List Byte := fwBytes s b 0 0x3000

/-- Whether the component of a type matches its digest. -/
def digestOk (s : State) (b : Bool) (t : Nat) : Bool :=
  match componentOf (slotHeader s b) t with
  | some c => sha3 (fwBytes s b c.2.1 c.2.2.1) == c.2.2.2
  | none => false

/-- Digest of the component of a type, as the header has it. -/
def digestOf (s : State) (b : Bool) (t : Nat) : BitVec 512 :=
  match componentOf (slotHeader s b) t with | some c => c.2.2.2 | none => 0

/-- Whether a slot is valid (R457). -/
def slotValid (s : State) (b : Bool) : Bool := headerSigned s (slotHeader s b) && digestOk s b 1

/-- Trial word and confirm word. -/
def trialWord (s : State) (b : Bool) : Nat := leNat (fwBytes s b 0x3000 8)
/-- Confirm word. -/
def confirmWord (s : State) (b : Bool) : Nat := leNat (fwBytes s b 0x3008 8)

/-- Whether a slot is rejected (R457). -/
def slotRejected (s : State) (b : Bool) : Bool :=
  let t := trialWord s b
  t == 0 || (confirmWord s b != 0 && decide (64 - popCount 64 t ≥ 3))

/-- The slot that the ROM runs (R458). -/
def slotChoice (s : State) : Option Bool :=
  let ok (b : Bool) : Bool := slotValid s b && !(slotRejected s b)
  if ok false && ok true then some (decide (slotSeq (slotHeader s true) > slotSeq (slotHeader s false)))
  else if ok false then some false else if ok true then some true else none

/-- Lowest one-bit of a number below 2^64. -/
def lowestOne (x : Nat) : Nat := ((List.range 64).find? fun i => x.testBit i).getD 64

/-- Counts a trial of an unconfirmed slot. -/
def countTrial (b : Bool) (s : State) : State :=
  if confirmWord s b = 0 then s
  else slotProgram s b 0x3000 (leBytes 8 (trialWord s b - 2 ^ lowestOne (trialWord s b)))

/-- A component fails its digest when it is used: the slot is spent and a cold reset follows (R458). -/
def slotSpent (s : State) : State :=
  coldReset 2 0x03 (slotProgram (secCause 1 s) s.sec.slot 0x3000 (List.replicate 8 0))

/-- MP confirms the slot that booted, and raises its signer's counter where the slot asks for it (R458, R459). -/
def confirmSlot (reads : List Word64) (s : State) : State :=
  let b := s.sec.slot
  let h := slotHeader s b
  let c := bytesAt h 0x18 1
  let s1 := slotProgram s b 0x3008 (List.replicate 8 0)
  if bytesAt h 0x19 1 % 2 = 1 ∧ slotSvn h > arbValue s.sec.otp c then arbRaise c (BitVec.ofNat 64 (slotSvn h)) reads s1 else s1

/-! ### The cadastre (R402 to R409) -/

/-- Whether a unit is bad: by the fuse map, or by a learned entry (R405). -/
def unitBad (s : State) (kind i : Nat) : Bool :=
  s.boot.fuseBad.any (fun x => x == (kind, i)) || s.boot.learned.any fun e => e.kind == kind && e.index == i && e.bad

/-- The bad units of a kind in rising order. -/
def badUnits (s : State) (kind n : Nat) : List Nat := (List.range n).filter fun i => unitBad s kind i

/-- Counts up to `m`. -/
def satAt (m x : Nat) : Nat := if x ≥ m then m else x + 1

/-- A unit fails a test: its entry is bad and counts the failure (R404, R405). -/
def recordFail (kind i : Nat) (s : State) : State :=
  if s.boot.learned.any fun e => e.kind == kind && e.index == i then
    modBoot s fun b => { b with learned := b.learned.map fun e =>
      if e.kind = kind ∧ e.index = i then { e with bad := true, fails := satAt 0xFFFF e.fails } else e }
  else modBoot s fun b => { b with learned := b.learned ++ [{ kind, bad := true, origin := 0, index := i, fails := 1 }] }

/-- Whether an entry is due a targeted test (R404). -/
def testDue (e : Learned) : Bool := e.suspect && !e.bad && !e.cleared

/-- Suspect units of a kind that are not among the failing ones have passed (R404). -/
def passSuspects (kind : Nat) (failing : List Nat) (s : State) : State :=
  modBoot s fun b => { b with learned := b.learned.map fun e =>
    if e.kind == kind && testDue e && !(failing.contains e.index) then
      ({ e with passes := satAt 255 e.passes, cleared := decide (e.passes + 1 ≥ 3) } : Learned)
    else e }

/-- The tests of a kind: failures recorded, passes of suspects counted. -/
def testUnits (kind : Nat) (failing : List Nat) (s : State) : State :=
  failing.foldl (fun s i => recordFail kind i s) (passSuspects kind failing s)

/-- Fuse-bad units of a kind that could be powered and passed (R406). -/
def fusePasses (s : State) (kind : Nat) (failing : List Nat) : Nat :=
  (s.boot.fuseBad.filter fun x => x.1 == kind && !(s.boot.fuseIsolated.contains x) && !(failing.contains x.2)).length

/-- Slices with more remap entries than the table holds are bad (R407). -/
def overfullSlices (s : State) : List Nat :=
  (List.range 2592).filter fun n => decide ((s.boot.learned.filter fun e => (e.kind == 3 || e.kind == 4) && e.index == n).length > 16)

/-- Descent ports that their neighbour serves (R407). -/
def servedPorts (s : State) : List Nat := badUnits s 5 96

/-- Whether the device is degraded at the end of a start (R410). -/
def isDegraded (s : State) : Bool :=
  ((List.range 24).any fun n => decide ((s.boot.badSites.filter fun b => b / 54 = n).length > 4))
    || decide (goodSlices s < 2560) || s.boot.badPorts != [] || s.boot.badHosts != []
    || (List.range 24).any fun n => decide ((getFp s n).compute ≠ .on) || decide ((getFp s n).comb0 ≠ .on) || decide ((getFp s n).comb1 ≠ .on)

/-- Whether any logical core is present (R397). -/
def anyCore (s : State) : Bool := decide (s.boot.badSites.length < 1296)

/-! ### Returned devices (R468) -/

/-- Steps 2 to 5 of the purge for RETURNED. -/
def purgeReturned (miss : OtpMiss) (s : State) : State :=
  let s1 := purgeCustomer (program { hash := ones512 } miss s)
  let ownerSlot (b : Bool) : Bool := bytesAt (slotHeader s1 b) 0 4 == 0x57465644 && bytesAt (slotHeader s1 b) 0x18 1 == 1
  let s2 := modSec s1 fun x => { x with slotA := if ownerSlot false then {} else x.slotA, slotB := if ownerSlot true then {} else x.slotB }
  let s3 := { s2 with
    boot := { s2.boot with cfgA := none, cfgB := none }
    net := { s2.net with links := s2.net.links.map fun e => (e.1, { e.2 with saved := none }) }
    mgt := { s2.mgt with nvm := [] } }
  program { purgeDone := true } miss s3

/-! ### The steps of a start (R396 to R399) -/

/-- The state of a start: it goes on, or it has ended with the state given. -/
inductive Start
  | on (s : State)
  | stop (s : State)

/-- Goes on with a start. -/
def Start.then_ (x : Start) (f : State → Start) : Start :=
  match x with
  | .on s => f s
  | .stop s => .stop s

/-- What a start leaves. -/
def Start.state : Start → State
  | .on s => s
  | .stop s => s

/-- Start-up ends FAILED with a reason, and is logged (R397, R489). -/
def startFails (reason : Nat) (s : State) : Start :=
  .stop (logEvent 0x10B bootSrc reason (modBoot s fun b => { b with failed := true, reason := BitVec.ofNat 8 reason, step := 10 }))

/-- Start-up ends FAILED at the stacks: the detail names them, and their trained bits stay clear (R294; log 11). -/
def stacksFail (bad : List StackNo) (s : State) : Start :=
  let mask := (((List.range 12).filter fun i => bad.any fun x => x.val == i).map fun i => 2 ^ i).sum
  .stop (logEvent 0x10B bootSrc (4 + 256 * mask) (modBoot s fun b => { b with failed := true, reason := 4, step := 10 }))

/-- The step in progress. -/
def atStep (n : Nat) (s : State) : State := modBoot s fun b => { b with step := BitVec.ofNat 4 n }

/-- Whether the start in progress is a warm one. -/
def isWarm (s : State) : Bool := decide (s.boot.kind = 2)

/-- Powers a footprint: its groups as the cadastre has them (R426). -/
def powerFootprint (s : State) (n : Nat) : State :=
  let f := getFp s n
  modFp s n fun _ => { vBase := f.vBase, vfault := isWarm s && f.vfault, step := if isWarm s && f.vfault then 5 else 0
                       compute := if deadOf s n 0 ≥ 2 then .off else .on
                       comb0 := if deadOf s n 1 ≥ 1 then .off else .on, comb1 := if deadOf s n 2 ≥ 1 then .off else .on
                       failed := if isWarm s then f.failed else [], cause := if isWarm s then f.cause else 0
                       causeMask := if isWarm s then f.causeMask else 0x10 }

/-- Step 1: the learned list as it stands, rails, clocks, footprints. -/
def step1 (r : StartRun) (s : State) : Start :=
  let warm := (s.rst.cause.toNat >>> 8) % 16 == 1
  let s1 := modBoot s fun b => { b with
    gen := if b.gen = 255 then 1 else b.gen + 1, ready := false, degraded := false, failed := false, hbmKept := false, reason := 0
    time := 0, step := 1, kind := if warm then 2 else 0
    learnedLost := if warm then b.learnedLost else r.learnedLost
    learned := if warm then b.learned else if r.learnedLost then [] else
      b.learnedNvm.filter fun e => !(b.removals.contains (e.kind, e.index, e.word))
    removals := if warm then b.removals else [] }
  let s2 := if r.learnedLost && !warm then logEvent 0x10E bootSrc 0 s1 else s1
  if !r.rails then startFails 0x01 s2
  else
    let s3 := testUnits 7 (r.phases.map fun p => p.val) s2
    let s4 := modBoot s3 fun b => { b with badPhases := badUnits s3 7 288 }
    let s5 := { s4 with
      pwr := { s4.pwr with st := .on, xtalHold := false }
      pins := { s4.pins with pwrGood := true }
      clk := { s4.clk with xtalOk := true, rcTrimmed := true, pllLock := true, datum := true, stopped := false } }
    let s6 := (List.range 24).foldl (fun s n => powerFootprint s n) s5
    .on ((List.range 24).foldl (fun s n => bumpController n s) s6)

/-- Step 2: the boot ROM runs a firmware slot, measures, and derives the identity; MP reads the configuration (R458, R462, R463,
R394). -/
def step2 (r : StartRun) (s : State) : Start :=
  let s0 := atStep 2 s
  let s1 := if r.entropy then takeFree (modSec s0 fun x => { x with rngValid := true, rngFail := false, rngBlock := s0.free })
    else logEvent 0x111 (blockSrc 0 31 147) 0 (secCause 8 (modSec s0 fun x => { x with rngValid := false, rngFail := true }))
  let tried (b : Bool) : Bool := bytesAt (slotHeader s1 b) 0 4 == 0x57465644
  let s2 := if [false, true].any fun b => tried b && (slotRejected s1 b || !(slotValid s1 b)) then secCause 1 s1 else s1
  match slotChoice s2 with
  | none => startFails 0x02 s2
  | some b =>
    let s3 := modSec (countTrial b s2) fun x => { x with slot := b }
    let h := slotHeader s3 b
    let s4 := extend 0 (sha3 (leBytes 64 (slotKey h).toNat ++ leBytes 8 (slotSvn h) ++ lifeByte s3 ++ leBytes 1 (b2n b))) s3
    let s5 := deriveAlias (extend 1 (digestOf s4 b 1) s4)
    let s6 := { s5 with pins := { s5.pins with alertLive := true } }
    let s7 := if isWarm s6 then s6 else readCfg s6
    let full := cfgFull s7 || s7.boot.fullNext || !s7.boot.savedHbm
    let s8 := modBoot s7 fun x => { x with kind := if isWarm s7 then 2 else if full then 1 else 0 }
    .on (extend 3 (match s8.boot.cfg with | some c => sha3 (leBytes 256 c.toNat) | none => 0) s8)

/-- Uses a component: it is measured, and must match its digest (R458, R462). -/
def useComponent (t m : Nat) (s : State) : Start :=
  if digestOk s s.sec.slot t then .on (extend m (digestOf s s.sec.slot t) s) else .stop (slotSpent s)

/-- Step 3: the base-die self-test, on a cold start (R407). A port whose loopback fails, and a host core held off, report it (R15,
R500; log 52). -/
def step3 (r : StartRun) (s : State) : Start :=
  if isWarm s then .on s else
  let s1 := testUnits 6 (r.hosts.map fun h => h.val) (testUnits 5 (r.ports.map fun p => p.val) (atStep 3 s))
  let s2 := modBoot s1 fun b => { b with
    badPorts := badUnits s1 5 96, badHosts := badUnits s1 6 16
    portCause := r.ports.map fun p => p.val, ucieCause := r.ucie.map fun d => d.val }
  let s3 := if s2.boot.badHosts.isEmpty then s2 else chipCause 2 s2
  let pair (p : Nat) : Bool := s3.boot.badPorts.contains p && s3.boot.badPorts.contains (p ^^^ 1)
  if !r.base || !r.ucie.isEmpty || s3.boot.badPorts.any pair then startFails 0x03 s3
  else if s3.boot.badHosts.length = 16 then startFails 0x05 s3
  else .on s3

/-- Step 4: the slices; a RETURNED device without purge-done is purged (R400, R407, R468). -/
def step4 (r : StartRun) (s : State) : Start :=
  let s1 := testUnits 2 (r.slices.map fun n => n.val) (atStep 4 s)
  let s2 := (overfullSlices s1).foldl (fun s n => if unitBad s 2 n then s else recordFail 2 n s) s1
  let s3 := modBoot s2 fun b => { b with badSlices := badUnits s2 2 2592 }
  let s4 := { s3 with comb := { s3.comb with
    lines := [], swept := [0, 1], split := 0, splitTo := none
    slices := (List.range 2592).map fun n => (n, { gen := (getSlice s3 n).gen + (if sliceGood s3 n then 1 else 0), remaps := remapsFrom s3 n }) } }
  .on (if lifecycle s4 = 3 ∧ s4.sec.otp.purgeDone = false then purgeReturned {} s4 else s4)

/-- Step 5: the stacks (R396, R398, R437). -/
def step5 (r : StartRun) (s : State) : Start :=
  let s1 := atStep 5 s
  if r.hot then .stop (thermalShutdown s1)
  else
    let lost := isWarm s1 && r.retrained != []
    let s2 := (List.range 12).foldl (fun s i =>
      modStack s i fun k => { k with selfRefresh := false, trained := !(r.untrained.any fun x => x.val == i) }) s1
    if r.untrained != [] then stacksFail r.untrained s2 else
    let s3 := if lost then logEvent 0x09 bootSrc 0 { s2 with hbm := { s2.hbm with mem := memLost s2.free, bad := [] }, free := s2.free + 1 } else s2
    .on (modBoot s3 fun b => { b with savedHbm := true, hbmKept := isWarm s3 && !lost })

/-- Step 6: the links that the configuration enables start, after the bypass has opened (R342, R393). -/
def step6 (s : State) : Start :=
  let s1 := atStep 6 s
  let b := cfgInUse s1
  let hold := (cfgField b 0x16 2).testBit 1
  let s2 := { s1 with net := { s1.net with devid := BitVec.ofNat 16 (cfgField b 0x14 2), bypHold := hold } }
  let s3 := if hold then s2 else { s2 with net := { s2.net with bypClosed := false, bypOpen := true } }
  .on ((List.range 48).foldl (fun s l =>
    if (cfgField b 0x18 8).testBit l then
      writeLinkCtl l (BitVec.ofNat 32 (1 + b2n ((cfgField b 0x20 8).testBit l) * 2 + b2n (s.boot.kind == 1) * 4 + 0x10000000)) s
    else s) s3)

/-- Step 7: the core sites, on a warm start the suspect ones only (R398). -/
def step7 (r : StartRun) (s : State) : Start :=
  let suspect (i : Nat) : Bool := s.boot.learned.any fun e => e.kind == 1 && e.index == i && testDue e
  let failing := (r.sites.map fun x => x.val).filter fun i => !(isWarm s) || suspect i
  .on (testUnits 1 failing (atStep 7 s))

/-- Step 8: the swarm trial, and the numbering of the logical cores (R414, R18). -/
def step8 (r : StartRun) (s : State) : Start :=
  let s1 := r.trial.foldl (fun s x => if unitBad s 1 x.val then s else recordFail 1 x.val s) (atStep 8 s)
  let s2 := modBoot s1 fun b => { b with
    badSites := badUnits s1 1 1296
    fuseOnly := if isWarm s1 then b.fuseOnly else
      BitVec.ofNat 16 (fusePasses s1 1 (r.sites.map (fun x => x.val) ++ r.trial.map fun x => x.val)
        + fusePasses s1 2 (r.slices.map fun x => x.val) + fusePasses s1 5 (r.ports.map fun x => x.val)
        + fusePasses s1 6 (r.hosts.map fun x => x.val) + fusePasses s1 7 (r.phases.map fun x => x.val)) }
  let s3 := (List.range 24).foldl (fun s n => coreReturns n s) s2
  if anyCore s3 then .on s3 else startFails 0x07 s3

/-- The runtime answers: the outcome is ready, or ready and degraded (R397, R409, R458). -/
def becomeReady (r : StartRun) (s : State) : State :=
  let s1 := confirmSlot r.arbReads s
  let changed := match s1.boot.listBefore with
    | some l => !(decide (l.map (fun e => (e.kind, e.index, e.word, e.bad)) = s1.boot.learned.map fun e => (e.kind, e.index, e.word, e.bad)))
    | none => true
  let s2 := modBoot s1 fun b => { b with
    ready := true, degraded := isDegraded s1, step := 10, time := r.ms, everReady := true, hostHeld := false
    cadChanged := changed || b.learnedLost, listBefore := some b.learned
    learnedNvm := b.learned, learnedSeq := if decide (b.learnedNvm = b.learned) then b.learnedSeq else b.learnedSeq + 1
    consumed := if cfgFull s1 && !(isWarm s1) then some (BitVec.ofNat 64 (cfgSeq (cfgInUse s1))) else b.consumed
    fullNext := if isWarm s1 then b.fullNext else false
    linux := if isWarm s1 then b.linux else some (digestOf s1 s1.sec.slot 4) }
  logEvent 0x10B bootSrc 0 s2

/-- Step 9: the host boots; until the runtime answers the start waits (R396, R398). -/
def step9 (r : StartRun) (s : State) : Start :=
  let s1 := modBoot (atStep 9 s) fun b => { b with hostHeld := false }
  let kept := isWarm s1 && r.linuxKept && s1.boot.linux.isSome && s1.boot.hbmKept
  let boots (s : State) : Start := if r.answers then .on (becomeReady r s) else .stop s
  (useComponent 3 4 s1).then_ fun s =>
    if kept then boots (extend 5 (s.boot.linux.getD 0) s) else (useComponent 4 5 s).then_ boots

/-- The start-up sequence. -/
def startUp (r : StartRun) (s : State) : State :=
  ((((((((((step1 r s).then_ (step2 r)).then_ (useComponent 2 2)).then_ (step3 r)).then_ (step4 r)).then_ (step5 r)).then_ step6).then_ (step7 r)).then_
    (useComponent 5 6)).then_ (step8 r)).then_ (step9 r) |>.state

/-- Whether start-up step 1 may begin (R430, R437, R515): a feed in use, the always-on domain ready, RESET_N high, PWR_EN high for
a cold start, and a reset behind it. -/
def mayStart (s : State) : Bool :=
  ((getFeed s 0).inUse || (getFeed s 1).inUse) && s.pins.alwaysOn && !s.pins.reset && s.pins.pwrEn && decide (s.boot.step = 0)
    && (decide (s.pwr.st = .emptyStandby) || decide (s.pwr.st = .standby)) && !s.pwr.xtalHold && !s.boot.ready

/-- START_UP (R396): steps 1 to 9, or to the first that fails. -/
def execStartUp (r : StartRun) (s : State) : Out := .next (if mayStart s then startUp r (clearAnswers s) else s)

/-- HOST_BOOT_TIMEOUT (R396): 10 s without completion of step 9. -/
def execHostBootTimeout (s : State) : Out :=
  .next (if s.boot.step = 9 ∧ s.boot.ready = false then (startFails 0x06 (modBoot s fun b => { b with hostHeld := true })).state else s)

/-- LEARNED_LIST_WRITE (R392, R403): the list is written to the NVM; a failed write is logged and tried again at the next
change. -/
def execLearnedListWrite (ok : Bool) (s : State) : Out :=
  .next (
    if !(nvmRuns s) then s
    else if ok then modBoot s fun b => { b with learnedNvm := b.learned, learnedSeq := b.learnedSeq + 1 }
    else logEvent 0x10E bootSrc 0 s)

/-! ### Pins (R513 to R517) -/

/-- RESET_N_ASSERT (R514, R517): low for 10 µs. -/
def execResetNAssert (s : State) : Out :=
  .next (
    let s1 := { s with pins := { s.pins with reset := true } }
    if s.pins.alwaysOn then coldReset 0 0x02 s1 else s1)

/-- RESET_N_RELEASE (R514). -/
def execResetNRelease (s : State) : Out := .next { s with pins := { s.pins with reset := false } }

/-- ALWAYS_ON_READY (R515): the domain is ready on the RC oscillator; the power-up is a cold reset. -/
def execAlwaysOnReady (s : State) : Out :=
  .next (
    if s.pins.alwaysOn || !((getFeed s 0).inUse || (getFeed s 1).inUse) then s
    else
      let s1 := coldReset 0 0x01 s
      { s1 with pins := { s1.pins with alwaysOn := true } })

end Sys2Proof.Machine
end

