-- ==== Sys2Proof/Machine/Array.lean ====
section
/-! DEFINITION. The matrix array: passes of MMA and CONV, their arithmetic, stream feed, checks, and ACCX (chapter 06; R57
to R59). -/
namespace Sys2Proof.Machine

/-! ### Fields -/

/-- What MMA and CONV share: formats, accumulator range, masks, addresses. -/
structure PassDesc where
  conv : Bool
  chain : Bool
  stream : Bool
  zero : Bool
  aFmt : Nat
  bFmt : Nat
  base : Nat
  rows : Nat
  aAddr : Nat
  bAddr : Nat
  asAddr : Nat
  bsAddr : Nat
  rowMask : BitVec 64
  colMask : BitVec 32
  lead : Nat
  /-- tolerance exponent t -/
  tol : Nat
  /-- passes of a CONV; 1 for MMA -/
  passes : Nat
  deriving DecidableEq, Repr

/-- Reads an MMA or CONV with what it captured (R125, R126, R140, R141). The sums with ka and kb do not wrap (log 49). -/
def passDesc (fl : Flight) : PassDesc :=
  let w := fl.word.toNat
  let d := fl.desc
  let conv := decide (wOpc fl.word = 0x21)
  if conv then
    { conv, chain := false, stream := false, zero := w.testBit 104, aFmt := bitsOf w 45 42, bFmt := bitsOf w 41 38
      base := bitsOf w 37 29, rows := dBits d 88 79 * dBits d 98 89, aAddr := dBits d 26 8 + fl.ka.toNat
      bAddr := dBits d 170 152 + fl.kb.toNat, asAddr := 0, bsAddr := dBits d 189 171
      rowMask := BitVec.ofNat 64 (dBits d 253 190), colMask := BitVec.ofNat 32 (dBits d 285 254), lead := 0
      tol := bitsOf w 18 15
      passes := dBits d 102 99 * dBits d 106 103 * dBits d 132 127 }
  else
    { conv, chain := w.testBit 107, stream := w.testBit 106, zero := w.testBit 104, aFmt := bitsOf w 45 42
      bFmt := bitsOf w 41 38, base := bitsOf w 37 29, rows := bitsOf w 28 19, aAddr := dBits d 34 16 + fl.ka.toNat
      bAddr := dBits d 53 35 + fl.kb.toNat, asAddr := dBits d 72 54, bsAddr := dBits d 91 73
      rowMask := BitVec.ofNat 64 (dBits d 155 92), colMask := BitVec.ofNat 32 (dBits d 187 156), lead := dBits d 238 235
      tol := bitsOf w 18 15
      passes := 1 }

/-- Lanes of a mode (R123). -/
def lanesOf (a : Nat) : Nat := if a = 9 ∨ a = 10 then 32 else 64
/-- Skew depth S (R128). -/
def skewDepth (a : Nat) : Nat := lanesOf a - 1
/-- K indices in a lane (R124). -/
def kPerLane (a b : Nat) : Nat := if a = 6 ∧ b = 6 then 2 else 1
/-- Blocks, and chunks, of a pass (R127). -/
def passBlocks (a b : Nat) : Nat := lanesOf a * kPerLane a b / 32

/-! ### Values (R46, R47, R57, R127) -/

/-- An operand element: a NaN, an infinity or an exact number; in integer modes the number is whole. -/
abbrev Elem := FV

/-- Element format of a code, where it is a floating-point one. -/
def codeFmt (c : Nat) : Option Fmt :=
  match c with
  | 0 => some .e4m3 | 1 => some .e5m2 | 2 => some .e4m3 | 3 => some .e5m2 | 4 => some .e3m2 | 5 => some .e2m3 | 6 => some .e2m1
  | 9 => some .bf16 | 10 => some .fp16
  | _ => none

/-- The bits of element `k` in a lane line: `j` its lane, `pair` whether two elements share a lane byte. -/
def laneBits (code : Nat) (pair : Bool) (line k : Nat) : Nat :=
  if code = 9 ∨ code = 10 then bitsOf line (16 * k + 15) (16 * k)
  else if code = 4 ∨ code = 5 then bitsOf line (6 * k + 5) (6 * k)
  else if code = 6 then (if pair then bitsOf line (4 * k + 3) (4 * k) else bitsOf line (8 * k + 3) (8 * k))
  else bitsOf line (8 * k + 7) (8 * k)

/-- An element's value before its scale, after ftz_in, and whether it was flushed. -/
def elemValue (code : Nat) (ftzIn : Bool) (bits : Nat) : Elem × Bool :=
  match codeFmt code with
  | some f => if ftzIn && f.isSubnormal bits then (.fin (bits.testBit (f.width - 1)) 0 0, true) else (f.decode bits, false)
  | none =>
    let i := toSigned 8 bits
    (.fin (decide (i < 0)) i.natAbs (if code = 7 then -6 else 0), false)

/-- Applies a scale byte: 2^(s - 127), 0xFF a NaN (R47). -/
def scaled (s : Nat) (v : Elem) : Elem :=
  if s = 255 then .nan else match v with
  | .fin n m e => .fin n m (e + (s : Int) - 127)
  | x => x

/-- What the sum of a chunk's products is. -/
structure ChunkSum where
  nan : Bool := false
  invalid : Bool := false
  pinf : Bool := false
  ninf : Bool := false
  /-- the exact sum as sum · 2^exp -/
  tot : Int := 0
  exp : Int := 0
  /-- every product so far is -0 -/
  allNeg : Bool := true
  any : Bool := false
  deriving DecidableEq, Repr

/-- Adds the product of two elements to a chunk sum (R57, R59). -/
def addProduct (c : ChunkSum) (a b : Elem) : ChunkSum :=
  let c := { c with any := true }
  match a, b with
  | .nan, _ => { c with nan := true }
  | _, .nan => { c with nan := true }
  | .inf n, .inf m => if n != m then { c with ninf := true } else { c with pinf := true }
  | .inf n, .fin m s _ => if s = 0 then { c with invalid := true } else if n != m then { c with ninf := true } else { c with pinf := true }
  | .fin m s _, .inf n => if s = 0 then { c with invalid := true } else if n != m then { c with ninf := true } else { c with pinf := true }
  | .fin n s e, .fin m t g =>
    let neg := n != m
    let r := exactAdd (decide ((c.tot : Int) < (0 : Int))) c.tot.natAbs c.exp neg (s * t) (e + g)
    { c with tot := r.1, exp := r.2, allNeg := c.allNeg && neg && (s * t == 0) }

/-- Adds a chunk to an FP32 accumulator and rounds once with RNE (R58, R59): the new entry and CORE_FPSTAT bits. -/
def addChunk (acc : Nat) (c : ChunkSum) : FOut :=
  if c.any = false then { bits := acc }
  else match Fmt.fp32.decode acc with
  | .nan => nanOut false 0
  | .inf n =>
    if c.nan then nanOut false 0
    else if c.invalid || (c.pinf && c.ninf) || (n && c.pinf) || (!n && c.ninf) then nanOut true 0
    else infOut n 0
  | .fin n s e =>
    if c.nan then nanOut false 0
    else if c.invalid || (c.pinf && c.ninf) then nanOut true 0
    else if c.pinf then infOut false 0
    else if c.ninf then infOut true 0
    else
      let r := exactAdd n s e (decide ((c.tot : Int) < (0 : Int))) c.tot.natAbs c.exp
      if r.1 = 0 then { bits := if n && s == 0 && c.allNeg then 0x80000000 else 0 }
      else Fmt.fp32.roundRat .rne false false 0 (decide (r.1 < 0)) r.1.natAbs 1 r.2

/-- Adds a chunk of integers to an integer accumulator, saturating (R59). -/
def addChunkInt (acc : Nat) (c : ChunkSum) : FOut :=
  if c.any = false then { bits := acc } else
  let x : Int := toSigned 32 acc + c.tot * ((2 ^ c.exp.toNat : Nat) : Int)
  if x > 2 ^ 31 - 1 then { bits := 0x7FFFFFFF, flags := flIntSat }
  else if x < -2 ^ 31 then { bits := 0x80000000, flags := flIntSat }
  else { bits := ofSigned 32 x }

/-! ### The rows of a pass -/

/-- Where row `m` of a CONV reads the line of pass `p`: none outside the map (R142). -/
def convLine (d : BitVec 512) (fAddr : Nat) (p m : Nat) : Option Int :=
  let kw := dBits d 106 103
  let cb := dBits d 132 127
  let outW := dBits d 98 89
  let r := p / cb / kw
  let s := p / cb % kw
  let iy : Int := (m / outW * dBits d 109 107 + r * dBits d 115 113 : Nat) - (dBits d 122 119 : Int)
  let ix : Int := (m % outW * dBits d 112 110 + s * dBits d 118 116 : Nat) - (dBits d 126 123 : Int)
  if 0 ≤ iy ∧ iy < dBits d 68 59 ∧ 0 ≤ ix ∧ ix < dBits d 78 69 then
    some (fAddr + iy * dBits d 58 43 + ix * dBits d 42 27 + (p % cb * dBits d 151 133 : Nat))
  else none

/-- The lane bits of A's row `m` as one line, and the lanes that carry a valid bit: from the skewed layout, from a CONV's map, or from
the slots that a stream-feed pass holds, where a lost slot's lane is not valid (R133, R136, R142). -/
def rowLine (k : Core) (fl : Flight) (d : PassDesc) (x : ArrExec) (m : Nat) : Nat × BitVec 64 :=
  if d.conv then
    (match convLine fl.desc d.aAddr x.pass m with
     | some a => memRead k.tile a.toNat 64
     | none => 0, BitVec.allOnes 64)
  else
    let w := if d.aFmt = 9 ∨ d.aFmt = 10 then 16 else if d.aFmt = 4 ∨ d.aFmt = 5 then 6 else 8
    let lane (j : Nat) : Option Nat :=
      if d.stream then (x.got.find? fun g => g.1 == m + j).map fun g => g.2.toNat
      else some (memRead k.tile (d.aAddr + 64 * (m + j)) 64)
    (List.range (lanesOf d.aFmt)).foldl (fun a j => match lane j with
      | some line => (a.1 + (bitsOf line (w * j + w - 1) (w * j)) <<< (w * j), a.2 ||| BitVec.ofNat 64 (2 ^ j))
      | none => a) (0, 0)

/-- The elements of a line: one for each K index of the pass, scaled, with the lanes in use; whether one was flushed. -/
def lineElems (code other : Nat) (ftzIn : Bool) (mask : BitVec 64) (line : Nat) (scale : Nat → Nat) : List (Option Elem) × Bool :=
  let per := kPerLane code other
  let es := (List.range (lanesOf code * per)).map fun k =>
    if mask.getLsbD (k / per) then
      let v := elemValue code ftzIn (laneBits code (per == 2) line k)
      (some (if isMx code then scaled (scale (k / 32)) v.1 else v.1), v.2)
    else (none, false)
  (es.map Prod.fst, es.any Prod.snd)

/-- The chunk sums of a row of A against a column of B (R58). -/
def chunkSums (a b : List (Option Elem)) : List ChunkSum :=
  (List.range (ceilDiv a.length 32)).map fun c =>
    ((a.zip b).drop (32 * c) |>.take 32).foldl (fun s p =>
      match p with
      | (some x, some y) => addProduct s x y
      | _ => s) {}

/-- Accumulator entry `e` of column `n`. -/
def accGet (a : Arr) (e n : Nat) : Word32 := tblGet 0 a.acc (32 * e + n)
/-- Sets it. -/
def accSet (a : Arr) (e n : Nat) (v : Word32) : Arr := { a with acc := tblPut a.acc (32 * e + n) v }

/-- A's elements in row `m` of a pass, by K index, and whether one was flushed. -/
def rowElems (k : Core) (fl : Flight) (d : PassDesc) (x : ArrExec) (m : Nat) : List (Option Elem) × Bool :=
  let l := rowLine k fl d x m
  let nb := passBlocks d.aFmt d.bFmt
  lineElems d.aFmt d.bFmt (fpFtzIn fl.fpctl) (d.rowMask &&& l.2) l.1 fun b => memRead k.tile (d.asAddr + m * nb + b) 1

/-- B's elements in column `n` of a pass. -/
def colElems (k : Core) (fl : Flight) (d : PassDesc) (x : ArrExec) (n : Nat) : List (Option Elem) × Bool :=
  let nb := passBlocks d.aFmt d.bFmt
  lineElems d.bFmt d.aFmt (fpFtzIn fl.fpctl) d.rowMask (memRead k.tile (d.bAddr + 2048 * x.pass + 64 * n) 64)
    fun b => memRead k.tile (d.bsAddr + x.pass * 32 * nb + n * nb + b) 1

/-- The unmasked columns of a pass, each with B's elements. -/
def passCols (k : Core) (fl : Flight) (d : PassDesc) (x : ArrExec) : List (Nat × List (Option Elem) × Bool) :=
  ((List.range 32).filter fun n => d.colMask.getLsbD n).map fun n => (n, colElems k fl d x n)

/-! ### Check sums (R143, R144) -/

/-- A check sum as a value: an FP32 encoding, or in INT8 mode an exact integer. -/
def sumVal (int : Bool) (x : Int) : Elem := if int then .fin (decide (x < 0)) x.natAbs 0 else Fmt.fp32.decode x.toNat

/-- Adds a value to a check sum: in FP32 with RNE, or exactly. -/
def sumAdd (int : Bool) (x : Int) (v : Elem) : Int :=
  if int then (match v with
    | .fin n s e => x + (if n then -1 else 1) * ((s * 2 ^ e.toNat : Nat) : Int)
    | _ => x)
  else (addIn .fp32 (Fmt.fp32.decode x.toNat) v : Nat)

/-- The product of two values. -/
def elemMul : Elem → Elem → Elem
  | .nan, _ => .nan
  | _, .nan => .nan
  | .inf n, .inf m => .inf (n != m)
  | .inf n, .fin m s _ => if s = 0 then .nan else .inf (n != m)
  | .fin n s _, .inf m => if s = 0 then .nan else .inf (n != m)
  | .fin n s e, .fin m t g => .fin (n != m) (s * t) (e + g)

/-- The magnitude of a value. -/
def elemAbs : Elem → Elem
  | .nan => .nan
  | .inf _ => .inf false
  | .fin _ s e => .fin false s e

/-- Sums of lists of elements, position by position: the sums of the values and of their magnitudes. -/
def laneSums (int : Bool) (ls : List (List (Option Elem))) : List (Int × Int) :=
  let width := (ls.map List.length).foldl max 0
  (List.range width).map fun i => ls.foldl (fun a l => match l.getD i none with
    | some v => (sumAdd int a.1 v, sumAdd int a.2 (elemAbs v))
    | none => a) (0, 0)

/-- The sum of the products of such sums with elements, and of their magnitudes: c_m and a_m, or p_n and b_n. -/
def dotSums (int : Bool) (sums : List (Int × Int)) (es : List (Option Elem)) : Int × Int :=
  (sums.zip es).foldl (fun a p => match p.2 with
    | some v => (sumAdd int a.1 (elemMul (sumVal int p.1.1) v), sumAdd int a.2 (elemMul (sumVal int p.1.2) (elemAbs v)))
    | none => a) (0, 0)

/-- A finite value times 2^161, which is whole for every FP32 number times 2^-12. -/
def scaled161 : Elem → Option Int
  | .fin n s e => some ((if n then -1 else 1) * ((s * 2 ^ (e + 161).toNat : Nat) : Int))
  | _ => none

/-- Whether a check mismatches: |x - y| > 2^-t * reference + 2^-120, not made on NaNs and infinities; any difference of integers. -/
def checkFails (int : Bool) (t : Nat) (x y ref : Int) : Bool :=
  if int then x != y
  else match scaled161 (sumVal false x), scaled161 (sumVal false y), scaled161 (sumVal false ref) with
  | some a, some b, some r => decide (((a - b).natAbs : Int) > r / (2 ^ t : Nat) + ((2 ^ 41 : Nat) : Int))
  | _, _, _ => false

/-- Bits changed in a check sum (log 15). -/
def sumFlip (int : Bool) (f : Word32) (x : Int) : Int :=
  if int then toSigned 64 ((ofSigned 64 x) ^^^ f.toNat) else ((x.toNat ^^^ f.toNat : Nat) : Int)

/-! ### Rows -/

/-- What a row of a pass comes to: the new entry of each unmasked column, CORE_FPSTAT bits, its contributions s[m][n], and whether its
row check holds (R58, R139, R143, R144). -/
structure RowOut where
  cells : List (Nat × Nat)
  flags : BitVec 7
  sums : List (Nat × Int)
  ok : Bool
  deriving DecidableEq, Repr

/-- Row `m` of a pass, with what a fault of the array has changed in it. -/
def rowResult (k : Core) (fl : Flight) (d : PassDesc) (x : ArrExec) (m : Nat) (u : RowUpset) : RowOut :=
  let int := decide (d.aFmt = 8)
  let ae := rowElems k fl d x m
  let cols := passCols k fl d x
  let flip (n : Nat) : Word32 := ((u.cells.find? fun e => e.1.val == n).map Prod.snd).getD 0
  let rs := cols.map fun n =>
    let start := if d.zero && x.pass == 0 then 0 else (accGet k.arr (d.base + m) n.1).toNat
    let cs := chunkSums ae.1 n.2.1
    let o := cs.foldl (fun (o : FOut) c =>
      let r := if int then addChunkInt o.bits c else addChunk o.bits c
      { r with flags := o.flags ||| r.flags }) { bits := start }
    let sum := cs.foldl (fun (a : Int) c =>
      if int then a + c.tot * ((2 ^ c.exp.toNat : Nat) : Int)
      else if c.any then sumAdd false a (Fmt.fp32.decode (addChunk 0 c).bits) else a) 0
    ((n.1, o.bits ^^^ (flip n.1).toNat), o.flags ||| (if n.2.2 then flFtz else 0), (n.1, sumFlip int (flip n.1) sum))
  let b := laneSums int (cols.map fun n => n.2.1)
  let c := dotSums int b ae.1
  let r := rs.foldl (fun a q => sumAdd int a (sumVal int q.2.2.2)) 0
  { cells := rs.map Prod.fst
    flags := rs.foldl (fun f q => f ||| q.2.1) (if ae.2 && !cols.isEmpty then flFtz else 0)
    sums := rs.map fun q => q.2.2
    ok := cols.isEmpty || !(checkFails int d.tol r (sumFlip int u.check c.1) c.2) }

/-- Writes a row's entries to accumulator memory. -/
def storeRow (c : Nat) (d : PassDesc) (m : Nat) (cells : List (Nat × Nat)) (s : State) : State :=
  modArr s c fun a => cells.foldl (fun a p => accSet a (d.base + m) p.1 (BitVec.ofNat 32 p.2)) a

/-- The columns whose column check fails, by the sums of the rows, the feeder's sums, and the bits that a fault has changed in p_n
(R144, R146). In tile feed and CONV the feeder is the A port; in stream feed its sums are the packet's (R143). -/
def badColumns (k : Core) (fl : Flight) (d : PassDesc) (x : ArrExec) (packet : List Word32) (flips : List (Fin 32 × Word32)) : List Nat :=
  let int := decide (d.aFmt = 8)
  let feed : List (Int × Int) :=
    if d.stream then (List.range 64).map fun i =>
      let v := (packet.getD i 0).toNat
      ((if int then toSigned 32 v else (v : Int)), (((packet.getD (64 + i) 0).toNat : Nat) : Int))
    else laneSums int ((List.range d.rows).map fun m => (rowElems k fl d x m).1)
  (passCols k fl d x).filterMap fun n =>
    let q := (List.range d.rows).foldl (fun a m =>
      match (x.sums.find? fun e => e.1 == m).bind fun e => e.2.find? fun y => y.1 == n.1 with
      | some y => sumAdd int a (sumVal int y.2)
      | none => a) 0
    let p := dotSums int feed n.2.1
    let f : Word32 := ((flips.find? fun e => e.1.val == n.1).map Prod.snd).getD 0
    if checkFails int d.tol q (sumFlip int f p.1) p.2 then some n.1 else none

/-! ### Faults of the array (R137, R152) -/

/-- Fills entries with free values: `rows` entries from `base` in the columns of a mask (log 20). -/
def spoilAcc (c base rows : Nat) (cols : BitVec 32) (s : State) : State :=
  let cells := (List.range rows).flatMap fun m => ((List.range 32).filter fun n => cols.getLsbD n).map fun n => (base + m, n)
  let s1 := modArr s c fun a => cells.zipIdx.foldl (fun a p => accSet a p.1.1 p.1.2 (Config.freeWord (s.free + p.2))) a
  { s1 with free := s1.free + cells.length }

/-- A fault of an MMA or CONV. -/
def passFault (c : Nat) (fl : Flight) (code detail : Nat) (s : State) : State :=
  let d := passDesc fl
  flightFault c fl code detail (spoilAcc c d.base (min d.rows (512 - d.base)) d.colMask
    (modArr s c fun a => { a with execs := a.execs.filter fun x => x.tag != fl.tag }))

/-- The first of the byte ranges that leaves the read set: its offset (R106). -/
def firstOutside (w : BitVec 128) (rs : List (Nat × Nat)) : Option Nat :=
  rs.findSome? fun r =>
    if inReadSet w r.1 r.2 then none
    else ((List.range (r.2 / 64 + 2)).map fun i => if i = 0 then r.1 else r.1 / 64 * 64 + 64 * i).find? fun a =>
      decide (a < r.1 + r.2) && !(inReadSet w a 1)

/-- The tile ranges that a pass reads: stationary tile, B's scales, A's scales, A's lines. -/
def passReads (fl : Flight) (d : PassDesc) (p : Nat) : List (Nat × Nat) :=
  let nb := passBlocks d.aFmt d.bFmt
  let b := [(d.bAddr + 2048 * p, 2048)] ++ (if isMx d.bFmt then [(d.bsAddr + p * 32 * nb, 32 * nb)] else [])
  if d.conv then
    b ++ ((List.range d.rows).filterMap fun m => (convLine fl.desc d.aAddr p m).map fun a => (a.toNat, 64))
  else
    let first := if fl.chained then skewDepth d.aFmt else 0
    b ++ (if isMx d.aFmt then [(d.asAddr, d.rows * nb)] else [])
      ++ (if d.stream then [] else [(d.aAddr + 64 * first, 64 * (d.rows + skewDepth d.aFmt - first))])

/-- Whether the form of an MMA or CONV is bad (R126, R129, R141). -/
def passForm (fl : Flight) (d : PassDesc) : Bool :=
  if d.conv then
    decide (d.rows > 512 ∨ d.base + d.rows > 512)
      || [d.aAddr, dBits fl.desc 42 27, dBits fl.desc 58 43, dBits fl.desc 151 133, d.bAddr].any fun a => a % 64 != 0
  else !fl.chainOk || d.aAddr % 64 != 0 || d.bAddr % 64 != 0 || (d.stream && decide (d.lead > 8))

/-! ### Passes -/

/-- The running pass of a flight. -/
def execOf (k : Core) (tag : Nat) : Option ArrExec := k.arr.execs.find? fun x => x.tag == tag
/-- Changes it. -/
def modExec (s : State) (c tag : Nat) (f : ArrExec → ArrExec) : State :=
  modArr s c fun a => { a with execs := a.execs.map fun x => if x.tag == tag then f x else x }

/-- Array instructions of a core that are not finished, in issue order. -/
def arrFlights (k : Core) : List Flight := k.flights.filter fun f => f.eng == 2 && decide (f.ph ≠ .faulted)

/-- The flights of a list before the one with a tag. -/
def beforeTag (l : List Flight) (tag : Nat) : List Flight := l.takeWhile fun f => f.tag != tag

/-- Places a slot of a stream-feed pass that arrived in cycle `a` (R136). -/
def placeSlot (x : ArrExec) (slot a : Nat) (data : Line) : ArrExec × Bool :=
  if a > x.t0 + slot then (x, true)
  else if a + 8 < x.t0 + slot then ({ x with early := x.early ++ [slot] }, false)
  else ({ x with got := x.got ++ [(slot, data)] }, false)

/-- The accumulator entries of an array instruction: first and count. -/
def accRange (fl : Flight) : Nat × Nat :=
  if wOpc fl.word = 0x22 then (bitsOf fl.word.toNat 43 35, bitsOf fl.word.toNat 34 25) else ((passDesc fl).base, (passDesc fl).rows)

/-- Whether the entries of two array instructions are disjoint. -/
def accApart (f g : Flight) : Bool :=
  let a := accRange f
  let b := accRange g
  decide (a.1 + a.2 ≤ b.1) || decide (b.1 + b.2 ≤ a.1)

/-- Whether a pass may start behind an earlier array instruction: one whose last pass has begun or that has ended, or an ACCX that runs
on other entries (R130, R151). -/
def letsStart (k : Core) (fl f : Flight) : Bool :=
  decide (f.ph = .done)
    || (if wOpc f.word = 0x22 then (match arrFlights k with | h :: _ => h.tag == f.tag && accApart f fl | [] => false)
        else match execOf k f.tag with
          | some x => decide (x.pass + 1 ≥ (passDesc f).passes)
          | none => false)

/-- ARRAY_PASS_START (R130, R135): `cycle` is s0, or T0 of a stream-feed pass. A CONV starts its passes one after another. -/
def execArrayPassStart (c : CoreNo) (tag : BitVec 5) (cycle : Nat) (s : State) : Out :=
  .next (
    let k := getCore s c.val
    match flightOf k tag.toNat with
    | none => s
    | some fl =>
      let d := passDesc fl
      let earlier := beforeTag (arrFlights k) fl.tag
      let isPass := decide (wOpc fl.word = 0x20 ∨ wOpc fl.word = 0x21)
      let nextPass := match fl.aux with | .units n _ => n | _ => 0
      let running := (execOf k fl.tag).isSome
      let slot0 := (k.arr.inq.find? fun q => q.ord == fl.ord && q.slot == 0).map fun q => q.cycle
      let fedOk : Bool := if d.stream then (match slot0 with
          | some a => decide (a + d.lead ≤ cycle)
          | none => !(k.flights.any fun f => f.eng == 1 && f.ord == fl.ord && decide (dBits f.desc 24 22 = 3) && decide (f.ph ≠ .faulted))
              && decide (fl.ord ≤ k.arr.feedMoves))
        else true
      if frozen s || k.resetting || !isPass || running || !(earlier.all fun f => letsStart k fl f)
          || decide (fl.ph = .done) || decide (fl.ph = .faulted) then s
      else if passForm fl d then passFault c.val fl 0x0E 0 s
      else if !fedOk then s
      else match firstOutside fl.word (passReads fl d nextPass) with
        | some a => passFault c.val fl 0x23 a s
        | none =>
          let x0 : ArrExec := { tag := fl.tag, pass := nextPass, t0 := cycle }
          let mine := k.arr.inq.filter fun q => d.stream && q.ord == fl.ord
          let x := mine.foldl (fun x q => (placeSlot x q.slot q.cycle q.data).1) x0
          let late := (mine.filter fun q => (placeSlot x0 q.slot q.cycle q.data).2).length
          modCore s c.val fun k => { modFlight k fl.tag (fun f => { f with ph := .started }) with
            arr := { k.arr with
              execs := k.arr.execs ++ [x]
              inq := k.arr.inq.filter fun q => !(d.stream && q.ord == fl.ord)
              late := satInc k.arr.late late } })

/-- p(s): the planned arrival of a slot after slot 0 (R138, R203). -/
def slotPlan (m : MoveDesc) (n : Nat) : Nat := n / m.burst * (m.burst + m.gap) + n % m.burst

/-- Whether a stream-feed MOVE may deliver its next slot in a cycle: its line is complete, its planned cycle has come, and it has
delivered none in that cycle or later (R203). -/
def slotDue (m : MoveDesc) (p : MoveProg) (cycle : Nat) : Bool :=
  decide (p.slot < m.slots) && decide (min p.slot (m.n1 - 1) < p.rows.length)
    && (decide (p.slot = 0) || (decide (p.first + slotPlan m p.slot ≤ cycle) && decide (p.last < cycle)))

/-- STREAM_SLOT_ARRIVAL (R136, R203): a stream-feed MOVE delivers its next slot in a cycle, also while a failed burst has not raised its
fault (R205). -/
def execStreamSlotArrival (c : CoreNo) (tag : BitVec 5) (cycle : Nat) (s : State) : Out :=
  .next (
    let k := getCore s c.val
    match flightOf k tag.toNat with
    | none => s
    | some fl =>
      match fl.aux with
      | .move (p : MoveProg) =>
        let m := moveDesc fl
        if frozen s || k.resetting || decide (m.dstKind ≠ 3) || decide (fl.ph ≠ .started) || !(slotDue m p cycle) then s
        else
          let data : Line := BitVec.ofNat 512 (skewLine m.laneFmt m.len0 m.n1 p.rows p.slot).1
          let p1 := { p with slot := p.slot + 1, first := if p.slot = 0 then cycle else p.first, last := cycle, moved := true }
          let s1 := countLines c.val 1 (keepProg c.val fl.tag p1 s)
          let pass : Option Flight := k.flights.find? fun f => f.eng == 2 && decide (wOpc f.word = 0x20) && (passDesc f).stream && f.ord == fl.ord
          let x : Option ArrExec := match pass with | some f => execOf k f.tag | none => none
          match x with
          | some x =>
            let r := placeSlot x p.slot cycle data
            modArr (modExec s1 c.val x.tag fun _ => r.1) c.val fun a => { a with late := satInc a.late (b2n r.2) }
          | none =>
            let gone : Bool := match pass with
              | some (f : Flight) => decide (f.ph ≠ Phase.queued)
              | none => decide (fl.ord ≤ k.arr.feedPasses)
            if gone then modArr s1 c.val fun a => { a with late := satInc a.late 1 }
            else modArr s1 c.val fun a => { a with inq := a.inq ++ [({ ord := fl.ord, slot := p.slot, cycle, data } : FeedLine)] }
      | _ => s)

/-- The 128 words of a checksum packet: Asum and Aabs of the lanes over the rows read, each row's values under its block scale; exact
for INT8 (R204). -/
def packetWords (k : Core) (fl : Flight) (m : MoveDesc) (rows : List Nat) : List Word32 :=
  let int := decide (m.aFmt = 8)
  let n := laneCount m.laneFmt
  let nb := n / 32
  let es := rows.zipIdx.map fun r => (List.range n).map fun j =>
    let v := (elemValue m.aFmt (fpFtzIn fl.fpctl) (rowLane m.laneFmt m.len0 r.1 j)).1
    some (if isMx m.aFmt then scaled (memRead k.tile (m.scAddr + r.2 * nb + j / 32) 1) v else v)
  let sums := laneSums int es
  let word (x : Int) : Word32 := BitVec.ofNat 32 (ofSigned 32 x)
  let half (f : Int × Int → Int) : List Word32 := (List.range 64).map fun i => match sums[i]? with
    | some x => word (f x)
    | none => 0
  half Prod.fst ++ half Prod.snd

/-- CHECKSUM_PACKET_ARRIVAL (R204, R212): the packet of a stream-feed MOVE, after its last slot; the MOVE ends. -/
def execChecksumPacketArrival (c : CoreNo) (tag : BitVec 5) (s : State) : Out :=
  .next (
    let k := getCore s c.val
    match flightOf k tag.toNat with
    | none => s
    | some fl =>
      match fl.aux with
      | .move p =>
        let m := moveDesc fl
        if frozen s || k.resetting || decide (m.dstKind ≠ 3) || fl.flt.isSome || decide (p.slot < m.slots) || decide (fl.ph ≠ .started) then s
        else
          let s1 := countLines c.val 8 (modArr s c.val fun a =>
            { a with packets := a.packets ++ [{ ord := fl.ord, words := packetWords k fl m p.rows }] })
          moveEnd c.val fl m (p.crc.toNat ^^^ 0xFFFFFFFF) true (ceilDiv m.n1 4 - 1) s1
      | _ => s)

/-- CORE_ARR_CHECK's low bits: kind, column, entry (R153). -/
def checkWord (kind column entry : Nat) : Nat := kind * 2 ^ 15 + column * 2 ^ 9 + entry % 512

/-- Sets CORE_ARR_CHECK (R153). -/
def setCheck (c : Nat) (fatal : Bool) (w : Nat) (s : State) : State :=
  modArr s c fun a => { a with check := BitVec.ofNat 18 (2 ^ 17 + b2n fatal * 2 ^ 16 + w) }

/-- A row or column mismatch: CORE_ARR_CHECK, a suspect entry for the site, and the event (R145; log 29). -/
def noteMismatch (c : Nat) (fatal : Bool) (w : Nat) (s : State) : State :=
  let site := (siteOf s c).getD 0
  let s1 := setCheck c fatal w s
  let s2 := if s1.boot.learned.any fun x => x.kind == 1 && x.index == site then s1
    else addLearned { kind := 1, suspect := true, origin := 2, index := site } s1
  logEvent 0x06 (coreSrc s c) (site + (2 ^ 17 + b2n fatal * 2 ^ 16 + w) * 2 ^ 16) s2

/-- Whether a flight is the first array instruction with rows left: rows of different passes commit in issue order, and an ACCX before
it works on other entries. -/
def rowsTurn (k : Core) (fl : Flight) : Bool :=
  (beforeTag (arrFlights k) fl.tag).all fun f =>
    decide (f.ph = .done)
      || (if wOpc f.word = 0x22 then accApart f fl
          else match execOf k f.tag with
            | some x => decide (x.pass + 1 ≥ (passDesc f).passes) && (x.lostRow.isSome || decide (x.committed.length ≥ (passDesc f).rows))
            | none => false)

/-- The sums of a row as decided now, in place of those of an earlier try. -/
def keepSums (m : Nat) (l : List (Nat × Int)) (x : ArrExec) : ArrExec :=
  { x with sums := x.sums.filter (fun e => e.1 != m) ++ [(m, l)] }

/-- The column whose entry row `m` reads and finds uncorrectable (R152; log 11): masked columns, and entries that `zero` replaces, are
not read. -/
def badEntry (d : PassDesc) (x : ArrExec) (u : RowUpset) : Option Nat :=
  match u.acc with
  | some n => if d.colMask.getLsbD n.val && !(d.zero && x.pass == 0) then some n.val else none
  | none => none

/-- ARRAY_ROW_COMMIT (R134, R144, R145): the row check of row `m` is decided, and the row commits, waits in the output queue when its
access is taken, or is held for a replay. `u` is what a fault of the array has done to the row (log 15). Of several rows lost the pass
names the first (log 49). -/
def execArrayRowCommit (c : CoreNo) (tag : BitVec 5) (m : Fin 512) (u : RowUpset) (blocked : Bool) (s : State) : Out :=
  .next (
    let k := getCore s c.val
    match flightOf k tag.toNat, execOf k tag.toNat with
    | some fl, some x =>
      let d := passDesc fl
      let stalls := blocked && !d.stream
      if frozen s || decide (m.val ≥ d.rows) || !(rowsTurn k fl) then s
      else match x.waitingRows.find? fun e => e.1 == m.val with
      | some e =>
        if stalls then s
        else modExec (storeRow c.val d m.val e.2 s) c.val fl.tag fun x =>
          { x with committed := x.committed ++ [m.val], waitingRows := x.waitingRows.filter fun r => r.1 != m.val }
      | none =>
        if x.sums.any (fun e => e.1 == m.val) then s
        else match badEntry d x u with
        | some n => passFault c.val fl 0x09 (d.base + m.val + 512 * n) s
        | none =>
          let r := rowResult k fl d x m.val u
          if !r.ok then
            let s1 := noteMismatch c.val false (checkWord 0 0x3F (d.base + m.val)) s
            modExec s1 c.val fl.tag fun x => keepSums m.val r.sums <|
              if d.stream || decide (x.failed ≥ 8) then { x with failed := x.failed + 1, lostRow := x.lostRow <|> some m.val }
              else { x with failed := x.failed + 1, heldRows := x.heldRows ++ [m.val] }
          else if stalls then
            (if x.waitingRows.length ≥ 16 then s
             else modExec (fpStatus c.val r.flags s) c.val fl.tag fun x =>
              keepSums m.val r.sums { x with waitingRows := x.waitingRows ++ [(m.val, r.cells)] })
          else
            modExec (storeRow c.val d m.val r.cells (fpStatus c.val r.flags s)) c.val fl.tag fun x =>
              keepSums m.val r.sums { x with committed := x.committed ++ [m.val] }
    | _, _ => s)

/-- ARRAY_ROW_REPLAY (R145): a held row runs once more, after the pass's last line. -/
def execArrayRowReplay (c : CoreNo) (tag : BitVec 5) (m : Fin 512) (u : RowUpset) (s : State) : Out :=
  .next (
    let k := getCore s c.val
    match flightOf k tag.toNat, execOf k tag.toNat with
    | some fl, some x =>
      let d := passDesc fl
      if frozen s || !(x.heldRows.contains m.val) || decide (x.sums.length < d.rows) then s
      else match badEntry d x u with
      | some n => passFault c.val fl 0x09 (d.base + m.val + 512 * n) s
      | none =>
        let r := rowResult k fl d x m.val u
        let rest (x : ArrExec) : ArrExec := keepSums m.val r.sums { x with heldRows := x.heldRows.filter fun r => r != m.val }
        if r.ok then
          let s1 := modExec (storeRow c.val d m.val r.cells (fpStatus c.val r.flags s)) c.val fl.tag fun x =>
            { rest x with committed := x.committed ++ [m.val] }
          modArr s1 c.val fun a => { a with retry := satInc a.retry 1 }
        else
          modExec (noteMismatch c.val false (checkWord 0 0x3F (d.base + m.val)) s) c.val fl.tag fun x =>
            { rest x with lostRow := x.lostRow <|> some m.val }
    | _, _ => s)

/-- The lowest slot inside some unmasked lane's window that the pass took as a bubble line (R137). -/
def missingSlot (d : PassDesc) (x : ArrExec) : Option Nat :=
  (List.range (d.rows + skewDepth d.aFmt)).find? fun s =>
    !(x.got.any fun g => g.1 == s)
      && (List.range (lanesOf d.aFmt)).any fun j => d.rowMask.getLsbD j && decide (j ≤ s) && decide (s < j + d.rows)

/-- Ends a pass whose checks hold: the next pass of a CONV may begin, or the instruction has done its work. -/
def passDone (c : Nat) (fl : Flight) (d : PassDesc) (x : ArrExec) (s : State) : State :=
  let s1 := modArr s c fun a => { a with execs := a.execs.filter fun y => y.tag != fl.tag }
  if x.pass + 1 < d.passes then modCore s1 c fun k => modFlight k fl.tag fun f => { f with aux := .units (x.pass + 1) none }
  else flightDone c fl s1

/-- ARRAY_PASS_END (R137, R139, R144 to R146): every row is decided and replayed, and the column checks are made; `flips` are bits that a
fault of the array has changed in the checksum row's sums (log 15). A pass without columns checks nothing. -/
def execArrayPassEnd (c : CoreNo) (tag : BitVec 5) (flips : List (Fin 32 × Word32)) (s : State) : Out :=
  .next (
    let k := getCore s c.val
    match flightOf k tag.toNat, execOf k tag.toNat with
    | some fl, some x =>
      let d := passDesc fl
      let checks := decide (d.colMask ≠ 0)
      let miss := if d.stream && checks then missingSlot d x else none
      let packet := (k.arr.packets.find? fun p => p.ord == fl.ord).map fun p => p.words
      if frozen s || !x.waitingRows.isEmpty || (!x.heldRows.isEmpty && x.lostRow.isNone) || decide (x.sums.length < d.rows) then s
      else
        let s0 := modArr s c.val fun a => { a with packets := a.packets.filter fun p => p.ord != fl.ord }
        match miss with
        | some sl => passFault c.val fl (if x.early.contains sl then 0x05 else 0x04) sl s0
        | none =>
          if d.stream && checks && packet.isNone then passFault c.val fl 0x04 (d.rows + skewDepth d.aFmt) s0
          else
            let bad := if checks then badColumns k fl d x (packet.getD []) flips else []
            let col := match bad with | [n] => n | _ => 0x3F
            match x.lostRow, bad with
            | none, [] => passDone c.val fl d x s0
            | some r, [] =>
              let w := checkWord 0 0x3F (d.base + r)
              passFault c.val fl 0x06 w (setCheck c.val true w s0)
            | some r, _ =>
              let w := checkWord 0 col (d.base + r)
              passFault c.val fl 0x06 w (noteMismatch c.val true w s0)
            | none, _ =>
              let w := checkWord 1 col 0
              passFault c.val fl 0x06 w (noteMismatch c.val true w s0)
    | _, _ => s)

/-! ### ACCX (R148 to R151) -/

/-- What an access of ACCX to entry `e`, column `n` finds: the element, or uncorrectable data (log 11). -/
def accRead (bad : Option (Nat × Nat)) (a : Arr) (e n : Nat) : Option Word32 :=
  if bad = some (e, n) then none else some (accGet a e n)

/-- Runs steps in order up to the first fault. -/
def accSteps {α : Type} (f : α → State → State × Option (Nat × Nat)) : List α → State → State × Option (Nat × Nat)
  | [], s => (s, none)
  | x :: r, s =>
    match f x s with
    | (s1, none) => accSteps f r s1
    | e => e

/-- A fault of an ACCX: its range is left unspecified (R137). -/
def accxFault (c : Nat) (fl : Flight) (code detail : Nat) (cols : BitVec 32) (s : State) : State :=
  let w := fl.word.toNat
  flightFault c fl code detail (spoilAcc c (bitsOf w 43 35) (bitsOf w 34 25) cols s)

/-- The format of a d_fmt code that is a narrower floating-point one. -/
def storeFmt (c : Nat) : Option Fmt :=
  match c with
  | 1 => some .bf16 | 2 => some .fp16 | 3 => some .e4m3 | 4 => some .e5m2
  | _ => none
/-- Bytes of a d_fmt element. -/
def storeBytes (c : Nat) : Nat := if c = 0 ∨ c = 6 then 4 else if c = 1 ∨ c = 2 then 2 else 1

/-- The element that STORE writes for an entry (R150). -/
def storeElem (fmt rm : Nat) (sat : Bool) (fpctl : Word32) (draw : Nat) (v : Nat) : FOut :=
  let mode := rmOf rm (fpRmDyn fpctl) true
  let fo := fpFtzOut fpctl
  match storeFmt fmt with
  | some f => f.convert mode sat fo draw (Fmt.fp32.decode v).toX
  | none =>
    if fmt = 0 then flushResult fo v 0
    else if fmt = 5 then
      let i := toSigned 32 v
      toInt8 .rne 0 (.rat (decide (i < 0)) i.natAbs 1 0)
    else { bits := v }

/-- The entry that LOAD makes of an element (R150). -/
def loadElem (fmt v : Nat) : Nat :=
  match storeFmt fmt with
  | some f => widen f v
  | none => if fmt = 5 then ofSigned 32 (toSigned 8 v) else v

/-- Whether the element format of an ACCX STORE or LOAD is undefined (R150), or a STORE has SR4 on a format without a narrowing conversion
(R51; log 49). -/
def accxFmtBad (fl : Flight) : Bool :=
  let fmt := dBits fl.desc 234 231
  let w := fl.word.toNat
  decide (fmt > 6) || (bitsOf w 45 44 == 1 && bitsOf w 14 12 == 4 && decide (fmt = 0 ∨ fmt = 6))

/-- Runs an ACCX whose turn has come. A DRAIN waits for its group to have started (R149); one that reaches a slot taken over
by a later kernel finds no register of its own left. -/
def runAccx (c : Nat) (fl : Flight) (s : State) : State :=
  let w := fl.word.toNat
  let k := getCore s c
  let op := bitsOf w 45 44
  let base := bitsOf w 43 35
  let rows := bitsOf w 34 25
  let bad : Option (Nat × Nat) := match fl.aux with | .accx b => b | _ => none
  let badDetail (e n : Nat) : Nat := e + n * 512
  if rows = 0 then flightDone c fl s
  else if op = 0 then
    let g := bitsOf w 24 21
    let vb := bitsOf w 20 15
    let seq : Word32 := BitVec.ofNat 32 fl.ord
    let gr := getGroup k g
    let started := match kernelOf k seq with | some x => x.started.getLsbD g | none => true
    if !started then s
    else
      let cells := (List.range rows).flatMap fun j => (List.range 32).map fun t => (j, t)
      let r := accSteps (fun (p : Nat × Nat) s =>
        match accRead bad (getCore s c).arr (base + p.1) p.2 with
        | some v => (if gr.seq = seq then modGroup s c g fun x => { x with v := tblPut x.v (32 * (vb + p.1) + p.2) v } else s, none)
        | none => (s, some (0x09, badDetail (base + p.1) p.2))) cells s
      match r with
      | (s1, some (code, d)) => accxFault c fl code d (BitVec.allOnes 32) s1
      | (s1, none) =>
        let s2 := modTg s1 c fun t => { t with pend := t.pend.filter fun p => p.tag != fl.tag }
        let s3 := if (getGroup (getCore s2 c) g).wait == .drainExit then groupExit c g s2 else s2
        flightDone c fl s3
  else
    let d := fl.desc
    let fmt := dBits d 234 231
    let cols : BitVec 32 := BitVec.ofNat 32 (dBits d 187 156)
    let sz := storeBytes fmt
    let addr (m n : Nat) : Nat := dBits d 214 196 + (m * dBits d 230 215 + n) * sz
    let cells := (List.range rows).flatMap fun m => ((List.range 32).filter fun n => cols.getLsbD n).map fun n => (m, n)
    if accxFmtBad fl then accxFault c fl 0x0E 0 cols s
    else
      let r := accSteps (fun (p : Nat × Nat) s =>
        let a := addr p.1 p.2
        if op = 1 then
          match accRead bad (getCore s c).arr (base + p.1) p.2 with
          | none => (s, some (0x09, badDetail (base + p.1) p.2))
          | some v =>
            if !(inWriteSet fl.word a sz) then (s, some (0x23, a))
            else
              let draw := drawBits 4 fl.seed.toNat (fl.ka.toNat % 2 ^ 32) (fl.ka.toNat >>> 32)
                (fl.kb.toNat + p.1 * dBits d 230 215 + p.2)
              let o := storeElem fmt (bitsOf w 14 12) (w.testBit 11) fl.fpctl draw v.toNat
              (census c (fpCensus fl.fpctl) (b2n o.counted) (fpStatus c o.flags (tileWrite c a sz o.bits s)), none)
        else if !(inReadSet fl.word a sz) then (s, some (0x23, a))
        else (modArr s c fun x => accSet x (base + p.1) p.2 (BitVec.ofNat 32 (loadElem fmt (memRead (getCore s c).tile a sz))), none))
        cells s
      match r with
      | (s1, some (code, e)) => accxFault c fl code e cols s1
      | (s1, none) => flightDone c fl s1

/-- Runs the ACCX at the head of the array's queue once every earlier array instruction has pulsed (R151). -/
def accxKick (c : Nat) (s : State) : State :=
  match arrFlights (getCore s c) with
  | f :: _ => if wOpc f.word = 0x22 ∧ f.ph = .queued then runAccx c f s else s
  | [] => s

end Sys2Proof.Machine
end

