-- ==== Sys2Proof/Machine/Operands.lean ====
section
/-! DEFINITION. The operand forms of thread words: registers, uniforms, predicates, immediates, lanes (R155, R159 to R161). -/
namespace Sys2Proof.Machine

/-- Bits of a modifier. -/
def mBits (w : ThreadWord) (hi lo : Nat) : Nat := bitsOf w.m.toNat hi lo

/-- Thread register `r` of lane `t`. -/
def vGet (g : Group) (r t : Nat) : Word32 := tblGet 0 g.v (32 * r + t)
/-- Sets it. -/
def vSet (g : Group) (r t : Nat) (x : Word32) : Group := { g with v := tblPut g.v (32 * r + t) x }
/-- The 64-bit value of a register pair. -/
def vPair (g : Group) (r t : Nat) : Nat := (vGet g r t).toNat + (vGet g (r + 1) t).toNat * 2 ^ 32
/-- Uniform register `r`. -/
def uGet (g : Group) (r : Nat) : Word32 := tblGet 0 g.u r
/-- Sets it. -/
def uSet (g : Group) (r : Nat) (x : Word32) : Group := { g with u := tblPut g.u r x }
/-- Predicate `r` as a mask of lanes; p0 reads 1 always. -/
def pGet (g : Group) (r : Nat) : BitVec 32 := if r = 0 then BitVec.allOnes 32 else tblGet 0 g.p r
/-- Sets one bit of a predicate; writes to p0 are discarded. -/
def pSet (g : Group) (r t : Nat) (b : Bool) : Group :=
  if r = 0 then g else
  let old := pGet g r
  let bit : BitVec 32 := BitVec.ofNat 32 (2 ^ t)
  { g with p := tblPut g.p r (if b then old ||| bit else old &&& ~~~bit) }

/-- The lanes in which a lane instruction executes (R160). -/
def execLanes (g : Group) (w : ThreadWord) : BitVec 32 := g.act &&& (if w.n then ~~~(pGet g w.p.toNat) else pGet g w.p.toNat)

/-- The executing lanes in ascending order. -/
def lanesIn (m : BitVec 32) : List Nat := (List.range 32).filter fun t => m.getLsbD t

/-- Operand a of an ALU word in a lane: a register, or a uniform with a_uni. -/
def opA (g : Group) (w : ThreadWord) (t : Nat) : Word32 :=
  if w.m.getLsbD 23 then uGet g w.a.toNat else vGet g w.a.toNat t

/-- The immediate: sign-extended for integer opcodes, imm19 times 2^13 as an FP32 pattern for FP opcodes. -/
def immOf (fp : Bool) (w : ThreadWord) : Word32 :=
  let i := mBits w 18 0
  if fp then BitVec.ofNat 32 (i * 2 ^ 13) else BitVec.ofNat 32 (ofSigned 32 (toSigned 19 i))

/-- Operand b of an ALU word in a lane: the immediate, a uniform or a register. -/
def opB (fp : Bool) (g : Group) (w : ThreadWord) (t : Nat) : Word32 :=
  if w.m.getLsbD 27 then immOf fp w else if w.m.getLsbD 22 then uGet g w.b.toNat else vGet g w.b.toNat t

/-- The registers of a block that starts at `r`. -/
def blockOf (n r : Nat) : List Nat := (List.range n).map fun i => r + i

/-- The thread registers that a word reads or writes, for the wait at a pending block (R149, R164): MOV of an immediate reads none, and
a conversion reads its index pair only under SR4. -/
def touched (dyn opc : Nat) (w : ThreadWord) : List Nat :=
  let d := w.dst.toNat
  let a := w.a.toNat
  let b := w.b.toNat
  match aluShape opc with
  | some sh =>
    (if opc = 0x11 ∨ opc = 0x27 then [] else if opc = 0x12 then [d, d + 1] else [d])
      ++ (if w.m.getLsbD 23 || (opc == 0x0F && w.m.getLsbD 27) then [] else if opc = 0x12 then [a, a + 1] else [a])
      ++ (if sh.b && !(w.m.getLsbD 27) && !(w.m.getLsbD 22) then [b] else [])
      ++ (if sh.c then [w.c.toNat] else [])
  | none =>
    let n := widthRegs (mBits w 21 19)
    let index := if rmOf (mBits w 19 17) dyn true = .sr4 then [b, b + 1] else []
    match opc with
    | 0x30 => [d, a] ++ index
    | 0x31 => [d, a] ++ index
    | 0x34 => [d, a, a + 1]
    | 0x35 => [d, a, a + 1]
    | 0x39 => [d]
    | 0x3A => [a]
    | 0x40 => blockOf n d ++ [a, a + 1]
    | 0x41 => blockOf n b ++ [a, a + 1]
    | 0x42 => blockOf n d ++ [a]
    | 0x43 => blockOf n b ++ [a]
    | 0x44 => blockOf n d ++ blockOf n b ++ [a, a + 1]
    | _ => []

/-- Whether a word must wait for a DRAIN (R149). -/
def drainWait (k : Core) (g opc : Nat) (w : ThreadWord) : Bool :=
  k.tg.pend.any fun p => p.grp == g && p.seq == (getGroup k g).seq
    && (touched (fpRmDyn k.regs.fpctl) opc w).any fun r => decide (p.vbase ≤ r) && decide (r < p.vbase + p.rows)

/-- Issues a thread word of a group: `f` is its effect once it may issue. -/
def threadStep (c : CoreNo) (g : GroupNo) (opc : Nat) (w : ThreadWord) (f : State → State) (s : State) : State :=
  if atThreadWord s c.val g.val (threadBits opc w) && !(drainWait (getCore s c.val) g.val opc w) then
    f (modTg s c.val fun t => { t with issued := satInc t.issued 1 })
  else s

/-- Goes on at the next word. -/
def groupNext (c g : Nat) (s : State) : State := groupGo c g ((getGroup (getCore s c) g).pc + 1) s

/-- Writes a register in each executing lane and goes on. -/
def laneWrite (c g : Nat) (w : ThreadWord) (val : Group → Nat → Word32) (s : State) : State :=
  let gr := getGroup (getCore s c) g
  groupNext c g (modGroup s c g fun x => (lanesIn (execLanes gr w)).foldl (fun x t => vSet x w.dst.toNat t (val gr t)) x)

/-- The same with a result that carries CORE_FPSTAT bits and may be counted in the census. -/
def laneWriteF (c g : Nat) (w : ThreadWord) (val : Group → Nat → FOut) (s : State) : State :=
  let k := getCore s c
  let gr := getGroup k g
  let lanes := lanesIn (execLanes gr w)
  let outs := lanes.map fun t => (t, val gr t)
  let s1 := modGroup s c g fun x => outs.foldl (fun x o => vSet x w.dst.toNat o.1 (BitVec.ofNat 32 o.2.bits)) x
  let s2 := fpStatus c (outs.foldl (fun f o => f ||| o.2.flags) 0) s1
  groupNext c g (census c (fpCensus k.regs.fpctl) (outs.filter fun o => o.2.counted).length s2)

end Sys2Proof.Machine
end

