-- ==== Sys2Proof/Machine/Flags.lean ====
section
/-! DEFINITION. Predicates set by comparisons (R162), and the modes that CORE_FPCTL gives the vector path (R49, R50, R72). -/
namespace Sys2Proof.Machine

/-- ICMP's conditions. -/
def icmpCond (aux : Nat) (a b : Word32) : Bool :=
  match aux with
  | 0 => a == b
  | 1 => a != b
  | 2 => BitVec.slt a b
  | 3 => !(BitVec.slt a b)
  | 4 => BitVec.ult a b
  | _ => !(BitVec.ult a b)

/-- FCMP's conditions on an order, none when unordered; ne is true when unordered. -/
def fcmpCond (aux : Nat) (o : Option Ordering) : Bool :=
  match aux, o with
  | 0, some .eq => true
  | 1, some .eq => false
  | 1, _ => true
  | 2, some .lt => true
  | 3, some .lt => true
  | 3, some .eq => true
  | 4, some .gt => true
  | 5, some .gt => true
  | 5, some .eq => true
  | 6, none => true
  | _, _ => false

/-- The rounding mode of an FP ALU word under the core's rm_dyn. -/
def aluRm (k : Core) (w : ThreadWord) : RM := rmOf (mBits w 26 24) (fpRmDyn k.regs.fpctl) false

/-- Writes a predicate in each executing lane and goes on; flags are CORE_FPSTAT bits. -/
def predWrite (c g : Nat) (w : ThreadWord) (val : Group → Nat → Bool) (fl : Group → Nat → BitVec 7) (s : State) : State :=
  let gr := getGroup (getCore s c) g
  let lanes := lanesIn (execLanes gr w)
  let s1 := modGroup s c g fun x => lanes.foldl (fun x t => pSet x w.dst.toNat t (val gr t)) x
  groupNext c g (fpStatus c (lanes.foldl (fun f t => f ||| fl gr t) 0) s1)

end Sys2Proof.Machine
end

