-- ==== Sys2Proof/Machine/ThreadAlu.lean ====
section
/-! DEFINITION. The ALU, conversion, random and lane words of the kernel instruction set (R162, R182 to R185). -/
namespace Sys2Proof.Machine

/-- An integer word: the result of each executing lane from operands a and b. -/
def aluInt (c : CoreNo) (g : GroupNo) (opc : Nat) (w : ThreadWord) (f : Word32 → Word32 → Word32) (s : State) : State :=
  threadStep c g opc w (laneWrite c.val g.val w fun gr t => f (opA gr w t) (opB false gr w t)) s

/-- An FP word of operands a, b and vc. -/
def aluFp (c : CoreNo) (g : GroupNo) (opc : Nat) (w : ThreadWord) (f : RM → Bool → Bool → Nat → Nat → Nat → FOut) (s : State) : State :=
  let k := getCore s c.val
  threadStep c g opc w (laneWriteF c.val g.val w fun gr t =>
    f (aluRm k w) (fpFtzIn k.regs.fpctl) (fpFtzOut k.regs.fpctl) (opA gr w t).toNat (opB true gr w t).toNat
      (vGet gr w.c.toNat t).toNat) s

/-- IADD. -/
def execIadd (c : CoreNo) (g : GroupNo) (w : ThreadWord) (s : State) : Out := .next (aluInt c g 0x01 w (fun a b => a + b) s)
/-- ISUB. -/
def execIsub (c : CoreNo) (g : GroupNo) (w : ThreadWord) (s : State) : Out := .next (aluInt c g 0x02 w (fun a b => a - b) s)
/-- IMUL. -/
def execImul (c : CoreNo) (g : GroupNo) (w : ThreadWord) (s : State) : Out := .next (aluInt c g 0x03 w (fun a b => a * b) s)
/-- IMAD: a b + vc. -/
def execImad (c : CoreNo) (g : GroupNo) (w : ThreadWord) (s : State) : Out :=
  .next (threadStep c g 0x04 w (laneWrite c.val g.val w fun gr t => opA gr w t * opB false gr w t + vGet gr w.c.toNat t) s)
/-- IMIN. -/
def execImin (c : CoreNo) (g : GroupNo) (w : ThreadWord) (s : State) : Out :=
  .next (aluInt c g 0x05 w (fun a b => if BitVec.slt b a then b else a) s)
/-- IMAX. -/
def execImax (c : CoreNo) (g : GroupNo) (w : ThreadWord) (s : State) : Out :=
  .next (aluInt c g 0x06 w (fun a b => if BitVec.slt a b then b else a) s)
/-- UMIN. -/
def execUmin (c : CoreNo) (g : GroupNo) (w : ThreadWord) (s : State) : Out :=
  .next (aluInt c g 0x07 w (fun a b => if BitVec.ult b a then b else a) s)
/-- UMAX. -/
def execUmax (c : CoreNo) (g : GroupNo) (w : ThreadWord) (s : State) : Out :=
  .next (aluInt c g 0x08 w (fun a b => if BitVec.ult a b then b else a) s)
/-- AND. -/
def execAndT (c : CoreNo) (g : GroupNo) (w : ThreadWord) (s : State) : Out := .next (aluInt c g 0x09 w (fun a b => a &&& b) s)
/-- OR. -/
def execOrT (c : CoreNo) (g : GroupNo) (w : ThreadWord) (s : State) : Out := .next (aluInt c g 0x0A w (fun a b => a ||| b) s)
/-- XOR. -/
def execXorT (c : CoreNo) (g : GroupNo) (w : ThreadWord) (s : State) : Out := .next (aluInt c g 0x0B w (fun a b => a ^^^ b) s)
/-- SHL by b[4:0]. -/
def execShl (c : CoreNo) (g : GroupNo) (w : ThreadWord) (s : State) : Out :=
  .next (aluInt c g 0x0C w (fun a b => a <<< (b.toNat % 32)) s)
/-- SHR by b[4:0], logical. -/
def execShr (c : CoreNo) (g : GroupNo) (w : ThreadWord) (s : State) : Out :=
  .next (aluInt c g 0x0D w (fun a b => a >>> (b.toNat % 32)) s)
/-- SRA by b[4:0], arithmetic. -/
def execSra (c : CoreNo) (g : GroupNo) (w : ThreadWord) (s : State) : Out :=
  .next (aluInt c g 0x0E w (fun a b => BitVec.sshiftRight a (b.toNat % 32)) s)
/-- MOV: b if bimm, else a. -/
def execMov (c : CoreNo) (g : GroupNo) (w : ThreadWord) (s : State) : Out :=
  .next (aluInt c g 0x0F w (fun a b => if w.m.getLsbD 27 then b else a) s)
/-- SEL: a if p[aux] = 1, else b. -/
def execSel (c : CoreNo) (g : GroupNo) (w : ThreadWord) (s : State) : Out :=
  .next (threadStep c g 0x10 w (laneWrite c.val g.val w fun gr t =>
    if (pGet gr (mBits w 21 19)).getLsbD t then opA gr w t else opB false gr w t) s)
/-- ICMP. -/
def execIcmp (c : CoreNo) (g : GroupNo) (w : ThreadWord) (s : State) : Out :=
  .next (threadStep c g 0x11 w (predWrite c.val g.val w
    (fun gr t => icmpCond (mBits w 21 19) (opA gr w t) (opB false gr w t)) (fun _ _ => 0)) s)

/-- IADD64: b zero-extended from a register or a uniform, sign-extended from imm19. -/
def execIadd64 (c : CoreNo) (g : GroupNo) (w : ThreadWord) (s : State) : Out :=
  .next (threadStep c g 0x12 w (fun s =>
    let gr := getGroup (getCore s c.val) g.val
    let sum (t : Nat) : Nat :=
      let b : Nat := if w.m.getLsbD 27 then ofSigned 64 (toSigned 19 (mBits w 18 0)) else (opB false gr w t).toNat
      (vPair gr w.a.toNat t + b) % 2 ^ 64
    groupNext c.val g.val (modGroup s c.val g.val fun x => (lanesIn (execLanes gr w)).foldl (fun x t =>
      vSet (vSet x w.dst.toNat t (BitVec.ofNat 32 (sum t))) (w.dst.toNat + 1) t (BitVec.ofNat 32 (sum t >>> 32))) x)) s)

/-- FADD. -/
def execFadd (c : CoreNo) (g : GroupNo) (w : ThreadWord) (s : State) : Out :=
  .next (aluFp c g 0x20 w (fun rm fi fo a b _ => fpAdd rm fi fo false a b) s)
/-- FSUB. -/
def execFsub (c : CoreNo) (g : GroupNo) (w : ThreadWord) (s : State) : Out :=
  .next (aluFp c g 0x21 w (fun rm fi fo a b _ => fpAdd rm fi fo true a b) s)
/-- FMUL. -/
def execFmul (c : CoreNo) (g : GroupNo) (w : ThreadWord) (s : State) : Out :=
  .next (aluFp c g 0x22 w (fun rm fi fo a b _ => fpMul rm fi fo a b) s)
/-- FFMA. -/
def execFfma (c : CoreNo) (g : GroupNo) (w : ThreadWord) (s : State) : Out :=
  .next (aluFp c g 0x23 w (fun rm fi fo a b x => fpFma rm fi fo a b x) s)
/-- FMIN. -/
def execFmin (c : CoreNo) (g : GroupNo) (w : ThreadWord) (s : State) : Out :=
  .next (aluFp c g 0x24 w (fun _ fi fo a b _ => fpMinMax false fi fo a b) s)
/-- FMAX. -/
def execFmax (c : CoreNo) (g : GroupNo) (w : ThreadWord) (s : State) : Out :=
  .next (aluFp c g 0x25 w (fun _ fi fo a b _ => fpMinMax true fi fo a b) s)

/-- FABS of an encoding: the sign cleared, a NaN canonical. -/
def fpAbs (fi fo : Bool) (a : Nat) : FOut :=
  match readOp fi a with
  | (.nan, fl) => nanOut false fl
  | (_, fl) => flushResult fo (flushOp fi a % 2 ^ 31) fl

/-- FABS. -/
def execFabs (c : CoreNo) (g : GroupNo) (w : ThreadWord) (s : State) : Out :=
  .next (aluFp c g 0x26 w (fun _ fi fo a _ _ => fpAbs fi fo a) s)
/-- FCMP. -/
def execFcmp (c : CoreNo) (g : GroupNo) (w : ThreadWord) (s : State) : Out :=
  .next (let fi := fpFtzIn (getCore s c.val).regs.fpctl
    threadStep c g 0x27 w (predWrite c.val g.val w
      (fun gr t => fcmpCond (mBits w 21 19) (fpOrder fi (opA gr w t).toNat (opB true gr w t).toNat))
      (fun gr t => (readOp fi (opA gr w t).toNat).2 ||| (readOp fi (opB true gr w t).toNat).2)) s)
/-- FDIV. -/
def execFdiv (c : CoreNo) (g : GroupNo) (w : ThreadWord) (s : State) : Out :=
  .next (aluFp c g 0x28 w (fun rm fi fo a b _ => fpDiv rm fi fo a b) s)
/-- FSQRT. -/
def execFsqrt (c : CoreNo) (g : GroupNo) (w : ThreadWord) (s : State) : Out :=
  .next (aluFp c g 0x29 w (fun rm fi fo a _ _ => fpSqrt rm fi fo a) s)
/-- FRCP. -/
def execFrcp (c : CoreNo) (g : GroupNo) (w : ThreadWord) (s : State) : Out :=
  .next (aluFp c g 0x2A w (fun _ fi fo a _ _ => fpRcp fi fo a) s)
/-- FRSQ. -/
def execFrsq (c : CoreNo) (g : GroupNo) (w : ThreadWord) (s : State) : Out :=
  .next (aluFp c g 0x2B w (fun _ fi fo a _ _ => fpRsq fi fo a) s)
/-- FEX2. -/
def execFex2 (c : CoreNo) (g : GroupNo) (w : ThreadWord) (s : State) : Out :=
  .next (aluFp c g 0x2C w (fun _ fi fo a _ _ => fpEx2 fi fo a) s)
/-- FLG2. -/
def execFlg2 (c : CoreNo) (g : GroupNo) (w : ThreadWord) (s : State) : Out :=
  .next (aluFp c g 0x2D w (fun _ fi fo a _ _ => fpLg2 fi fo a) s)

/-! ### Conversions (R182, R183) -/

/-- The draw of a lane: coordinates from the uniforms [27:24] and [23:20] and a register pair (R79). -/
def laneDraw (width : Nat) (seed : Nat) (gr : Group) (w : ThreadWord) (pair t : Nat) : Nat :=
  drawBits width seed (uGet gr (mBits w 27 24)).toNat (uGet gr (mBits w 23 20)).toNat (vPair gr pair t)

/-- The floating-point format of a CVT code. -/
def cvtFmt (c : Nat) : Option Fmt :=
  match c with
  | 0 => some .fp32 | 1 => some .bf16 | 2 => some .fp16 | 3 => some .e4m3 | 4 => some .e5m2
  | _ => none

/-- The value that CVT converts, read from the low bits of a register, after ftz_in. -/
def cvtSource (code : Nat) (ftzIn : Bool) (x : Nat) : XV × BitVec 7 :=
  match cvtFmt code with
  | some f =>
    if ftzIn && f.isSubnormal (x % 2 ^ f.width) then (.rat (x.testBit (f.width - 1)) 0 1 0, flFtz) else ((f.decode x).toX, 0)
  | none =>
    let i := toSigned (if code = 5 then 8 else 32) x
    (.rat (decide (i < 0)) i.natAbs 1 0, 0)

/-- The bits of a register that CVT reads as its source: the low bits of the format's width (R182). -/
def sourceBits (code x : Nat) : Nat := match cvtFmt code with | some f => x % 2 ^ f.width | none => if code = 5 then x % 256 else x

/-- The code of a rounding mode (R50). -/
def rmNumber : RM → Nat
  | .rne => 0 | .rtz => 1 | .rup => 2 | .rdn => 3 | .sr4 => 4

/-- Conversion into INT32: rounded to an integer, which wraps modulo 2^32 (R61; DEDUCED that its sentence on integer arithmetic means this
conversion, since it excepts only those into INT8); inexact when the result differs from the operand. The spec states no result for a NaN
or an infinity, which is the free value `open_` (log 4). -/
def toInt32 (rm : RM) (v : XV) (open_ : Nat) : FOut :=
  match v with
  | .rat neg num den e =>
    let q := roundAt rm neg 0 num den e 0
    let i := signedOf neg q.1
    { bits := ofSigned 32 i, flags := if q.2 ∨ i > 2 ^ 31 - 1 ∨ i < -2 ^ 31 then flInexact else 0 }
  | _ => { bits := open_ }

/-- CVT of one register value. -/
def cvtElem (rmCode dyn dst src : Nat) (sat ftzIn ftzOut : Bool) (draw x : Nat) : FOut :=
  let rm := rmOf rmCode dyn (decide (1 ≤ dst ∧ dst ≤ 5))
  let v := cvtSource src ftzIn x
  let o := match cvtFmt dst with
    | some f => f.convert rm sat ftzOut draw v.1
    | none => if dst = 5 then toInt8 rm draw v.1 else toInt32 rm v.1 (Config.cvtInt32 src (rmNumber rm) (BitVec.ofNat 32 (sourceBits src x))).toNat
  { o with flags := o.flags ||| v.2 }

/-- CVT. -/
def execCvt (c : CoreNo) (g : GroupNo) (w : ThreadWord) (s : State) : Out :=
  .next (
    let k := getCore s c.val
    let r := k.regs
    let seed := r.seedLo.toNat + r.seedHi.toNat * 2 ^ 32
    threadStep c g 0x30 w (laneWriteF c.val g.val w fun gr t =>
      cvtElem (mBits w 19 17) (fpRmDyn r.fpctl) (mBits w 15 12) (mBits w 11 8) (w.m.getLsbD 16) (fpFtzIn r.fpctl)
        (fpFtzOut r.fpctl) (laneDraw 4 seed gr w w.b.toNat t) (vGet gr w.a.toNat t).toNat) s)

/-- The element format of a microscaling code (R183). -/
def mxOf (c : Nat) : MxFmt :=
  match c with
  | 2 => .e4m3 | 3 => .e5m2 | 4 => .e3m2 | 5 => .e2m3 | 6 => .e2m1
  | _ => .int8

/-- The scale byte of a block, from its FP32 inputs after ftz_in (R48): none when an input is a NaN or an infinity. -/
def mxScale (f : MxFmt) (xs : List Nat) : Option Nat :=
  if xs.any fun x => bitsOf x 30 23 == 255 then none
  else
    let amax := xs.foldl (fun m x => max m (x % 2 ^ 31)) 0
    match Fmt.fp32.decode amax with
    | .fin _ sg e =>
      let x : Int := if sg = 0 then -127 else min 127 (max (-127) (log2Floor sg 1 e - f.emax))
      some (x + 127).toNat
    | _ => none

/-- One element of a block under a scale byte. -/
def mxElem (f : MxFmt) (rm : RM) (ftzOut : Bool) (draw scale x : Nat) : FOut :=
  match Fmt.fp32.decode x with
  | .fin n sg e => f.convert rm ftzOut draw n sg (e - ((scale : Int) - 127))
  | _ => { bits := 0 }

/-- CVT.MX (R48, R183): an inactive lane supplies +0 and receives nothing. -/
def execCvtMx (c : CoreNo) (g : GroupNo) (w : ThreadWord) (s : State) : Out :=
  .next (
    let r := (getCore s c.val).regs
    let seed := r.seedLo.toNat + r.seedHi.toNat * 2 ^ 32
    let f := mxOf (mBits w 15 12)
    let rm := rmOf (mBits w 19 17) (fpRmDyn r.fpctl) true
    threadStep c g 0x31 w (fun s =>
      let gr := getGroup (getCore s c.val) g.val
      let lanes := lanesIn (execLanes gr w)
      let raw := lanes.map fun t => (vGet gr w.a.toNat t).toNat
      let fi := fpFtzIn r.fpctl
      let fl : BitVec 7 := if fi && raw.any Fmt.fp32.isSubnormal then flFtz else 0   -- step 2 of R48, which step 1 may end before
      let xs := raw.map (flushOp fi)
      if lanes = [] then groupNext c.val g.val s
      else match mxScale f xs with
      | none =>
        let s1 := fpStatus c.val flMxSpecial (modGroup s c.val g.val fun x =>
          uSet (lanes.foldl (fun x t => vSet x w.dst.toNat t 0) x) w.c.toNat 0xFF)
        groupNext c.val g.val s1
      | some sc =>
        let outs := (lanes.zip xs).map fun p => (p.1, mxElem f rm (fpFtzOut r.fpctl) (laneDraw 4 seed gr w w.b.toNat p.1) sc p.2)
        let s1 := modGroup s c.val g.val fun x =>
          uSet (outs.foldl (fun x o => vSet x w.dst.toNat o.1 (BitVec.ofNat 32 o.2.bits)) x) w.c.toNat (BitVec.ofNat 32 sc)
        groupNext c.val g.val (fpStatus c.val (outs.foldl (fun a o => a ||| o.2.flags) fl) s1)) s)

/-! ### Random bits and lanes (R184, R185) -/

/-- RNG.U32. -/
def execRngU32 (c : CoreNo) (g : GroupNo) (w : ThreadWord) (s : State) : Out :=
  .next (
    let r := (getCore s c.val).regs
    let seed := r.seedLo.toNat + r.seedHi.toNat * 2 ^ 32
    threadStep c g 0x34 w (laneWrite c.val g.val w fun gr t => BitVec.ofNat 32 (laneDraw 32 seed gr w w.a.toNat t)) s)

/-- BMASK. -/
def execBmask (c : CoreNo) (g : GroupNo) (w : ThreadWord) (s : State) : Out :=
  .next (
    let r := (getCore s c.val).regs
    let seed := r.seedLo.toNat + r.seedHi.toNat * 2 ^ 32
    threadStep c g 0x35 w (laneWrite c.val g.val w fun gr t =>
      BitVec.ofNat 32 (bernoulliMask seed (uGet gr (mBits w 27 24)).toNat (uGet gr (mBits w 23 20)).toNat
        (vPair gr w.a.toNat t) (mBits w 15 0))) s)

/-- The lane that SHFL reads for lane `t`; a source outside 0 to 31 gives the lane its own value. -/
def shflLane (aux t b : Nat) : Nat :=
  match aux with
  | 0 => b % 32
  | 1 => if b ≤ t then t - b else t
  | 2 => if t + b < 32 then t + b else t
  | _ => t ^^^ (b % 32)

/-- SHFL. -/
def execShfl (c : CoreNo) (g : GroupNo) (w : ThreadWord) (s : State) : Out :=
  .next (threadStep c g 0x38 w (laneWrite c.val g.val w fun gr t =>
    opA gr w (shflLane (mBits w 21 19) t (opB false gr w t).toNat)) s)

/-- VOTE. -/
def execVote (c : CoreNo) (g : GroupNo) (w : ThreadWord) (s : State) : Out :=
  .next (threadStep c g 0x39 w (laneWrite c.val g.val w fun gr _ =>
    let m := pGet gr (w.a.toNat % 8) &&& gr.act
    match mBits w 21 19 with
    | 0 => if m = 0 then 0 else 1
    | 1 => if m = gr.act then 1 else 0
    | _ => m) s)

/-- WRU: u[dest] := va of the lowest active lane. -/
def execWru (c : CoreNo) (g : GroupNo) (w : ThreadWord) (s : State) : Out :=
  .next (threadStep c g 0x3A w (fun s =>
    let gr := getGroup (getCore s c.val) g.val
    match lanesIn gr.act with
    | t :: _ => groupNext c.val g.val (modGroup s c.val g.val fun x => uSet x w.dst.toNat (vGet gr w.a.toNat t))
    | [] => groupNext c.val g.val s) s)

end Sys2Proof.Machine
end

