-- ==== Sys2Proof/Machine/ThreadMem.lean ====
section
/-! DEFINITION. The memory words of the kernel instruction set: LD, ST, LDT, STT, ATOM, CPYA and FENCE (R171 to R181,
R189). -/
namespace Sys2Proof.Machine

/-- Bytes of the width of a memory word (R161). -/
def widthBytes (w : ThreadWord) : Nat := 2 ^ mBits w 21 19
/-- Region index of a memory word. -/
def memRegion (w : ThreadWord) : Nat := mBits w 27 22
/-- The signed byte offset. -/
def memOff (w : ThreadWord) : Int := toSigned 16 (mBits w 15 0)
/-- The byte offset a lane forms for LD, ST and ATOM (R171). -/
def laneOff (gr : Group) (w : ThreadWord) (t : Nat) : Int := (vPair gr w.a.toNat t : Int) + memOff w
/-- The tile offset a lane forms for LDT and STT (R174). -/
def laneTile (gr : Group) (w : ThreadWord) (t : Nat) : Int := ((vGet gr w.a.toNat t).toNat : Int) + memOff w

/-- The value of source block `r` in a lane: `n` bytes. -/
def blockVal (gr : Group) (r n t : Nat) : Nat :=
  ((List.range (ceilDiv n 4)).foldl (fun x i => x + (vGet gr (r + i) t).toNat * 2 ^ (32 * i)) 0) % 2 ^ (8 * n)

/-- Writes a value of `n` bytes into a register block of a lane, extended to 32 bits when narrower (R172). -/
def setBlock (sext : Bool) (r n t v : Nat) (g : Group) : Group :=
  let x := if n < 4 ∧ sext = true then ofSigned 32 (toSigned (8 * n) v) else v
  (List.range (ceilDiv n 4)).foldl (fun g i => vSet g (r + i) t (BitVec.ofNat 32 (x >>> (32 * i)))) g

/-- The checks of R171 for the executing lanes: the lowest failing lane with its code. -/
def laneChecks (k : Core) (gr : Group) (w : ThreadWord) (perm : Nat) (lanes : List Nat) : Option (Nat × Nat) :=
  lanes.findSome? fun t =>
    if laneOff gr w t % (widthBytes w : Int) ≠ 0 then some (t, 0x28)
    else match regionCheck k (memRegion w) perm (laneOff gr w t) (widthBytes w) with
      | some code => some (t, code)
      | none => none

/-- The address of a lane whose checks pass. -/
def laneAddr (k : Core) (gr : Group) (w : ThreadWord) (t : Nat) : Nat := regionAddr k (memRegion w) (laneOff gr w t).toNat

/-- The checks of R174 with the LAUNCH's claim: the lowest failing lane with its code. -/
def tileChecks (k : Core) (g : Nat) (gr : Group) (w : ThreadWord) (write : Bool) (lanes : List Nat) : Option (Nat × Nat) :=
  let n := widthBytes w
  lanes.findSome? fun t =>
    let o := laneTile gr w t
    if o % (n : Int) ≠ 0 then some (t, 0x28)
    else
      let ok := decide (0 ≤ o) && (match launchOf k g with
        | some f => if write then inWriteSet f.word o.toNat n else inReadSet f.word o.toNat n
        | none => false)
      if ok then none else some (t, 0x23)

/-- Issues a memory word: `f` answers whether it has issued; one that must wait at a home stays (log 8). -/
def memStep (c : CoreNo) (g : GroupNo) (opc : Nat) (w : ThreadWord) (f : State → State × Bool) (s : State) : State :=
  if atThreadWord s c.val g.val (threadBits opc w) && !(drainWait (getCore s c.val) g.val opc w) then
    match f s with
    | (s1, true) => modTg s1 c.val fun t => { t with issued := satInc t.issued 1 }
    | (s1, false) => s1
  else s

/-- What the lines or lanes of a word came to: the lowest failing lane with its code. -/
def worse (a b : Option (Nat × Nat)) : Option (Nat × Nat) :=
  match a, b with
  | some x, some y => if y.1 < x.1 then some y else some x
  | some x, none => some x
  | none, y => y

/-- Ends a memory word: the lowest lane reported faults the core, else the group goes on. A 0x01 of the home names the region too
(R122). -/
def memEnd (c g region : Nat) (e : Option (Nat × Nat)) (s : State) : State :=
  match e with
  | some (t, code) => kernelFault c g code t (checkDetail code region) s
  | none => groupNext c g s

/-- The distinct lines that the executing lanes touch, in the order of their lowest lanes. -/
def laneLines (addr : Nat → Nat) (n : Nat) (lanes : List Nat) : List Nat := (lanes.flatMap fun t => spanLines (addr t) n).eraseDups

/-- The lanes whose access touches a line. -/
def touching (addr : Nat → Nat) (n ln : Nat) (lanes : List Nat) : List Nat := lanes.filter fun t => (spanLines (addr t) n).contains ln

/-- Reads the lines of an LD one by one, keeping what each came to: none where a line is held at its home. -/
def readEach (c cls : Nat) : List Nat → State → State × Option (List (Nat × Res Line))
  | [], s => (s, some [])
  | ln :: r, s =>
    match coreReadLine c cls ln s with
    | (s1, .wait) => (s1, none)
    | (s1, x) =>
      match readEach c cls r s1 with
      | (s2, some l) => (s2, some ((ln, x) :: l))
      | (s2, none) => (s2, none)

/-- What a lane's access came to: its value, or the code of its first line that failed. -/
def laneGot (a n : Nat) (got : List (Nat × Res Line)) : Res Nat :=
  let mine := got.filter fun e => (spanLines a n).contains e.1
  match mine.findSome? fun e => match e.2 with | .err code => some code | _ => none with
  | some code => .err code
  | none => .ok (spanValue a n (mine.filterMap fun e => match e.2 with | .ok d => some (e.1, d) | _ => none))

/-- Declared last use of the lines read (R172, R248): dropped at their homes as KILL drops them, and a dead range each. A line that
another operation holds is dropped once it is free. -/
def lastUse (c : Nat) (got : List (Nat × Res Line)) (s : State) : State :=
  got.foldl (fun s e => match e.2 with
    | .ok _ =>
      let s1 := match killAt c e.1 s with
        | (s1, .wait) => { s1 with comb := { s1.comb with lastDrops := s1.comb.lastDrops ++ [e.1] } }
        | (s1, _) => s1
      modCore s1 c (deadAdd (64 * e.1) 64)
    | _ => s) s

/-- The registers that the lanes served by an LD write, and the lowest lane that failed with its code. -/
def loadLanes (c g : Nat) (w : ThreadWord) (addr : Nat → Nat) (k : Core) (lanes : List Nat) (got : List (Nat × Res Line)) (s : State) :
    State × Option (Nat × Nat) :=
  let n := widthBytes w
  let res (t : Nat) : Res Nat := if deadHit k.dead (addr t) n then .err 0x03 else laneGot (addr t) n got
  let s1 := modGroup s c g fun x => lanes.foldl (fun x t => match res t with
    | .ok v => setBlock (w.m.getLsbD 16) w.dst.toNat n t v x
    | _ => x) x
  (s1, lanes.findSome? fun t => match res t with | .err code => some (t, code) | _ => none)

/-- LD (R171 to R173, R177). -/
def execLd (c : CoreNo) (g : GroupNo) (w : ThreadWord) (s : State) : Out :=
  .next (memStep c g 0x40 w (fun s =>
    let k := getCore s c.val
    let gr := getGroup k g.val
    let lanes := lanesIn (execLanes gr w)
    let n := widthBytes w
    match laneChecks k gr w permR lanes with
    | some (t, code) => (kernelFault c.val g.val code t (checkDetail code (memRegion w)) s, true)
    | none =>
      let addr := laneAddr k gr w
      let lns := laneLines addr n (lanes.filter fun t => !(deadHit k.dead (addr t) n))
      let cls := rgClass (regionOf k (memRegion w))
      match readyLines { agent := c.val, master := c.val, cls, op := .read } (lns.filter fun ln => (l1Find k ln).isNone) s with
      | (s0, false) => (s0, false)
      | (s0, true) =>
        match readEach c.val cls lns s0 with
        | (s1, none) => (s1, false)
        | (s1, some got) =>
          let p := loadLanes c.val g.val w addr k lanes got s1
          (memEnd c.val g.val (memRegion w) p.2 (if w.m.getLsbD 18 then lastUse c.val got p.1 else p.1), true)) s)

/-- The bytes that the lanes of a store put into a line, in ascending lane order. -/
def storeMerge (gr : Group) (w : ThreadWord) (addr : Nat → Nat) (ln : Nat) : List Nat → BitVec 64 × Line → BitVec 64 × Line
  | [], p => p
  | t :: r, p =>
    let n := widthBytes w
    let q := linePart ln (addr t) n
    storeMerge gr w addr ln r
      (p.1 ||| byteMask q.1 q.2.1, setLineBytes p.2 q.1 q.2.1 (blockVal gr w.b.toNat n t / 2 ^ (8 * q.2.2)))

/-- Writes the lines of an ST one by one. -/
def storeLines (c cls : Nat) (gr : Group) (w : ThreadWord) (addr : Nat → Nat) (lanes : List Nat) :
    List Nat → Option (Nat × Nat) → State → State × Option (Option (Nat × Nat))
  | [], e, s => (s, some e)
  | ln :: r, e, s =>
    let mine := touching addr (widthBytes w) ln lanes
    let p := storeMerge gr w addr ln mine (0, 0)
    let s0 := modCore s c fun k =>
      { k with dead := mine.foldl (fun l t => deadRemove l (addr t) (widthBytes w)) k.dead }
    match coreWriteLine c cls ln p.1 p.2 s0 with
    | (s1, .ok _) => storeLines c cls gr w addr lanes r e s1
    | (s1, .err code) => storeLines c cls gr w addr lanes r (worse e (some (mine.headD 0, code))) s1
    | (s1, .wait) => (s1, none)

/-- ST (R171 to R173, R177). -/
def execSt (c : CoreNo) (g : GroupNo) (w : ThreadWord) (s : State) : Out :=
  .next (memStep c g 0x41 w (fun s =>
    let k := getCore s c.val
    let gr := getGroup k g.val
    let lanes := lanesIn (execLanes gr w)
    match laneChecks k gr w permW lanes with
    | some (t, code) => (kernelFault c.val g.val code t (checkDetail code (memRegion w)) s, true)
    | none =>
      let addr := laneAddr k gr w
      let lns := laneLines addr (widthBytes w) lanes
      let cls := rgClass (regionOf k (memRegion w))
      match readyLines { agent := c.val, master := c.val, cls, op := .write 0 0 } lns s with
      | (s0, false) => (s0, false)
      | (s0, true) =>
        match storeLines c.val cls gr w addr lanes lns none s0 with
        | (s1, none) => (s1, false)
        | (s1, some e) => (memEnd c.val g.val (memRegion w) e s1, true)) s)

/-- LDT (R174). -/
def execLdt (c : CoreNo) (g : GroupNo) (w : ThreadWord) (s : State) : Out :=
  .next (threadStep c g 0x42 w (fun s =>
    let k := getCore s c.val
    let gr := getGroup k g.val
    let lanes := lanesIn (execLanes gr w)
    match tileChecks k g.val gr w false lanes with
    | some (t, code) => kernelFault c.val g.val code t 0 s
    | none =>
      groupNext c.val g.val (modGroup s c.val g.val fun x => lanes.foldl (fun x t =>
        setBlock false w.dst.toNat (widthBytes w) t (memRead k.tile (laneTile gr w t).toNat (widthBytes w)) x) x)) s)

/-- STT (R174). -/
def execStt (c : CoreNo) (g : GroupNo) (w : ThreadWord) (s : State) : Out :=
  .next (threadStep c g 0x43 w (fun s =>
    let k := getCore s c.val
    let gr := getGroup k g.val
    let lanes := lanesIn (execLanes gr w)
    match tileChecks k g.val gr w true lanes with
    | some (t, code) => kernelFault c.val g.val code t 0 s
    | none =>
      groupNext c.val g.val (lanes.foldl (fun s t =>
        tileWrite c.val (laneTile gr w t).toNat (widthBytes w) (blockVal gr w.b.toNat (widthBytes w) t) s) s)) s)

/-- Sends the requests of an ATOM, one for each line, and writes the old values. A line already updated, while another one waited, is not
sent again. -/
def atomLines (c g cls : Nat) (gr : Group) (w : ThreadWord) (addr : Nat → Nat) (lanes : List Nat) :
    List Nat → Option (Nat × Nat) → State → State × Option (Option (Nat × Nat))
  | [], e, s => (s, some e)
  | ln :: r, e, s =>
    let n := widthBytes w
    let mine := lanes.filter fun t => addr t / 64 == ln
    match mine.filter fun t => deadHit (getCore s c).dead (addr t) n with
    | t :: _ => atomLines c g cls gr w addr lanes r (worse e (some (t, 0x03))) s
    | [] =>
      if gr.part.contains ln then atomLines c g cls gr w addr lanes r e s else
      let reqs := mine.map fun t =>
        ({ off := addr t % 64, val := BitVec.ofNat 64 (blockVal gr w.b.toNat n t)
           cmp := BitVec.ofNat 64 (blockVal gr w.dst.toNat n t) } : AtomLane)
      match atomicAt c c cls ln w.c.toNat n reqs (l1Drop c ln s) with
      | (s1, .ok olds) =>
        let s2 := modGroup s1 c g fun x =>
          { (mine.zip olds).foldl (fun x p => setBlock false w.dst.toNat n p.1 p.2.toNat x) x with part := x.part ++ [ln] }
        atomLines c g cls gr w addr lanes r e s2
      | (s1, .err code) => atomLines c g cls gr w addr lanes r (worse e (some (mine.headD 0, code))) s1
      | (s1, .wait) => (s1, none)

/-- The lanes of an ATOM whose bytes lie in two lines, which a region's base can bring about: the spec states neither the value
returned nor the one stored, and both are free values (log 42). -/
def atomSplit (c g cls : Nat) (gr : Group) (w : ThreadWord) (addr : Nat → Nat) :
    List Nat → Option (Nat × Nat) → State → State × Option (Option (Nat × Nat))
  | [], e, s => (s, some e)
  | t :: r, e, s =>
    let n := widthBytes w
    if deadHit (getCore s c).dead (addr t) n then atomSplit c g cls gr w addr r (worse e (some (t, 0x03))) s
    else match coreWriteLines c cls (addr t) n (Config.freeBits512 s.free).toNat (spanLines (addr t) n) (takeFree s) with
      | (s1, .ok _) =>
        atomSplit c g cls gr w addr r e
          (takeFree (modGroup s1 c g fun x => setBlock false w.dst.toNat n t ((Config.freeBits512 s1.free).toNat % 2 ^ (8 * n)) x))
      | (s1, .err code) => atomSplit c g cls gr w addr r (worse e (some (t, code))) s1
      | (s1, .wait) => (s1, none)

/-- ATOM (R171, R178 to R181). -/
def execAtom (c : CoreNo) (g : GroupNo) (w : ThreadWord) (s : State) : Out :=
  .next (memStep c g 0x44 w (fun s =>
    let k := getCore s c.val
    let gr := getGroup k g.val
    let lanes := lanesIn (execLanes gr w)
    let n := widthBytes w
    match laneChecks k gr w permA lanes with
    | some (t, code) => (kernelFault c.val g.val code t (checkDetail code (memRegion w)) s, true)
    | none =>
      let addr := laneAddr k gr w
      let whole := lanes.filter fun t => addr t % 64 + n ≤ 64
      let split := lanes.filter fun t => addr t % 64 + n > 64
      let cls := rgClass (regionOf k (memRegion w))
      match readyLines { agent := c.val, master := c.val, cls, op := .atomic 0 0 [] } (laneLines addr n lanes) s with
      | (s0, false) => (s0, false)
      | (s0, true) =>
        match atomLines c.val g.val cls gr w addr whole (laneLines addr n whole) none s0 with
        | (s1, none) => (s1, false)
        | (s1, some e) =>
          match atomSplit c.val g.val cls gr w addr split e s1 with
          | (s2, some e) => (memEnd c.val g.val (memRegion w) e s2, true)
          | (s2, none) => (s2, false)) s)

/-! ### Copies (R175) -/

/-- The 64-bit value of a uniform pair. -/
def uPair (gr : Group) (r : Nat) : Nat := (uGet gr r).toNat + (uGet gr (r + 1)).toNat * 2 ^ 32

/-- Lets the groups that wait at a release SIGC go on once none of their copies is left (R176). -/
def releaseSigc (c : Nat) (s : State) : State :=
  (List.range 16).foldl (fun s g =>
    let k := getCore s c
    let gr := getGroup k g
    match gr.wait with
    | .sigc ctr inc =>
      if k.tg.copies.any fun x => x.grp == g && x.seq == gr.seq then s
      else groupNext c g (if inc = 0 then s else addArrive c ctr inc s)
    | _ => s) s

/-- CPYA (R175): the checks run before any byte moves; a copy of length zero completes at once. -/
def execCpya (c : CoreNo) (g : GroupNo) (w : ThreadWord) (s : State) : Out :=
  .next (threadStep c g 0x45 w (fun s =>
    let k := getCore s c.val
    let gr := getGroup k g.val
    let o := uPair gr w.a.toNat
    let len := (uGet gr w.b.toNat).toNat
    let toL1 := w.m.getLsbD 17
    let dst := (uGet gr w.dst.toNat).toNat
    let rg := memRegion w
    let claim := toL1 || (match launchOf k g.val with | some f => inWriteSet f.word dst len | none => false)
    match regionCheck k rg permR o len with
    | some code => kernelFault c.val g.val code 0 (checkDetail code rg) s
    | none =>
      if !claim then kernelFault c.val g.val 0x23 0 0 s
      else if len = 0 then groupNext c.val g.val (addArrive c.val (mBits w 21 18) 1 s)
      else if deadHit k.dead (regionAddr k rg o) len then kernelFault c.val g.val 0x03 0 0 s
      else
        let cp : Copy := { grp := g.val, seq := gr.seq, counter := mBits w 21 18, word := gr.pc, region := rg
                           addr := regionAddr k rg o, cls := rgClass (regionOf k rg), len
                           dst := if toL1 then none else some dst }
        groupNext c.val g.val (modTg s c.val fun t => { t with copies := t.copies ++ [cp] })) s)

/-- Reads the lines of a byte range through the L1, without their data (kind 1). -/
def touchLines (c cls : Nat) : List Nat → State → State × Res Unit
  | [], s => (s, .ok ())
  | ln :: r, s =>
    match coreReadLine c cls ln s with
    | (s1, .ok _) => touchLines c cls r s1
    | (s1, .err e) => (s1, .err e)
    | (s1, .wait) => (s1, .wait)

/-- Copies a byte range into the tile buffer line by line, as plain loads (kind 0). -/
def copyTile (c cls : Nat) : Nat → Nat → Nat → Nat → State → State × Res Unit
  | 0, _, _, _, s => (s, .ok ())
  | fuel + 1, a, d, n, s =>
    if n = 0 then (s, .ok ()) else
    let part := min n (64 - a % 64)
    match coreReadLine c cls (a / 64) s with
    | (s1, .ok x) => copyTile c cls fuel (a + part) (d + part) (n - part) (tileWrite c d part (getLineBytes x (a % 64) part) s1)
    | (s1, .err e) => (s1, .err e)
    | (s1, .wait) => (s1, .wait)

/-- A kernel fault of a copy: recorded with its LAUNCH and the word that issued it. -/
def copyFault (c : Nat) (x : Copy) (code : Nat) (s : State) : State :=
  let k := getCore s c
  let f := (kernelOf k x.seq).bind fun y => flightOf k y.tag
  let s1 := modTg s c fun t =>
    if t.fault.getLsbD 22 || k.regs.faultInfo != 0 then t else
      { t with fault := BitVec.ofNat 23 (2 ^ 22 + x.grp * 2 ^ 13 + b2n k.active * 2 ^ 12 + x.word % 4096) }
  let s2 := coreFault c code 3 (f.map fun y => y.tag) (match f with | some y => y.pc | none => pcWord k)
    (checkDetail code x.region) s1
  match f with
  | some y => modCore s2 c fun k => modFlight k y.tag fun z => { z with ph := .faulted }
  | none => s2

/-- CPYA_COMPLETE (R175): copy `i` of the core's copies in flight lands; one that meets a line held at its home waits. -/
def execCpyaComplete (c : CoreNo) (i : Nat) (s : State) : Out :=
  .next (
    let k := getCore s c.val
    match k.tg.copies[i]? with
    | none => s
    | some x =>
      if frozen s || k.resetting then s else
      let gone (s : State) : State := modTg s c.val fun t => { t with copies := t.copies.eraseIdx i }
      let r := match x.dst with
        | none => touchLines c.val x.cls (linesIn x.addr x.len) s
        | some d => copyTile c.val x.cls (x.len / 64 + 2) x.addr d x.len s
      match r with
      | (s1, .ok _) => releaseSigc c.val (addArrive c.val x.counter 1 (gone s1))
      | (s1, .err code) => copyFault c.val x code (gone s1)
      | (s1, .wait) => s1)

/-- FENCE in a kernel (R189): every access of this model is performed when its word issues, so the order it asks for holds
already. -/
def execKernelFence (c : CoreNo) (g : GroupNo) (w : ThreadWord) (s : State) : Out :=
  .next (threadStep c g 0x46 w (groupNext c.val g.val) s)

end Sys2Proof.Machine
end

