-- ==== Sys2Proof/Machine/ThreadFlow.lean ====
section
/-! DEFINITION. Divergence, barriers, counters and the life of groups and kernels (R154 to R158, R166 to R170, R176). -/
namespace Sys2Proof.Machine

/-- The top entry with a lane left, and the stack below it (R167). -/
def popMask : List (BitVec 32 × Nat) → Option ((BitVec 32 × Nat) × List (BitVec 32 × Nat))
  | [] => none
  | (m, w) :: r => if m = 0 then popMask r else some ((m, w), r)

/-- Target word of BRX and JMP (R161). -/
def flowTarget (w : ThreadWord) : Nat := mBits w 23 12
/-- Join word of BRX. -/
def flowJoin (w : ThreadWord) : Nat := mBits w 11 0

/-- BRX (R166). -/
def execBrx (c : CoreNo) (g : GroupNo) (w : ThreadWord) (s : State) : Out :=
  .next (threadStep c g 0x50 w (fun s =>
    let gr := getGroup (getCore s c.val) g.val
    let t := execLanes gr w
    let f := gr.act &&& ~~~t
    let split := t ≠ 0 ∧ f ≠ 0
    let pushed := if split then 2 else 1
    if gr.stack.length + gr.parked.length + pushed > 16 then kernelFault c.val g.val 0x26 0 0 s
    else
      let join := (gr.act, flowJoin w) :: gr.stack
      let st := if split then (f, gr.pc + 1) :: join else join
      let act := if split then t else gr.act
      let s1 := modGroup s c.val g.val fun x => { x with stack := st, act }
      groupGo c.val g.val (if t = 0 then gr.pc + 1 else flowTarget w) s1) s)

/-- JOIN (R167). -/
def execJoin (c : CoreNo) (g : GroupNo) (w : ThreadWord) (s : State) : Out :=
  .next (threadStep c g 0x51 w (fun s =>
    match popMask (getGroup (getCore s c.val) g.val).stack with
    | some ((m, p), r) => groupGo c.val g.val p (modGroup s c.val g.val fun x => { x with act := m, stack := r })
    | none => kernelFault c.val g.val 0x27 0 0 s) s)

/-- JMP. -/
def execJmp (c : CoreNo) (g : GroupNo) (w : ThreadWord) (s : State) : Out :=
  .next (threadStep c g 0x52 w (groupGo c.val g.val (flowTarget w)) s)

/-- Lanes that have arrived at a barrier. -/
def arrived (gr : Group) (b : Nat) : BitVec 32 := tblGet 0 gr.arrive b

/-- Completes barrier `b`: its arrival mask is cleared and its parked entries are pushed in the order parked (R169). -/
def completeBar (b : Nat) (gr : Group) : Group :=
  let mine := gr.parked.filter fun p => p.1 == b
  { gr with arrive := tblPut gr.arrive b 0
            parked := gr.parked.filter fun p => p.1 != b
            stack := (mine.map fun p => p.2).reverse ++ gr.stack }

/-- The set of barriers with a parked entry (R170). -/
def parkedSet (gr : Group) : Nat :=
  ((List.range 8).filter fun b => gr.parked.any fun p => p.1 == b).foldl (fun x b => x + 2 ^ b) 0

/-- BAR (R169, R170). -/
def execBar (c : CoreNo) (g : GroupNo) (w : ThreadWord) (s : State) : Out :=
  .next (threadStep c g 0x53 w (fun s =>
    let b := mBits w 7 0
    let gr := getGroup (getCore s c.val) g.val
    let r := arrived gr b ||| gr.act
    if r ||| gr.exited = BitVec.allOnes 32 then groupNext c.val g.val (modGroup s c.val g.val (completeBar b))
    else
      let gr1 := { gr with arrive := tblPut gr.arrive b r, parked := gr.parked ++ [(b, gr.act, gr.pc + 1)] }
      match popMask gr1.stack with
      | some ((m, p), st) => groupGo c.val g.val p (modGroup s c.val g.val fun _ => { gr1 with act := m, stack := st })
      | none => kernelFault c.val g.val 0x07 0 (parkedSet gr1) (modGroup s c.val g.val fun _ => { gr1 with act := 0, stack := [] })) s)

/-- Lets the barriers that an exit has made whole complete, in rising order (R169). -/
def exitBars (gr : Group) : Group :=
  (List.range 8).foldl (fun x b =>
    if arrived x b ≠ 0 ∧ arrived x b ||| x.exited = BitVec.allOnes 32 then completeBar b x else x) gr

/-- EXIT (R168, R169). When only lanes parked at barriers are left, none of which can complete, the group faults as R170
gives for parking (log 24). -/
def execExit (c : CoreNo) (g : GroupNo) (w : ThreadWord) (s : State) : Out :=
  .next (threadStep c g 0x56 w (fun s =>
    let gr := getGroup (getCore s c.val) g.val
    let out := execLanes gr w
    let keep := ~~~out
    let gr1 := exitBars { gr with
      act := gr.act &&& keep
      stack := gr.stack.map fun e => (e.1 &&& keep, e.2)
      parked := gr.parked.map fun p => (p.1, p.2.1 &&& keep, p.2.2)
      exited := gr.exited ||| out }
    let s1 := modGroup s c.val g.val fun _ => gr1
    if gr1.act ≠ 0 then groupNext c.val g.val s1
    else match popMask gr1.stack with
      | some ((m, p), st) => groupGo c.val g.val p (modGroup s1 c.val g.val fun x => { x with act := m, stack := st })
      | none => if parkedSet gr1 ≠ 0 then kernelFault c.val g.val 0x07 0 (parkedSet gr1) s1 else groupExit c.val g.val s1) s)

/-- WAITC in a kernel (R176). -/
def execKernelWaitc (c : CoreNo) (g : GroupNo) (w : ThreadWord) (s : State) : Out :=
  .next (threadStep c g 0x54 w (fun s =>
    let gr := getGroup (getCore s c.val) g.val
    let ctr := mBits w 27 24
    let thr := uGet gr w.a.toNat + BitVec.ofNat 32 (mBits w 23 0)
    if reached (ctrOf (getCore s c.val) ctr) thr then groupNext c.val g.val s
    else modGroup s c.val g.val fun x => { x with wait := .waitc ctr thr }) s)

/-- SIGC in a kernel (R176): with release set it first waits until the group's copies have completed. -/
def execKernelSigc (c : CoreNo) (g : GroupNo) (w : ThreadWord) (s : State) : Out :=
  .next (threadStep c g 0x55 w (fun s =>
    let k := getCore s c.val
    let gr := getGroup k g.val
    let ctr := mBits w 27 24
    let inc := mBits w 15 0
    if w.m.getLsbD 23 && k.tg.copies.any (fun x => x.grp == g.val && x.seq == gr.seq) then
      modGroup s c.val g.val fun x => { x with wait := .sigc ctr inc }
    else groupNext c.val g.val (if inc = 0 then s else addArrive c.val ctr inc s)) s)

/-- The state of a group at its start (R155). -/
def freshGroup (k : Core) (x : Kernel) (g : Nat) : Group :=
  { alive := true, seq := x.seq, pc := x.entry, act := BitVec.allOnes 32
    v := (List.range 32).map fun t => (t, BitVec.ofNat 32 t)
    u := (x.u.take 14).zipIdx.map (fun p => (p.2, p.1)) ++ [(14, BitVec.ofNat 32 g), (15, BitVec.ofNat 32 (k.image.getD 0))] }

/-- KERNEL_GROUP_START (R157): the oldest kernel whose group has not started takes the slot once it is free. -/
def execKernelGroupStart (c : CoreNo) (g : GroupNo) (s : State) : Out :=
  .next (
    let k := getCore s c.val
    match k.tg.kernels.find? fun x => !(x.started.getLsbD g.val) with
    | some x =>
      if frozen s || k.faulting || k.resetting || decide (k.st ≠ .run) || (getGroup k g.val).alive then s
      else
        let s1 := modTg s c.val fun t => { t with
          kernels := t.kernels.map fun y => if y.seq == x.seq then { y with started := y.started ||| BitVec.ofNat 16 (2 ^ g.val) } else y
          runSeq := if (t.kernels.head?.map fun y => y.seq) == some x.seq then x.seq else t.runSeq }
        let s2 := modGroup s1 c.val g.val fun _ => freshGroup k x g.val
        accxKick c.val (groupGo c.val g.val x.entry s2)
    | none => s)

/-- KERNEL_COMPLETE (R158): the oldest kernel has exited and its copies have landed; its LAUNCH is ready to pulse. -/
def execKernelComplete (c : CoreNo) (s : State) : Out :=
  .next (
    let k := getCore s c.val
    match k.tg.kernels with
    | x :: r =>
      match flightOf k x.tag with
      | some f =>
        if frozen s || k.resetting || decide (f.ph = .faulted) || decide (x.exited ≠ BitVec.allOnes 16)
            || k.tg.copies.any (fun y => y.seq == x.seq) then s
        else
          let s1 := modTg s c.val fun t => { t with
            kernels := r
            runSeq := match r with | y :: _ => (if y.started = 0 then t.runSeq else y.seq) | [] => t.runSeq }
          modCore s1 c.val fun k => modFlight k x.tag fun y => { y with ph := .done }
      | none => s
    | [] => s)

end Sys2Proof.Machine
end

