-- ==== Sys2Proof/Machine/Control.lean ====
section
/-! DEFINITION. The control stream: scalar, flow, synchronisation and system instructions, the issue of long instructions,
completion, and the states of a core (R90 to R117). -/
namespace Sys2Proof.Machine

/-! ### Scalar and flow instructions (R96 to R98) -/

/-- Meets a word again that the stream stalled at: a long instruction, or a reader of a register whose LDK had not returned. -/
def unstall (c : Nat) (s : State) : State :=
  match (getCore s c).stall with
  | .issue _ => modCore s c fun k => { k with stall := .none }
  | .ldk => modCore s c fun k => { k with stall := .none }
  | _ => s

/-- Runs `f` when the stream of a core would issue the word now. The scalar accesses before it go as far as their lines are free, and
a word that reads the register of an LDK still out waits for it (R98; log 8). -/
def shortStep (c : CoreNo) (w : BitVec 128) (f : State → State) (s : State) : State :=
  let s0 := unstall c.val s
  if !(atWord s0 c.val w) then s
  else
    let s1 := scalarDrain c.val s0
    if !(atWord s1 c.val w) then s1
    else if scalarWaits (getCore s1 c.val) w then modCore s1 c.val fun k => { k with stall := .ldk }
    else f s1

/-- The second operand: the immediate or kb. -/
def immOrK (k : Core) (useImm : Bool) (imm : Word64) (kb : BitVec 5) : Word64 := if useImm then imm else kGet k kb

/-- A register that is written again: an LDK of it that is still out leaves it alone. -/
def dropLoads (kd : BitVec 5) (k : Core) : Core :=
  { k with scalarq := k.scalarq.map fun x => if x.kd == some kd then { x with kd := some 0 } else x }

/-- Writes kd and goes on. -/
def setK (c : Nat) (kd : BitVec 5) (v : Word64) (s : State) : State := nextWord c (modCore s c fun k => kSet (dropLoads kd k) kd v)

/-- Jumps by a signed number of words. -/
def jump (c : Nat) (off : BitVec 16) (s : State) : State :=
  goTo c ((getCore s c).pc + BitVec.signExtend 15 (off ++ 0#4)) s

/-- ADDK. -/
def execAddk (c : CoreNo) (kd ka kb : BitVec 5) (useImm : Bool) (imm : Word64) (s : State) : Out :=
  .next (shortStep c (shortBits 0x01 0 { flag := useImm, kd, ka, kb, imm }) (fun s =>
    let k := getCore s c.val
    setK c.val kd (kGet k ka + immOrK k useImm imm kb) s) s)

/-- SUBK. -/
def execSubk (c : CoreNo) (kd ka kb : BitVec 5) (useImm : Bool) (imm : Word64) (s : State) : Out :=
  .next (shortStep c (shortBits 0x02 0 { flag := useImm, kd, ka, kb, imm }) (fun s =>
    let k := getCore s c.val
    setK c.val kd (kGet k ka - immOrK k useImm imm kb) s) s)

/-- Whether a condition of BC holds. -/
def bcCond (cond : BitVec 3) (a b : Word64) : Bool :=
  match cond.toNat with
  | 0 => a == b
  | 1 => a != b
  | 2 => BitVec.slt a b
  | 3 => !(BitVec.slt a b)
  | 4 => BitVec.ult a b
  | 5 => !(BitVec.ult a b)
  | _ => false

/-- B. -/
def execB (c : CoreNo) (off : BitVec 16) (s : State) : Out :=
  .next (shortStep c (shortBits 0x05 0 { imm := off.zeroExtend 64 }) (jump c.val off) s)

/-- BC: the compare value is 48 bits, sign-extended. -/
def execBc (c : CoreNo) (ka kb : BitVec 5) (cond : BitVec 3) (useImm : Bool) (cmp : BitVec 48) (off : BitVec 16) (s : State) : Out :=
  .next (shortStep c (shortBits 0x06 0 { flag := useImm, ka, kb, cond, imm := cmp ++ off }) (fun s =>
    let k := getCore s c.val
    if bcCond cond (kGet k ka) (if useImm then cmp.signExtend 64 else kGet k kb) then jump c.val off s else nextWord c.val s) s)

/-- LOOP (R96, R97). -/
def execLoop (c : CoreNo) (kd : BitVec 5) (off : BitVec 16) (s : State) : Out :=
  .next (shortStep c (shortBits 0x07 0 { kd, imm := off.zeroExtend 64 }) (fun s =>
    let k := getCore s c.val
    if kGet k kd = 0 then jump c.val off s else setK c.val kd (kGet k kd - 1) s) s)

/-- The checks of R98 before the memory outcome: the code and detail that fail. -/
def scalarCheck (k : Core) (region : Nat) (perm off : Nat) : Option (Nat × Nat) :=
  if off % 8 ≠ 0 then some (0x22, 0)
  else match regionCheck k region perm off 8 with
    | some code => some (code, region)
    | none => none

/-- A fault of a short instruction: tag_valid clear, its engine, its own offset. -/
def shortFault (c code eng detail : Nat) (s : State) : State := coreFault c code eng none (pcWord (getCore s c)) detail s

/-- Issues a scalar access: it goes at once, or waits behind those before it or for its line while the stream goes on (R98). -/
def scalarIssue (c : Nat) (x : ScalarAcc) (s : State) : State :=
  let s1 := scalarDrain c (modCore s c fun k => { k with scalarq := k.scalarq ++ [x] })
  if (getCore s1 c).faulting then s1 else nextWord c s1

/-- LDK (R98). -/
def execLdk (c : CoreNo) (kd ka : BitVec 5) (region : BitVec 6) (imm : Word64) (s : State) : Out :=
  .next (shortStep c (shortBits 0x03 0 { kd, ka, region, imm }) (fun s =>
    let k := getCore s c.val
    let off := (kGet k ka + imm).toNat
    match scalarCheck k region.toNat permR off with
    | some (code, d) => shortFault c.val code 0 d s
    | none =>
      let a := regionAddr k region.toNat off
      if deadHit k.dead a 8 then shortFault c.val 0x03 0 0 s
      else scalarIssue c.val { pc := pcWord k, kd := some kd, region := region.toNat, addr := a
                               cls := rgClass (regionOf k region.toNat), value := 0 } s) s)

/-- STK (R98, R249). -/
def execStk (c : CoreNo) (ka kb : BitVec 5) (region : BitVec 6) (imm : Word64) (s : State) : Out :=
  .next (shortStep c (shortBits 0x04 0 { ka, kb, region, imm }) (fun s =>
    let k := getCore s c.val
    let off := (kGet k ka + imm).toNat
    match scalarCheck k region.toNat permW off with
    | some (code, d) => shortFault c.val code 0 d s
    | none =>
      let a := regionAddr k region.toNat off
      scalarIssue c.val { pc := pcWord k, kd := none, region := region.toNat, addr := a, cls := rgClass (regionOf k region.toNat)
                          value := kGet k kb } (modCore s c.val fun k => { k with dead := deadRemove k.dead a 8 })) s)

/-! ### Issue of long instructions (R103 to R107) -/

/-- Queue depth of an engine (R105). -/
def queueDepth (eng : Nat) : Nat := if eng = 2 ∨ eng = 5 then 4 else if eng = 3 then 2 else 8

/-- Why a long word may not issue: 2 busy tag, 1 hazard, 3 full queue. Where several hold, the first in this order is shown (log 49). -/
def blockReason (k : Core) (w : BitVec 128) : Option Nat :=
  if k.flights.any fun f => f.tag == wTag w then some 2
  else if k.flights.any fun f =>
      pagesOverlap (wWr f.word) (wRda w) || pagesOverlap (wWr f.word) (wRdb w) || pagesOverlap (wWr f.word) (wWr w)
        || pagesOverlap (wRda f.word) (wWr w) || pagesOverlap (wRdb f.word) (wWr w) then some 1
  else if (k.flights.filter fun f => f.eng == wEng w).length ≥ queueDepth (wEng w) then some 3
  else none

/-- The flight that issue makes (R94, R107). -/
def newFlight (k : Core) (w : BitVec 128) : Flight :=
  { tag := wTag w, eng := wEng w, word := w, pc := pcWord k, desc := descOf k (wDesc w)
    ka := kGet k (BitVec.ofNat 5 (bitsOf w.toNat 55 51)), kb := kGet k (BitVec.ofNat 5 (bitsOf w.toNat 50 46))
    fpctl := k.regs.fpctl, seed := k.regs.seedHi ++ k.regs.seedLo }

/-- A MOVE at issue: the lowest free channel, the bank that is standby now, its ordinal among the MOVEs into the input queue; the
dead ranges that its destination meets are gone (R210, R108, R135, R249). A MOVE whose fault has been raised holds no channel. -/
def moveAtIssue (k : Core) (f : Flight) : Core × Flight :=
  let used := (k.flights.filter fun x => x.eng == 1 && decide (x.ph ≠ .faulted)).map fun x => x.chan
  let chan := ((List.range 8).find? fun i => !(used.contains i)).getD 0
  let kind := dBits f.desc 24 22
  let bank := if kind = 2 then some (!k.active) else none
  let feeds := decide (kind = 3)
  let n := if feeds then k.arr.feedMoves + 1 else k.arr.feedMoves
  ({ k with arr := { k.arr with feedMoves := n }, dead := moveDead k f },
   { f with chan, ord := if feeds then n else 0, aux := .move { bank } })

/-- An MMA or CONV at issue: its ordinal among the stream-feed passes, whether its chain is legal and continues lines
(R129), and whether it has nothing to do: then it is done without the checks of a pass (log 49). -/
def passAtIssue (k : Core) (f : Flight) : Core × Flight :=
  let d := passDesc f
  let n := if d.stream then k.arr.feedPasses + 1 else k.arr.feedPasses
  let lanes := lanesOf d.aFmt
  let legal := match k.arr.prev with
    | some (a, m, l) => l == lanes && d.aAddr == a + 64 * m
    | none => false
  let prevM := match k.arr.prev with | some (_, m, _) => m | none => 0
  let prev := if d.conv || d.stream then none else some (d.aAddr, d.rows, lanes)
  let empty := d.rows = 0 ∨ d.passes = 0
  ({ k with arr := { k.arr with feedPasses := n, prev } },
   { f with ord := if d.stream then n else 0, chainOk := !d.chain || legal, chained := d.chain && legal && decide (prevM ≠ 0)
            ph := if empty then .done else .queued })

/-- The kernel of the most recent LAUNCH, unless it has ended. -/
def drainTarget (k : Core) : Option Kernel := if k.tg.nextSeq = 0 then none else kernelOf k (k.tg.nextSeq - 1)

/-- An ACCX at issue: a DRAIN makes its register block pending (R149). One without rows is done without a check (log 49). -/
def accxAtIssue (k : Core) (f : Flight) (bad : Option (Nat × Nat)) : Core × Flight :=
  let w := f.word.toNat
  let k1 := { k with arr := { k.arr with prev := none } }
  let f1 := { f with aux := .accx bad, ph := if bitsOf w 34 25 = 0 then .done else .queued }
  if bitsOf w 45 44 = 0 ∧ bitsOf w 34 25 ≠ 0 then
    match drainTarget k with
    | some x =>
      let p : DrainPend := { seq := x.seq, grp := bitsOf w 24 21, vbase := bitsOf w 20 15, rows := bitsOf w 34 25, tag := f.tag }
      ({ k1 with tg := { k1.tg with pend := k1.tg.pend ++ [p] } }, { f1 with ord := x.seq.toNat })
    | none => (k1, { f1 with flt := some (0x25, bitsOf w 24 21) })
  else (k1, f1)

/-- A LAUNCH at issue: its kernel, with ka added to u0 and kb to u1 (R156, R157). -/
def launchAtIssue (k : Core) (f : Flight) : Core × Flight :=
  let u := (List.range 14).map fun i =>
    let x := dBits f.desc (64 + 32 * i + 31) (64 + 32 * i)
    BitVec.ofNat 32 (if i = 0 then x + f.ka.toNat else if i = 1 then x + f.kb.toNat else x)
  let kn : Kernel := { tag := f.tag, seq := k.tg.nextSeq, entry := dBits f.desc 19 8, u }
  ({ k with tg := { k.tg with kernels := k.tg.kernels ++ [kn], nextSeq := k.tg.nextSeq + 1 } }, f)

/-- What issue does for each engine. -/
def atIssue (bad : Option (Nat × Nat)) (k : Core) (f : Flight) : Core × Flight :=
  match wOpc f.word with
  | 0x10 => moveAtIssue k f
  | 0x20 => passAtIssue k f
  | 0x21 => passAtIssue k f
  | 0x22 => accxAtIssue k f bad
  | 0x30 => launchAtIssue k f
  | 0x40 => (credAtIssue k f, f)
  | _ => (deadAtIssue k f, f)

/-- Runs the instruction at the head of the comb port: the next one starts once it has pulsed or faulted (R246, R116). -/
def runComb (c : Nat) (f : Flight) (s : State) : State :=
  match wOpc f.word with
  | 0x40 => runCred c f s
  | 0x41 => runCfin c f s
  | 0x42 => runUpd c f s
  | _ => runLineOp c f s

/-- The comb-port instructions of a core that have not faulted, in issue order. -/
def combFlights (k : Core) : List Flight := k.flights.filter fun f => f.eng == 4 && decide (f.ph ≠ .faulted)

/-- Starts the comb port's head, or takes it further after a wait; a fault lets the next one start. -/
def combKick (c : Nat) : Nat → State → State
  | 0, s => s
  | n + 1, s =>
    match combFlights (getCore s c) with
    | [] => s
    | f :: _ =>
      let more : Bool := match f.ph, f.aux with
        | .queued, _ => true
        | .started, .upd _ => false
        | .started, _ => true
        | _, _ => false
      if more then
        let s1 := runComb c f s
        match flightOf (getCore s1 c) f.tag with
        | some x => if x.ph = .faulted then combKick c n s1 else s1
        | none => s1
      else s

/-- Issues the long word `w` of a core, or stalls at it. One whose descriptor has another type faults without issuing: the fault names
its tag, which is not in flight (log 49). -/
def issueLong (c : Nat) (w : BitVec 128) (bad : Option (Nat × Nat)) (s : State) : State :=
  let k := getCore s c
  let mismatch : Bool := match descType w with
    | some t => descOf k (wDesc w) % 256 != BitVec.ofNat 512 t
    | none => false
  if mismatch then coreFault c 0x0E (wEng w) (some (wTag w)) (pcWord k) 0 s
  else match blockReason k w with
  | some r => modCore s c fun k => { k with stall := .issue r }
  | none =>
    let p := atIssue bad k (newFlight k w)
    let s1 := putCore s c { p.1 with flights := p.1.flights ++ [p.2] }
    match p.2.flt with
    | some (code, d) => accxFault c p.2 code d (BitVec.allOnes 32) s1
    | none =>
      let s2 := nextWord c s1
      if wEng w = 4 then combKick c 8 s2 else if wEng w = 2 then accxKick c s2 else s2

/-- A command that issues a long word: the word stands at the stream's offset, reached now or stalled at. -/
def longStep (c : CoreNo) (w : BitVec 128) (bad : Option (Nat × Nat)) (s : State) : State := shortStep c w (issueLong c.val w bad) s

/-- The entry and column that an upset of the accumulator memory makes uncorrectable. -/
def badOf (u : Option AccUpset) : Option (Nat × Nat) := u.map fun x => (x.entry.toNat, x.column.toNat)

/-- MOVE (R195). -/
def execMove (c : CoreNo) (w : LongWord) (s : State) : Out := .next (longStep c (longBits 0x10 1 w) none s)
/-- MMA (R125). -/
def execMma (c : CoreNo) (w : LongWord) (s : State) : Out := .next (longStep c (longBits 0x20 2 w) none s)
/-- CONV (R140). -/
def execConv (c : CoreNo) (w : LongWord) (s : State) : Out := .next (longStep c (longBits 0x21 2 w) none s)
/-- ACCX with op in [45:44] (R148). -/
def accxStep (op : Nat) (c : CoreNo) (w : LongWord) (u : Option AccUpset) (s : State) : State :=
  if bitsOf w.low.toNat 45 44 = op then longStep c (longBits 0x22 2 w) (badOf u) s else s
/-- ACCX DRAIN (R149). -/
def execAccxDrain (c : CoreNo) (w : LongWord) (u : Option AccUpset) (s : State) : Out := .next (accxStep 0 c w u s)
/-- ACCX STORE (R150). -/
def execAccxStore (c : CoreNo) (w : LongWord) (u : Option AccUpset) (s : State) : Out := .next (accxStep 1 c w u s)
/-- ACCX LOAD (R150). -/
def execAccxLoad (c : CoreNo) (w : LongWord) (s : State) : Out := .next (accxStep 2 c w none s)
/-- LAUNCH (R156). -/
def execLaunch (c : CoreNo) (w : LongWord) (s : State) : Out := .next (longStep c (longBits 0x30 3 w) none s)
/-- CRED (R266). -/
def execCred (c : CoreNo) (w : LongWord) (s : State) : Out := .next (longStep c (longBits 0x40 4 w) none s)
/-- CFIN (R268). -/
def execCfin (c : CoreNo) (w : LongWord) (s : State) : Out := .next (longStep c (longBits 0x41 4 w) none s)
/-- UPD (R275). -/
def execUpd (c : CoreNo) (w : LongWord) (s : State) : Out := .next (longStep c (longBits 0x42 4 w) none s)
/-- KILL (R247). -/
def execKill (c : CoreNo) (w : LongWord) (s : State) : Out := .next (longStep c (longBits 0x43 4 w) none s)
/-- REVIVE (R249). -/
def execRevive (c : CoreNo) (w : LongWord) (s : State) : Out := .next (longStep c (longBits 0x44 4 w) none s)
/-- FLUSH with a mode in [45:44] (R245). -/
def flushStep (mode : Nat) (c : CoreNo) (w : LongWord) (s : State) : State :=
  if bitsOf w.low.toNat 45 44 = mode then longStep c (longBits 0x45 4 w) none s else s
/-- FLUSH, mode 0. -/
def execFlushKeep (c : CoreNo) (w : LongWord) (s : State) : Out := .next (flushStep 0 c w s)
/-- FLUSH, mode 1. -/
def execFlushInvalidate (c : CoreNo) (w : LongWord) (s : State) : Out := .next (flushStep 1 c w s)

/-- COLL whose descriptor holds operation `op` (R344, R351); one whose operation is undefined is issued by any of the six
commands, and refused when the collective engine takes it. -/
def collStep (op : Nat) (c : CoreNo) (w : LongWord) (s : State) : State :=
  let o := dBits (descOf (getCore s c.val) w.desc.toNat) 10 8
  if o = op ∨ o > 5 then longStep c (longBits 0x50 5 w) none s else s

/-- COLL, all-reduce. -/
def execCollAllReduce (c : CoreNo) (w : LongWord) (s : State) : Out := .next (collStep 0 c w s)
/-- COLL, reduce-scatter. -/
def execCollReduceScatter (c : CoreNo) (w : LongWord) (s : State) : Out := .next (collStep 1 c w s)
/-- COLL, all-gather. -/
def execCollAllGather (c : CoreNo) (w : LongWord) (s : State) : Out := .next (collStep 2 c w s)
/-- COLL, all-to-all. -/
def execCollAllToAll (c : CoreNo) (w : LongWord) (s : State) : Out := .next (collStep 3 c w s)
/-- COLL, broadcast. -/
def execCollBroadcast (c : CoreNo) (w : LongWord) (s : State) : Out := .next (collStep 4 c w s)
/-- COLL, shard gather. -/
def execCollShardGather (c : CoreNo) (w : LongWord) (s : State) : Out := .next (collStep 5 c w s)

/-! ### Completion (R104) -/

/-- Lets a stalled FENCE go on once no tag of its mask is in flight, and with mem no scalar access before it is out. -/
def releaseFence (c : Nat) (s : State) : State :=
  let k := getCore s c
  match k.stall with
  | .fence m mem =>
    if streamRuns k && !(k.flights.any fun f => m.getLsbD f.tag) && (!mem || k.scalarq.isEmpty) then nextWord c s else s
  | _ => s

/-- Takes up again the scalar accesses of a core, and what has waited for them. -/
def settleScalars (c : Nat) (s : State) : State :=
  if (getCore s c).scalarq.isEmpty then s else
  let s1 := scalarDrain c s
  let k := getCore s1 c
  match k.stall with
  | .ldk => if scalarWaits k (wordAt k) then s1 else modCore s1 c fun k => { k with stall := .none }
  | .fence _ _ => releaseFence c s1
  | _ => s1

/-- SCOREBOARD_ISSUE (R103): the stalled long instruction tries again; what waits for a scalar access goes on when it has returned. -/
def execScoreboardIssue (c : CoreNo) (s : State) : Out :=
  .next (
    if frozen s then s else
    let s1 := settleScalars c.val s
    let k := getCore s1 c.val
    match k.stall with
    | .issue _ => longStep c (wordAt k) none s1
    | _ => s1)

/-- Whether an instruction's turn to pulse has come: array instructions execute in their order, but a pass need not wait for an ACCX that
runs on other entries (R105, R125, R151). -/
def pulseTurn (k : Core) (f : Flight) : Bool :=
  let before := beforeTag (arrFlights k) f.tag
  if f.eng ≠ 2 then true
  else if wOpc f.word = 0x22 then before.isEmpty
  else if (passDesc f).rows = 0 ∨ (passDesc f).passes = 0 then before.isEmpty
  else before.all fun g => wOpc g.word == 0x22 && bitsOf g.word.toNat 34 25 != 0

/-- EVENT_PULSE (R104): the instruction with a tag, if it has done its work in its turn, completes; one that was held up goes
on first. -/
def execEventPulse (c : CoreNo) (tag : BitVec 5) (s : State) : Out :=
  .next (
    let k0 := getCore s c.val
    if frozen s || k0.resetting then s else
    let s1 := match flightOf k0 tag.toNat with
      | some f =>
        if f.eng = 4 then combKick c.val 8 s else if f.eng = 2 then accxKick c.val s
        else if f.eng = 5 then collRetry c.val tag.toNat s else s
      | none => s
    let k := getCore s1 c.val
    match flightOf k tag.toNat with
    | none => s1
    | some f =>
      if decide (f.ph ≠ .done) || !(pulseTurn k f) then s1
      else
        let s2 := modCore s1 c.val fun k => { k with flights := k.flights.filter fun x => x.tag != f.tag }
        let s3 := match f.aux with | .upd p => updRegs c.val p p.outcome s2 | _ => s2
        let s4 := if f.eng = 4 then combKick c.val 8 s3 else if f.eng = 2 then accxKick c.val s3 else s3
        releaseFence c.val s4)

/-! ### Synchronisation and system instructions (R99 to R102, R109) -/

/-- WAITC (R99). -/
def execWaitc (c : CoreNo) (ctr : BitVec 4) (ka : BitVec 5) (imm : Word32) (s : State) : Out :=
  .next (shortStep c (waitcBits ctr ka imm) (fun s =>
    let k := getCore s c.val
    let thr : Word32 := (kGet k ka).truncate 32 + imm
    if reached (ctrOf k ctr.toNat) thr then nextWord c.val s
    else modCore s c.val fun k => { k with stall := .waitc ctr.toNat thr }) s)

/-- The unit generation of a core's site (R442). -/
def coreGen (s : State) (c : Nat) : Byte :=
  match siteOf s c with
  | some k => tblGet 0 s.pwr.siteGen k
  | none => 0

/-- Whether a core's site has power. -/
def coreUp (s : State) (c : Nat) : Bool :=
  match siteOf s c with
  | some k => decide ((getFp s (k / 54)).compute = .on)
  | none => false

/-- Sends an increment (R100): to the core itself, or to the logical core that the translation gives. An index without a
translation reaches no core (log 24). -/
def sigcSend (c target ctr inc : Nat) (s : State) : State :=
  if inc = 0 then nextWord c s
  else if target = 0x7FF then
    nextWord c { s with sigs := s.sigs ++ [{ target := c, counter := ctr, inc, gen := none, sender := c }] }
  else match (getCore s c).xlat.find? fun x => x.1 == target with
    | none => nextWord c s
    | some (_, l, g) =>
      if !(coreUp s l) then shortFault c 0x0D 6 0 s
      else nextWord c { s with sigs := s.sigs ++ [{ target := l, counter := ctr, inc, gen := some g, sender := c }] }

/-- Whether a release of the stream must still wait: a long instruction or a copy has not ended, or an STK is not yet visible (R100). -/
def releaseHeld (k : Core) : Bool := !(k.flights.isEmpty && k.tg.copies.isEmpty && k.scalarq.all fun x => x.kd.isSome)

/-- SIGC (R100). -/
def execSigc (c : CoreNo) (release : Bool) (target : BitVec 11) (ctr : BitVec 4) (inc : BitVec 16) (s : State) : Out :=
  .next (shortStep c (sigcBits release target ctr inc) (fun s =>
    if release && inc != 0 && releaseHeld (getCore s c.val) then
      modCore s c.val fun k => { k with stall := .sigc target.toNat ctr.toNat inc.toNat }
    else sigcSend c.val target.toNat ctr.toNat inc.toNat s) s)

/-- SIGC_RELEASE_SEND (R100). -/
def execSigcReleaseSend (c : CoreNo) (s : State) : Out :=
  .next (
    if frozen s then s else
    let s1 := settleScalars c.val s
    let k := getCore s1 c.val
    match k.stall with
    | .sigc t ctr inc => if !(streamRuns k) || releaseHeld k then s1 else sigcSend c.val t ctr inc s1
    | _ => s1)

/-- SIGC_ARRIVAL (R101, R443): increment `i` of those on their way arrives. One that names another generation is dropped and
counted by the region controller of its target. -/
def execSigcArrival (i : Nat) (s : State) : Out :=
  .next (
    match s.sigs[i]? with
    | none => s
    | some x =>
      if frozen s then s else
      let s1 := { s with sigs := s.sigs.eraseIdx i }
      let stale : Bool := match x.gen with | some g => g != coreGen s x.target | none => false
      if stale then
        let s2 := modRegs s1 x.sender fun r => { r with cause := r.cause ||| 0x10 }
        match siteOf s x.target with
        | some k => modRgn s2 (k / 54) fun r => { r with genDropSet := true, genDrop := satInc r.genDrop 1 }
        | none => s2
      else addArrive x.target x.counter x.inc s1)

/-- SWITCH (R109): requested; the banks swap once nothing runs from the active bank. -/
def execSwitch (c : CoreNo) (entry : BitVec 15) (s : State) : Out :=
  .next (shortStep c (shortBits 0x70 7 { imm := entry.zeroExtend 64 }) (fun s =>
    modCore s c.val fun k => { k with stall := .switch entry.toNat }) s)

/-- Whether a MOVE in flight writes a physical bank. -/
def writesBank (k : Core) (b : Bool) : Bool :=
  k.flights.any fun f => decide (f.ph ≠ .faulted) && (progOf f).bank == some b

/-- Whether a thread group runs or a LAUNCH is queued. -/
def groupsBusy (k : Core) : Bool := !k.tg.kernels.isEmpty || k.tg.groups.any fun g => g.2.alive

/-- SWITCH_TAKES_EFFECT (R109). -/
def execSwitchTakesEffect (c : CoreNo) (s : State) : Out :=
  .next (
    let k := getCore s c.val
    match k.stall with
    | .switch e =>
      if frozen s || !(streamRuns k) || groupsBusy k || writesBank k (!k.active) || !(k.scalarq.isEmpty) then s
      else if !(standbyValid k) then shortFault c.val 0x24 7 0 s
      else goTo c.val (BitVec.ofNat 15 e) (modCore s c.val fun k => { k with active := !k.active })
    | _ => s)

/-- FENCE (R102). -/
def execFence (c : CoreNo) (mem : Bool) (mask : Word32) (s : State) : Out :=
  .next (shortStep c (shortBits 0x71 7 { flag := mem, imm := mask.zeroExtend 64 }) (fun s =>
    releaseFence c.val (modCore s c.val fun k => { k with stall := .fence mask mem })) s)

/-- TRAP (R102). -/
def execTrap (c : CoreNo) (code : BitVec 16) (s : State) : Out :=
  .next (shortStep c (shortBits 0x72 7 { imm := code.zeroExtend 64 }) (shortFault c.val 0x21 7 code.toNat) s)

/-- HALT (R102): issue stops behind it. -/
def execHalt (c : CoreNo) (s : State) : Out :=
  .next (shortStep c (shortBits 0x73 7 {}) (fun s =>
    modCore s c.val fun k => { k with stall := .halt, pc := k.pc + 16 }) s)

/-! ### Core states and faults (R115 to R117) -/

/-- CORE_ENTER_HALTED (R102, R115). A word stalled at under a halt request has not issued, and is met again on resuming
(log 30). -/
def execCoreEnterHalted (c : CoreNo) (s : State) : Out :=
  .next (
    let k := getCore s c.val
    if frozen s || k.resetting || decide (k.st ≠ .run) || k.faulting || !(decide (k.stall = .halt) || k.haltReq)
        || !k.flights.isEmpty || groupsBusy k || !(k.scalarq.isEmpty) then s
    else modCore s c.val fun k =>
      { k with st := .halted, stall := .none, haltReq := false, regs := { k.regs with cause := k.regs.cause ||| 2 } })

/-- CORE_ENTER_FAULTED (R116): the groups of a kernel stop at their next word, so a LAUNCH keeps nothing in flight
(log 31). -/
def execCoreEnterFaulted (c : CoreNo) (s : State) : Out :=
  .next (
    let k := getCore s c.val
    if frozen s || k.resetting || decide (k.st ≠ .run) || !k.faulting
        || k.flights.any (fun f => decide (f.ph ≠ .faulted) && f.eng != 3) || !(k.scalarq.isEmpty) then s
    else modCore s c.val fun k =>
      { k with st := .faulted, stall := .none, haltReq := false, faulting := false
               regs := { k.regs with cause := k.regs.cause ||| 1 } })

/-- The stall reason that CORE_STAT shows (R122). -/
def stallCode (k : Core) : Nat :=
  if k.haltReq && decide (k.st = .run) then 8 else
  match k.stall with
  | .none => 0
  | .issue r => r
  | .waitc _ _ => 4
  | .fence _ _ => 5
  | .switch _ => 6
  | .ldk => 7
  | .halt => 8
  | .sigc _ _ _ => 9

/-- WATCHDOG_EXPIRED (R117): a stall has lasted CORE_WDOG.limit units; the commands carry no time, so the sender says when
(log 14). -/
def execWatchdogExpired (c : CoreNo) (s : State) : Out :=
  .next (
    let k := getCore s c.val
    if frozen s || k.resetting || decide (k.st ≠ .run) || k.faulting || decide (k.regs.wdog = 0) || stallCode k == 0 then s
    else
      let at_ := if k.stall = .halt then { k with pc := k.pc - 16 } else k
      coreFault c.val 0x20 (wEng (wordAt at_)) none (pcWord at_) (stallCode k) s)

end Sys2Proof.Machine
end

