-- ==== Sys2Proof/Machine/CoreRegs.lean ====
section
/-! DEFINITION. The control-space registers of a core that act on it (R72, R89, R101, R107, R108, R114, R115, R122, R153). -/
namespace Sys2Proof.Machine

/-! ### Start and halt (R115, R122) -/

/-- A start: from LOADED the banks swap and the stream begins at the entry; from HALTED it goes on at CORE_PC. Elsewhere, and
on a purged device (R472), it is ignored. -/
def startCore (c : Nat) (s : State) : State :=
  let k := getCore s c
  if s.sec.purged || k.resetting then s
  else match k.st with
  | .loaded => fetchCheck c (modCore s c fun k => { k with st := .run, active := !k.active, pc := k.regs.entry, stall := .none, haltReq := false })
  | .halted => fetchCheck c (modCore s c fun k => { k with st := .run, stall := .none, haltReq := false })
  | _ => s

/-- A write of CORE_CTL (R115, R122): entry, then start, then the halt request; a halt request outside RUN is ignored. -/
def writeCoreCtl (c : Nat) (v : Word32) (s : State) : State :=
  let s1 := modRegs s c fun r => { r with entry := BitVec.ofNat 15 (v.toNat &&& 0x7FF0) }
  let run := decide ((getCore s1 c).st = .run)
  let s2 := if v.getLsbD 0 then startCore c s1 else s1
  written (if v.getLsbD 1 && run then modCore s2 c fun k => { k with haltReq := true } else s2)

/-- CORE_START (R115): a write of CORE_CTL with start. -/
def execCoreStart (by_ : By) (c : CoreNo) (v : Word32) (s : State) : Out :=
  .next (ctlCore by_ false c.val (writeCoreCtl c.val (v ||| 1)) s)

/-- CORE_HALT_REQUEST (R115): a write of CORE_CTL with halt_req. -/
def execCoreHaltRequest (by_ : By) (c : CoreNo) (v : Word32) (s : State) : Out :=
  .next (ctlCore by_ false c.val (writeCoreCtl c.val (v ||| 2)) s)

/-! ### Memories behind address registers (R107, R108, R122, R153) -/

/-- An access of CORE_IMEM_DATA: a write to the active bank is refused, and the word does not advance; one to the standby bank makes
it invalid (R108, R110). -/
def imemData (c : Nat) (wr : Option Word32) (s : State) : State :=
  let k := getCore s c
  let b := k.regs.imemBank
  let a := 4 * k.regs.imemWord.toNat
  let next (s : State) : State := modRegs s c fun r => { r with imemWord := r.imemWord + 1 }
  match wr with
  | none => readAs (BitVec.ofNat 32 (memRead (bankMem k b) a 4)) (next s)
  | some v =>
    if b = k.active then refuse (logEvent 0x08 (coreSrc s c) 0 (modRegs s c fun r => { r with cause := r.cause ||| 8 }))
    else written (next (modCore s c fun k => setValid (setBank k b (memWrite (bankMem k b) a 4 v.toNat)) b false))

/-- CORE_IMEM_DATA_ACCESS (R108). -/
def execCoreImemDataAccess (by_ : By) (c : CoreNo) (wr : Option Word32) (s : State) : Out :=
  .next (ctlCore by_ false c.val (imemData c.val wr) s)

/-- An access of CORE_DESC_DATA, in any core state (R107). -/
def descData (c : Nat) (wr : Option Word32) (s : State) : State :=
  let k := getCore s c
  let a := 4 * k.regs.descWord.toNat
  let next (s : State) : State := modRegs s c fun r => { r with descWord := r.descWord + 1 }
  match wr with
  | none => readAs (BitVec.ofNat 32 (memRead k.descMem a 4)) (next s)
  | some v => written (next (modCore s c fun k => { k with descMem := memWrite k.descMem a 4 v.toNat }))

/-- CORE_DESC_DATA_ACCESS (R107). -/
def execCoreDescDataAccess (by_ : By) (c : CoreNo) (wr : Option Word32) (s : State) : Out :=
  .next (ctlCore by_ false c.val (descData c.val wr) s)

/-- Half of a 64-bit value. -/
def half (hi : Bool) (x : Word64) : Word32 := BitVec.ofNat 32 (if hi then x.toNat / 2 ^ 32 else x.toNat)
/-- A 64-bit value with a half replaced. -/
def setHalf (hi : Bool) (x : Word64) (v : Word32) : Word64 := BitVec.ofNat 64 (setField x.toNat v.toNat 32 (if hi then 32 else 0))

/-- An access of CORE_KREG_LO or CORE_KREG_HI (R122). -/
def kregAccess (c : Nat) (hi : Bool) (wr : Option Word32) (s : State) : State :=
  let k := getCore s c
  let r := k.regs.kregSel
  if k.st = .run then refuse s
  else match wr with
  | none => readAs (half hi (kGet k r)) s
  | some v => written (modCore s c fun k => kSet k r (setHalf hi (kGet k r) v))

/-- CORE_KREG_ACCESS (R122). -/
def execCoreKregAccess (by_ : By) (c : CoreNo) (hi : Bool) (wr : Option Word32) (s : State) : Out :=
  .next (ctlCore by_ false c.val (kregAccess c.val hi wr) s)

/-- An access of CORE_ACC_DATA (R153). -/
def accData (c : Nat) (wr : Option Word32) (s : State) : State :=
  let k := getCore s c
  let i := k.arr.accAddr.toNat
  let next (s : State) : State := modArr s c fun a => { a with accAddr := a.accAddr + 1 }
  if k.st = .run then refuse s
  else match wr with
  | none => readAs (tblGet 0 k.arr.acc i) (next s)
  | some v => written (next (modArr s c fun a => { a with acc := tblPut a.acc i v }))

/-- CORE_ACC_DATA_ACCESS (R153). -/
def execCoreAccDataAccess (by_ : By) (c : CoreNo) (wr : Option Word32) (s : State) : Out :=
  .next (ctlCore by_ false c.val (accData c.val wr) s)

/-! ### Arrival counters, the region table, settings and the seed (R72, R89, R101, R114) -/

/-- A write of CORE_ARRIVE[ctr]: it leaves the written value plus the increments of the same cycle. -/
def writeArrive (c ctr : Nat) (v : Word32) (same : List Nat) (s : State) : State :=
  written (same.foldl (fun s n => addArrive c ctr n s) (setArrive c ctr v s))

/-- CORE_ARRIVE_WRITE (R101): `same` are the increments that reach the counter in the same core cycle (log 11). -/
def execCoreArriveWrite (by_ : By) (c : CoreNo) (ctr : BitVec 4) (v : Word32) (same : List Nat) (s : State) : Out :=
  .next (ctlCore by_ false c.val (writeArrive c.val ctr.toNat v same) s)

/-- What a word of a region-table entry stores: the reserved bits [109:107] and [127:112] of the last word read zero (R6, R111). -/
def regionStored (w : Nat) (v : Word32) : Word32 := if w = 3 then v &&& 0xC7FF else v

/-- A write of word `w` of region-table entry `i` (R111, R114). -/
def writeRegion (c i w : Nat) (v : Word32) (s : State) : State :=
  let k := getCore s c
  let e : BitVec 128 := BitVec.ofNat 128 (setField (regionOf k i).toNat (regionStored w v).toNat 32 (32 * w))
  if k.st = .run ∨ k.st = .faulted then refuse s
  else written (modCore s c fun k => { k with regions := tblPut k.regions i e })

/-- REGION_TABLE_WRITE (R114). -/
def execRegionTableWrite (by_ : By) (c : CoreNo) (i : BitVec 6) (w : BitVec 2) (v : Word32) (s : State) : Out :=
  .next (ctlCore by_ false c.val (writeRegion c.val i.toNat w.toNat v) s)

/-- What a write of CORE_FPCTL stores: reserved fields read 0, and rm_dyn 5 to 7 stores 0 (R72). -/
def fpctlStored (v : Word32) : Word32 := if wField v 4 3 ≥ 5 then v &&& 0x703 else v &&& 0x773

/-- A write of CORE_FPCTL. -/
def writeFpctl (c : Nat) (v : Word32) (s : State) : State := written (modRegs s c fun r => { r with fpctl := fpctlStored v })

/-- CORE_FPCTL_WRITE (R72). -/
def execCoreFpctlWrite (by_ : By) (c : CoreNo) (v : Word32) (s : State) : Out :=
  .next (ctlCore by_ false c.val (writeFpctl c.val v) s)

/-- A write of CORE_SEED_LO or CORE_SEED_HI. -/
def writeSeed (c : Nat) (hi : Bool) (v : Word32) (s : State) : State :=
  written (modRegs s c fun r => if hi then { r with seedHi := v } else { r with seedLo := v })

/-- CORE_SEED_WRITE (R83, R89). -/
def execCoreSeedWrite (by_ : By) (c : CoreNo) (hi : Bool) (v : Word32) (s : State) : Out :=
  .next (ctlCore by_ false c.val (writeSeed c.val hi v) s)

end Sys2Proof.Machine
end

