-- ==== Sys2Proof/Machine/Hbm.lean ====
section
/-! DEFINITION. The commands of the external memory and its regulator (chapter 11). -/
namespace Sys2Proof.Machine

/-! ### The order of service (R298, R304) -/

/-- The requests of a list, in order of arrival, that have none for the same 256-byte granule before them. -/
def granuleHeads : List Nat → List HbmReq → List HbmReq
  | _, [] => []
  | seen, r :: t =>
    if seen.contains (r.line / 4) then granuleHeads seen t else r :: granuleHeads (r.line / 4 :: seen) t

/-- The waiting requests after a controller has served one, if it may: among those that are first for their granule none has a higher
level, and none of its level that is older has been passed eight times. -/
def serveNow (s : State) (w : List HbmReq) (r : HbmReq) : Option (List HbmReq) :=
  let heads := granuleHeads [] (w.filter fun x => stackOf s x.line == stackOf s r.line)
  let older := (heads.takeWhile fun x => x != r).filter fun x => x.level == r.level
  if heads.contains r && (heads.all fun x => decide (x.level ≤ r.level)) && older.all fun x => decide (x.passed < 8) then
    some ((w.erase r).map fun x => if older.contains x then { x with passed := x.passed + 1 } else x)
  else none

/-- The turn of a request: one that waits is issued, with no second admission; any other is admitted now and must find nobody
before it. No turn: nothing is issued yet. -/
def takeTurn (q : Requester) (ln : Nat) (s : State) : Option State :=
  let mine := s.reg.waiting.filter fun r => r.master == q.master.val && r.cls == q.cls.toNat && r.line == ln
  if mine.isEmpty then
    let a := regAdmit q.master.val q.cls.toNat false s
    let r : HbmReq := { id := 0, master := q.master.val, cls := q.cls.toNat, line := ln, level := a.2, droppable := false }
    (serveNow s (s.reg.waiting ++ [r]) r).map fun w => { a.1 with reg := { a.1.reg with waiting := w } }
  else (mine.findSome? (serveNow s s.reg.waiting)).map fun w => { s with reg := { s.reg with waiting := w } }

/-- HBM_READ (R298, R299): the outcomes of the first read and the retry are physical (log 11); a line that fails both reads
bad until it is written again. `ecc` is what the stack reports corrected. -/
def execHbmRead (q : Requester) (ln : BitVec 42) (good retryGood : Bool) (ecc : Nat) (s : State) : Out :=
  .next (live s <|
    let s0 := clearAnswers s
    let n := stackOf s0 ln.toNat
    if !(inHbm (64 * ln.toNat)) then answer s0 (.fail q.agent.val ln.toNat 0x02)
    else if layerDown s0 0 then answer s0 (.fail q.agent.val ln.toNat 0x0A)
    else if s0.sec.freezing then s0
    else match takeTurn q ln.toNat s0 with
    | none => s0
    | some s1 =>
      if (getStack s1 n).selfRefresh then answer s1 (.fail q.agent.val ln.toNat 0x0D)
      else
        let s2 := modStack s1 n fun k => { k with eccCorr := satInc k.eccCorr ecc }
        let stored := s2.hbm.bad.contains ln.toNat
        let ok (s : State) : State := answer s (.line q.agent.val ln.toNat (hbmLine s ln.toNat))
        if good && !stored then ok s2
        else if retryGood && !stored then ok (retryPassed n q.master.val q.cls.toNat s2)
        else answer (retryFailed ln.toNat q.master.val q.cls.toNat s2) (.fail q.agent.val ln.toNat 0x09))

/-- HBM_WRITE (R297, R304): a write of the bytes `mask` names; data with bad parity write nothing. -/
def execHbmWrite (q : Requester) (ln : BitVec 42) (mask : BitVec 64) (d : Line) (parityGood : Bool) (s : State) : Out :=
  .next (live s <|
    let s0 := clearAnswers s
    if !(inHbm (64 * ln.toNat)) then answer s0 (.fail q.agent.val ln.toNat 0x02)
    else if layerDown s0 0 then answer s0 (.fail q.agent.val ln.toNat 0x0A)
    else if s0.sec.freezing then s0
    else match takeTurn q ln.toNat s0 with
    | none => s0
    | some s1 =>
      if (getStack s1 (stackOf s1 ln.toNat)).selfRefresh then answer s1 (.fail q.agent.val ln.toNat 0x0D)
      else if !parityGood then answer (hbmWriteRejected ln.toNat s1) (.fail q.agent.val ln.toNat 0x09)
      else answer (hbmStore ln.toNat (maskLine (hbmLine s1 ln.toNat) d mask) s1) (.ack q.agent.val ln.toNat))

/-- HBM_TEMP_READ (R300): refresh mode and throttle from the case temperature, with capacity and budgets after them. -/
def execHbmTempRead (st : StackNo) (temp : Byte) (s : State) : Out :=
  .next (live s <|
    let t := temp.toNat
    let s1 := modStack s st.val fun k =>
      let thr := if t ≥ 95 then true else if t < 90 then false else k.throttled
      { k with
        temp
        refreshX2 := if t > 85 then true else if t < 80 then false else k.refreshX2
        throttled := thr
        cause := if thr && !k.throttled then k.cause ||| 2 else k.cause }
    rebudget s1)

/-- Lines of a stack in the order its patrol visits granules: the `k`-th granule of 256 bytes by stack-local address. -/
def patrolGranules : Nat := 64 * 2 ^ 30 / 256

/-- The device address of a stack-local address: the inverse of the map of R295. -/
def localToDevice (winSize winBase st loc : Nat) : Nat :=
  let w := winSize * 2 ^ 30
  let b := winBase * 2 ^ 30
  let full := 64 * 2 ^ 30
  if winSize > 0 ∧ loc ≥ full - w then b + st * w + (loc - (full - w))
  else
    let q := loc / 256
    let h := (q % 16) ^^^ (q / 2 ^ 4 % 16) ^^^ (q / 2 ^ 8 % 16) ^^^ (q / 2 ^ 12 % 16) ^^^ (q / 2 ^ 16 % 16)
      ^^^ (q / 2 ^ 20 % 16) ^^^ (q / 2 ^ 24 % 16)
    let t := (st + 24 - h % 12) % 12
    let a2 := (q * 12 + t) * 256 + loc % 256
    if winSize = 0 ∨ a2 < b then a2 else a2 + 12 * w

/-- An hour in management cycles. -/
def hourCycles : Nat := 1620000000000

/-- The patrol of a stack at the present time: a new period starts at granule 0, whatever the last one left (R302). -/
def patrolNow (s : State) (k : Stack) : Stack :=
  let per := max 1 k.patrolPeriod.toNat * hourCycles
  if s.mgt.time < k.patrolFrom then { k with patrolPos := 0, patrolFrom := s.mgt.time }
  else if s.mgt.time < k.patrolFrom + per then k
  else { k with patrolPos := 0, patrolFrom := k.patrolFrom + (s.mgt.time - k.patrolFrom) / per * per }

/-- HBM_PATROL_READ (R302): the next granule of a stack in this period, four lines read and checked by R298; a granule that fails both
reads is reported once, and its lines read bad. A read whose deadline has passed is dropped, with its granule, when its class may
drop (R305); else it goes on as an urgent one. -/
def execHbmPatrolRead (st : StackNo) (expired good retryGood : Bool) (ecc : Nat) (s : State) : Out :=
  .next (live s <|
    let k := patrolNow s (getStack s st.val)
    if !k.patrolOn || k.selfRefresh || layerDown s 0 || decide (k.patrolPos ≥ patrolGranules) then s
    else
      let s1 := modStack s st.val fun _ => { k with patrolPos := k.patrolPos + 1 }
      let cls := bitsOf s.reg.cfg.toNat 11 9
      let reg := hbmClass s cls
      if expired && reg.getLsbD 31 && reg.getLsbD 30 then
        let s2 := modStack s1 st.val fun k => { k with patrolDrop := satInc k.patrolDrop 1, cause := k.cause ||| 16 }
        { s2 with reg := { s2.reg with clsDrop := tblMod 0 s2.reg.clsDrop cls fun x => satInc x 1 } }
      else
        let ln := localToDevice s.hbm.winSize s.hbm.winBase st.val (256 * k.patrolPos) / 64
        let lns := [ln, ln + 1, ln + 2, ln + 3]
        let note (urgent : Bool) (s : State) : State := lns.foldl (fun s _ => (regAdmit 1204 cls urgent s).1) s
        let s2 := modStack (note false s1) st.val fun k => { k with eccCorr := satInc k.eccCorr ecc }
        match lns.find? fun x => s2.hbm.bad.contains x with
        | some x => hbmReadFailed x (note true s2)
        | none =>
          if good then s2
          else if retryGood then
            modStack (note true s2) st.val fun k => { k with retries := satInc k.retries 1, cause := k.cause ||| 1 }
          else hbmReadFailed ln { note true s2 with hbm := { s2.hbm with bad := lns ++ s2.hbm.bad } })

/-- SELF_REFRESH_ENTRY (R301). -/
def execSelfRefreshEntry (st : StackNo) (s : State) : Out :=
  .next (live s <| modStack s st.val fun k => { k with selfRefresh := true })

/-- REGULATOR_WINDOW_BOUNDARY (R304, R307, R308): counts return to zero, admitted and released entries, with their ranges and classes,
and new budgets take effect. -/
def execRegulatorWindowBoundary (s : State) : Out :=
  .next (live s { s with reg := { s.reg with
    counts := [], overSeen := []
    rsv := s.reg.rsv.map fun e =>
      (e.1, { e.2 with inForce := e.2.admitted, now := e.2.lo, eff := if e.2.admitted then e.2.effNext else 0 }) } })

/-- A droppable request is dropped: counted, and its source receives a dropped response (R305). -/
def dropRequest (id cls : Nat) (s : State) : State :=
  answer { s with reg := { s.reg with clsDrop := tblMod 0 s.reg.clsDrop cls fun x => satInc x 1 } } (.dropped id)

/-- REQUEST_ADMISSION (R303 to R305): a request for a line reaches the regulator, and waits at the line's controller. It is droppable
when its class may drop and it is a telemetry, patrol or prefetch read. A deadline of zero expires on arrival. -/
def execRequestAdmission (id : Nat) (master : Fin 1205) (cls : BitVec 3) (telemetry : Bool) (deadline : Option (BitVec 12))
    (s : State) (ln : BitVec 42 := 0) : Out :=
  .next (live s <| if s.sec.freezing then s else
    let r := regAdmit master.val cls.toNat false (clearAnswers s)
    let reg := hbmClass s cls.toNat
    let dl := match deadline with
      | some d => some d.toNat
      | none => if reg.getLsbD 30 then some (reg.toNat % 4096) else none
    let droppable := telemetry && reg.getLsbD 31
    let s1 := r.1
    if dl = some 0 ∧ droppable then dropRequest id cls.toNat s1
    else
      let lvl := if dl = some 0 then 3 else r.2
      { s1 with reg := { s1.reg with
        waiting := s1.reg.waiting ++ [{ id, master := master.val, cls := cls.toNat, line := ln.toNat, level := lvl, droppable }] } })

/-- DEADLINE_EXPIRY (R305): a droppable request that waits is dropped, any other rises to level 3. One that has been issued to its
stack is met by neither. -/
def execDeadlineExpiry (id : Nat) (s : State) : Out :=
  .next (live s <|
    match s.reg.waiting.find? fun r => r.id == id with
    | none => s
    | some r =>
      if r.droppable then
        dropRequest id r.cls { clearAnswers s with reg := { s.reg with waiting := s.reg.waiting.filter fun x => x.id != id } }
      else
        { s with reg := { s.reg with
          waiting := s.reg.waiting.map fun x => if x.id == id then { x with level := 3 } else x } })

/-- REQUEST_AGEING (R304): a request of level 0 or 1 that has waited 4,096 base cycles rises to level 2. -/
def execRequestAgeing (id : Nat) (s : State) : Out :=
  .next (live s { s with reg := { s.reg with
    waiting := s.reg.waiting.map fun x => if x.id == id && decide (x.level < 2) then { x with level := 2 } else x } })

/-- A reservation entry. -/
def getRsv (s : State) (i : Nat) : Rsv := tblGet {} s.reg.rsv i

/-- Why a reservation is refused, if it is (R307): 3 bad range, 2 overlap, 1 over the limit. -/
def rsvRefusal (s : State) (i : Nat) (e : Rsv) : Option Nat :=
  let f := rsvFirst e
  let l := rsvLast e
  if f > l ∨ l > 1204 then some 3
  else if s.reg.rsv.any fun x => x.1 != i && x.2.admitted && rsvClass x.2 == rsvClass e
      && decide (rsvFirst x.2 ≤ l) && decide (f ≤ rsvLast x.2) then some 2
  else if rsvSum s + rsvWeight e > regLimit s then some 1
  else none

/-- A write of HBM_RSV_LO[i] (R307): setting enable on a disabled entry requests admission, clearing it releases the entry,
and a set enable on an enabled entry is judged afresh without the entry's own weight. -/
def writeRsvLo (i : Nat) (v : Word32) (s : State) : State :=
  let old := getRsv s i
  let released := { s with reg := { s.reg with rsv := tblPut s.reg.rsv i { old with admitted := false } } }
  let e : Rsv := { old with lo := v &&& 0x01FFFFFF, admitted := false }
  if v.getLsbD 31 then
    match rsvRefusal released i e with
    | some r =>
      rebudget { released with reg := { released.reg with
        rsv := tblPut released.reg.rsv i e, cause := released.reg.cause ||| 2, reason := BitVec.ofNat 2 r } }
    | none => rebudget { released with reg := { released.reg with rsv := tblPut released.reg.rsv i { e with admitted := true } } }
  else rebudget { released with reg := { released.reg with rsv := tblPut released.reg.rsv i e } }

end Sys2Proof.Machine
end

