-- ==== Sys2Proof/Machine/Manage.lean ====
section
/-! DEFINITION. The management processor: frames and their commands, the management port, the event log's upkeep, health checks and
background work, and the commit gate (R37, R408, R461, R464, R466 to R468, R481 to R500). -/
namespace Sys2Proof.Machine

/-- Changes MP's frame service. -/
def modFrames (s : State) (f : Frames → Frames) : State := { s with frames := f s.frames }
/-- Control-space block of the management complex. -/
def mgtSrc : Nat := blockSrc 0 31 128

/-- What a command answers: the state after it, a status and a payload. -/
abbrev Reply := State × Nat × List Byte

/-- A command that is refused before ready (R485). -/
def whenReady (f : State → Reply) (s : State) : Reply := if s.boot.ready then f s else (s, 5, [])

/-- A command that carries a nonce: it is consumed by the command, whatever comes of it (R485, R486). -/
def withNonce (n : BitVec 256) (ok : State → Bool) (f : State → Reply) (s : State) : Reply :=
  match takeNonce n s with
  | (s1, fresh) => if !(ok s1) then (s1, 5, []) else if !fresh then (s1, 4, []) else f s1

/-- Serial number and nonce, which every bound command signs. -/
def bound (s : State) (n : BitVec 256) : List Byte := serialBytes s ++ leBytes 32 n.toNat

/-! ### NONCE, ATTEST, LOG_READ (R464, R485) -/

/-- NONCE (R485): 32 bytes from the entropy source; refused while its output is withheld. -/
def execNonce (src : FrameSrc) (id : Word32) (s : State) : Out :=
  .next (mpRequest src 0x01 id (fun s =>
    if !s.sec.rngValid then (s, 5, [])
    else (takeFree (modFrames s fun f => { f with nonces := (s.free, s.mgt.time) :: f.nonces }), 0,
          leBytes 32 (Config.freeBits256 s.free).toNat)) s)

/-- The signed part of an attestation report (R464). -/
def reportBytes (nonce : BitVec 512) (s : State) : List Byte :=
  let o := s.sec.otp
  leBytes 4 0x54415644 ++ leBytes 2 1 ++ leBytes 1 (lifecycle s) ++ leBytes 1 s.sec.level.toNat ++ serialBytes s
    ++ leBytes 8 (arbValue o 0) ++ leBytes 8 (arbValue o 1) ++ leBytes 8 s.mgt.time ++ leBytes 1 (b2n s.sec.slot)
    ++ leBytes 1 s.boot.gen.toNat ++ leBytes 1 o.policy.toNat ++ List.replicate 13 0 ++ leBytes 64 nonce.toNat ++ ownerBytes s
    ++ (List.range 8).flatMap fun r => leBytes 64 (getMeas s r).toNat

/-- ATTEST (R464): the report, the alias certificate, the DeviceID public key. -/
def execAttest (src : FrameSrc) (id : Word32) (nonce : BitVec 512) (s : State) : Out :=
  .next (mpRequest src 0x02 id (fun s =>
    match s.sec.alias_ with
    | none => (s, 5, [])
    | some seed =>
      let r := reportBytes nonce s
      (takeFree s, 0, r ++ Config.sign seed "druov-att" r s.free ++ s.sec.cert ++ Config.publicKey (deviceSeed s))) s)

/-- The bytes of an event (R487). -/
def entryLog (e : LogEntry) : List Byte :=
  leBytes 8 e.time ++ leBytes 4 e.seq.toNat ++ leBytes 2 e.code.toNat ++ leBytes 1 e.sev.toNat ++ leBytes 1 e.gen.toNat
    ++ leBytes 4 e.src.toNat ++ leBytes 10 e.detail.toNat ++ leBytes 2 e.repeats.toNat

/-- Both rings, oldest first, each entry once. -/
def allEvents (m : Mgt) : List LogEntry :=
  (m.nvm.filter fun e => !(m.ring.any fun x => x.seq == e.seq)).reverse ++ m.ring.reverse

/-- LOG_READ (R485, R490): up to 44 entries from a sequence number; the debug port reads the log at LIMITED and FULL (R469). -/
def execLogRead (src : FrameSrc) (id : Word32) (seq : Word32) (s : State) : Out :=
  .next (mpRequest src 0x03 id (fun s =>
    if src = .debug ∧ s.sec.level = 0 then (s, 5, []) else
    (s, 0, (((allEvents s.mgt).filter fun e => decide (seq.toNat ≤ e.seq.toNat)).take 44).flatMap entryLog)) s)

/-! ### Firmware update (R456 to R461, R485) -/

/-- A program or an erase of the NVM fails twice: logged, the update is given up, and what the slot holds is free (R392; log 11). -/
def fwFails (s : State) : Reply :=
  (logEvent 0x10E mgtSrc 0 (takeFree (setSlot (modFrames s fun f => { f with fw := none }) (!s.sec.slot) (memLost s.free))), 7, [])

/-- FW_BEGIN (R461, R485): a signed header with an acceptable svn erases the slot that did not boot. -/
def execFwBegin (src : FrameSrc) (id : Word32) (header : List Byte) (nvmOk : Bool) (s : State) : Out :=
  .next (mpRequest src 0x10 id (whenReady fun s =>
    if (match s.frames.fw with | some u => u.lapsed | none => false) then (modFrames s fun f => { f with fw := none }, 5, [])
    else if header.length ≠ 0x3000 then (s, 1, [])
    else if !(headerSigned s header) then (s, 3, [])
    else if !nvmOk then fwFails s
    else (setSlot (modFrames s fun f => { f with fw := some { header } }) (!s.sec.slot) {}, 0, [])) s)

/-- The update in progress, if it has not lapsed. -/
def fwOpen (s : State) : Option FwUpdate :=
  match s.frames.fw with
  | some u => if u.lapsed then none else some u
  | none => none

/-- FW_WRITE (R485): component data from 0x4000 onward. -/
def execFwWrite (src : FrameSrc) (id : Word32) (off : Nat) (data : List Byte) (nvmOk : Bool) (s : State) : Out :=
  .next (mpRequest src 0x11 id (whenReady fun s =>
    match fwOpen s with
    | none => (s, 5, [])
    | some _ =>
      if off < 0x4000 ∨ off + data.length > slotSize then (s, 1, [])
      else if !nvmOk then fwFails s
      else (slotProgram s (!s.sec.slot) off data, 0, [])) s)

/-- FW_COMMIT (R461): the header is written last, and the slot is verified with every component digest. -/
def execFwCommit (src : FrameSrc) (id : Word32) (nvmOk : Bool) (s : State) : Out :=
  .next (mpRequest src 0x12 id (whenReady fun s =>
    match fwOpen s with
    | none => (s, 5, [])
    | some u =>
      if !nvmOk then fwFails s
      else
        let b := !s.sec.slot
        let s1 := slotProgram (modFrames s fun f => { f with fw := none }) b 0 u.header
        if slotValid s1 b && [2, 3, 4, 5].all fun t => digestOk s1 b t then (s1, 0, []) else (s1, 3, [])) s)

/-- FW_UPDATE_TIMEOUT (R485): 60 s without a frame; the update is abandoned and the slot stays invalid. -/
def execFwUpdateTimeout (s : State) : Out :=
  .next (modFrames s fun f => { f with fw := f.fw.map fun u => { u with lapsed := true } })

/-! ### Lifecycle (R466 to R468) -/

/-- Whether a lifecycle command may come: after ready, in power state ON or REGION-SLEEP, and not from another device. -/
def lifecycleOpen (src : FrameSrc) (s : State) : Bool :=
  s.boot.ready && decide (s.pwr.st = .on) && !s.sec.frozen && (match src with | .device _ => false | _ => true)

/-- The lifecycle has changed (R479, R489). -/
def lifecycleMoved (s : State) : State := logEvent 0x10D secSrc 0 (secCause 16 s)

/-- Whether a policy and a hash agree with every owner bit already programmed (R467). -/
def agrees (o : Otp) (policy : Byte) (hash : BitVec 512) : Bool :=
  (o.policy &&& ~~~policy) == 0 && (o.ownerHash &&& ~~~hash) == 0

/-- ENROL (R467): policy, hash, enrolled bit, DEPLOYED bit, in that order. -/
def execEnrol (q : Signed) (key : List Byte) (policy : Byte) (miss : OtpMiss) (s : State) : Out :=
  .next (mpRequest q.src 0x20 q.id (withNonce q.nonce (fun s => lifecycleOpen q.src s && decide (lifecycle s = 1)) fun s =>
    let hash := sha3 key
    if key.length ≠ 2592 ∨ policy.toNat > 3 then (s, 1, [])
    else if !(Config.verify "druov-enrol" hash (bound s q.nonce ++ [policy]) q.sig) then (s, 3, [])
    else if !(agrees s.sec.otp policy hash) then (s, 5, [])
    else
      let s1 := program { enrolled := true } miss (program { hash } miss (program { policy } miss s))
      let s2 := program { lifecycle := 2 } miss s1
      if lifecycle s2 = 2 then (lifecycleMoved s2, 0, []) else (s2, 7, [])) s)

/-- RETURN (R466, R468): signed by the owner or by the root key; the device is purged. -/
def execReturnDevice (q : Signed) (miss : OtpMiss) (s : State) : Out :=
  .next (mpRequest q.src 0x21 q.id (withNonce q.nonce
      (fun s => lifecycleOpen q.src s && (decide (lifecycle s = 1) || decide (lifecycle s = 2))) fun s =>
    let msg := bound s q.nonce
    let byOwner := ownerSlot s.sec.otp == 1 && Config.verify "druov-ret" s.sec.otp.ownerHash msg q.sig
    if !(byOwner || Config.verify "druov-ret" s.sec.otp.rootHash msg q.sig) then (s, 3, [])
    else
      let s1 := program { lifecycle := 4 } miss s
      if lifecycle s1 = 3 then (purgeReturned miss (lifecycleMoved s1), 0, []) else (s1, 7, [])) s)

/-! ### The learned list and the configuration block (R392, R393, R408) -/

/-- The bytes that name an entry to remove: kind, unit index, word index (log 41). -/
def removalBytes (e : Nat × Nat × Nat) : List Byte := leBytes 1 e.1 ++ leBytes 4 e.2.1 ++ leBytes 4 e.2.2

/-- CAD_REMOVE (R408): signed by the enrolled owner; in force at the next cold start. -/
def execCadRemove (q : Signed) (entries : List (Nat × Nat × Nat)) (s : State) : Out :=
  .next (mpRequest q.src 0x22 q.id (withNonce q.nonce
      (fun s => s.boot.ready && decide (lifecycle s ≠ 3) && ownerSlot s.sec.otp == 1) fun s =>
    if Config.verify "druov-cad" s.sec.otp.ownerHash (bound s q.nonce ++ entries.flatMap removalBytes) q.sig then
      (modBoot s fun b => { b with removals := b.removals ++ entries }, 0, [])
    else (s, 3, [])) s)

/-- Whether copy A is the one that a write replaces: the one that is not valid, or has the lower sequence number (R392). -/
def replacesA (s : State) : Bool :=
  match s.boot.cfgA, s.boot.cfgB with
  | some a, some b => if !(cfgValid s a) then true else if !(cfgValid s b) then false else decide (cfgSeq a.block ≤ cfgSeq b.block)
  | none, _ => true
  | some _, none => false

/-- CFG_WRITE (R392, R393): a signed block replaces a copy; one that cannot be written leaves that copy invalid and is logged. -/
def execCfgWrite (src : FrameSrc) (id : Word32) (block : BitVec 2048) (sig : List Byte) (nvmOk : Bool) (s : State) : Out :=
  .next (mpRequest src 0x23 id (whenReady fun s =>
    let c : CfgCopy := { block, sig }
    let put (x : Option CfgCopy) : State := modBoot s fun b => if replacesA s then { b with cfgA := x } else { b with cfgB := x }
    if !(cfgForm block) then (s, 1, [])
    else if !(cfgSigned s c) then (s, 3, [])
    else if nvmOk then (put (some c), 0, [])
    else (logEvent 0x10E mgtSrc 0 (put none), 7, [])) s)

/-! ### CONTROL (R422, R437, R486) -/

/-- A signed control action. -/
def control (action : Nat) (q : Signed) (ok : State → Bool) (f : State → State) (s : State) : State :=
  mpRequest q.src 0x24 q.id (withNonce q.nonce ok fun s =>
    if Config.verify "druov-ctl" (cfgKey s) (bound s q.nonce ++ [0x24, BitVec.ofNat 8 action]) q.sig then (f s, 0, [])
    else (s, 3, [])) s

/-- CONTROL_WARM_RESET (R486). -/
def execControlWarmReset (q : Signed) (s : State) : Out := .next (control 1 q (fun s => s.boot.ready) (warmReset 2 0x10) s)
/-- CONTROL_COLD_RESET (R486): accepted before ready too. -/
def execControlColdReset (q : Signed) (s : State) : Out := .next (control 2 q (fun _ => true) (coldReset 2 0x03) s)
/-- CONTROL_ENTER_STANDBY (R430, R486). -/
def execControlEnterStandby (q : Signed) (s : State) : Out :=
  .next (control 3 q (fun s => s.boot.ready && decide (s.pwr.st = .on)) enterStandby s)
/-- CONTROL_LEAVE_STANDBY (R430, R486): a warm reset. -/
def execControlLeaveStandby (q : Signed) (s : State) : Out :=
  .next (control 4 q (fun s => s.boot.ready && decide (s.pwr.st = .standby) && !s.pwr.xtalHold) (warmReset 2 0x10) s)
/-- CONTROL_THERMAL_RELEASE (R437, R486): accepted before ready too. -/
def execControlThermalRelease (q : Signed) (s : State) : Out :=
  .next (control 5 q (fun _ => true) (fun s => { s with thm := { s.thm with held := false } }) s)
/-- CONTROL_RECAPTURE_BASELINES (R422, R486): no path has a baseline until it is captured anew. -/
def execControlRecaptureBaselines (q : Signed) (s : State) : Out :=
  .next (control 6 q (fun s => s.boot.ready) (fun s => { s with pwr := { s.pwr with
    feeds := s.pwr.feeds.map fun e => (e.1, { e.2 with base := none })
    fps := s.pwr.fps.map fun e => (e.1, { e.2 with vBase := none }) } }) s)
/-- CONTROL_FULL_TRAINING (R486). -/
def execControlFullTraining (q : Signed) (s : State) : Out :=
  .next (control 7 q (fun s => s.boot.ready) (fun s => modBoot s fun b => { b with fullNext := true }) s)

/-! ### Frames (R482, R484) -/

/-- The command codes of R485. -/
def knownCodes : List Nat := [0x01, 0x02, 0x03, 0x04, 0x10, 0x11, 0x12, 0x20, 0x21, 0x22, 0x23, 0x24]

/-- Whether a frame's header is well formed (R484). -/
def frameOk (b : List Byte) : Bool :=
  decide (b.length ≥ 16) && bytesAt b 0 2 == 0x4D46 && bytesAt b 2 1 == 1 && decide (1 ≤ bytesAt b 10 2) && decide (bytesAt b 10 2 ≤ 4096)
    && decide (bytesAt b 8 2 < bytesAt b 10 2) && decide (bytesAt b 12 2 ≤ 1408) && bytesAt b 12 2 + 16 == b.length && bytesAt b 15 1 == 0

/-- A fragment joins the request being put together, or begins one; the fragment that completes it is the command's own row. -/
def storeFragment (b : List Byte) (s : State) : State :=
  let id : Word32 := BitVec.ofNat 32 (bytesAt b 4 4)
  let cur : Assembly := s.frames.asm.getD { id, code := BitVec.ofNat 8 (bytesAt b 3 1), count := bytesAt b 10 2, parts := [] }
  let parts := tblPut cur.parts (bytesAt b 8 2) (b.drop 16)
  if parts.length < cur.count then modFrames s fun f => { f with asm := some { cur with parts } } else s

/-- MANAGEMENT_FRAME_FRAGMENT (R484): a malformed frame, an unknown code, another request while one is put together, or a
fragment that does not complete its request. -/
def execManagementFrameFragment (src : FrameSrc) (b : List Byte) (s : State) : Out :=
  .next (
    let s0 := takeInbox src (clearAnswers s)
    let code := bytesAt b 3 1
    let id : Word32 := BitVec.ofNat 32 (bytesAt b 4 4)
    let other (a : Assembly) : Bool := a.id != id
    let differs (a : Assembly) : Bool := a.code.toNat != code || a.count != bytesAt b 10 2
    if !(mpHears src s0) then s0
    else if s0.frames.asm.any other then respond src code id 6 [] s0
    else if !(frameOk b) || s0.frames.asm.any differs then respond src code id 1 [] s0
    else if !(knownCodes.contains code) then respond src code id 2 [] s0
    else storeFragment b s0)

/-- FRAGMENT_TIMEOUT (R484). -/
def execFragmentTimeout (s : State) : Out := .next (modFrames s fun f => { f with asm := none })

/-- The management port's settings as a port entry: IPv6 flag, MAC address, IP address (R393, R482). -/
def mgtPort (s : State) : BitVec 512 :=
  let b := cfgInUse s
  let flags := cfgField b 0x2E 1
  let mac := if cfgField b 0x28 6 = 0 then (Config.serialMac s.sec.otp.serial).toNat else cfgField b 0x28 6
  let ip := if flags.testBit 1 then (Config.leased (flags.testBit 0)).toNat else cfgField b 0x30 16
  BitVec.ofNat 512 (b2n (flags.testBit 0) * 2 + mac * 2 ^ 64 + ip * 2 ^ 128)

/-- The reply to an ICMP echo request for the port's own address, if the packet is one. The identification of the IPv4 header is
open (log 4). -/
def echoReply (port : BitVec 512) (mac : List Byte) (ident : Nat) (b : List Byte) : Option (List Byte) :=
  let own := entryIp port
  if entryV6 port then
    let body := (b.drop 40).take (beAt b 4 2)
    if beAt b 0 1 / 16 = 6 ∧ beAt b 6 1 = 58 ∧ beAt b 40 1 = 128 ∧ (b.drop 24).take 16 = own then
      let dest := (b.drop 8).take 16
      some (mac ++ entryMac port ++ beBytes 2 0x86DD ++ beBytes 4 (6 * 2 ^ 28) ++ beBytes 2 body.length ++ [58, 64] ++ own ++ dest
        ++ icmp6 own dest ([129, 0, 0, 0] ++ body.drop 4))
    else none
  else if beAt b 0 1 = 0x45 ∧ beAt b 6 2 % 2 ^ 14 = 0 ∧ beAt b 9 1 = 1 ∧ beAt b 20 1 = 8 ∧ (b.drop 16).take 4 = own then
    let body := (b.take (beAt b 2 2)).drop 24
    let icmp (c : Nat) : List Byte := [0, 0] ++ beBytes 2 c ++ body
    let head (c : Nat) : List Byte := [0x45, 0] ++ beBytes 2 (24 + body.length) ++ beBytes 2 ident ++ [0, 0, 64, 1] ++ beBytes 2 c ++ own
      ++ (b.drop 12).take 4
    some (padFrame (mac ++ entryMac port ++ beBytes 2 0x0800 ++ head (inetSum (head 0)) ++ icmp (inetSum (icmp 0))))
  else none

/-- MANAGEMENT_PORT_FRAME (R482): ARP, Neighbour Solicitation and ICMP echo for the port's own address are answered to the source
MAC of the request; every other frame is discarded. The answer is a frame of port 48. -/
def execManagementPortFrame (fr : List Byte) (s : State) : Out :=
  .next (
    let s0 := clearAnswers s
    if !(mpHears .port s0) then s0
    else
      let port := mgtPort s0
      let mac := (fr.drop 6).take 6
      let b := fr.drop 14
      match beAt fr 12 2 with
      | 0x0806 => (match arpReply port b with | some r => answer s0 (.frame 48 (mac ++ r.drop 6)) | none => s0)
      | 0x0800 =>
        (match (if entryV6 port then none else echoReply port mac (Config.freeWord s0.free).toNat b) with
          | some r => answer (takeFree s0) (.frame 48 r)
          | none => s0)
      | 0x86DD =>
        (match (if entryV6 port then (nsReply port mac b).orElse (fun _ => echoReply port mac 0 b) else none) with
          | some r => answer s0 (.frame 48 r)
          | none => s0)
      | _ => s0)

/-! ### MP's own work (R481, R490, R498 to R500) -/

/-- MP_WATCHDOG_EXPIRY (R481). -/
def execMpWatchdogExpiry (s : State) : Out := .next (if s.pins.alwaysOn then coldReset 0 0x05 s else s)

/-- Marks the oldest uncopied entry as copied. -/
def markCopied : List LogEntry → Option LogEntry × List LogEntry
  | [] => (none, [])
  | e :: r =>
    match markCopied r with
    | (some x, r') => (some x, e :: r')
    | (none, _) => if e.copied then (none, e :: r) else (some e, { e with copied := true } :: r)

/-- LOG_COPY (R490): the oldest uncopied entry goes to the NVM ring, which gives up its oldest sector when it is full. -/
def execLogCopy (nvmOk : Bool) (s : State) : Out :=
  .next (
    if !(nvmRuns s) then s
    else match markCopied s.mgt.ring with
    | (none, _) => s
    | (some e, ring) =>
      if !nvmOk then logEvent 0x10E mgtSrc 0 s
      else modMgt s fun m => { m with
        ring, nvm := { e with copied := true } :: (if m.nvm.length ≥ 851968 then m.nvm.take (851968 - 2048) else m.nvm) })

/-- A write of MGT_LOG_SEL (R490, R500). -/
def writeLogSel (v : Word32) (s : State) : State :=
  modMgt s fun m => { m with logSel := v, logData := m.ring.find? fun e => e.seq == v }

/-- LOG_SELECT (R500). -/
def execLogSelect (by_ : By) (v : Word32) (s : State) : Out :=
  .next (ctlGlobal by_ false 0 128 (fun s => written (writeLogSel v s)) s)

/-- A write of CHIP_STEP_INT (R500). -/
def writeStepInt (v : Word32) (s : State) : State := if v.getLsbD 31 then modMgt s fun m => { m with stepInt := 0 } else s

/-- STEP_INT_CLEAR (R500): a write with flag. -/
def execStepIntClear (by_ : By) (v : Word32) (s : State) : Out :=
  .next (ctlGlobal by_ false 0 128 (fun s => written (writeStepInt (v ||| 0x80000000) s)) s)

/-- Current of a phase in 10 mA, and its temperature in °C, as last read (R446). -/
def phCurrent (s : State) (i : Nat) : Nat := bitsOf (tblGet 0 s.pwr.phStat i).toNat 31 16
/-- Temperature. -/
def phTemp (s : State) (i : Nat) : Nat := bitsOf (tblGet 0 s.pwr.phStat i).toNat 15 8

/-- Whether a phase carries load: it works, and its group is on. -/
def phActive (s : State) (i : Nat) : Bool :=
  let n := i / 12
  !((deadPhases s n).contains (i % 12)) && decide (groupSt (getFp s n) (phaseGroup (i % 12)) = .on) && decide (s.pwr.st = .on)

/-- The active phases of a phase's group. -/
def groupPhases (s : State) (i : Nat) : List Nat :=
  ((List.range 12).map fun p => i / 12 * 12 + p).filter fun x => phaseGroup (x % 12) == phaseGroup (i % 12) && phActive s x

/-- Whether a phase's current differs from the mean of its group's active phases by more than 30 % of its rating (R423, R498). -/
def deviates (s : State) (i : Nat) : Bool :=
  let g := groupPhases s i
  let sum : Int := (g.map fun x => (phCurrent s x : Int)).sum
  let rating : Int := if phaseGroup (i % 12) = 0 then 360 else 120
  phActive s i && decide ((((g.length : Int) * phCurrent s i - sum).natAbs : Int) > rating * g.length)

/-- A phase is marked suspect, and that is logged (R403, R498). -/
def suspectPhase (i : Nat) (s : State) : State :=
  if s.boot.learned.any fun e => e.kind == 7 && e.index == i && e.suspect then s
  else logEvent 0x108 (blockSrc 0 (i / 12) (i % 12)) i (addLearned { kind := 7, suspect := true, origin := 5, index := i } s)

/-- One phase in a health check. -/
def checkPhase (s : State) (i : Nat) : State :=
  let n := if deviates s i then tblGet 0 s.pwr.phDev i + 1 else 0
  let s1 := { s with pwr := { s.pwr with phDev := tblPut s.pwr.phDev i n } }
  if phTemp s i > 120 ∨ n ≥ 10 then suspectPhase i s1 else s1

/-- REGULATOR_HEALTH_CHECK (R498): MP reads every phase; the readings are current in 10 mA and temperature (log 11). -/
def execRegulatorHealthCheck (rs : List (Fin 288 × BitVec 16 × Byte)) (s : State) : Out :=
  .next (
    if !(mpUp s) then s
    else
      let s1 := { s with pwr := { s.pwr with phStat := rs.foldl (fun t r =>
        tblPut t r.1.val (BitVec.ofNat 32 (r.2.1.toNat * 2 ^ 16 + r.2.2.toNat * 2 ^ 8))) s.pwr.phStat } }
      (List.range 288).foldl checkPhase s1)

/-- An hour in management cycles. -/
def oneHour : Nat := 3600 * 1000 * msCycles

/-- BACKGROUND_WORK_DROPPED (R499): counted, CHIP_CAUSE.mgt_late set, logged once per activity per hour. -/
def execBackgroundWorkDropped (i : Fin 8) (s : State) : Out :=
  .next (
    if !(mpUp s) then s
    else
      let s1 := chipCause 16 (modMgt s fun m => { m with bgStat := tblMod 0 m.bgStat i.val fun x => satInc x 1 })
      let recent := s.mgt.bgLogged.any fun e => e.1 == i.val && decide (s.mgt.time < e.2 + oneHour)
      if recent then s1
      else logEvent 0x110 mgtSrc i.val (modMgt s1 fun m => { m with bgLogged := tblPut m.bgLogged i.val m.time }))

/-! ### The commit gate (R37, R38) -/

/-- COMMIT_GATE (R37): `flags` is the OR of the other members' step-integrity flags, `census` the sum of their overflow censuses
(log 22). The device's census of its program takes the sum; the answer is 1 where the UPDs are issued, 0 where the step is
discarded. -/
def execCommitGate (c : Fin 8) (flags : Bool) (census : Nat) (s : State) : Out :=
  .next (
    let s0 := clearAnswers s
    if frozen s0 || !s0.boot.ready || s0.boot.hostHeld then s0
    else
      let s1 := modMgt s0 fun m => { m with census := tblPut m.census c.val (satInc (tblGet 0 m.census c.val) census) }
      answer s1 (.value (if flags || s0.mgt.stepInt.getLsbD 31 then 0 else 1)))

end Sys2Proof.Machine
end

