-- ==== Sys2Proof/Machine/Verify.lean ====
section
/-! DEFINITION. Program images and the loader's verifier (R119, R121, R138). -/
namespace Sys2Proof.Machine

/-! ### The image (R119) -/

/-- A section of an image. -/
structure Section where
  typ : Nat
  off : Nat
  len : Nat
  deriving DecidableEq, Repr

/-- An image core: the sections of its bank image, region table, descriptor image and schedule metadata, 0xFFFF for none, and
its entry offset. -/
structure ImgCore where
  bank : Nat
  table : Nat
  descs : Nat
  sched : Nat
  entry : Nat
  deriving DecidableEq, Repr

/-- A failure that the verifier reports: reason, section index, byte offset in it. -/
structure Verdict where
  reason : Nat
  sect : Nat
  off : Nat
  deriving DecidableEq, Repr

/-- Core count of an image. -/
def imgCores (img : List Byte) : Nat := bytesAt img 0x10 2
/-- Scratch ways. -/
def imgWays (img : List Byte) : Nat := bytesAt img 0x12 1
/-- Program seed. -/
def imgSeed (img : List Byte) : Nat := bytesAt img 8 8
/-- Watchdog limit. -/
def imgWdog (img : List Byte) : Nat := bytesAt img 0x14 2
/-- Whether substitution is allowed. -/
def imgSubst (img : List Byte) : Bool := bytesAt img 0x13 1 % 2 == 1
/-- Section count. -/
def imgCount (img : List Byte) : Nat := bytesAt img 6 2

/-- Section `i`. -/
def sectionAt (img : List Byte) (i : Nat) : Section :=
  { typ := bytesAt img (0x80 + 32 * i) 2, off := bytesAt img (0x88 + 32 * i) 8, len := bytesAt img (0x90 + 32 * i) 8 }
/-- The section with an index, an empty one when there is none. -/
def sectionOr (img : List Byte) (i : Nat) : Section := if i < imgCount img then sectionAt img i else { typ := 0, off := 0, len := 0 }
/-- The sections. -/
def sections (img : List Byte) : List Section := (List.range (imgCount img)).map fun i => sectionAt img i

/-- Index of the core map. -/
def coreMap (img : List Byte) : Nat := (sections img).findIdx fun x => x.typ == 5
/-- Entry `j` of the core map. -/
def imgCore (img : List Byte) (j : Nat) : ImgCore :=
  let a := (sectionOr img (coreMap img)).off + 16 * j
  { bank := bytesAt img a 2, table := bytesAt img (a + 2) 2, descs := bytesAt img (a + 4) 2, sched := bytesAt img (a + 6) 2
    entry := bytesAt img (a + 8) 2 }
/-- Every image core. -/
def imgCoreList (img : List Byte) : List ImgCore := (List.range (imgCores img)).map fun j => imgCore img j

/-- Whether a section's length fits its type. -/
def lengthOk (img : List Byte) (x : Section) : Bool :=
  match x.typ with
  | 1 => decide (x.len ≤ 32768)
  | 2 => x.len == 1024
  | 3 => x.len == 4096
  | 4 => x.len % 8 == 0 && decide (x.len ≤ 2048)
  | 5 => x.len == 16 * imgCores img
  | 6 => true
  | _ => false

/-- Whether a named section is of a type; 0xFFFF names none where that is allowed. -/
def named (img : List Byte) (i typ : Nat) (noneOk : Bool) : Bool :=
  (noneOk && i == 0xFFFF) || (decide (i < imgCount img) && (sectionAt img i).typ == typ)

/-- Failures of rule 0x01 in the header itself, at their byte in the image; the report calls the header section 0. -/
def headerFieldFails (img : List Byte) : List Verdict :=
  let z (off k : Nat) : Bool := bytesAt img off k == 0
  let n := imgCount img
  let blank := img.take 0x40 ++ List.replicate 64 0 ++ img.drop 0x80
  let bad : List (Nat × Bool) := [
    (0x00, bytesAt img 0 4 != 0x32315644), (0x04, bytesAt img 4 2 != 1), (0x06, decide (n = 0 ∨ n > 1024)),
    (0x10, decide (imgCores img = 0 ∨ imgCores img > 1200)), (0x13, bytesAt img 0x13 1 / 2 != 0), (0x16, !(z 0x16 2)),
    (0x18, bytesAt img 0x18 8 != img.length || decide (0x80 + 32 * n > img.length)), (0x20, !(z 0x20 32)),
    (0x40, BitVec.ofNat 512 (bytesAt img 0x40 64) != sha3 blank)]
  (bad.filter fun x => x.2).map fun x => { reason := 0x01, sect := 0, off := x.1 }

/-- Failures of rule 0x01 in the section table and the core map. -/
def tableRuleFails (img : List Byte) : List Verdict :=
  let n := imgCount img
  let z (off k : Nat) : Bool := bytesAt img off k == 0
  let at_ (i off : Nat) : Verdict := { reason := 0x01, sect := i, off }
  let overlaps (i j : Nat) : Bool :=
    let x := sectionAt img i
    let y := sectionAt img j
    !(decide (x.off + x.len ≤ y.off) || decide (y.off + y.len ≤ x.off))
  let sectBad (i : Nat) : Bool :=
    let x := sectionAt img i
    !(z (0x82 + 32 * i) 6 && z (0x98 + 32 * i) 8 && x.off % 64 == 0 && decide (0x80 + 32 * n ≤ x.off)
      && decide (x.off + x.len ≤ img.length) && lengthOk img x) || (List.range i).any (overlaps i)
  let coreBad (j : Nat) : Bool :=
    let c := imgCore img j
    !(named img c.bank 1 false && named img c.table 2 true && named img c.descs 3 true && named img c.sched 4 true
      && c.entry % 16 == 0 && decide (c.entry + 16 ≤ (sectionOr img c.bank).len)
      && z ((sectionOr img (coreMap img)).off + 16 * j + 10) 6)
  let sects := ((List.range n).filter sectBad).map fun i => at_ i 0
  let maps := (List.range n).filter fun i => (sectionAt img i).typ == 5
  if !sects.isEmpty then sects
  else if maps.length ≠ 1 then [at_ (maps.getD 1 0) 0]
  else ((List.range (imgCores img)).filter coreBad).map fun j => at_ (coreMap img) (16 * j)

/-- Failures of rule 0x01: header, section table and core map. -/
def headerFails (img : List Byte) : List Verdict :=
  match headerFieldFails img with
  | [] => tableRuleFails img
  | l => l

/-- Rule 0x01. -/
def headerOk (img : List Byte) : Bool := (headerFails img).isEmpty

/-! ### One image core -/

/-- Control word of an image core's bank at a byte offset. -/
def ctlWord (img : List Byte) (c : ImgCore) (pc : Nat) : BitVec 128 := BitVec.ofNat 128 (bytesAt img ((sectionOr img c.bank).off + pc) 16)
/-- Thread word at a word index. -/
def thrWord (img : List Byte) (c : ImgCore) (w : Nat) : Word64 := BitVec.ofNat 64 (bytesAt img ((sectionOr img c.bank).off + 8 * w) 8)
/-- Descriptor. -/
def imgDesc (img : List Byte) (c : ImgCore) (d : Nat) : BitVec 512 :=
  if c.descs = 0xFFFF then 0 else BitVec.ofNat 512 (bytesAt img ((sectionOr img c.descs).off + 64 * d) 64)
/-- Region-table entry as the image has it. -/
def imgRegion (img : List Byte) (c : ImgCore) (i : Nat) : BitVec 128 :=
  if c.table = 0xFFFF then 0 else BitVec.ofNat 128 (bytesAt img ((sectionOr img c.table).off + 16 * i) 16)
/-- Bytes of its bank image. -/
def bankLen (img : List Byte) (c : ImgCore) : Nat := (sectionOr img c.bank).len

/-- Where a control word at `pc` may go, as byte offsets; B, HALT, TRAP and SWITCH do not go on (R121). -/
def ctlNext (w : BitVec 128) (pc : Nat) : List Int :=
  let t : Int := (pc : Int) + 16 * toSigned 16 (w.toNat % 65536)
  match wOpc w with
  | 0x05 => [t]
  | 0x06 => [(pc : Int) + 16, t]
  | 0x07 => [(pc : Int) + 16, t]
  | 0x70 => []
  | 0x72 => []
  | 0x73 => []
  | _ => [(pc : Int) + 16]

/-- Whether a control word lies whole inside a bank image. -/
def inBank (len : Nat) (t : Int) : Bool := decide (0 ≤ t) && decide (t + 16 ≤ len) && t % 16 == 0

/-- The control words that can be reached, found with fuel. -/
def reachCtl (img : List Byte) (c : ImgCore) : Nat → List Nat → List Nat → List Nat
  | 0, _, seen => seen
  | _ + 1, [], seen => seen
  | n + 1, pc :: rest, seen =>
    if seen.contains pc then reachCtl img c n rest seen
    else
      let next := ((ctlNext (ctlWord img c pc) pc).filter fun t => inBank (bankLen img c) t).map Int.toNat
      reachCtl img c n (next ++ rest) (pc :: seen)

/-- The reachable control words of an image core: each of 2,048 words enters the work list at most twice and once. -/
def ctlReached (img : List Byte) (c : ImgCore) : List Nat := reachCtl img c 8192 [c.entry] []

/-- Where a thread word may go, as word indices. -/
def thrNext (t : Word64) (w : Nat) : List Nat :=
  let target := bitsOf t.toNat 23 12
  let join := bitsOf t.toNat 11 0
  match bitsOf t.toNat 63 56 with
  | 0x50 => [w + 1, target, join]
  | 0x51 => []
  | 0x52 => [target]
  | 0x56 => if bitsOf t.toNat 31 28 = 0 then [] else [w + 1]
  | _ => [w + 1]

/-- Whether a thread word lies whole inside a bank image. -/
def thrIn (len w : Nat) : Bool := decide (8 * w + 8 ≤ len)

/-- The thread words that can be reached, found with fuel. -/
def reachThr (img : List Byte) (c : ImgCore) : Nat → List Nat → List Nat → List Nat
  | 0, _, seen => seen
  | _ + 1, [], seen => seen
  | n + 1, w :: rest, seen =>
    if seen.contains w then reachThr img c n rest seen
    else
      let next := (thrNext (thrWord img c w) w).filter fun x => thrIn (bankLen img c) x
      reachThr img c n (next ++ rest) (w :: seen)

/-- Entries of the kernels that an image core's reachable LAUNCHes name. -/
def launchEntries (img : List Byte) (c : ImgCore) (pcs : List Nat) : List Nat :=
  pcs.filterMap fun pc =>
    let w := ctlWord img c pc
    let d := imgDesc img c (wDesc w)
    if wOpc w = 0x30 ∧ bitsOf d.toNat 7 0 = 4 then some (bitsOf d.toNat 19 8) else none

/-! ### Words (reasons 0x02, 0x03, 0x04, 0x08, 0x09) -/

/-- A control word with its page sets cleared. -/
def noPageSets (w : BitVec 128) : BitVec 128 := BitVec.ofNat 128 (w.toNat - fieldAt (w.toNat >>> 62) 42 62)

/-- The reason for which a control word is no defined one. -/
def ctlReason (w : BitVec 128) : Option Nat :=
  if !(undefinedEncoding w) then none
  else if !(undefinedEncoding (noPageSets w))
      && !(pageSetOk (wRda w).1 (wRda w).2 && pageSetOk (wRdb w).1 (wRdb w).2 && pageSetOk (wWr w).1 (wWr w).2) then some 0x03
  else some 0x02

/-- The register fields of a thread word that start a pair or block: dst, a, b. -/
def blockFields (op : Nat) : Bool × Bool × Bool :=
  match op with
  | 0x12 => (true, true, false)
  | 0x30 => (false, false, true)
  | 0x31 => (false, false, true)
  | 0x34 => (false, true, false)
  | 0x35 => (false, true, false)
  | 0x40 => (true, true, false)
  | 0x41 => (false, true, true)
  | 0x42 => (true, false, false)
  | 0x43 => (false, false, true)
  | 0x44 => (true, true, true)
  | 0x45 => (false, true, false)
  | _ => (false, false, false)

/-- A thread word with its pairs and blocks aligned. -/
def alignedBlocks (t : Word64) : Word64 :=
  match blockFields (bitsOf t.toNat 63 56) with
  | (d, a, b) => BitVec.ofNat 64 (t.toNat - (if d then fieldAt (bitsOf t.toNat 51 50) 2 50 else 0)
      - (if a then fieldAt (bitsOf t.toNat 45 44) 2 44 else 0) - (if b then fieldAt (bitsOf t.toNat 39 38) 2 38 else 0))

/-- The reason for which a thread word is no defined one. -/
def thrReason (t : Word64) : Option Nat :=
  if !(threadUndefined t) then none
  else if bitsOf t.toNat 63 56 = 0x53 ∧ bitsOf t.toNat 7 0 > 7 then some 0x08
  else if !(threadUndefined (alignedBlocks t)) then some 0x09
  else some 0x02

/-- Failures of the reachable control words in themselves and in where they go. -/
def ctlWordFails (img : List Byte) (c : ImgCore) (count : Nat) (pcs : List Nat) : List Verdict :=
  let len := bankLen img c
  pcs.flatMap fun pc =>
    let w := ctlWord img c pc
    let sw := w.toNat % 2 ^ 15
    (match ctlReason w with | some r => [{ reason := r, sect := c.bank, off := pc }] | none => [])
      ++ (if (ctlNext w pc).all (fun t => inBank len t) && (wOpc w != 0x70 || inBank len (sw : Nat)) then []
          else [{ reason := 0x04, sect := c.bank, off := pc }])
      ++ (if wOpc w = 0x61 ∧ bitsOf w.toNat 103 93 ≠ 0x7FF ∧ bitsOf w.toNat 103 93 ≥ count then
            [{ reason := 0x0B, sect := c.bank, off := pc }] else [])

/-- Failures of the reachable thread words. -/
def thrWordFails (img : List Byte) (c : ImgCore) (ws : List Nat) : List Verdict :=
  ws.flatMap fun w =>
    let t := thrWord img c w
    (match thrReason t with | some r => [{ reason := r, sect := c.bank, off := 8 * w }] | none => [])
      ++ (if (thrNext t w).all fun x => thrIn (bankLen img c) x then [] else [{ reason := 0x04, sect := c.bank, off := 8 * w }])

/-- The first reason against 16 bytes as a control word; in a bank image its explicit target must lie inside it. -/
def unitAsControl (w : BitVec 128) (bankLen : Option Nat) (count pc : Nat) : Option Nat :=
  match ctlReason w, bankLen with
  | some r, _ => some r
  | none, some len =>
    if (ctlNext w pc).any (fun t => t != (pc : Int) + 16 && !(inBank len t)) || (wOpc w == 0x70 && !(inBank len (w.toNat % 2 ^ 15 : Nat)))
    then some 0x04
    else if wOpc w = 0x61 ∧ bitsOf w.toNat 103 93 ≠ 0x7FF ∧ bitsOf w.toNat 103 93 ≥ count then some 0x0B else none
  | none, none => if wOpc w = 0x61 ∧ bitsOf w.toNat 103 93 ≠ 0x7FF ∧ bitsOf w.toNat 103 93 ≥ count then some 0x0B else none

/-- The first reason against 8 bytes as a thread word. -/
def unitAsThread (t : Word64) (bankLen : Option Nat) (w : Nat) : Option Nat :=
  match thrReason t, bankLen with
  | some r, _ => some r
  | none, some len => if (thrNext t w).any fun x => x != w + 1 && !(thrIn len x) then some 0x04 else none
  | none, none => none

/-- Failures of code that no path reaches, and of overlay code: each unit of 16 bytes must be good as a control word or as two thread
words; one that is neither is reported for what it comes closest to (log 26). `skip` are the units looked at already. -/
def looseFails (img : List Byte) (i : Nat) (skip : Nat → Bool) : List Verdict :=
  let x := sectionOr img i
  let bank := if x.typ = 1 then some x.len else none
  (List.range (x.len / 16)).filterMap fun u =>
    let w := BitVec.ofNat 128 (bytesAt img (x.off + 16 * u) 16)
    if skip (16 * u) then none else
    let lo := unitAsThread (BitVec.ofNat 64 w.toNat) bank (2 * u)
    let hi := unitAsThread (BitVec.ofNat 64 (w.toNat / 2 ^ 64)) bank (2 * u + 1)
    let thr : Option (Nat × Nat) := match lo, hi with
      | some r, _ => some (r, 16 * u)
      | none, some r => some (r, 16 * u + 8)
      | none, none => none
    match unitAsControl w bank (imgCores img) (16 * u), thr with
    | none, _ => none
    | _, none => none
    | some r, some (q, off) =>
      if r ≠ 0x02 ∨ q = 0x02 then some { reason := r, sect := i, off := 16 * u } else some { reason := q, sect := i, off }

/-! ### Descriptors (reasons 0x05, 0x06, 0x07, 0x0B, 0x0C, 0x0D) -/

/-- An image core as its instructions would find it: its region table as the image has it. -/
def coreOfImage (img : List Byte) (c : ImgCore) : Core := { regions := (List.range 64).map fun i => (i, imgRegion img c i) }

/-- The flight of a control word with ka and kb zero. -/
def flightOfImage (img : List Byte) (c : ImgCore) (w : BitVec 128) : Flight :=
  { tag := wTag w, eng := wEng w, word := w, pc := 0, desc := imgDesc img c (wDesc w), ka := 0, kb := 0, fpctl := 0, seed := 0 }

/-- The regions that a descriptor names, under the instruction that reads it. -/
def namedRegions (w : BitVec 128) (fl : Flight) : List Nat :=
  match wOpc w with
  | 0x10 =>
    let m := moveDesc fl
    (if m.srcKind = 0 then [m.srcRegion] else []) ++ (if m.dstKind = 0 then [m.dstRegion] else [])
  | 0x40 => [cdRegion fl.desc]
  | 0x41 => [cdRegion fl.desc, (cfinDesc fl.desc).dstRegion]
  | 0x43 => [cdRegion fl.desc]
  | 0x44 => [cdRegion fl.desc]
  | 0x45 => [cdRegion fl.desc]
  | 0x50 =>
    let d := collDesc fl
    if d.op = 5 then [] else [d.srcR, d.dstR] ++ (if d.op ≤ 1 then [d.workR] else [])
  | _ => []

/-- Whether an extent of a COLL that no group decides exceeds its region (R347). -/
def collTooLong (k : Core) (d : CollDesc) : Bool :=
  let exceeds (r o n : Nat) : Bool := regionCheck k r 0 o n == some 0x01
  let z := collElem d.fmt
  (decide (d.op ≤ 1 ∨ d.op = 3) && exceeds d.srcR d.srcOff (d.count * z))
    || (d.op == 0 && exceeds d.dstR d.dstOff (d.count * elemBytes d.out))
    || (decide (2 ≤ d.op ∧ d.op ≤ 4) && exceeds d.dstR d.dstOff (d.count * z))

/-- The fault that an instruction's own checks give with ka = kb = k0, of those that do not look at the machine's state. -/
def staticFault (k : Core) (w : BitVec 128) (fl : Flight) : Option Nat :=
  match wOpc w with
  | 0x10 =>
    let m := moveDesc fl
    if (moveForm fl.desc m (rgBase (regionOf k m.dstRegion))).isSome then some 0x0E
    else if moveEmpty m then none else (moveChecks k fl m).map Prod.fst
  | 0x20 => if (passDesc fl).aAddr % 64 ≠ 0 ∨ (passDesc fl).bAddr % 64 ≠ 0 then some 0x0E else none
  | 0x40 => (credCheck k fl).map Prod.fst
  | 0x41 => (cfinCheck k fl).map Prod.fst
  | 0x43 => lineOpCheck k fl
  | 0x44 => lineOpCheck k fl
  | 0x45 => lineOpCheck k fl
  | 0x50 => if collTooLong k (collDesc fl) then some 0x01 else none
  | _ => none

/-- Whether a field holds a value that the instruction defines as undefined or malformed, whatever ka and kb are (R50, R51, R126, R150,
R156, R206, R246, R266 to R268, R275, R346). -/
def fieldUndefined (w : BitVec 128) (fl : Flight) : Bool :=
  let d := fl.desc.toNat
  match wOpc w with
  | 0x10 => (moveForm fl.desc { moveDesc fl with dst := 0 } 0).isSome
  | 0x20 => let p := passDesc fl; p.stream && decide (p.lead > 8)
  | 0x22 => bitsOf w.toNat 45 44 != 0 && accxFmtBad fl
  | 0x30 => bitsOf d 63 20 != 0
  | 0x40 =>
    let c := credDesc fl.desc
    decide (c.op > 2 ∨ c.fmt > 2 ∨ dBits fl.desc 511 205 ≠ 0 ∨ dBits fl.desc 15 14 ≠ 0 ∨ cdLen fl.desc % elemBytes c.fmt ≠ 0
      ∨ c.dstPitch % slotBytes c.exact c.fmt ≠ 0) || (if c.exact then c.op != 0 else c.e != 0)
  | 0x41 =>
    let c := cfinDesc fl.desc
    decide (c.out > 2 ∨ (c.rm ≠ 0 ∧ c.rm ≠ 4) ∨ c.srcFmt > 2 ∨ c.srcOp > 2 ∨ dBits fl.desc 511 227 ≠ 0 ∨ dBits fl.desc 15 14 ≠ 0
      ∨ cdLen fl.desc % (if c.exact then 256 else 64) ≠ 0 ∨ c.dstOff % elemBytes c.out ≠ 0
      ∨ (c.rm = 4 ∧ c.exact = false ∧ redSrc c.out = redHeld c.srcFmt)) || (if c.exact then c.srcOp != 0 else c.e != 0)
  | 0x42 =>
    let u := updDesc fl.desc
    bitsOf d 23 20 != 0 || bitsOf d 511 367 != 0 || !([u.lr, u.wd, u.b1, u.b2, u.eps, u.gscale].all finite32) || decide (u.n ≥ 0xFFFFFFFE)
  | 0x43 => dBits fl.desc 511 96 != 0 || cdLen fl.desc % 64 != 0
  | 0x44 => dBits fl.desc 511 96 != 0 || cdLen fl.desc % 64 != 0
  | 0x45 => dBits fl.desc 511 96 != 0 || cdLen fl.desc % 64 != 0
  | 0x50 => collMalformed fl
  | _ => false

/-- Whether the window exponent of an exact descriptor, or of an UPD's statistics, is out of range (R67). -/
def exponentBad (w : BitVec 128) (fl : Flight) : Bool :=
  match wOpc w with
  | 0x10 => (moveDesc fl).exact && !(windowOkE (moveDesc fl).e)
  | 0x40 => (credDesc fl.desc).exact && !(windowOkE (credDesc fl.desc).e)
  | 0x41 => (cfinDesc fl.desc).exact && !(windowOkE (cfinDesc fl.desc).e)
  | 0x42 => !(windowOkE (updDesc fl.desc).eStats)
  | 0x50 => (collDesc fl).exact && decide ((collDesc fl).op ≤ 1) && !(windowOkE (collDesc fl).e)
  | _ => false

/-- Whether an MMA reads microscaling blocks that do not start at a multiple of 32 in K: its lines do not start at a line (R59). -/
def blocksAskew (w : BitVec 128) (fl : Flight) : Bool :=
  let p := passDesc fl
  wOpc w == 0x20 && ((isMx p.aFmt && p.aAddr % 64 != 0) || (isMx p.bFmt && p.bAddr % 64 != 0))

/-- Whether the geometry of a CONV is malformed, its two addresses only when ka and kb are k0 (R141). -/
def convBad (w : BitVec 128) (fl : Flight) (fixed : Bool) : Bool :=
  let f := if fixed then fl else { fl with desc := fl.desc &&& ~~~((0x7FFFF#512 <<< 8) ||| (0x7FFFF#512 <<< 152)) }
  wOpc w == 0x21 && passForm f (passDesc f)

/-- The planned arrival of a slot (R138). -/
def planned (b g n : Nat) : Nat := n / b * (b + g) + n % b

/-- Whether a stream-feed MMA keeps its schedule entry (R138). -/
def feedOk (img : List Byte) (c : ImgCore) (fl : Flight) : Bool :=
  let d := passDesc fl
  if !d.stream then true
  else if c.sched = 0xFFFF then false
  else
    let x := sectionOr img c.sched
    let i := dBits fl.desc 195 188
    let f (o n : Nat) : Nat := bytesAt img (x.off + 8 * i + o) n
    let mv := imgDesc img c (f 6 2 % 64)
    decide (8 * i + 8 ≤ x.len) && decide (f 0 1 ≤ 8) && f 1 1 != 0 && f 4 2 == d.rows + skewDepth d.aFmt && d.lead == f 0 1
      && ((List.range (f 4 2)).all fun s => decide (planned (f 1 1) (f 2 1) s ≤ s + f 0 1))
      && decide (f 6 2 < 64) && bitsOf mv.toNat 7 0 == 1 && dBits mv 24 22 == 3 && dBits mv 458 451 == f 1 1
      && dBits mv 466 459 == f 2 1 && dBits mv 482 467 == f 4 2

/-- Failures of a reachable long word's descriptor. -/
def descFails (img : List Byte) (c : ImgCore) (w : BitVec 128) (pc : Nat) : List Verdict :=
  let at_ (r : Nat) : List Verdict :=
    if c.descs = 0xFFFF then [{ reason := r, sect := c.bank, off := pc }] else [{ reason := r, sect := c.descs, off := 64 * wDesc w }]
  if wEng w = 0 ∨ wEng w > 5 ∨ undefinedEncoding w then []
  else match descType w with
    | none => []
    | some t =>
      let fl := flightOfImage img c w
      let k := coreOfImage img c
      let fixed := bitsOf w.toNat 55 46 == 0
      if bitsOf fl.desc.toNat 7 0 ≠ t then at_ 0x0C
      else
        let flt := if fixed then staticFault k w fl else none
        (if (namedRegions w fl).any (fun i => rgLen (regionOf k i) == 0) || flt == some 0x01 || convBad w fl fixed then at_ 0x05 else [])
          ++ (if feedOk img c fl || wOpc w != 0x20 then [] else at_ 0x06)
          ++ (if wOpc w = 0x10 ∧ (moveDesc fl).dstKind = 2 ∧ (regionOf k (moveDesc fl).srcRegion).getLsbD 90 = false then at_ 0x07 else [])
          ++ (if wOpc w = 0x30 ∧ !(thrIn (bankLen img c) (bitsOf fl.desc.toNat 19 8)) then at_ 0x0B else [])
          ++ (if exponentBad w fl || (fixed && blocksAskew w fl) then at_ 0x0D else if fieldUndefined w fl || flt == some 0x0E then at_ 0x0C else [])

/-! ### Regions (reasons 0x0A, 0x0B) -/

/-- Fields of a region-table entry that only the loader reads. -/
def rgHint (r : BitVec 128) : Bool := r.getLsbD 111
/-- hint_core -/
def rgHintCore (r : BitVec 128) : Nat := bitsOf r.toNat 106 96
/-- hint_die -/
def rgHintDie (r : BitVec 128) : Nat := bitsOf r.toNat 110 110

/-- Whether two entries name the same place, so that their ranges can be compared before relocation. -/
def samePlace (a b : BitVec 128) : Bool := rgHint a == rgHint b && (!(rgHint a) || (rgHintCore a == rgHintCore b && rgHintDie a == rgHintDie b))

/-- Whether two entries overlap. -/
def rgOverlap (a b : BitVec 128) : Bool :=
  samePlace a b && decide (rgBase a < rgBase b + rgLen b) && decide (rgBase b < rgBase a + rgLen a) && decide (rgLen a > 0) && decide (rgLen b > 0)

/-- Whether an entry lies whole in a section that the loader places; `places` gives section indices with their addresses. -/
def inPlaced (img : List Byte) (places : List (Nat × Addr)) (r : BitVec 128) : Bool :=
  places.any fun p =>
    let x := sectionOr img p.1
    (x.typ == 6 || x.typ == 1) && decide (p.2.toNat ≤ rgBase r) && decide (rgBase r + rgLen r ≤ p.2.toNat + x.len)

/-- Failures of a region table. -/
def tableFails (img : List Byte) (places : List (Nat × Addr)) (xs : List (BitVec 128)) (i : Nat) : List Verdict :=
  let x := sectionOr img i
  (List.range 64).flatMap fun e =>
    let r := BitVec.ofNat 128 (bytesAt img (x.off + 16 * e) 16)
    let at_ (n : Nat) : List Verdict := [{ reason := n, sect := i, off := 16 * e }]
    if r = 0 then []
    else
      let inside := rgLen r == 0 || (if rgHint r then decide (rgBase r + rgLen r ≤ 2 ^ 21) else inWindows (rgBase r) (rgLen r))
      (if !inside || (r.getLsbD 89 && r.getLsbD 90) || (r.getLsbD 89 && xs.any fun y => rgOverlap r y)
          || (r.getLsbD 90 && rgLen r != 0 && !(inPlaced img places r)) then at_ 0x0A else [])
        ++ (if rgHint r ∧ rgHintCore r ≥ imgCores img then at_ 0x0B else [])

/-! ### The verdict -/

/-- Failures of one image core. -/
def coreFails (img : List Byte) (c : ImgCore) : List Verdict :=
  let pcs := ctlReached img c
  let ws := reachThr img c 65536 (launchEntries img c pcs) []
  let seen (u : Nat) : Bool := pcs.contains u || ws.contains (u / 8) || ws.contains (u / 8 + 1)
  ctlWordFails img c (imgCores img) pcs ++ thrWordFails img c ws ++ looseFails img c.bank seen
    ++ pcs.flatMap fun pc => descFails img c (ctlWord img c pc) pc

/-- The executable region-table entries of an image. -/
def execRegions (img : List Byte) : List (BitVec 128) :=
  (List.range (imgCount img)).flatMap fun i =>
    if (sectionAt img i).typ = 2 then
      ((List.range 64).map fun e => BitVec.ofNat 128 (bytesAt img ((sectionAt img i).off + 16 * e) 16)).filter fun r => r.getLsbD 90
    else []

/-- Every failure after rule 0x01. -/
def imageFails (img : List Byte) (places : List (Nat × Addr)) : List Verdict :=
  (if imgWays img > 16 then [{ reason := 0x0E, sect := 0, off := 0x12 }] else [])
    ++ (imgCoreList img).flatMap (fun c => coreFails img c)
    ++ (List.range (imgCount img)).flatMap fun i =>
        match (sectionAt img i).typ with
        | 2 => tableFails img places (execRegions img) i
        | 6 => looseFails img i fun _ => false
        | _ => []

/-- Whether a failure comes before another: by section, then by byte. -/
def earlier (a b : Verdict) : Bool := decide (a.sect < b.sect) || (a.sect == b.sect && decide (a.off < b.off))

/-- The verifier's report: none when the image passes (R121). -/
def verifyImage (img : List Byte) (places : List (Nat × Addr)) : Option Verdict :=
  let first (l : List Verdict) : Option Verdict := l.foldl (fun (b : Option Verdict) v =>
    match b with
    | none => some v
    | some x => if earlier v x then some v else some x) none
  if headerOk img then first (imageFails img places) else first (headerFails img)

end Sys2Proof.Machine
end

