-- ==== Sys2Proof/Machine/Swarm.lean ====
section
/-! DEFINITION. Swarm load and the loader (R65, R100, R113, R120, R224, R364, R410 to R418). -/
namespace Sys2Proof.Machine

/-! ### Registers of the injector and the region controllers (R411, R412, R418) -/

/-- Changes the swarm state. -/
def modSwarm (s : State) (f : Swarm → Swarm) : State := { s with swarm := f s.swarm }
/-- The reception registers of a site. -/
def getSite (s : State) (k : Nat) : SwarmSite := tblGet {} s.swarm.sites k
/-- Changes the reception registers of a site. -/
def modSite (k : Nat) (f : SwarmSite → SwarmSite) (s : State) : State :=
  modSwarm s fun w => { w with sites := tblPut w.sites k (f (getSite s k)) }

/-- Class of the injector's requests, which belong to master 1,204 (log 40). -/
def mgtClass (s : State) : Nat := bitsOf s.reg.cfg.toNat 8 6

/-- Reads byte ranges one after another. -/
def readMany (master cls : Nat) : List (Nat × Nat) → State → State × Res (List (List Byte))
  | [], s => (s, .ok [])
  | (a, n) :: r, s =>
    match readSpan master cls a n s with
    | (s1, .ok b) =>
      match readMany master cls r s1 with
      | (s2, .ok bs) => (s2, .ok (b :: bs))
      | (s2, .err e) => (s2, .err e)
      | (s2, .wait) => (s2, .wait)
    | (s1, .err e) => (s1, .err e)
    | (s1, .wait) => (s1, .wait)

/-- Chunks of a section (R411). -/
def chunksOf (size : Nat) : Nat := ceilDiv size 4096
/-- Length of a chunk. -/
def chunkLen (size c : Nat) : Nat := min 4096 (size - 4096 * c)
/-- Length of a section as the digest table last gave it. -/
def sizeOf (s : State) (sect : Nat) : Nat := tblGet 0 s.swarm.sizes sect

/-- The chunks that a site expects and misses. -/
def missing (s : State) (e : SwarmSite) : List Nat :=
  (List.range (chunksOf (sizeOf s e.sect.toNat))).filter fun c => !(e.got.getLsbD c)

/-- The enabled sites. -/
def enabledSites (s : State) : List (Nat × SwarmSite) := s.swarm.sites.filter fun e => e.2.enable

/-- The regions that a packet reaches (R412). -/
def packetRegions (target : Nat) : List Nat :=
  if target = 0xFFFF then List.range 24 else if target < 1200 then [target / 50] else []

/-- The packets of list entries, with their data and the section lengths. -/
def chunkPackets (loadId : BitVec 16) (es : List (List Byte × List Byte × Nat)) : List ChunkPkt :=
  (es.map fun e =>
    let t := bytesAt e.1 0x0C 2
    { loadId, sect := bytesAt e.1 8 2, chunk := bytesAt e.1 0x0A 1, len := bytesAt e.1 6 2, target := t, size := e.2.2
      data := e.2.1, dest := packetRegions t : ChunkPkt }).filter fun p => !p.dest.isEmpty

/-- Ends an operation. -/
def swarmEnds (s : State) : State := modSwarm s fun w => { w with op := 0, waits := false }

/-- An operation read what it needs, or waits for a line held at its home, or ends at an access that fails (log 40). -/
def swarmGot {α : Type} (r : State × Res α) (f : α → State → State) : State :=
  match r with
  | (s, .ok a) => f a (modSwarm s fun w => { w with waits := false })
  | (s, .err _) => swarmEnds s
  | (s, .wait) => modSwarm s fun w => { w with waits := true }

/-- Operation 1: every list entry becomes a chunk packet. -/
def swarmSend (digest count : Nat) (s : State) : State :=
  let rd (l : List (Nat × Nat)) (s : State) := readMany 1204 (mgtClass s) l s
  swarmGot (rd ((List.range count).map fun i => (s.swarm.list.toNat + 64 + 16 * i, 16)) s) fun es s1 =>
  swarmGot (rd (es.map fun e => (digest + 128 * bytesAt e 8 2, 8)) s1) fun sizes s2 =>
  swarmGot (rd (es.map fun e => (bytesAt e 0 6, bytesAt e 6 2)) s2) fun datas s3 =>
    let ps := chunkPackets s3.swarm.loadId (es.zip (datas.zip (sizes.map leNat)))
    let s4 := modSwarm s3 fun w => { w with
      packets := w.packets ++ ps
      sizes := (es.zip (sizes.map leNat)).foldl (fun t e => tblPut t (bytesAt e.1 8 2) e.2) w.sizes }
    if s4.swarm.packets = [] then swarmEnds s4 else s4

/-- The sections that enabled sites take. -/
def sectionsTaken (s : State) : List Nat := ((enabledSites s).map fun e => e.2.sect.toNat).eraseDups

/-- The digest-table entries of the sections that enabled sites take, and their lengths put in place. -/
def readDigests (digest : Nat) (s : State) : State × Res (List (Nat × List Byte)) :=
  let ss := sectionsTaken s
  match readMany 1204 (mgtClass s) (ss.map fun x => (digest + 128 * x, 128)) s with
  | (s1, .ok ds) =>
    (modSwarm s1 fun w => { w with sizes := (ss.zip ds).foldl (fun t e => tblPut t e.1 (bytesAt e.2 0 8)) w.sizes }, .ok (ss.zip ds))
  | (s1, .err e) => (s1, .err e)
  | (s1, .wait) => (s1, .wait)

/-- The union of the missing chunks: bit 8s + c for chunk c of section s (R413). -/
def unionBytes (s : State) : List Byte :=
  let bits := (enabledSites s).flatMap fun e => ((missing s e.2).filter fun c => c < 8).map fun c => (e.2.sect.toNat, c)
  (List.range 1024).map fun x => BitVec.ofNat 8 ((List.range 8).foldl (fun n c => if bits.contains (x, c) then n + 2 ^ c else n) 0)

/-- Operation 2: the tally. -/
def swarmTally (digest union : Nat) (s : State) : State :=
  swarmGot (readDigests digest s) fun _ s1 =>
  swarmGot (engineWriteBytes 1204 (mgtClass s1) 64 union (unionBytes s1) s1) fun _ s2 => swarmEnds s2

/-- Whether a site holds its section: it misses nothing, and its standby bank has the digest (R413, R416). -/
def siteDone (s : State) (k : Nat) (e : SwarmSite) (d : List Byte) : Bool :=
  let size := bytesAt d 0 8
  match coreAt s k with
  | some c =>
    let core := getCore s c
    size != 0 && (missing s e).isEmpty && !e.failed
      && sha3 (memBytes (bankMem core (!core.active)) 0 size) == BitVec.ofNat 512 (bytesAt d 0x40 64)
  | none => false

/-- A standby bank is found good. -/
def standbyGood (c : Nat) (s : State) : State := modCore s c fun k => setValid k (!k.active) true

/-- Operation 3: the digest check. -/
def swarmCheck (digest : Nat) (s : State) : State :=
  swarmGot (readDigests digest s) fun ds s1 =>
    swarmEnds ((enabledSites s1).foldl (fun s e =>
      let ok := siteDone s e.1 e.2 ((ds.lookup e.2.sect.toNat).getD [])
      let s2 := modSite e.1 (fun x => { x with done := ok, failed := !ok }) s
      if ok then (match coreAt s e.1 with | some c => standbyGood c s2 | none => s2) else s2) s1)

/-- Runs the operation that the injector has begun, or takes it up again. -/
def swarmRun (s : State) : State :=
  swarmGot (readSpan 1204 (mgtClass s) s.swarm.list.toNat 64 s) fun h s1 =>
    let digest := bytesAt h 0 8
    match s1.swarm.op.toNat with
    | 1 => swarmSend digest (bytesAt h 0x10 4) s1
    | 2 => swarmTally digest (bytesAt h 8 8) s1
    | _ => swarmCheck digest s1

/-- A write of RGN_SWARM_CTL (R412, R413, R416). -/
def writeSwarmCtl (v : Word32) (s : State) : State :=
  let op := wField v 28 2
  if op ≠ 0 ∧ s.swarm.op ≠ 0 then refuse s
  else
    let s1 := modSwarm s fun w => { w with loadId := v.truncate 16 }
    if op = 0 then written s1 else written (swarmRun (modSwarm s1 fun w => { w with op := BitVec.ofNat 2 op }))

/-- A write of RGN_SWARM_CTL with an operation, whatever the written word's own op. -/
def swarmOp (by_ : By) (op : Nat) (v : Word32) (s : State) : State :=
  ctlGlobal by_ false 3 0 (writeSwarmCtl (BitVec.ofNat 32 (setField v.toNat op 2 28))) s

/-- SWARM_SEND (R412). -/
def execSwarmSend (by_ : By) (v : Word32) (s : State) : Out := .next (swarmOp by_ 1 v s)
/-- SWARM_TALLY (R413). -/
def execSwarmTally (by_ : By) (v : Word32) (s : State) : Out := .next (swarmOp by_ 2 v s)
/-- SWARM_DIGEST_CHECK (R413). -/
def execSwarmDigestCheck (by_ : By) (v : Word32) (s : State) : Out := .next (swarmOp by_ 3 v s)

/-- A write of RGN_SWARM_SEC[i]: one that sets enable clears the site's bitmap, done and failed, and the generation is recorded
(R416, R418, R443). -/
def writeSwarmSec (site : Nat) (v : Word32) (s : State) : State :=
  if s.swarm.op ≠ 0 then refuse s
  else
    let sect : BitVec 10 := v.truncate 10
    written (modSite site (fun x =>
      if v.getLsbD 31 then { enable := true, sect, gen := tblGet 0 s.pwr.siteGen site } else { x with enable := false, sect }) s)

/-- RGN_SWARM_SEC_WRITE (R418). -/
def execRgnSwarmSecWrite (by_ : By) (site : SiteNo) (v : Word32) (s : State) : Out :=
  .next (ctl by_ false 3 (site.val / 54) 64 (writeSwarmSec site.val v) s)

/-- Writes a chunk into the standby bank of a core; the bank is invalid until a digest check (R110, R412). -/
def putChunk (c : Nat) (p : ChunkPkt) (s : State) : State :=
  modCore s c fun k => setValid (setBank k (!k.active) (memWriteBytes (bankMem k (!k.active)) (4096 * p.chunk) p.data)) (!k.active) false

/-- A region controller discards a packet (R412). -/
def swarmDrop (n : Nat) (s : State) : State := modSwarm s fun w => { w with drops := tblMod 0 w.drops n fun x => satInc x 1 }

/-- The sites of a region that take a packet. -/
def takers (s : State) (n : Nat) (p : ChunkPkt) : List (Nat × SwarmSite) :=
  (enabledSites s).filter fun e => e.1 / 54 == n && e.2.sect.toNat == p.sect
    && (p.target == 0xFFFF || siteOf s p.target == some e.1)

/-- A site takes a chunk that it still misses; a site of another generation than when it was enabled counts a drop (R443). -/
def takeChunk (n : Nat) (p : ChunkPkt) (e : Nat × SwarmSite) (s : State) : State :=
  if e.2.gen ≠ tblGet 0 s.pwr.siteGen e.1 then
    modRgn s n fun r => { r with genDropSet := true, genDrop := satInc r.genDrop 1 }
  else if e.2.got.getLsbD p.chunk then s
  else match coreAt s e.1 with
    | none => s
    | some c =>
      if (getFp s n).compute = .on then
        putChunk c p (modSite e.1 (fun x => { x with got := x.got ||| BitVec.ofNat 8 (2 ^ p.chunk) }) s)
      else s

/-- A region controller receives a packet; `crcOk` says whether its CRC holds (log 11). -/
def receiveChunk (n : Nat) (p : ChunkPkt) (crcOk : Bool) (s : State) : State :=
  let good := p.loadId == s.swarm.loadId && crcOk && decide (p.chunk < chunksOf p.size) && decide (p.chunk < 8)
    && p.len == chunkLen p.size p.chunk && !(takers s n p).isEmpty
  if good then (takers s n p).foldl (fun s e => takeChunk n p e s) s else swarmDrop n s

/-- CHUNK_PACKET_RECEIVED (R412): packet `i` on its way reaches region controller `n`, or ends there when the controller has no
power; the injector is no longer busy once none is left. -/
def execChunkPacketReceived (n : RegionNo) (i : Nat) (crcOk : Bool) (s : State) : Out :=
  .next (
    match s.swarm.packets[i]? with
    | none => s
    | some p =>
      if frozen s || !(p.dest.contains n.val) then s
      else
        let p' := { p with dest := p.dest.filter fun x => x != n.val }
        let ps := if p'.dest = [] then s.swarm.packets.eraseIdx i else s.swarm.packets.set i p'
        let s1 := modSwarm s fun w => { w with packets := ps, op := if ps = [] ∧ w.op = 1 then 0 else w.op }
        if blockPowered s 3 n.val 64 then receiveChunk n.val p crcOk s1 else s1)

/-! ### The loader (R120) -/

/-- First byte of the scratch slot that a slice fills (R23). -/
def slotBase (s : State) (n : Nat) : Option Nat :=
  let r := rankGood s.boot.badSlices n
  if sliceGood s n && decide (r < 2560) then some (scratchBase + r * 0x200000) else none

/-- The slice beneath a logical core's site on a die. -/
def sliceUnder (s : State) (c die : Nat) : Nat := 1296 * die + (siteOf s c).getD 0

/-- The dies on which hints of an image name an image core. -/
def hintedDies (img : List Byte) (j : Nat) : List Nat :=
  (((imgCoreList img).flatMap fun x => (List.range 64).map fun e => imgRegion img x e).filterMap fun r =>
    if rgHint r ∧ rgHintCore r = j then some (rgHintDie r) else none).eraseDups

/-- Whether a logical core has a slot under every hint that names its image core (R113, R410). -/
def hasSlots (s : State) (img : List Byte) (j c : Nat) : Bool :=
  (hintedDies img j).all fun d => (slotBase s (sliceUnder s c d)).isSome

/-- A region-table entry relocated for a map of image cores (R113). -/
def relocate (s : State) (map : List Nat) (r : BitVec 128) : BitVec 128 :=
  if rgHint r then
    let at_ := ((slotBase s (sliceUnder s (map.getD (rgHintCore r) 0) (rgHintDie r))).getD 0)
    BitVec.ofNat 128 (setField r.toNat (rgBase r + at_) 48 0)
  else r

/-- Whether a region overlaps the host carve-out (R364). -/
def inCarve (s : State) (r : BitVec 128) : Bool :=
  !(rgHint r) && decide (rgLen r > 0) && decide (rgBase r < hbmBytes) && decide (rgBase r + rgLen r > hbmBytes - s.boot.carve * 2 ^ 30)

/-- The census ids that programs hold: each core keeps that of its program plus one (R65). -/
def heldIds (s : State) : List Nat := ((s.cores.map fun e => e.2.prog).filter fun p => p != 0).map fun p => p - 1

/-- The id that a load takes: the one that the loader chooses if it is free, else the lowest free one. -/
def censusId (s : State) (want : Nat) : Option Nat :=
  let free := (List.range 8).filter fun i => !((heldIds s).contains i)
  if free.contains want then some want else free.head?

/-- What a load leaves of a core but for its bank: fresh program state, region table, descriptors, seed, CORE_FPCTL, watchdog and
entry (R65, R72, R83, R96, R101, R117, R120, R147, R173, R194, R218, R254, R290). -/
def loadCore (s : State) (img : List Byte) (map : List Nat) (id j : Nat) (k : Core) : Core :=
  let x := imgCore img j
  { active := k.active, bankA := k.bankA, bankB := k.bankB, validA := k.validA, validB := k.validB, tile := k.tile
    st := .empty
    arr := { accAddr := k.arr.accAddr }
    descMem := memWriteBytes {} 0 (if x.descs = 0xFFFF then [] else (img.drop (sectionOr img x.descs).off).take 4096)
    regions := (List.range 64).map fun e => (e, relocate s map (imgRegion img x e))
    xlat := map.zipIdx.map fun e => (e.2, e.1, coreGen s e.1)
    image := some j, prog := id + 1
    regs := { causeMask := k.regs.causeMask, cause := k.regs.cause, imemBank := k.regs.imemBank, imemWord := k.regs.imemWord
              descWord := k.regs.descWord, kregSel := k.regs.kregSel
              wdog := BitVec.ofNat 16 (imgWdog img), entry := BitVec.ofNat 15 x.entry, fpctl := BitVec.ofNat 32 (256 * id)
              seedLo := BitVec.ofNat 32 (imgSeed img), seedHi := BitVec.ofNat 32 (imgSeed img / 2 ^ 32) } }

/-- The bank image of an image core. -/
def imgBank (img : List Byte) (j : Nat) : List Byte :=
  let x := sectionOr img (imgCore img j).bank
  (img.drop x.off).take x.len

/-- Loads one core; one whose bank never loads is left in EMPTY with its standby bank invalid, marked suspect (R415). -/
def loadOne (img : List Byte) (map : List Nat) (id : Nat) (failing : List Nat) (s : State) (j : Nat) : State :=
  let c := map.getD j 0
  let bad := failing.contains c || (imgBank img j).isEmpty
  let s1 := modCore s c fun k =>
    let k1 := loadCore s img map id j k
    let k2 := setValid (setBank k1 (!k1.active) (memWriteBytes (bankMem k1 (!k1.active)) 0 (imgBank img j))) (!k1.active) true
    if bad then setValid { k1 with prog := 0, image := none, xlat := [] } (!k1.active) false else { k2 with st := .loaded }
  let site := (siteOf s c).getD 0
  let s2 := modSite site (fun _ =>
    { enable := true, done := !bad, failed := bad, sect := BitVec.ofNat 10 (imgCore img j).bank, gen := tblGet 0 s.pwr.siteGen site
      got := if bad then 0 else BitVec.ofNat 8 (2 ^ chunksOf (imgBank img j).length - 1) }) s1
  if bad then addLearned { kind := 1, suspect := true, origin := 1, index := site } s2 else s2

/-- The cores that a load may substitute: in EMPTY, not in the map, with power, and with a slot (R415). -/
def freeCores (s : State) (img : List Byte) (used : List Nat) (j : Nat) : List Nat :=
  (List.range 1200).filter fun c =>
    (siteOf s c).isSome && decide ((getCore s c).st = .empty) && !(used.contains c) && coreUp s c
      && (slotBase s (sliceUnder s c 0)).isSome && hasSlots s img j c

/-- Finds substitutes for image core `j`, trying free cores in rising order; `used` are those in the map or tried. -/
def substitute (img : List Byte) (id j : Nat) (failing : List Nat) :
    Nat → List Nat → List Nat → State → State × Option (List Nat) × List Nat
  | 0, _, used, s => (s, none, used)
  | n + 1, map, used, s =>
    match (freeCores s img used j).head? with
    | none => (s, none, used)
    | some c =>
      let map' := map.set j c
      let s1 := loadOne img map' id failing s j
      if (getCore s1 c).st = .loaded then (s1, some map', c :: used) else substitute img id j failing n map' (c :: used) s1

/-- A load fails after cores were written: each is left in EMPTY with its standby bank invalid. -/
def abandonLoad (cs : List Nat) (s : State) : State :=
  cs.foldl (fun s c => modCore s c fun k =>
    setValid { k with st := .empty, prog := 0, image := none, xlat := [] } (!k.active) false) s

/-- The final map is put in force: every core of the program gets its region table and translation (R100, R415). -/
def settleMap (img : List Byte) (map : List Nat) (s : State) : State :=
  map.zipIdx.foldl (fun s e => modCore s e.1 fun k => { k with
    regions := (List.range 64).map fun i => (i, relocate s map (imgRegion img (imgCore img e.2) i))
    xlat := map.zipIdx.map fun x => (x.2, x.1, coreGen s x.1) }) s

/-- Substitutes for every failed image core, in rising order. -/
def substituteAll (img : List Byte) (id : Nat) (failing : List Nat) :
    List Nat → List Nat → List Nat → State → State × Option (List Nat) × List Nat
  | [], map, used, s => (s, some map, used)
  | j :: r, map, used, s =>
    match substitute img id j failing 1200 map used s with
    | (s1, some map', used') => substituteAll img id failing r map' used' s1
    | x => x

/-- Places overlay and bank sections in HBM (R120 step 4), and whether every byte of them is there. -/
def placeSections (img : List Byte) (places : List (Nat × Addr)) (s : State) : State × Bool :=
  places.foldl (fun (a : State × Bool) p =>
    let x := sectionOr img p.1
    match engineWriteBytes 1200 (a.1.reg.cfg.toNat % 8) (x.len / 64 + 2) p.2.toNat ((img.drop x.off).take x.len) a.1 with
    | (s1, .ok _) => (s1, a.2)
    | (s1, _) => (s1, false)) (s, true)

/-- Writes the cores of a program and loads their banks, once its sections are placed, with substitutes where the image allows them (R120 steps 2 to 6,
R415). -/
def loadCores (q : LoadRequest) (id : Nat) (s : State) : State :=
  let img := q.image
  let map := q.map.map fun c => c.val
  let failing := q.failing.map fun c => c.val
  let placed := placeSections img q.places (modSwarm s fun w => { w with loadId := w.loadId + 1 })
  let s1 := placed.1
  let s2 := (List.range map.length).foldl (loadOne img map id failing) s1
  let bad := (List.range map.length).filter fun j => decide ((getCore s2 (map.getD j 0)).st ≠ .loaded)
  let failed (s : State) (l : List Nat) : List Nat := l.filter fun c => decide ((getCore s c).st ≠ .loaded)
  let census (s : State) : State := modMgt s fun m => { m with census := tblPut m.census id 0 }
  if placed.2 = false then answer s1 .refused
  else if bad = [] then answer (census s2) .done
  else if !(imgSubst img) then answer (abandonLoad map s2) (.cores (failed s2 map))
  else
    match substituteAll img id failing bad map map s2 with
    | (s3, some map', _) => answer (census (settleMap img map' s3)) .done
    | (s3, none, used) => answer (abandonLoad used s3) (.cores (failed s3 used))

/-- The load of an image that the verifier accepts: the map and the device must suit it, and no core is written before that. A core
in RUN refuses a load (R115, R120). -/
def loadVerified (q : LoadRequest) (s : State) : State :=
  let img := q.image
  let map := q.map.map fun c => c.val
  let here (c : Nat) : Bool := (siteOf s c).isSome && coreUp s c && !(getCore s c).resetting && decide ((getCore s c).st ≠ .run)
  let loaded := s.cores.any fun e => decide (e.2.st ≠ .empty)
  let noSlot := (List.range map.length).filter fun j => !(hasSlots s img j (map.getD j 0))
  let overlays := (List.range (imgCount img)).filter fun i => (sectionAt img i).typ == 6
  let placed := (overlays.all fun i => q.places.any fun p => p.1 == i) && q.places.all fun p => inHbm p.2.toNat && decide (p.2.toNat + (sectionOr img p.1).len ≤ hbmBytes - s.boot.carve * 2 ^ 30)
  if map.length ≠ imgCores img ∨ map.eraseDups ≠ map ∨ (map.all here) = false ∨ placed = false then answer s .refused
  else if (imgCoreList img).any (fun x => (List.range 64).any fun e => inCarve s (imgRegion img x e)) then answer s .refused
  else if loaded ∧ imgWays img ≠ s.comb.split then answer s .splitConflict
  else match censusId s q.census.toNat with
    | none => answer s .censusExhaustion
    | some id =>
      if noSlot ≠ [] then answer s (.cores (noSlot.map fun j => map.getD j 0))
      else loadCores q id (if loaded then s else finishSplit { s with comb := { s.comb with splitTo := some (imgWays img) } })

/-- The loader (R120): the image is verified whole first. -/
def loadProgram (q : LoadRequest) (s : State) : State :=
  match verifyImage q.image q.places with
  | some v => answer s (.verdict v.reason v.sect v.off)
  | none => loadVerified q s

/-- PROGRAM_LOAD (R120): the loader runs on the host complex of a ready device. -/
def execProgramLoad (q : LoadRequest) (s : State) : Out :=
  .next (if frozen s || !s.boot.ready || s.boot.hostHeld then clearAnswers s else loadProgram q (clearAnswers s))

end Sys2Proof.Machine
end

