-- ==== Sys2Proof/Machine/RegRead.lean ====
section
/-! DEFINITION. The value that each register shows, and the cause tree with the lines it drives (R72, R73, R89, R122, R153, R194,
R218, R252 to R254, R290 to R292, R310, R311, R358 to R360, R365 to R372, R389, R390, R417, R418, R446 to R452, R479, R480,
R491 to R493, R500, R501, R518). Reserved fields, and offsets at which no register is defined, read zero (R27). -/
namespace Sys2Proof.Machine

/-- A register's word. -/
def word (n : Nat) : Word32 := BitVec.ofNat 32 n
/-- A bit in its place. -/
def bitAt (b : Bool) (i : Nat) : Nat := b2n b * 2 ^ i
/-- The index of an offset in an array of registers `z` bytes apart, if the offset lies in it. -/
def slotOf (base z n off : Nat) : Option Nat :=
  if base ≤ off ∧ (off - base) % z = 0 ∧ (off - base) / z < n then some ((off - base) / z) else none

/-! ### A core (R72, R89, R122, R153, R194, R218, R254, R290) -/

/-- The state code of CORE_STAT. -/
def coreStCode : CoreSt → Nat
  | .empty => 0
  | .loaded => 1
  | .run => 2
  | .halted => 3
  | .faulted => 4

/-- The flights of an engine that hold a place in it. -/
def engFlights (k : Core) (e : Nat) : List Flight := k.flights.filter fun f => f.eng == e && decide (f.ph ≠ .faulted)

/-- CORE_STAT. -/
def coreStat (k : Core) : Nat :=
  stallCode k * 2 ^ 13 + (k.flights.filter fun f => decide (f.ph ≠ .faulted)).length * 2 ^ 7
    + bitAt (k.tg.groups.any fun e => e.2.alive) 6 + bitAt (standbyValid k) 5 + bitAt (activeValid k) 4 + bitAt k.active 3
    + coreStCode k.st

/-- CORE_ID. -/
def coreId (s : State) (c : Nat) : Nat :=
  let site := (siteOf s c).getD 0
  (tblGet 0 s.pwr.siteGen site).toNat * 2 ^ 22 + site / 54 * 2 ^ 17 + site % 54 * 2 ^ 11 + c

/-- CORE_ARR_STAT. -/
def arrStat (k : Core) : Nat :=
  let fs := engFlights k 2
  min k.arr.inq.length 8 * 2 ^ 8 + min 16 (k.arr.execs.map fun x => x.waitingRows.length).sum * 2 ^ 3
    + min 3 (fs.filter fun f => decide (f.ph = .queued)).length * 2 + b2n (fs.any fun f => decide (f.ph ≠ .queued))

/-- CORE_TG_STAT: the running kernel's groups that have not exited, and the waiting kernel's that have started. -/
def tgStat (k : Core) : Nat :=
  match k.tg.kernels with
  | [] => 0
  | [x] => 65535 - x.exited.toNat
  | x :: y :: _ => y.started.toNat * 2 ^ 16 + (65535 - x.exited.toNat)

/-- CORE_DMA_STAT: the MOVEs that hold channels; a fault that has been raised has drained (R210, R218). -/
def dmaStat (k : Core) : Nat :=
  let fs := k.flights.filter fun f => f.eng == 1 && decide (f.ph ≠ .faulted)
  let stream := fs.filter fun f => decide ((moveDesc f).dstKind = 3)
  fs.length * 2 ^ 16 + (stream.map fun f => 2 ^ f.chan).sum * 2 ^ 8 + (fs.map fun f => 2 ^ f.chan).sum

/-- CORE_DEAD_STAT. -/
def deadStat (k : Core) : Nat :=
  (match k.dead.head? with | some e => e.slot | none => 0) * 2 ^ 8 + (k.dead.map fun e => 2 ^ e.slot).sum

/-- A word of a dead-range entry. -/
def deadWord (k : Core) (i w : Nat) : Nat :=
  match k.dead.find? fun e => e.slot == i with
  | none => 0
  | some e => match w with
    | 0 => bitsOf e.base 31 6 * 64
    | 1 => bitsOf e.base 47 32
    | 2 => bitsOf e.len 31 6 * 64
    | _ => bitsOf e.len 39 32

/-- A register of a core, but for its boxes. -/
def coreReg (s : State) (c off : Nat) : Word32 :=
  let k := getCore s c
  let r := k.regs
  match off with
  | 0x000 => word (coreId s c)
  | 0x004 => word r.entry.toNat
  | 0x008 => word (coreStat k)
  | 0x00C => word (pcWord k).toNat
  | 0x010 => word r.cause.toNat
  | 0x014 => word r.causeMask.toNat
  | 0x018 => word r.faultPc.toNat
  | 0x01C => word r.faultInfo.toNat
  | 0x020 => r.faultDetail
  | 0x024 => word ((k.flights.map fun f => f.tag).eraseDups.map fun t => 2 ^ t).sum
  | 0x028 => word r.wdog.toNat
  | 0x02C => word (bitAt r.imemBank 15 + r.imemWord.toNat * 4)
  | 0x030 => word (memRead (bankMem k r.imemBank) (4 * r.imemWord.toNat) 4)
  | 0x034 => word (r.descWord.toNat * 4)
  | 0x038 => word (memRead k.descMem (4 * r.descWord.toNat) 4)
  | 0x03C => word r.kregSel.toNat
  | 0x040 => half false (kGet k r.kregSel)
  | 0x044 => half true (kGet k r.kregSel)
  | 0x0C0 => r.fpctl
  | 0x0C4 => word r.fpstat.toNat
  | 0x0C8 => r.ovfCount
  | 0x0D0 => r.seedLo
  | 0x0D4 => r.seedHi
  | 0x100 => word (arrStat k)
  | 0x104 => k.arr.retry
  | 0x108 => k.arr.late
  | 0x10C => word k.arr.check.toNat
  | 0x110 => word k.arr.accAddr.toNat
  | 0x114 => tblGet 0 k.arr.acc k.arr.accAddr.toNat
  | 0x140 => word (tgStat k)
  | 0x144 => word k.tg.fault.toNat
  | 0x148 => (match k.tg.kernels with | x :: _ => x.seq | [] => k.tg.runSeq)
  | 0x14C => k.tg.issued
  | 0x160 => word (dmaStat k)
  | 0x164 => r.dmaLines
  | 0x200 => word (deadStat k)
  | 0x204 => r.deadRetired
  | 0x2C0 => r.updLast
  | 0x2C4 => r.updFull
  | 0x2C8 => r.updWonly
  | 0x2CC => r.updVerify
  | _ =>
    match slotOf 0x080 4 16 off, slotOf 0x180 4 32 off, slotOf 0x240 4 32 off, slotOf 0x400 4 256 off with
    | some i, _, _, _ => ctrOf k i
    | _, some t, _, _ => tblGet 0 r.dmaCrc t
    | _, _, some i, _ => word (deadWord k (i / 4) (i % 4))
    | _, _, _, some i => word (bitsOf (regionOf k (i / 4)).toNat (32 * (i % 4) + 31) (32 * (i % 4)))
    | _, _, _, _ => 0

/-- A register of a box (R367, R372). -/
def boxReg (s : State) (i off : Nat) : Word32 :=
  let b := getBox s i
  match off with
  | 0x00 => word (bitAt b.rejected 4 + bitAt (privileged i) 3 + bitAt b.ackValid 2 + bitAt b.poll 1 + b2n b.full)
  | 0x04 => word (bitAt b.poll 3 + bitAt b.intEmpty 2 + bitAt b.intFull 1)
  | 0x08 => b.hdr
  | 0x0C => word b.ack.toNat
  | 0x10 => b.msi
  | _ =>
    if i < 1200 ∧ off = 0x80 then word (bitsOf b.carea.toNat 31 8 * 256)
    else if i < 1200 ∧ off = 0x84 then word (bitsOf b.carea.toNat 47 32)
    else if i < 1200 ∧ off = 0x88 then b.ccnt
    else match slotOf 0x40 4 16 off with
    | some w => word (bitsOf b.data.toNat (32 * w + 31) (32 * w))
    | none => 0

/-- The box whose registers a block holds at an offset, with the offset in it: in the block of a core, of a region controller, or in
block 140 (R366). -/
def boxAt (s : State) (layer region block off : Nat) : Option (Nat × Nat) :=
  if layer = 3 ∧ region < 24 ∧ off ≥ 0xE00 then
    let lo := off - 0xE00
    if block < 54 then (coreAt s (54 * region + block)).map fun c => (lo / 256 * 1200 + c, lo % 256)
    else if block = 64 then some (2408 + lo / 256 * 24 + region, lo % 256)
    else none
  else if layer = 0 ∧ region = 31 ∧ block = 140 ∧ 0x100 * 8 > off then some (2400 + off / 256, off % 256)
  else none

/-! ### Slices and the comb dies (R252, R253, R291, R292) -/

/-- SLC_STAT. -/
def sliceStat (s : State) (n : Nat) : Nat :=
  let x := getSlice s n
  let p := partner n
  x.suspects.length * 2 ^ 16 + x.remaps.length * 2 ^ 11 + x.miss.length * 2 ^ 4
    + bitAt (sliceGood s p && !(sliceUp s p) && sliceUp s n) 3 + bitAt (sliceGood s n) 2
    + bitAt (slotBase s n).isSome 1 + b2n (sliceGood s n)

/-- SLC_RED_STAT: lines in EXACT and in REDUCE. -/
def redStat (s : State) (n : Nat) : Nat :=
  let held := sliceLines s n
  (held.filter fun e => match e.2.red with | some t => t.exact | none => false).length * 2 ^ 16
    + (held.filter fun e => match e.2.red with | some t => !t.exact | none => false).length

/-- A register of a slice. -/
def sliceReg (s : State) (n off : Nat) : Word32 :=
  let x := getSlice s n
  match off with
  | 0x000 => word (sliceStat s n)
  | 0x010 => word x.cause.toNat
  | 0x014 => word x.causeMask.toNat
  | 0x018 => x.corr
  | 0x01C => x.uncorr
  | 0x020 => x.refuse
  | 0x024 => x.scrubDrop
  | 0x028 => x.lossOvf
  | 0x100 => word (redStat s n)
  | 0x104 => word x.redCause.toNat
  | 0x108 => word x.redMask.toNat
  | 0x10C => x.redWait
  | 0x110 => word (match x.satAddr with | some a => bitsOf a 31 4 * 16 | none => 0)
  | 0x114 => word (match x.satAddr with | some a => 2 ^ 31 + bitsOf a 47 32 | none => 0)
  | 0x118 => x.satCount
  | 0x11C => x.updChunks
  | 0x120 => x.digestFail
  | _ =>
    match slotOf 0x040 4 16 off, slotOf 0x080 4 16 off with
    | some i, _ =>
      match (x.loss.find? fun e => e.1 == i / 2).map Prod.snd with
      | none => 0
      | some l => word (if i % 2 = 0 then bitsOf (64 * l.line) 31 6 * 64
          else 2 ^ 31 + bitAt l.byScrub 30 + bitsOf (64 * l.line) 47 32)
    | _, some i =>
      match x.remaps[i]? with
      | some (k, w) => word (2 ^ 31 + bitAt k 30 + w)
      | none => 0
    | _, _ => 0

/-- A register of a comb-die global block; comb 1 shows comb 0's configuration and sweep registers. -/
def combReg (s : State) (die off : Nat) : Word32 :=
  let cb := s.comb
  match off with
  | 0x000 => word (bitAt cb.splitTo.isSome 31 + goodSlices s * 2 ^ 5 + cb.split)
  | 0x004 => word (bitAt (cb.swept.contains die) 31
      + (cb.slices.filter fun e => sliceDie e.1 == die && e.2.sweeping).length)
  | 0x008 => word ((tblGet 0 cb.scrubPass die).toNat * 2 ^ 16 + b2n (!(cb.scrubOff.contains die)))
  | 0x040 => word (bitsOf cb.shardBase.toNat 31 7 * 128)
  | 0x044 => word (bitsOf cb.shardBase.toNat 47 32)
  | 0x048 => word cb.shardCnt
  | 0x04C => word (bitAt cb.dsweepOn 31 + cb.dsweepPeriod.toNat)
  | 0x050 => word (cb.dsweepPasses.toNat * 2 ^ 16 + cb.dsweepDropped.toNat)
  | _ => 0

/-! ### External memory (R310, R311) -/

/-- A register of the memory regulator. -/
def regulatorReg (s : State) (off : Nat) : Word32 :=
  let r := s.reg
  match off with
  | 0x000 => word (bitAt r.shortfall 31 + (r.rsv.filter fun e => e.2.admitted).length * 2 ^ 8 + r.reason.toNat)
  | 0x004 => word r.cause.toNat
  | 0x008 => word r.causeMask.toNat
  | 0x00C => word (regCapacity s)
  | 0x010 => word (regLimit s)
  | 0x014 => word (rsvSum s)
  | 0x018 => word r.cfg.toNat
  | 0x020 => word s.hbm.winBase
  | 0x024 => word s.hbm.winSize
  | _ =>
    match slotOf 0x040 4 8 off, slotOf 0x080 4 32 off, slotOf 0x100 4 8 off, slotOf 0x200 4 128 off with
    | some c, _, _, _ => hbmClass s c
    | _, some i, _, _ =>
      let c := i / 4
      match i % 4 with
      | 0 => half false (tblGet 0 r.clsBytes c)
      | 1 => tblGet 0 r.clsHiLatch c
      | 2 => tblGet 0 r.clsReq c
      | _ => tblGet 0 r.clsOver c
    | _, _, some c, _ => tblGet 0 r.clsDrop c
    | _, _, _, some i =>
      let e := getRsv s (i / 4)
      match i % 4 with
      | 0 => word (bitAt e.admitted 31 + e.lo.toNat % 2 ^ 25)
      | 1 => word e.budget.toNat
      | 2 => word e.eff
      | _ => 0
    | _, _, _, _ => 0

/-- A register of an HBM controller. -/
def stackReg (s : State) (n off : Nat) : Word32 :=
  let k := getStack s n
  match off with
  | 0x000 => word (k.temp.toNat * 2 ^ 24 + bitAt k.selfRefresh 3 + bitAt k.throttled 2 + bitAt k.refreshX2 1 + b2n k.trained)
  | 0x004 => word k.cause.toNat
  | 0x008 => word k.causeMask.toNat
  | 0x00C => k.retries
  | 0x010 => k.fails
  | 0x014 => k.eccCorr
  | 0x018 => word (match k.failAddr with | some (ln, _) => bitsOf (64 * ln) 31 6 * 64 | none => 0)
  | 0x01C => word (match k.failAddr with | some (ln, wr) => bitAt k.failValid 31 + bitAt wr 30 + bitsOf (64 * ln) 47 32 | none => 0)
  | 0x020 => word (bitAt k.patrolOn 31 + k.patrolPeriod.toNat)
  | 0x024 => k.patrolDrop
  | _ => 0

/-! ### Links (R358 to R360) -/

/-- A register of a link. -/
def linkReg (s : State) (l off : Nat) : Word32 :=
  let k := getLink s l
  match off with
  | 0x000 => word (bitAt (decide (l ≥ 46) && s.net.bypClosed) 6 + bitAt k.savedUsed 5 + bitAt k.eth 4
      + (match k.st with | .disabled => 0 | .down => 1 | .train => 2 | .align => 3 | .active => 4 | .recover => 5))
  | 0x004 => k.ctl
  | 0x008 => word k.cause.toNat
  | 0x00C => word k.causeMask.toNat
  | 0x010 => word (k.rxBad.toNat * 2 ^ 25 + bitAt k.rxSpare 24 + k.txMap.toNat * 2 ^ 12 + k.rxMap.toNat)
  | 0x014 => word (match k.partner with
      | some (dev, lnk, gen) =>
        if k.st = .active ∧ k.eth = false then gen.toNat * 2 ^ 24 + lnk.toNat * 2 ^ 16 + dev.toNat else 0
      | none => 0)
  | 0x018 => k.fecCorr
  | 0x01C => k.fecUncorr
  | 0x020 => k.replays
  | 0x024 => k.drop
  | 0x028 => k.recovers
  | _ => 0

/-- A register of the collective engine. -/
def collReg (s : State) (off : Nat) : Word32 :=
  let n := s.net
  match off with
  | 0x000 => word (min 255 (n.ctxs.filter fun e => e.2.failed).length * 2 ^ 16
      + (n.colls.filter fun k => !k.active).length * 2 ^ 7 + (n.colls.filter fun k => k.active).length)
  | 0x004 => word n.cause.toNat
  | 0x008 => word n.causeMask.toNat
  | 0x00C => word (s.boot.gen.toNat * 2 ^ 24 + n.devid.toNat)
  | 0x010 => n.ctl
  | 0x014 => word n.timeout.toNat
  | 0x018 => word (n.ethRto.toNat * 2 ^ 12 + n.ethWindow.toNat)
  | 0x020 => word (bitsOf n.grpBase.toNat 31 6 * 64)
  | 0x024 => word (bitsOf n.grpBase.toNat 47 32)
  | 0x028 => word (bitsOf n.peerBase.toNat 31 6 * 64)
  | 0x02C => word (bitsOf n.peerBase.toNat 47 32)
  | 0x030 => n.drop
  | 0x040 => word n.rtShift.toNat
  | 0x044 => word n.rtAddr.toNat
  | 0x048 => rtEntry s n.rtAddr.toNat
  | _ => 0

/-! ### Clocks, resets, start-up, power and temperature (R389, R390, R417, R446 to R451) -/

/-- A register of the clock block. -/
def clkReg (s : State) (off : Nat) : Word32 :=
  let k := s.clk
  match off with
  | 0x000 => word (bitAt k.rcTrimmed 3 + bitAt k.pllLock 2 + bitAt k.xtalOk 1 + b2n k.datum)
  | 0x004 => word k.cause.toNat
  | 0x008 => word k.causeMask.toNat
  | 0x00C => word k.periphEn.toNat
  | 0x010 => word k.rcTrim.toNat
  | _ =>
    match slotOf 0x100 4 24 off, slotOf 0x180 4 24 off with
    | some n, _ =>
      let r : ClkRgn := tblGet {} k.rgn n
      word (r.level * 2 ^ 16 + r.deepMv.toNat * 2 ^ 8 + r.droopMv.toNat)
    | _, some n =>
      let r : ClkRgn := tblGet {} k.rgn n
      r.swallow
    | _, _ => 0

/-- A register of the reset block. -/
def rstReg (s : State) (off : Nat) : Word32 :=
  let r := s.rst
  match off with
  | 0x000 => word r.cause.toNat
  | 0x008 => word (bitAt r.layerOp.isSome 31 + bitAt r.lost 30 + r.layerSel.toNat)
  | 0x00C => word (bitAt (r.regionBusy.contains r.regionSel.toNat) 31 + r.regionSel.toNat)
  | 0x010 => word (bitAt (getCore s r.coreSel.toNat).resetting 31 + r.coreSel.toNat)
  | 0x014 => r.lostCount
  | 0x018 => word (r.warm.toNat * 2 ^ 16 + r.cold.toNat)
  | _ => 0

/-- Whether the logical numbering has been fixed (R18, R396): the cadastre registers read zero before the first time. -/
def numbered (s : State) : Bool := decide (s.boot.step.toNat ≥ 9) || decide (s.boot.kind = 2)

/-- A word of MGT_CAD_ABSENT. -/
def absentWord (s : State) (i : Nat) : Nat :=
  ((List.range 32).filter fun b => decide (32 * i + b < 1200) && (siteOf s (32 * i + b)).isNone).foldl (fun w b => w + 2 ^ b) 0

/-- A register of the start-up and cadastre block. -/
def bootReg (s : State) (off : Nat) : Word32 :=
  let b := s.boot
  let cad (n : Nat) : Word32 := if numbered s then word n else 0
  match off with
  | 0x000 => word (bitAt b.ready 31 + bitAt b.degraded 30 + bitAt b.failed 29 + bitAt b.hbmKept 28 + bitAt b.cadChanged 27
      + bitAt b.learnedLost 26 + b.kind.toNat * 2 ^ 24 + b.step.toNat * 2 ^ 20 + b.reason.toNat * 2 ^ 8)
  | 0x004 => b.time
  | 0x008 => cad ((1296 - b.badSites.length) * 2 ^ 16 + ((List.range 1200).filter fun c => (siteOf s c).isSome).length)
  | 0x00C => cad (min 2560 (goodSlices s) * 2 ^ 16 + goodSlices s)
  | 0x010 => word ((b.learned.filter fun e => e.suspect && !e.bad && !e.cleared).length * 2 ^ 16
      + (b.learned.filter fun e => e.bad).length)
  | 0x014 => word b.fuseOnly.toNat
  | _ => match slotOf 0x100 4 38 off with
    | some i => cad (absentWord s i)
    | none => 0

/-- PWR_PH_STAT of a phase. -/
def phaseReg (s : State) (n ph off : Nat) : Word32 :=
  if off ≠ 0 then 0
  else
    let i := 12 * n + ph
    word (phCurrent s i * 2 ^ 16 + phTemp s i * 2 ^ 8 + bitAt ((getFp s n).failed.contains ph) 2
      + bitAt (s.boot.badPhases.contains i) 1 + b2n (phActive s i))

/-- The code of a group's state in PWR_FP_STAT. -/
def grpCode : GrpSt → Nat
  | .on => 0
  | .asleep => 1
  | .lost => 2
  | .off => 3

/-- A register of a footprint block. -/
def fpReg (s : State) (n off : Nat) : Word32 :=
  let f := getFp s n
  match off with
  | 0x000 => word (f.step * 2 ^ 16 + bitAt f.vfault 15 + ((List.range 8).filter fun p => phActive s (12 * n + p)).length * 2 ^ 11
      + bitAt (f.ramps ≠ []) 10 + bitAt f.waiting 9 + grpCode f.comb1 * 2 ^ 6 + grpCode f.comb0 * 2 ^ 4 + grpCode f.compute)
  | 0x004 => word f.ctl.toNat
  | 0x008 => word f.cause.toNat
  | 0x00C => word f.causeMask.toNat
  | 0x010 => word (effLimit s n)
  | _ => 0

/-- A register of the feed monitors. -/
def feedReg (s : State) (off : Nat) : Word32 :=
  let feed (f : Feed) : Word32 := word (bitAt f.inUse 31 + bitAt f.integrity 30 + f.dVolts.toNat * 2 ^ 20 + f.dAmps.toNat * 2 ^ 10)
  let base (f : Feed) : Word32 := word (match f.base with | some b => 2 ^ 31 + b.toNat | none => 0)
  match off with
  | 0x000 => feed (getFeed s 0)
  | 0x004 => feed (getFeed s 1)
  | 0x008 => word s.pwr.feedCause.toNat
  | 0x00C => word s.pwr.feedMask.toNat
  | 0x010 => base (getFeed s 0)
  | 0x014 => base (getFeed s 1)
  | _ => 0

/-- A register of the chip power block. -/
def powerReg (s : State) (off : Nat) : Word32 :=
  if off = 0 then word (s.pwr.inrush.toNat * 2 ^ 16 + s.pwr.railLimit.toNat)
  else match slotOf 0x100 4 90 off with
  | some i => word (tblGet 0 s.pwr.cur i).toNat
  | none => 0

/-- A register of a sensor. -/
def sensorReg (s : State) (i off : Nat) : Word32 :=
  let x := getSensor s i
  match off with
  | 0x000 => thmTempWord x
  | 0x004 => word (bitAt x.distrusted 3 + bitAt x.shutdown 2 + bitAt x.throttle 1 + b2n x.warning)
  | 0x008 => word x.cause.toNat
  | 0x00C => word x.causeMask.toNat
  | _ => 0

/-- THM_WEAR: the count, and its share of the 20,000 cycles in hundredths of a percent (R441). -/
def wearWord (s : State) (i : Nat) : Nat :=
  let n := (getWear s i).count
  min 0xFFFF (n * 10000 / 20000) * 2 ^ 16 + min 0xFFFF n

/-- A register of the chip thermal block. -/
def thermalReg (s : State) (off : Nat) : Word32 :=
  match off with
  | 0x000 => word (bitAt s.thm.held 31 + min 3 (recentRestarts s) * 2 ^ 28 + s.thm.shutdowns.toNat)
  | 0x008 => word (s.thm.thetaX.toNat * 2 ^ 16 + s.thm.thetaC.toNat)
  | _ => match slotOf 0x010 4 3 off with
    | some i => word (wearWord s i)
    | none => 0

/-! ### Security and the entropy source (R479, R480) -/

/-- A register of the security block. -/
def secReg (s : State) (off : Nat) : Word32 :=
  let x := s.sec
  let used (c : Nat) : Nat := (arbWords x.otp c).length
  match off with
  | 0x000 => word (bitAt (decide (used 1 ≥ 256)) 23 + bitAt (decide (used 0 ≥ 256)) 22 + bitAt x.frozen 21 + bitAt x.purging 20
      + bitAt x.otp.purgeDone 19 + bitAt x.slot 18 + ownerSlot x.otp * 2 ^ 16 + x.otp.policy.toNat * 2 ^ 8 + x.level.toNat * 4
      + lifecycle s)
  | 0x004 => word x.cause.toNat
  | 0x008 => word x.causeMask.toNat
  | 0x010 => word (arbValue x.otp 0)
  | 0x014 => word (arbValue x.otp 0 / 2 ^ 32)
  | 0x018 => word (arbValue x.otp 1)
  | 0x01C => word (arbValue x.otp 1 / 2 ^ 32)
  | 0x020 => word (used 1 * 2 ^ 16 + used 0)
  | _ =>
    match slotOf 0x040 4 8 off, slotOf 0x100 4 128 off with
    | some i, _ => word ((Config.freeBits256 x.nonce).toNat >>> (32 * i))
    | _, some i => word ((getMeas s (i / 16)).toNat >>> (32 * (i % 16)))
    | _, _ => 0

/-- A register of the entropy source. -/
def rngReg (s : State) (off : Nat) : Word32 :=
  if off = 0 then word (bitAt s.sec.rngValid 31 + bitAt s.sec.rngFail 30 + s.sec.rngBlocks.toNat)
  else match slotOf 0x040 4 16 off with
  | some w => rngWord s w
  | none => 0

/-! ### The cause tree (R491 to R493, R501) -/

/-- Whether a cause register holds an unmasked bit. -/
def unmasked {n : Nat} (cause mask : BitVec n) : Bool := decide (cause &&& ~~~mask ≠ 0)

/-- Whether the core of a site holds an unmasked cause. -/
def siteCause (s : State) (site : Nat) : Bool :=
  match coreAt s site with
  | some c => blockPowered s 3 (site / 54) (site % 54) && unmasked (getCore s c).regs.cause (getCore s c).regs.causeMask
  | none => false

/-- Whether a slice does. -/
def sliceCause (s : State) (n : Nat) : Bool :=
  let x := getSlice s n
  blockPowered s (1 + sliceDie n) (sliceRegion n) (n % 54) && (unmasked x.cause x.causeMask || unmasked x.redCause x.redMask)

/-- A source vector over 54 sites. -/
def raisedBits (f : Nat → Bool) : Nat := ((List.range 54).filter f).foldl (fun w i => w + 2 ^ i) 0

/-- Whether a sensor holds an unmasked cause. -/
def sensorCause (s : State) (i : Nat) : Bool := unmasked (getSensor s i).cause (getSensor s i).causeMask

/-- RGN_CAUSE of a region controller (0 to 23) or an edge controller (24 to 27). -/
def rgnCause (s : State) (n : Nat) : Nat :=
  let r := getRgn s n
  let any (m : Nat) (f : Nat → Bool) : Bool := (List.range m).any f
  bitAt r.genDropSet 6 +
  (if n < 24 then
    bitAt (any 4 fun j => s.boot.portCause.contains (4 * n + j)) 5 + bitAt (any 4 fun l => sensorCause s (24 * l + n)) 4
      + bitAt (unmasked (getFp s n).cause (getFp s n).causeMask) 3
      + bitAt (any 54 fun i => sliceCause s (1296 + 54 * n + i)) 2
      + bitAt (any 54 fun i => sliceCause s (54 * n + i)) 1
      + b2n (any 54 fun i => siteCause s (54 * n + i))
  else
    let d := n - 24
    bitAt (sensorCause s (96 + d)) 11 + bitAt (s.boot.ucieCause.contains d) 9
      + bitAt (any 12 fun k => unmasked (getLink s (12 * d + k)).cause (getLink s (12 * d + k)).causeMask) 10
      + bitAt (any 3 fun k => unmasked (getStack s (3 * d + k)).cause (getStack s (3 * d + k)).causeMask) 8)

/-- RGN_SRC_MISC. -/
def rgnMisc (s : State) (n : Nat) : Nat :=
  let sum (m lo : Nat) (f : Nat → Bool) : Nat := ((List.range m).filter f).foldl (fun w i => w + 2 ^ (lo + i)) 0
  if n < 24 then sum 4 4 (fun j => s.boot.portCause.contains (4 * n + j)) + sum 4 0 fun l => sensorCause s (24 * l + n)
  else
    let d := n - 24
    sum 12 12 (fun k => unmasked (getLink s (12 * d + k)).cause (getLink s (12 * d + k)).causeMask)
      + sum 3 8 fun k => unmasked (getStack s (3 * d + k)).cause (getStack s (3 * d + k)).causeMask

/-- CHIP_ALERT_SUM (R492). -/
def alertSum (s : State) : Nat :=
  ((List.range 28).filter fun n => decide (BitVec.ofNat 12 (rgnCause s n) &&& ~~~(getRgn s n).causeMask ≠ 0)).foldl
      (fun w n => w + 2 ^ n) 0
    + bitAt (unmasked s.net.cause s.net.causeMask) 32 + bitAt (unmasked s.reg.cause s.reg.causeMask) 33
    + bitAt (unmasked s.clk.cause s.clk.causeMask) 34 + bitAt (unmasked s.sec.cause s.sec.causeMask) 35
    + bitAt (unmasked s.pwr.feedCause s.pwr.feedMask) 36 + bitAt (unmasked s.mgt.cause s.mgt.causeMask) 37

/-- Bit `b` of CHIP_ALERT_SUM where it is not masked: the level of APLIC source b + 1 (R365). -/
def aplicLevel (s : State) (b : Nat) : Bool :=
  (alertSum s).testBit b && !((s.mgt.alertMaskLo.toNat + s.mgt.alertMaskHi.toNat * 2 ^ 32).testBit b)

/-- Whether ALERT_N is driven low: an unmasked bit, once MP firmware runs (R492). -/
def alertDriven (s : State) : Bool := s.pins.alertLive && (List.range 38).any (aplicLevel s)

/-- Common registers of region and edge controllers (R501). -/
def controllerReg (s : State) (n off : Nat) : Word32 :=
  let v (f : Nat → Bool) : Nat := if n < 24 then raisedBits f else 0
  match off with
  | 0x000 => word (rgnCause s n)
  | 0x004 => word (getRgn s n).causeMask.toNat
  | 0x010 => word (v fun i => siteCause s (54 * n + i))
  | 0x014 => word (v (fun i => siteCause s (54 * n + i)) / 2 ^ 32)
  | 0x018 => word (v fun i => sliceCause s (54 * n + i))
  | 0x01C => word (v (fun i => sliceCause s (54 * n + i)) / 2 ^ 32)
  | 0x020 => word (v fun i => sliceCause s (1296 + 54 * n + i))
  | 0x024 => word (v (fun i => sliceCause s (1296 + 54 * n + i)) / 2 ^ 32)
  | 0x028 => word (rgnMisc s n)
  | _ => 0

/-- RGN_SWARM_MISS[w] of a region (R418). -/
def missWord (s : State) (n w : Nat) : Nat :=
  ((List.range 4).map fun j =>
    let e := getSite s (54 * n + 4 * w + j)
    if 4 * w + j < 54 ∧ e.enable then ((missing s e).foldl (fun a c => a + 2 ^ c) 0) * 2 ^ (8 * j) else 0).sum

/-- A register of a region controller. -/
def rgnReg (s : State) (n off : Nat) : Word32 :=
  if off = 0x280 then tblGet 0 s.swarm.drops n
  else if off = 0x300 then (getRgn s n).genDrop
  else match slotOf 0x100 4 54 off, slotOf 0x200 4 14 off with
  | some i, _ =>
    let e := getSite s (54 * n + i)
    word (bitAt e.enable 31 + bitAt e.done 30 + bitAt e.failed 29 + e.sect.toNat)
  | _, some w => word (missWord s n w)
  | _, _ => controllerReg s n off

/-- A register of the swarm injector. -/
def swarmReg (s : State) (off : Nat) : Word32 :=
  match off with
  | 0x100 => word (bitAt (decide (s.swarm.op ≠ 0)) 31 + s.swarm.loadId.toNat)
  | 0x104 => word (bitsOf s.swarm.list.toNat 31 6 * 64)
  | 0x108 => word (bitsOf s.swarm.list.toNat 47 32)
  | _ => 0

/-! ### Management and the module (R73, R500, R518) -/

/-- A budget that reads as a number: the activity's reset value where none has been written (R497, R500). -/
def bgBudget (s : State) (i : Nat) : Nat :=
  if i = 0 ∨ i = 2 ∨ i = 5 then 0
  else (tblGet (match i with | 1 => 256 | 3 => 200 | 4 => 50 | 6 => 1024 | _ => 100) s.mgt.bgBudget i).toNat

/-- A register of the management block. -/
def mgtReg (s : State) (off : Nat) : Word32 :=
  let m := s.mgt
  match off with
  | 0x000 => word (alertSum s)
  | 0x004 => word (alertSum s / 2 ^ 32)
  | 0x008 => m.alertMaskLo
  | 0x00C => m.alertMaskHi
  | 0x010 => word m.cause.toNat
  | 0x014 => word m.causeMask.toNat
  | 0x018 => m.stepInt
  | 0x020 => word m.time
  | 0x024 => m.timeHiLatch
  | 0x040 => word (m.lost.toNat * 2 ^ 16 + (m.nextSeq - 1).toNat % 2 ^ 16)
  | 0x044 => m.logSel
  | _ =>
    match slotOf 0x060 4 8 off, slotOf 0x080 4 8 off, slotOf 0x0A0 4 8 off with
    | some w, _, _ => match m.logData with
      | some e => word (leNat ((entryLog e).drop (4 * w) |>.take 4))
      | none => 0
    | _, some i, _ => tblGet 0 m.bgStat i
    | _, _, some i => word (bgBudget s i)
    | _, _, _ => 0

/-- A register of the module identity block. -/
def moduleReg (s : State) (off : Nat) : Word32 :=
  if off = 0x010 then
    word (bitAt s.pins.pwrGood 6 + bitAt (alertDriven s) 5 + bitAt (decide ((getFeed s 1).dVolts ≠ 0)) 4
      + bitAt (decide ((getFeed s 0).dVolts ≠ 0)) 3 + bitAt (!s.pins.freeze) 2 + bitAt (!s.pins.reset) 1 + b2n s.pins.pwrEn)
  else match slotOf 0x000 4 4 off with
  | some w => word (s.sec.otp.serial.toNat >>> (32 * w))
  | none => 0

/-! ### The map (R26) -/

/-- The sensor of a block. -/
def sensorAt (layer region block : Nat) : Option Nat :=
  if layer < 4 ∧ region < 24 ∧ block = 65 then some (24 * layer + region)
  else if 4 ≤ layer ∧ layer < 8 ∧ region = 31 ∧ block = 64 then some (96 + (layer - 4))
  else none

/-- The value of the register at an offset of a block. -/
def regValue (s : State) (layer region block off : Nat) : Word32 :=
  match boxAt s layer region block off, sensorAt layer region block with
  | some (i, o), _ => boxReg s i o
  | _, some i => sensorReg s i off
  | none, none =>
    match layer with
    | 0 =>
      if region < 24 then
        (if block < 12 then phaseReg s region block off else if block = 64 then fpReg s region off else 0)
      else if region < 28 then
        (if block < 3 then stackReg s (3 * (region - 24) + block) off else if block = 64 then controllerReg s region off else 0)
      else match block with
      | 64 => collReg s off
      | 96 => regulatorReg s off
      | 128 => mgtReg s off
      | 130 => match slotOf 0 4 8 off with
        | some c => tblGet 0 s.mgt.census c
        | none => 0
      | 131 => bootReg s off
      | 133 => thermalReg s off
      | 134 => powerReg s off
      | 147 => rngReg s off
      | 160 => clkReg s off
      | 176 => rstReg s off
      | 192 => secReg s off
      | _ => 0
    | 1 => if region < 24 ∧ block < 54 then sliceReg s (54 * region + block) off else if region = 31 then combReg s 0 off else 0
    | 2 => if region < 24 ∧ block < 54 then sliceReg s (1296 + 54 * region + block) off
        else if region = 31 then combReg s 1 off else 0
    | 3 =>
      if region < 24 ∧ block < 54 then
        (match coreAt s (54 * region + block) with | some c => coreReg s c off | none => 0)
      else if region < 24 ∧ block = 64 then rgnReg s region off
      else if region = 31 then swarmReg s off else 0
    | 8 => match block with
      | 0 => moduleReg s off
      | 1 => feedReg s off
      | 2 => if off = 0 then word (bitAt s.net.bypClosed 2 + bitAt s.net.bypHold 1 + b2n s.net.bypOpen) else 0
      | _ => 0
    | _ => if 4 ≤ layer ∧ layer < 8 ∧ region = 31 ∧ block < 12 then linkReg s (12 * (layer - 4) + block) off else 0

end Sys2Proof.Machine
end

