-- ==== Sys2Proof/Machine/Registers.lean ====
section
/-! DEFINITION. Writes of control-space registers: each block's registers, the outcome of any write (R27), and the commands that are
such writes or read them all (R225, R307, R483). A register that is read-only, and an offset at which no register is defined, keeps
what it has, and the write completes. -/
namespace Sys2Proof.Machine

/-- A 64-bit count after a write-one-to-clear of one of its words. -/
def w1c64 (hi : Bool) (x : Word64) (v : Word32) : Word64 := setHalf hi x (half hi x &&& ~~~v)

/-! ### A core and its boxes -/

/-- A write of a core's register (R72, R89, R122, R153). -/
def writeCore (c off : Nat) (v : Word32) (s : State) : State :=
  match off with
  | 0x004 => writeCoreCtl c v s
  | 0x010 => written (modRegs s c fun r => { r with cause := w1c r.cause v })
  | 0x014 => written (modRegs s c fun r => { r with causeMask := v.truncate 5 })
  | 0x028 => written (modRegs s c fun r => { r with wdog := v.truncate 16 })
  | 0x02C => written (modRegs s c fun r => { r with imemBank := v.getLsbD 15, imemWord := BitVec.ofNat 13 (wField v 2 13) })
  | 0x030 => imemData c (some v) s
  | 0x034 => written (modRegs s c fun r => { r with descWord := BitVec.ofNat 10 (wField v 2 10) })
  | 0x038 => descData c (some v) s
  | 0x03C => written (modRegs s c fun r => { r with kregSel := v.truncate 5 })
  | 0x040 => kregAccess c false (some v) s
  | 0x044 => kregAccess c true (some v) s
  | 0x0C0 => writeFpctl c v s
  | 0x0C4 => written (modRegs s c fun r => { r with fpstat := w1c r.fpstat v })
  | 0x0D0 => writeSeed c false v s
  | 0x0D4 => writeSeed c true v s
  | 0x110 => if (getCore s c).st = .run then refuse s else written (modArr s c fun a => { a with accAddr := v.truncate 14 })
  | 0x114 => accData c (some v) s
  | _ =>
    match slotOf 0x080 4 16 off, slotOf 0x400 4 256 off with
    | some i, _ => writeArrive c i v [] s
    | _, some i => writeRegion c (i / 4) (i % 4) v s
    | _, _ => written s

/-- A write of a box's register (R367, R369, R372). -/
def writeBox (by_ : By) (i off : Nat) (v : Word32) (s : State) : State :=
  match off with
  | 0x00 => written (modBox s i fun b => { b with rejected := b.rejected && !(v.getLsbD 4) })
  | 0x04 => boxCtl by_ i v s
  | 0x08 => boxSend i v s
  | 0x0C => boxAck i v s
  | 0x10 => written (modBox s i fun b => { b with msi := v &&& 0xFC0007FF })
  | _ =>
    if i < 1200 ∧ (off = 0x80 ∨ off = 0x84 ∨ off = 0x88) then writeCoreEnd i ((off - 0x80) / 4) v s
    else match slotOf 0x40 4 16 off with
    | some w => boxData i w v s
    | none => written s

/-! ### Slices and the comb dies (R252, R253, R291, R292) -/

/-- A write of a slice's register. -/
def writeSlice (n off : Nat) (v : Word32) (s : State) : State :=
  let set (f : Slice → Slice) : State := written (modSlice s n f)
  match off with
  | 0x010 => set fun x => { x with cause := w1c x.cause v }
  | 0x014 => set fun x => { x with causeMask := v.truncate 5 }
  | 0x018 => set fun x => { x with corr := w1c x.corr v }
  | 0x01C => set fun x => { x with uncorr := w1c x.uncorr v }
  | 0x020 => set fun x => { x with refuse := w1c x.refuse v }
  | 0x024 => set fun x => { x with scrubDrop := w1c x.scrubDrop v }
  | 0x028 => set fun x => { x with lossOvf := w1c x.lossOvf v }
  | 0x104 => set fun x => { x with redCause := w1c x.redCause v, satAddr := if v.getLsbD 0 then none else x.satAddr }
  | 0x108 => set fun x => { x with redMask := v.truncate 5 }
  | 0x10C => set fun x => { x with redWait := w1c x.redWait v }
  | 0x118 => set fun x => { x with satCount := w1c x.satCount v }
  | 0x11C => set fun x => { x with updChunks := w1c x.updChunks v }
  | 0x120 => set fun x => { x with digestFail := w1c x.digestFail v }
  | _ =>
    match slotOf 0x044 8 8 off with
    | some i => if v.getLsbD 31 then set fun x => { x with loss := x.loss.filter fun e => e.1 != i } else written s
    | none => written s

/-- Whether an UPD, a gather or a digest sweep is active: the shard table's registers are then held (R274, R292). -/
def shardBusy (s : State) : Bool :=
  (s.cores.any fun e => e.2.flights.any fun f => match f.aux with | .upd _ => decide (f.ph = .started) | _ => false)
    || (s.net.colls.any fun k => k.group.isNone) || s.comb.sweep.active

/-- A write of a comb-die global register. On comb 1 only the patrol scrub's enable is its own. -/
def writeComb (die off : Nat) (v : Word32) (s : State) : State :=
  let cb := s.comb
  let held (t : State) : State := if shardBusy s then refuse s else written t
  if off = 0x008 then
    written { s with comb := { cb with
      scrubOff := (cb.scrubOff.filter fun d => d != die) ++ (if v.getLsbD 0 then [] else [die]) } }
  else if die = 1 then written s
  else match off with
  | 0x000 => writeSplit (wField v 0 5) s
  | 0x040 => held { s with comb := { cb with shardBase := BitVec.ofNat 48 (setField cb.shardBase.toNat (wField v 7 25) 25 7) } }
  | 0x044 => held { s with comb := { cb with shardBase := BitVec.ofNat 48 (setField cb.shardBase.toNat (wField v 0 16) 16 32) } }
  | 0x048 => held { s with comb := { cb with shardCnt := min 4096 (wField v 0 13) } }
  | 0x04C => written { s with comb := { cb with dsweepOn := v.getLsbD 31, dsweepPeriod := BitVec.ofNat 16 (max 60 (wField v 0 16)) } }
  | _ => written s

/-! ### External memory (R307, R310, R311) -/

/-- A write of a regulator register. -/
def writeRegulator (off : Nat) (v : Word32) (s : State) : State :=
  let r := s.reg
  let set (x : Regulator) : State := written { s with reg := x }
  match off with
  | 0x004 => set { r with cause := w1c r.cause v }
  | 0x008 => set { r with causeMask := v.truncate 2 }
  | 0x018 => set { r with cfg := v.truncate 12 }
  | _ =>
    match slotOf 0x040 4 8 off, slotOf 0x080 4 32 off, slotOf 0x100 4 8 off, slotOf 0x200 4 128 off with
    | some c, _, _, _ => set { r with classes := tblPut r.classes c (v &&& 0xC0000FFF) }
    | _, some i, _, _ =>
      let c := i / 4
      match i % 4 with
      | 0 => set { r with clsBytes := tblMod 0 r.clsBytes c fun x => w1c64 false x v }
      | 1 => set { r with clsBytes := tblMod 0 r.clsBytes c fun x => w1c64 true x v }
      | 2 => set { r with clsReq := tblMod 0 r.clsReq c fun x => w1c x v }
      | _ => set { r with clsOver := tblMod 0 r.clsOver c fun x => w1c x v }
    | _, _, some c, _ => set { r with clsDrop := tblMod 0 r.clsDrop c fun x => w1c x v }
    | _, _, _, some i =>
      match i % 4 with
      | 0 => written (writeRsvLo (i / 4) v s)
      | 1 => if (getRsv s (i / 4)).admitted then refuse s
        else set { r with rsv := tblMod {} r.rsv (i / 4) fun e => { e with budget := v.truncate 20 } }
      | _ => written s
    | _, _, _, _ => written s

/-- A write of an HBM controller's register. -/
def writeStack (n off : Nat) (v : Word32) (s : State) : State :=
  let set (f : Stack → Stack) : State := written (modStack s n f)
  match off with
  | 0x004 => set fun k => { k with cause := w1c k.cause v }
  | 0x008 => set fun k => { k with causeMask := v.truncate 5 }
  | 0x00C => set fun k => { k with retries := w1c k.retries v }
  | 0x010 => set fun k => { k with fails := w1c k.fails v }
  | 0x014 => set fun k => { k with eccCorr := w1c k.eccCorr v }
  | 0x01C => set fun k => { k with failValid := k.failValid && !(v.getLsbD 31) }
  | 0x020 => set fun k => { k with patrolOn := v.getLsbD 31, patrolPeriod := BitVec.ofNat 8 (max 1 (wField v 0 8)) }
  | 0x024 => set fun k => { k with patrolDrop := w1c k.patrolDrop v }
  | _ => written s

/-! ### Links (R358 to R360) -/

/-- A write of a link's register. -/
def writeLink (l off : Nat) (v : Word32) (s : State) : State :=
  let set (f : Link → Link) : State := written (modLink s l f)
  match off with
  | 0x004 => written (writeLinkCtl l v s)
  | 0x008 => set fun k => { k with cause := w1c k.cause v }
  | 0x00C => set fun k => { k with causeMask := v.truncate 4 }
  | 0x018 => set fun k => { k with fecCorr := w1c k.fecCorr v }
  | 0x01C => set fun k => { k with fecUncorr := w1c k.fecUncorr v }
  | 0x020 => set fun k => { k with replays := w1c k.replays v }
  | 0x024 => set fun k => { k with drop := w1c k.drop v }
  | 0x028 => set fun k => { k with recovers := w1c k.recovers v }
  | _ => written s

/-- A write of a collective-engine register: the tables' bases are held while a collective is active, the device id while any link is
not DISABLED. -/
def writeColl (off : Nat) (v : Word32) (s : State) : State :=
  let n := s.net
  let set (x : Net) : State := written { s with net := x }
  let held (x : Net) : State := if n.colls.any fun k => k.active then refuse s else set x
  let lo (b : BitVec 48) : BitVec 48 := BitVec.ofNat 48 (setField b.toNat (wField v 6 26) 26 6)
  let hi (b : BitVec 48) : BitVec 48 := BitVec.ofNat 48 (setField b.toNat (wField v 0 16) 16 32)
  match off with
  | 0x004 => set { n with cause := w1c n.cause v }
  | 0x008 => set { n with causeMask := v.truncate 5 }
  | 0x00C => if n.links.any fun e => decide (e.2.st ≠ .disabled) then refuse s else set { n with devid := v.truncate 16 }
  | 0x010 => written (netSettle (writeCollCtl v s))
  | 0x014 => set { n with timeout := BitVec.ofNat 16 (max 1 (wField v 0 16)) }
  | 0x018 => set { n with
      ethRto := BitVec.ofNat 12 (max 1 (wField v 12 12)), ethWindow := BitVec.ofNat 9 (min 256 (max 4 (wField v 0 9))) }
  | 0x020 => held { n with grpBase := lo n.grpBase }
  | 0x024 => held { n with grpBase := hi n.grpBase }
  | 0x028 => held { n with peerBase := lo n.peerBase }
  | 0x02C => held { n with peerBase := hi n.peerBase }
  | 0x030 => set { n with drop := w1c n.drop v }
  | 0x040 => set { n with rtShift := BitVec.ofNat 3 (min 4 (wField v 0 3)) }
  | 0x044 => set { n with rtAddr := v.truncate 12 }
  | 0x048 => rtAccess (some v) s
  | _ => written s

/-! ### Clocks, resets, power and temperature (R389, R390, R447 to R451) -/

/-- A write of a clock register. -/
def writeClk (off : Nat) (v : Word32) (s : State) : State :=
  let k := s.clk
  let set (x : Clk) : State := written { s with clk := x }
  match off with
  | 0x004 => set { k with cause := w1c k.cause v }
  | 0x008 => set { k with causeMask := v.truncate 3 }
  | 0x00C => set { k with periphEn := v.truncate 6 }
  | _ => match slotOf 0x100 4 24 off with
    | some n => set { k with rgn := tblMod {} k.rgn n fun r =>
        { r with deepMv := BitVec.ofNat 8 (wField v 8 8), droopMv := BitVec.ofNat 8 (min (wField v 0 8) (wField v 8 8)) } }
    | none => written s

/-- A write of a reset register. -/
def writeRst (by_ : By) (off : Nat) (v : Word32) (s : State) : State :=
  written (match off with
    | 0x004 => writeRstCtl by_ v s
    | 0x008 => writeRstLayer by_ v s
    | 0x00C => writeRstRegion by_ v s
    | 0x010 => writeRstCore by_ v s
    | _ => s)

/-- A write of a footprint's register. -/
def writeFp (n off : Nat) (v : Word32) (s : State) : State :=
  match off with
  | 0x004 => writeFpCtl n v s
  | 0x008 => written (modFp s n fun f => { f with cause := w1c f.cause v })
  | 0x00C => written (modFp s n fun f => { f with causeMask := v.truncate 5 })
  | _ => written s

/-- A write of a feed-monitor register. -/
def writeFeed (off : Nat) (v : Word32) (s : State) : State :=
  written (match off with
    | 0x008 => { s with pwr := { s.pwr with feedCause := w1c s.pwr.feedCause v } }
    | 0x00C => { s with pwr := { s.pwr with feedMask := v.truncate 4 } }
    | _ => s)

/-- A write of a sensor's register. -/
def writeSensor (i off : Nat) (v : Word32) (s : State) : State :=
  written (match off with
    | 0x008 => modSensor s i fun x => { x with cause := w1c x.cause v }
    | 0x00C => modSensor s i fun x => { x with causeMask := v.truncate 3 }
    | _ => s)

/-! ### Security and management (R73, R479, R480, R500, R501) -/

/-- Whether SEC_STAT, the counters, the nonce or a measurement stands at an offset of the security block: no requester writes them. -/
def secReadOnly (off : Nat) : Bool :=
  off == 0x000 || off == 0x020 || (slotOf 0x010 4 4 off).isSome || (slotOf 0x040 4 8 off).isSome || (slotOf 0x100 4 128 off).isSome

/-- A write of a security register but SEC_DBG_CTL: a host core may write only SEC_MEAS_EXT and SEC_MEAS_CMD. -/
def writeSec (by_ : By) (off : Nat) (v : Word32) (s : State) : State :=
  let own (t : State) : State := if isHost by_ then refuse s else written t
  match off with
  | 0x004 => own (modSec s fun x => { x with cause := w1c x.cause v })
  | 0x008 => own (modSec s fun x => { x with causeMask := v.truncate 6 })
  | 0x340 => written (writeMeasCmd v s)
  | _ => match slotOf 0x300 4 16 off with
    | some w => written (modSec s fun x => { x with ext := BitVec.ofNat 512 (setField x.ext.toNat v.toNat 32 (32 * w)) })
    | none => if isHost by_ && secReadOnly off then refuse s else written s

/-- A write of the management block. -/
def writeMgt (by_ : By) (off : Nat) (v : Word32) (s : State) : State :=
  let set (f : Mgt → Mgt) : State := written (modMgt s f)
  match off with
  | 0x008 => set fun m => { m with alertMaskLo := v }
  | 0x00C => set fun m => { m with alertMaskHi := v }
  | 0x010 => set fun m => { m with cause := w1c m.cause v }
  | 0x014 => set fun m => { m with causeMask := v.truncate 6 }
  | 0x018 => written (writeStepInt v s)
  | 0x044 => written (writeLogSel v s)
  | _ =>
    match slotOf 0x080 4 8 off, slotOf 0x0A0 4 8 off with
    | some i, _ => set fun m => { m with bgStat := tblMod 0 m.bgStat i fun x => w1c x v }
    | _, some i =>
      if isHost by_ then refuse s
      else if i = 0 ∨ i = 2 ∨ i = 5 then written s
      else set fun m => { m with bgBudget := tblPut m.bgBudget i (BitVec.ofNat 16 (max 1 (wField v 0 16))) }
    | _, _ => written s

/-- A write that region and edge controllers share. -/
def writeController (n off : Nat) (v : Word32) (s : State) : State :=
  match off with
  | 0x000 => written (modRgn s n fun r => { r with genDropSet := r.genDropSet && !(v.getLsbD 6) })
  | 0x004 => written (modRgn s n fun r => { r with causeMask := v.truncate 12 &&& (if n < 24 then 0x07F else 0xF40) })
  | _ => written s

/-- A write of a region controller's register (R418, R452, R501). -/
def writeRgn (n off : Nat) (v : Word32) (s : State) : State :=
  if off = 0x280 then written (modSwarm s fun w => { w with drops := tblMod 0 w.drops n fun x => w1c x v })
  else if off = 0x300 then written (modRgn s n fun r => { r with genDrop := w1c r.genDrop v })
  else match slotOf 0x100 4 54 off with
  | some i => writeSwarmSec (54 * n + i) v s
  | none => writeController n off v s

/-- A write of the swarm injector's register. -/
def writeSwarm (off : Nat) (v : Word32) (s : State) : State :=
  match off with
  | 0x100 => writeSwarmCtl v s
  | 0x104 => written (modSwarm s fun w => { w with list := BitVec.ofNat 48 (setField w.list.toNat (wField v 6 26) 26 6) })
  | 0x108 => written (modSwarm s fun w => { w with list := BitVec.ofNat 48 (setField w.list.toNat (wField v 0 16) 16 32) })
  | _ => written s

/-! ### Any write (R25 to R27) -/

/-- A write of a layer-0 register of region 31. -/
def writeBase (by_ : By) (block off : Nat) (v : Word32) (s : State) : State :=
  match block with
  | 64 => writeColl off v s
  | 96 => writeRegulator off v s
  | 128 => writeMgt by_ off v s
  | 130 => match slotOf 0 4 8 off with
    | some c => written (modMgt s fun m => { m with census := tblPut m.census c v })
    | none => written s
  | 133 =>
    if off = 0x004 then writeThmCtl by_ v s
    else if off = 0x008 then written { s with thm := { s.thm with thetaX := BitVec.ofNat 16 (wField v 16 16), thetaC := v.truncate 16 } }
    else written s
  | 134 =>
    if off = 0 then written { s with pwr := { s.pwr with inrush := BitVec.ofNat 8 (wField v 16 8), railLimit := v.truncate 12 } }
    else written s
  | 147 => if off = 0x004 then writeRngCtl by_ v ((Config.freeWord s.free).getLsbD 0) (takeFree s) else written s
  | 160 => writeClk off v s
  | 176 => writeRst by_ off v s
  | 192 => writeSec by_ off v s
  | _ => written s

/-- A write that its block performs. -/
def writeReg (by_ : By) (layer region block off : Nat) (v : Word32) (s : State) : State :=
  match sensorAt layer region block with
  | some i => writeSensor i off v s
  | none =>
    match layer with
    | 0 =>
      if region = 31 then writeBase by_ block off v s
      else if region < 24 then (if block = 64 then writeFp region off v s else written s)
      else if block < 3 then writeStack (3 * (region - 24) + block) off v s
      else if block = 64 then writeController region off v s
      else written s
    | 1 => if region = 31 then writeComb 0 off v s else if block < 54 then writeSlice (54 * region + block) off v s else written s
    | 2 => if region = 31 then writeComb 1 off v s else if block < 54 then writeSlice (1296 + 54 * region + block) off v s else written s
    | 3 =>
      if region = 31 then writeSwarm off v s
      else if block = 64 then writeRgn region off v s
      else match coreAt s (54 * region + block) with
      | some c => writeCore c off v s
      | none => written s
    | 8 =>
      if block = 1 then writeFeed off v s
      else if block = 2 ∧ off = 0 then written (writeBypass (v.getLsbD 0) (v.getLsbD 1) s)
      else written s
    | _ => if block < 12 then writeLink (12 * (layer - 4) + block) off v s else written s

/-! ### Any read (R25 to R27) -/

/-- A read of a core's register: those behind an address register advance it (R108, R122, R153). -/
def readCore (c off : Nat) (w : Word32) (s : State) : State :=
  match off with
  | 0x030 => imemData c none s
  | 0x038 => descData c none s
  | 0x040 => kregAccess c false none s
  | 0x044 => kregAccess c true none s
  | 0x114 => accData c none s
  | _ => readAs w s

/-- A read of a layer-0 register of region 31, whose value is `w`: the low word of a count or of the time latches its high word (R310,
R500), a read of LNK_RT_DATA steps its index, one of the entropy block's last word consumes the block. -/
def readBase (block off : Nat) (w : Word32) (s : State) : State :=
  match block with
  | 64 => if off = 0x048 then rtAccess none s else readAs w s
  | 96 =>
    (match slotOf 0x080 16 8 off with
     | some c => readAs w { s with reg := { s.reg with clsHiLatch := tblPut s.reg.clsHiLatch c (half true (tblGet 0 s.reg.clsBytes c)) } }
     | none => readAs w s)
  | 128 => if off = 0x020 then readAs w (modMgt s fun m => { m with timeHiLatch := BitVec.ofNat 32 (m.time / 2 ^ 32) }) else readAs w s
  | 147 => if off = 0x07C then readRng15 s else readAs w s
  | _ => readAs w s

/-- A read that its block performs: the value of R27, and what the read does besides. -/
def readReg (layer region block off : Nat) (s : State) : State :=
  let w := regValue s layer region block off
  match sensorAt layer region block with
  | some i => if off = 0 then readTemp i s else readAs w s
  | none =>
    if layer = 0 ∧ region = 31 then readBase block off w s
    else if layer = 3 ∧ region < 24 ∧ block < 54 then
      (match coreAt s (54 * region + block) with
       | some c => readCore c off w s
       | none => readAs w s)
    else readAs w s

/-- Whether the debug port may read an offset at LIMITED: every register is taken as a status register but those that show the content
of a memory, of a box or of the entropy source (R469; log 52). -/
def statusReg (layer region block off : Nat) : Bool :=
  if layer = 3 ∧ region < 24 then block == 64 || !([0x030, 0x038, 0x040, 0x044, 0x114].contains off) && decide (off < 0xE00)
  else !(layer == 0 && region == 31 && (block == 140 || block == 147))

/-- As whom a read counts: the debug port reads the nonce that its tokens name at every level (R469). -/
def nonceReader (by_ : By) (layer region block off : Nat) : By :=
  if layer = 0 ∧ region = 31 ∧ block = 192 ∧ 0x040 ≤ off ∧ off < 0x060 ∧ by_ = .debug then .mp else by_

/-- REGISTER_WRITE (R25 to R27): a write of `size` bytes at an address, with exactly one outcome; without a value, a read. -/
def execRegisterWrite (by_ : By) (size : BitVec 4) (addr : Addr) (v : Option Word32) (s : State) : Out :=
  let a := addr.toNat
  let layer := bitsOf a 31 28
  let region := bitsOf a 27 23
  let block := bitsOf a 22 12
  let off := bitsOf a 11 0
  .next (
    if size ≠ 4 ∨ a % 4 ≠ 0 ∨ bitsOf a 47 32 ≠ 0x0200 then refuse (clearAnswers s)
    else match v, boxAt s layer region block off with
    | some w, some (i, o) => boxAccess (.via by_) i (writeBox by_ i o w) s
    | none, some (i, o) => boxAccess (.via by_) i (fun s => readAs (boxReg s i o) s) s
    | some w, none =>
      if layer = 0 ∧ region = 31 ∧ block = 192 ∧ off = 0x00C then dbgCtl by_ w s
      else ctl by_ false layer region block (writeReg by_ layer region block off w) s
    | none, none => ctl (nonceReader by_ layer region block off) (statusReg layer region block off) layer region block (readReg layer region block off) s)

/-- SPLIT_CHANGE (R225): a write of SLC_GLB_CFG.scratch_ways on comb 0. -/
def execSplitChange (by_ : By) (ways : BitVec 5) (s : State) : Out := .next (ctlGlobal by_ false 1 0 (writeSplit ways.toNat) s)

/-- RESERVATION_ADMISSION (R307): a write of HBM_RSV_LO[i] that sets enable. -/
def execReservationAdmission (by_ : By) (i : Fin 32) (v : Word32) (s : State) : Out :=
  .next (ctlGlobal by_ false 0 96 (fun s => written (writeRsvLo i.val (v ||| 0x80000000) s)) s)

/-! ### Redfish (R483) -/

/-- The part number is not a register: Redfish's Chassis shows the serial number, the registers of feeds, currents and wear. -/
def chassis (s : State) : List Nat :=
  [s.sec.otp.serial.toNat] ++ ([0x000, 0x004].map fun o => (feedReg s o).toNat)
    ++ ((List.range 90).map fun i => (tblGet 0 s.pwr.cur i).toNat)
    ++ (let w := (List.range 3).map fun i => (wearWord s i) / 2 ^ 16
        w ++ [w.foldl max 0])

/-- The registers of a resource. -/
def resource (r : Resource) (s : State) : List Nat :=
  match r with
  | .chassis => chassis s
  | .processors =>
    [(bootReg s 0x008).toNat] ++ ((List.range 38).map fun i => (bootReg s (0x100 + 4 * i)).toNat)
      ++ (((List.range 16).filter fun h => !(s.boot.badHosts.contains h))) ++ ((List.range 24).map fun n => (getFp s n).step)
  | .memory =>
    ((List.range 12).flatMap fun n => [0x000, 0x00C, 0x010, 0x014, 0x024].map fun o => (stackReg s n o).toNat)
      ++ [(bootReg s 0x00C).toNat]
  | .networkPorts =>
    (List.range 48).flatMap fun l => [0x000, 0x014, 0x018, 0x01C, 0x020, 0x024, 0x028].map fun o => (linkReg s l o).toNat
  | .thermal =>
    (List.range 100).flatMap (fun i => [0x000, 0x004].map fun o => (sensorReg s i o).toNat)
      ++ (List.range 12).map fun n => (getStack s n).temp.toNat
  | .logServices => (allEvents s.mgt).reverse.map fun e => leNat (entryLog e)
  | .status => [(bootReg s 0x000).toNat, lifecycle s, s.sec.level.toNat]

/-- REDFISH_REQUEST (R483): GET and HEAD (`read`) are served, every other method answers 405. Served where the configuration block
turns it on (R393). -/
def execRedfishRequest (read : Bool) (r : Resource) (s : State) : Out :=
  .next (
    let s0 := clearAnswers s
    if !(mpHears .port s) || !((cfgField (cfgInUse s) 0x2E 1).testBit 2) then s0
    else answer s0 (if read then .http 200 (resource r s) else .http 405 []))

end Sys2Proof.Machine
end

