-- ==== Sys2Proof/Machine/Dispatch.lean ====
section
/-! DEFINITION. The dispatch of a command to its meaning: one arm for each constructor. -/
namespace Sys2Proof.Machine

/-- The effect of a command on everything but the queue. -/
def exec (i : Instr) (s : State) : Host.Outcome State Fault Refusal :=
  match i with
  | .addk c kd ka kb useImm imm => Sys2Proof.Machine.execAddk c kd ka kb useImm imm s
  | .subk c kd ka kb useImm imm => Sys2Proof.Machine.execSubk c kd ka kb useImm imm s
  | .ldk c kd ka region imm => Sys2Proof.Machine.execLdk c kd ka region imm s
  | .stk c ka kb region imm => Sys2Proof.Machine.execStk c ka kb region imm s
  | .b c off => Sys2Proof.Machine.execB c off s
  | .bc c ka kb cond useImm cmp off => Sys2Proof.Machine.execBc c ka kb cond useImm cmp off s
  | .loop c kd off => Sys2Proof.Machine.execLoop c kd off s
  | .move c w => Sys2Proof.Machine.execMove c w s
  | .moveChannelStart c tag slots => Sys2Proof.Machine.execMoveChannelStart c tag s slots
  | .moveFaultRaise c tag => Sys2Proof.Machine.execMoveFaultRaise c tag s
  | .mma c w => Sys2Proof.Machine.execMma c w s
  | .conv c w => Sys2Proof.Machine.execConv c w s
  | .accxDrain c w upset => Sys2Proof.Machine.execAccxDrain c w upset s
  | .accxStore c w upset => Sys2Proof.Machine.execAccxStore c w upset s
  | .accxLoad c w => Sys2Proof.Machine.execAccxLoad c w s
  | .arrayPassStart c tag cycle => Sys2Proof.Machine.execArrayPassStart c tag cycle s
  | .streamSlotArrival c tag cycle => Sys2Proof.Machine.execStreamSlotArrival c tag cycle s
  | .checksumPacketArrival c tag => Sys2Proof.Machine.execChecksumPacketArrival c tag s
  | .arrayRowCommit c tag m u blocked => Sys2Proof.Machine.execArrayRowCommit c tag m u blocked s
  | .arrayRowReplay c tag m u => Sys2Proof.Machine.execArrayRowReplay c tag m u s
  | .arrayPassEnd c tag flips => Sys2Proof.Machine.execArrayPassEnd c tag flips s
  | .launch c w => Sys2Proof.Machine.execLaunch c w s
  | .kernelGroupStart c g => Sys2Proof.Machine.execKernelGroupStart c g s
  | .kernelComplete c => Sys2Proof.Machine.execKernelComplete c s
  | .cred c w => Sys2Proof.Machine.execCred c w s
  | .cfin c w => Sys2Proof.Machine.execCfin c w s
  | .upd c w => Sys2Proof.Machine.execUpd c w s
  | .updChunkPass c tag chunk => Sys2Proof.Machine.execUpdChunkPass c tag chunk s
  | .kill c w => Sys2Proof.Machine.execKill c w s
  | .revive c w => Sys2Proof.Machine.execRevive c w s
  | .flushKeep c w => Sys2Proof.Machine.execFlushKeep c w s
  | .flushInvalidate c w => Sys2Proof.Machine.execFlushInvalidate c w s
  | .collAllReduce c w => Sys2Proof.Machine.execCollAllReduce c w s
  | .collReduceScatter c w => Sys2Proof.Machine.execCollReduceScatter c w s
  | .collAllGather c w => Sys2Proof.Machine.execCollAllGather c w s
  | .collAllToAll c w => Sys2Proof.Machine.execCollAllToAll c w s
  | .collBroadcast c w => Sys2Proof.Machine.execCollBroadcast c w s
  | .collShardGather c w => Sys2Proof.Machine.execCollShardGather c w s
  | .collAccept c tag => Sys2Proof.Machine.execCollAccept c tag s
  | .waitc c ctr ka imm => Sys2Proof.Machine.execWaitc c ctr ka imm s
  | .sigc c release target ctr inc => Sys2Proof.Machine.execSigc c release target ctr inc s
  | .sigcReleaseSend c => Sys2Proof.Machine.execSigcReleaseSend c s
  | .sigcArrival idx => Sys2Proof.Machine.execSigcArrival idx s
  | .switch c entry => Sys2Proof.Machine.execSwitch c entry s
  | .switchTakesEffect c => Sys2Proof.Machine.execSwitchTakesEffect c s
  | .fence c mem mask => Sys2Proof.Machine.execFence c mem mask s
  | .trap c code => Sys2Proof.Machine.execTrap c code s
  | .halt c => Sys2Proof.Machine.execHalt c s
  | .coreEnterHalted c => Sys2Proof.Machine.execCoreEnterHalted c s
  | .scoreboardIssue c => Sys2Proof.Machine.execScoreboardIssue c s
  | .eventPulse c tag => Sys2Proof.Machine.execEventPulse c tag s
  | .coreEnterFaulted c => Sys2Proof.Machine.execCoreEnterFaulted c s
  | .watchdogExpired c => Sys2Proof.Machine.execWatchdogExpired c s
  | .coreStart by_ c v => Sys2Proof.Machine.execCoreStart by_ c v s
  | .coreHaltRequest by_ c v => Sys2Proof.Machine.execCoreHaltRequest by_ c v s
  | .coreImemDataAccess by_ c wr => Sys2Proof.Machine.execCoreImemDataAccess by_ c wr s
  | .coreDescDataAccess by_ c wr => Sys2Proof.Machine.execCoreDescDataAccess by_ c wr s
  | .coreKregAccess by_ c hi wr => Sys2Proof.Machine.execCoreKregAccess by_ c hi wr s
  | .coreArriveWrite by_ c ctr v same => Sys2Proof.Machine.execCoreArriveWrite by_ c ctr v same s
  | .regionTableWrite by_ c entry word v => Sys2Proof.Machine.execRegionTableWrite by_ c entry word v s
  | .coreAccDataAccess by_ c wr => Sys2Proof.Machine.execCoreAccDataAccess by_ c wr s
  | .coreFpctlWrite by_ c v => Sys2Proof.Machine.execCoreFpctlWrite by_ c v s
  | .coreSeedWrite by_ c hi v => Sys2Proof.Machine.execCoreSeedWrite by_ c hi v s
  | .registerWrite by_ size addr v => Sys2Proof.Machine.execRegisterWrite by_ size addr v s
  | .iadd c g w => Sys2Proof.Machine.execIadd c g w s
  | .isub c g w => Sys2Proof.Machine.execIsub c g w s
  | .imul c g w => Sys2Proof.Machine.execImul c g w s
  | .imad c g w => Sys2Proof.Machine.execImad c g w s
  | .imin c g w => Sys2Proof.Machine.execImin c g w s
  | .imax c g w => Sys2Proof.Machine.execImax c g w s
  | .umin c g w => Sys2Proof.Machine.execUmin c g w s
  | .umax c g w => Sys2Proof.Machine.execUmax c g w s
  | .andT c g w => Sys2Proof.Machine.execAndT c g w s
  | .orT c g w => Sys2Proof.Machine.execOrT c g w s
  | .xorT c g w => Sys2Proof.Machine.execXorT c g w s
  | .shl c g w => Sys2Proof.Machine.execShl c g w s
  | .shr c g w => Sys2Proof.Machine.execShr c g w s
  | .sra c g w => Sys2Proof.Machine.execSra c g w s
  | .mov c g w => Sys2Proof.Machine.execMov c g w s
  | .sel c g w => Sys2Proof.Machine.execSel c g w s
  | .icmp c g w => Sys2Proof.Machine.execIcmp c g w s
  | .iadd64 c g w => Sys2Proof.Machine.execIadd64 c g w s
  | .fadd c g w => Sys2Proof.Machine.execFadd c g w s
  | .fsub c g w => Sys2Proof.Machine.execFsub c g w s
  | .fmul c g w => Sys2Proof.Machine.execFmul c g w s
  | .ffma c g w => Sys2Proof.Machine.execFfma c g w s
  | .fmin c g w => Sys2Proof.Machine.execFmin c g w s
  | .fmax c g w => Sys2Proof.Machine.execFmax c g w s
  | .fabs c g w => Sys2Proof.Machine.execFabs c g w s
  | .fcmp c g w => Sys2Proof.Machine.execFcmp c g w s
  | .fdiv c g w => Sys2Proof.Machine.execFdiv c g w s
  | .fsqrt c g w => Sys2Proof.Machine.execFsqrt c g w s
  | .frcp c g w => Sys2Proof.Machine.execFrcp c g w s
  | .frsq c g w => Sys2Proof.Machine.execFrsq c g w s
  | .fex2 c g w => Sys2Proof.Machine.execFex2 c g w s
  | .flg2 c g w => Sys2Proof.Machine.execFlg2 c g w s
  | .cvt c g w => Sys2Proof.Machine.execCvt c g w s
  | .cvtMx c g w => Sys2Proof.Machine.execCvtMx c g w s
  | .rngU32 c g w => Sys2Proof.Machine.execRngU32 c g w s
  | .bmask c g w => Sys2Proof.Machine.execBmask c g w s
  | .shfl c g w => Sys2Proof.Machine.execShfl c g w s
  | .vote c g w => Sys2Proof.Machine.execVote c g w s
  | .wru c g w => Sys2Proof.Machine.execWru c g w s
  | .ld c g w => Sys2Proof.Machine.execLd c g w s
  | .st c g w => Sys2Proof.Machine.execSt c g w s
  | .ldt c g w => Sys2Proof.Machine.execLdt c g w s
  | .stt c g w => Sys2Proof.Machine.execStt c g w s
  | .atom c g w => Sys2Proof.Machine.execAtom c g w s
  | .cpya c g w => Sys2Proof.Machine.execCpya c g w s
  | .cpyaComplete c idx => Sys2Proof.Machine.execCpyaComplete c idx s
  | .kernelFence c g w => Sys2Proof.Machine.execKernelFence c g w s
  | .brx c g w => Sys2Proof.Machine.execBrx c g w s
  | .join c g w => Sys2Proof.Machine.execJoin c g w s
  | .jmp c g w => Sys2Proof.Machine.execJmp c g w s
  | .bar c g w => Sys2Proof.Machine.execBar c g w s
  | .kernelWaitc c g w => Sys2Proof.Machine.execKernelWaitc c g w s
  | .kernelSigc c g w => Sys2Proof.Machine.execKernelSigc c g w s
  | .exit c g w => Sys2Proof.Machine.execExit c g w s
  | .combRead q ln upsets => Sys2Proof.Machine.execCombRead q ln upsets s
  | .combWrite q ln mask data upsets => Sys2Proof.Machine.execCombWrite q ln mask data upsets s
  | .hostOwnershipRequest h ln => Sys2Proof.Machine.execHostOwnershipRequest h ln s
  | .hostWriteBack h ln data => Sys2Proof.Machine.execHostWriteBack h ln data s
  | .missFillComplete ln strike => Sys2Proof.Machine.execMissFillComplete ln s strike
  | .invalidationAck ln sharer => Sys2Proof.Machine.execInvalidationAck ln sharer s
  | .hostRecallResponse h ln modified => Sys2Proof.Machine.execHostRecallResponse h ln modified s
  | .requestReissue agent ln => Sys2Proof.Machine.execRequestReissue agent ln s
  | .patrolScrubVisit n missed upsets => Sys2Proof.Machine.execPatrolScrubVisit n missed upsets s
  | .sliceWake n => Sys2Proof.Machine.execSliceWake n s
  | .wakeSweepComplete n => Sys2Proof.Machine.execWakeSweepComplete n s
  | .splitChange by_ ways => Sys2Proof.Machine.execSplitChange by_ ways s
  | .atomicApply q ln op width lanes => Sys2Proof.Machine.execAtomicApply q ln op width lanes s
  | .reduceContribution q ln op fmt elems => Sys2Proof.Machine.execReduceContribution q ln op fmt elems s
  | .exactContribution q ln fmt e elems => Sys2Proof.Machine.execExactContribution q ln fmt e elems s
  | .reduceWayWaitTimeout ln => Sys2Proof.Machine.execReduceWayWaitTimeout ln s
  | .greqReceived p superseded => Sys2Proof.Machine.execGreqReceived p superseded s
  | .gdataReceived p => Sys2Proof.Machine.execGdataReceived p s
  | .gsuperReceived p => Sys2Proof.Machine.execGsuperReceived p s
  | .gcorruptReceived p => Sys2Proof.Machine.execGcorruptReceived p s
  | .greqRetry tag => Sys2Proof.Machine.execGreqRetry tag s
  | .digestSweepPeriod => Sys2Proof.Machine.execDigestSweepPeriod s
  | .digestSweepChunk => Sys2Proof.Machine.execDigestSweepChunk s
  | .hbmRead q ln good retryGood ecc => Sys2Proof.Machine.execHbmRead q ln good retryGood ecc s
  | .hbmWrite q ln mask data parityGood => Sys2Proof.Machine.execHbmWrite q ln mask data parityGood s
  | .hbmTempRead st temp => Sys2Proof.Machine.execHbmTempRead st temp s
  | .hbmPatrolRead st expired good retryGood ecc => Sys2Proof.Machine.execHbmPatrolRead st expired good retryGood ecc s
  | .selfRefreshEntry st => Sys2Proof.Machine.execSelfRefreshEntry st s
  | .regulatorWindowBoundary => Sys2Proof.Machine.execRegulatorWindowBoundary s
  | .requestAdmission id master cls telemetry deadline ln => Sys2Proof.Machine.execRequestAdmission id master cls telemetry deadline s ln
  | .deadlineExpiry id => Sys2Proof.Machine.execDeadlineExpiry id s
  | .requestAgeing id => Sys2Proof.Machine.execRequestAgeing id s
  | .reservationAdmission by_ idx v => Sys2Proof.Machine.execReservationAdmission by_ idx v s
  | .laneSwap l lane index => Sys2Proof.Machine.execLaneSwap l lane index s
  | .flitReceived l slot uncorr flit => Sys2Proof.Machine.execFlitReceived l slot uncorr flit s
  | .replayTimeout l => Sys2Proof.Machine.execReplayTimeout l s
  | .recoverEntry l => Sys2Proof.Machine.execRecoverEntry l s
  | .recoverTimeout l => Sys2Proof.Machine.execRecoverTimeout l s
  | .cutThroughTimeout l vc cls => Sys2Proof.Machine.execCutThroughTimeout l vc s cls
  | .packetReceived l p => Sys2Proof.Machine.execPacketReceived l p s
  | .packetForward l cls p => Sys2Proof.Machine.execPacketForward l cls p s
  | .linkEnable by_ l v => Sys2Proof.Machine.execLinkEnable by_ l v s
  | .equalisationLock l lanes => Sys2Proof.Machine.execEqualisationLock l lanes s
  | .alignLock l dev lnk gen => Sys2Proof.Machine.execAlignLock l dev lnk gen s
  | .downRetry l => Sys2Proof.Machine.execDownRetry l s
  | .linkAdaptation l c0 c1 c2 c3 => Sys2Proof.Machine.execLinkAdaptation l c0 c1 c2 c3 s
  | .ethFrameReceived l frame => Sys2Proof.Machine.execEthFrameReceived l frame s
  | .eackReceived p => Sys2Proof.Machine.execEackReceived p s
  | .eackTimer peer vc => Sys2Proof.Machine.execEackTimer peer vc s
  | .retransmissionTimeout peer vc => Sys2Proof.Machine.execRetransmissionTimeout peer vc s
  | .readyReceived p => Sys2Proof.Machine.execReadyReceived p s
  | .dataReceived p => Sys2Proof.Machine.execDataReceived p s
  | .doneReceived p => Sys2Proof.Machine.execDoneReceived p s
  | .abortReceived p => Sys2Proof.Machine.execAbortReceived p s
  | .collectiveTimeout c tag => Sys2Proof.Machine.execCollectiveTimeout c tag s
  | .lnkRtDataAccess by_ wr => Sys2Proof.Machine.execLnkRtDataAccess by_ wr s
  | .seqReset by_ v => Sys2Proof.Machine.execSeqReset by_ v s
  | .ctxReset by_ v => Sys2Proof.Machine.execCtxReset by_ v s
  | .bypassOpen by_ => Sys2Proof.Machine.execBypassOpen by_ s
  | .bypassClose by_ => Sys2Proof.Machine.execBypassClose by_ s
  | .mailboxDataWrite by_ box idx v => Sys2Proof.Machine.execMailboxDataWrite by_ box idx v s
  | .mailboxSend by_ box v => Sys2Proof.Machine.execMailboxSend by_ box v s
  | .mailboxRelease by_ box => Sys2Proof.Machine.execMailboxRelease by_ box s
  | .mailboxAck by_ box v => Sys2Proof.Machine.execMailboxAck by_ box v s
  | .mbxCcntWrite by_ c reg v => Sys2Proof.Machine.execMbxCcntWrite by_ c reg v s
  | .post op => Sys2Proof.Machine.execPost op s
  | .crystalGood => Sys2Proof.Machine.execCrystalGood s
  | .crystalTrip => Sys2Proof.Machine.execCrystalTrip s
  | .droopCrossing n rail deep => Sys2Proof.Machine.execDroopCrossing n rail deep s
  | .droopRelease n rail edges => Sys2Proof.Machine.execDroopRelease n rail edges s
  | .peripheralGate by_ v => Sys2Proof.Machine.execPeripheralGate by_ v s
  | .coldReset by_ v => Sys2Proof.Machine.execColdReset by_ v s
  | .warmReset by_ v => Sys2Proof.Machine.execWarmReset by_ v s
  | .layerReset by_ v => Sys2Proof.Machine.execLayerReset by_ v s
  | .layerDrainEnd => Sys2Proof.Machine.execLayerDrainEnd s
  | .layerResetRelease => Sys2Proof.Machine.execLayerResetRelease s
  | .layerReady retrained dead => Sys2Proof.Machine.execLayerReady retrained dead s
  | .regionReset by_ v => Sys2Proof.Machine.execRegionReset by_ v s
  | .coreReset by_ v => Sys2Proof.Machine.execCoreReset by_ v s
  | .coreResetComplete c => Sys2Proof.Machine.execCoreResetComplete c s
  | .resetNAssert => Sys2Proof.Machine.execResetNAssert s
  | .resetNRelease => Sys2Proof.Machine.execResetNRelease s
  | .alwaysOnReady => Sys2Proof.Machine.execAlwaysOnReady s
  | .startUp r => Sys2Proof.Machine.execStartUp r s
  | .hostBootTimeout => Sys2Proof.Machine.execHostBootTimeout s
  | .programLoad q => Sys2Proof.Machine.execProgramLoad q s
  | .swarmSend by_ v => Sys2Proof.Machine.execSwarmSend by_ v s
  | .swarmTally by_ v => Sys2Proof.Machine.execSwarmTally by_ v s
  | .swarmDigestCheck by_ v => Sys2Proof.Machine.execSwarmDigestCheck by_ v s
  | .chunkPacketReceived n idx crcOk => Sys2Proof.Machine.execChunkPacketReceived n idx crcOk s
  | .rgnSwarmSecWrite by_ site v => Sys2Proof.Machine.execRgnSwarmSecWrite by_ site v s
  | .learnedListWrite ok => Sys2Proof.Machine.execLearnedListWrite ok s
  | .feedOutOfRange f volts => Sys2Proof.Machine.execFeedOutOfRange f volts s
  | .feedReconnect f volts => Sys2Proof.Machine.execFeedReconnect f volts s
  | .feedIntegrityCheck f volts amps drop => Sys2Proof.Machine.execFeedIntegrityCheck f volts amps drop s
  | .verticalSupplyCheck n drop amps => Sys2Proof.Machine.execVerticalSupplyCheck n drop amps s
  | .baselineCapture p base => Sys2Proof.Machine.execBaselineCapture p base s
  | .phaseFail n ph => Sys2Proof.Machine.execPhaseFail n ph s
  | .sleepCompute by_ n sleep => Sys2Proof.Machine.execSleepCompute by_ n sleep s
  | .sleepComb0 by_ n sleep => Sys2Proof.Machine.execSleepComb0 by_ n sleep s
  | .sleepComb1 by_ n sleep => Sys2Proof.Machine.execSleepComb1 by_ n sleep s
  | .headroomRecheck n sum => Sys2Proof.Machine.execHeadroomRecheck n sum s
  | .headroomTimeout n => Sys2Proof.Machine.execHeadroomTimeout n s
  | .rampEnd n g => Sys2Proof.Machine.execRampEnd n g s
  | .standbyEntry => Sys2Proof.Machine.execStandbyEntry s
  | .standbyExit => Sys2Proof.Machine.execStandbyExit s
  | .currentSample cur => Sys2Proof.Machine.execCurrentSample cur s
  | .thmTempRead by_ x => Sys2Proof.Machine.execThmTempRead by_ x s
  | .conversionComplete x temp => Sys2Proof.Machine.execConversionComplete x temp s
  | .comparatorTrip x th => Sys2Proof.Machine.execComparatorTrip x th s
  | .comparatorRelease x th => Sys2Proof.Machine.execComparatorRelease x th s
  | .throttleStepRaise n => Sys2Proof.Machine.execThrottleStepRaise n s
  | .throttleStepFall n below => Sys2Proof.Machine.execThrottleStepFall n below s
  | .thermalShutdown by_ v => Sys2Proof.Machine.execThermalShutdown by_ v s
  | .thermalRestart => Sys2Proof.Machine.execThermalRestart s
  | .thermalRelease by_ v => Sys2Proof.Machine.execThermalRelease by_ v s
  | .thermalCrossCheck loads => Sys2Proof.Machine.execThermalCrossCheck loads s
  | .wearSave => Sys2Proof.Machine.execWearSave s
  | .token src id t => Sys2Proof.Machine.execToken src id t s
  | .debugLock by_ v => Sys2Proof.Machine.execDebugLock by_ v s
  | .debugLevelSet by_ v => Sys2Proof.Machine.execDebugLevelSet by_ v s
  | .freezeRequest via => Sys2Proof.Machine.execFreezeRequest via s
  | .freezeClockStop => Sys2Proof.Machine.execFreezeClockStop s
  | .measurementExtend by_ v => Sys2Proof.Machine.execMeasurementExtend by_ v s
  | .entropyRestart by_ v pass => Sys2Proof.Machine.execEntropyRestart by_ v pass s
  | .entropyHealthFail => Sys2Proof.Machine.execEntropyHealthFail s
  | .entropyBlockRead by_ => Sys2Proof.Machine.execEntropyBlockRead by_ s
  | .nonce src id => Sys2Proof.Machine.execNonce src id s
  | .attest src id nonce => Sys2Proof.Machine.execAttest src id nonce s
  | .logRead src id seq => Sys2Proof.Machine.execLogRead src id seq s
  | .fwBegin src id header nvmOk => Sys2Proof.Machine.execFwBegin src id header nvmOk s
  | .fwWrite src id off data nvmOk => Sys2Proof.Machine.execFwWrite src id off data nvmOk s
  | .fwCommit src id nvmOk => Sys2Proof.Machine.execFwCommit src id nvmOk s
  | .fwUpdateTimeout => Sys2Proof.Machine.execFwUpdateTimeout s
  | .enrol q key policy miss => Sys2Proof.Machine.execEnrol q key policy miss s
  | .returnDevice q miss => Sys2Proof.Machine.execReturnDevice q miss s
  | .cadRemove q entries => Sys2Proof.Machine.execCadRemove q entries s
  | .cfgWrite src id block sig nvmOk => Sys2Proof.Machine.execCfgWrite src id block sig nvmOk s
  | .controlWarmReset q => Sys2Proof.Machine.execControlWarmReset q s
  | .controlColdReset q => Sys2Proof.Machine.execControlColdReset q s
  | .controlEnterStandby q => Sys2Proof.Machine.execControlEnterStandby q s
  | .controlLeaveStandby q => Sys2Proof.Machine.execControlLeaveStandby q s
  | .controlThermalRelease q => Sys2Proof.Machine.execControlThermalRelease q s
  | .controlRecaptureBaselines q => Sys2Proof.Machine.execControlRecaptureBaselines q s
  | .controlFullTraining q => Sys2Proof.Machine.execControlFullTraining q s
  | .fragmentTimeout => Sys2Proof.Machine.execFragmentTimeout s
  | .redfishRequest read r => Sys2Proof.Machine.execRedfishRequest read r s
  | .mpWatchdogExpiry => Sys2Proof.Machine.execMpWatchdogExpiry s
  | .logCopy nvmOk => Sys2Proof.Machine.execLogCopy nvmOk s
  | .logSelect by_ v => Sys2Proof.Machine.execLogSelect by_ v s
  | .stepIntClear by_ v => Sys2Proof.Machine.execStepIntClear by_ v s
  | .regulatorHealthCheck readings => Sys2Proof.Machine.execRegulatorHealthCheck readings s
  | .backgroundWorkDropped idx => Sys2Proof.Machine.execBackgroundWorkDropped idx s
  | .commitGate c flags census => Sys2Proof.Machine.execCommitGate c flags census s
  | .recoverComplete l => Sys2Proof.Machine.execRecoverComplete l s
  | .lossOfSignal l => Sys2Proof.Machine.execLossOfSignal l s
  | .managementFrameFragment src frame => Sys2Proof.Machine.execManagementFrameFragment src frame s
  | .managementPortFrame frame => Sys2Proof.Machine.execManagementPortFrame frame s
  | .effectiveLimitEnforcement n edges => Sys2Proof.Machine.execEffectiveLimitEnforcement n edges s

end Sys2Proof.Machine
end

