-- ==== Sys2Proof/Machine/Tick.lean ====
section
/-! DEFINITION. What the block does when no command waits: one cycle of the management clock passes (log 2). -/
namespace Sys2Proof.Machine

/-- Lines that a LD with last, or a collective, has still to drop (R172, R351, R356). -/
def retryDrops (s : State) : State :=
  s.comb.lastDrops.foldl (fun s ln =>
    match killAt 1204 ln s with
    | (s1, .wait) => s1
    | (s1, _) => { s1 with comb := { s1.comb with lastDrops := s1.comb.lastDrops.filter fun x => x != ln } }) s

/-- Whether anything waits that no command takes up again: at the slices, in a split change, in the collective engine, at a link. -/
def anyWaits (s : State) : Bool :=
  !s.comb.lastDrops.isEmpty || s.comb.splitTo.isSome || (s.comb.slices.any fun e => !e.2.miss.isEmpty)
    || !s.net.colls.isEmpty || !s.net.greqs.isEmpty || !s.net.outbox.isEmpty || !s.net.spoils.isEmpty || !s.net.loop.isEmpty
    || s.net.links.any fun e => e.2.reading || e.2.rxSwap.isSome || e.2.txSwap.isSome || !e.2.frames.isEmpty

/-- Takes up again what waits in the comb and the network (log 2). -/
def takeUp (s : State) : State :=
  let s1 := settleAll (retryDrops s)
  netSettle (retryLinks (retryColls (if s1.comb.splitTo.isSome then finishSplit s1 else s1)))

/-- One cycle of the management clock on the management timestamp (R377, R487): on the datum clock it counts one; on the RC
oscillator it counts nine in every four cycles. Box transfers, an injector's operation, sleeps, and what else waits for a line or a
partner, are taken up again. -/
def tick (s : State) : State :=
  let s0 := if anyWaits s && !(frozen s) then takeUp s else s
  let s1 := if s0.mbx.owed = [] then s0 else boxRetry s0
  let s2 := if s1.swarm.waits then swarmRun s1 else s1
  modMgt (if s2.pwr.fps.any fun e => !e.2.pend.isEmpty then retrySleep s2 else s2) fun m =>
    if s.clk.datum then { m with time := (m.time + 1) % 2 ^ 64 }
    else if m.rcPhase = 3 then { m with time := (m.time + 9) % 2 ^ 64, rcPhase := 0 }
    else { m with rcPhase := m.rcPhase + 1 }

end Sys2Proof.Machine
end

