-- ==== Sys2Proof/Safety.lean ====
section
/-! DEFINITION. The terms in which the statements speak: completion, what a command leaves alone, and the invariants. -/
namespace Sys2Proof.Machine

/-- A command completes: it answers a next state, of which `P` holds. -/
def Completes (i : Instr) (s : State) (P : State → Prop) : Prop := ∃ t, exec i s = .next t ∧ P t

/-- Everything outside the cores is as before, and so is every core but `c`. -/
def onlyCore (c : Nat) (s t : State) : Prop := t = { s with cores := t.cores } ∧ ∀ d, d ≠ c → getCore t d = getCore s d

/-- What a word of the control stream leaves of its core: all but the scalar registers, the offset and the stall; the word
fetched next faults the core with 0x32 at its own offset when it is an undefined encoding (R93), and otherwise nothing is
recorded. -/
def streamMoved (k k' : Core) : Prop :=
  k' = { k with k := k'.k, pc := k'.pc, stall := .none, faulting := k'.faulting, regs := k'.regs }
  ∧ k'.faulting = undefinedEncoding (wordAt k')
  ∧ (undefinedEncoding (wordAt k') = false → k'.regs = k.regs)
  ∧ (undefinedEncoding (wordAt k') = true → k.regs.faultInfo = 0 →
      k'.regs = { k.regs with faultInfo := 0x32, faultPc := pcWord k', faultDetail := 0 })

/-- The stream of a core stands at a word, and none of its scalar accesses is out (R98). -/
def standsAt (s : State) (c : Nat) (w : BitVec 128) : Prop := atWord s c w = true ∧ (getCore s c).scalarq = []

/-- The stream of core `c` goes on at an offset, and only this core changes. -/
def goesTo (c : Nat) (pc : BitVec 15) (s t : State) : Prop :=
  onlyCore c s t ∧ streamMoved (getCore s c) (getCore t c) ∧ (getCore t c).pc = pc

/-- The stream of core `c` goes on at the next word of 16 bytes. -/
def advances (c : Nat) (s t : State) : Prop := goesTo c ((getCore s c).pc + 16) s t

/-- No scalar register of a core has changed but `kd`, which holds `v` unless it is k0. -/
def onlyK (kd : BitVec 5) (v : Word64) (k k' : Core) : Prop :=
  ∀ r, kGet k' r = if r = kd ∧ r ≠ 0 then v else kGet k r

/-- A core faults (R116): its issue stops, and the first fault is recorded, a later one sets fault_overflow. -/
def faults (c code eng : Nat) (tag : Option Nat) (pc : BitVec 16) (detail : Nat) (s t : State) : Prop :=
  let k := getCore s c
  onlyCore c s t ∧ getCore t c = { k with
    faulting := true
    stall := .none
    regs := if k.regs.faultInfo ≠ 0 then { k.regs with cause := k.regs.cause ||| 4 }
      else { k.regs with
        faultInfo := BitVec.ofNat 18 (code + eng * 256 + tag.getD 0 * 4096 + (if tag.isSome then 131072 else 0))
        faultPc := pc
        faultDetail := BitVec.ofNat 32 detail } }

/-- What sending an increment comes to (R100): nothing for zero; to the core itself for 0x7FF; to the core of the translation with
the generation it names; a fault 0x0D where that core has no power. -/
def sends (c target ctr inc : Nat) (s t : State) : Prop :=
  let on (l : Nat) (g : Option Byte) : State := { s with sigs := s.sigs ++ [{ target := l, counter := ctr, inc, gen := g, sender := c }] }
  if inc = 0 then advances c s t
  else if target = 0x7FF then advances c (on c none) t
  else match (getCore s c).xlat.find? fun x => x.1 == target with
    | none => advances c s t
    | some (_, l, g) => if coreUp s l then advances c (on l (some g)) t else faults c 0x0D 6 none (pcWord (getCore s c)) 0 s t

/-- A long instruction has issued (R94, R103, R107): it is in flight with its descriptor, its scalar operands, the modes and the seed
as they stood, the stream goes on, and the core's memories, registers and translations are as before. -/
def issued (c : Nat) (w : BitVec 128) (s u : State) : Prop :=
  let k := getCore s c
  let k' := getCore u c
  onlyCore c s u ∧ k'.pc = k.pc + 16 ∧ k'.k = k.k ∧ k'.arrive = k.arrive ∧ k'.tile = k.tile ∧ k'.bankA = k.bankA ∧ k'.bankB = k.bankB
    ∧ k'.descMem = k.descMem ∧ k'.regions = k.regions ∧ k'.arr.acc = k.arr.acc ∧ k'.tg.groups = k.tg.groups
    ∧ ∃ f, k'.flights = k.flights ++ [f] ∧ f.tag = wTag w ∧ f.eng = wEng w ∧ f.word = w ∧ f.pc = pcWord k ∧ f.desc = descOf k (wDesc w)
      ∧ f.ka = kGet k (BitVec.ofNat 5 (bitsOf w.toNat 55 51)) ∧ f.kb = kGet k (BitVec.ofNat 5 (bitsOf w.toNat 50 46))
      ∧ f.fpctl = k.regs.fpctl ∧ f.seed = (k.regs.seedHi ++ k.regs.seedLo : Word64)

/-- The 22 long instructions with their opcode and engine, and whether the word's or the descriptor's operation selects them. -/
def longForms (c : CoreNo) (w : LongWord) (u : Option AccUpset) (s : State) : List (Instr × Nat × Nat × Bool) :=
  let op := bitsOf w.low.toNat 45 44
  let coll := dBits (descOf (getCore s c.val) w.desc.toNat) 10 8
  [(.move c w, 0x10, 1, true), (.mma c w, 0x20, 2, true), (.conv c w, 0x21, 2, true), (.accxDrain c w u, 0x22, 2, op == 0),
   (.accxStore c w u, 0x22, 2, op == 1), (.accxLoad c w, 0x22, 2, op == 2), (.launch c w, 0x30, 3, true), (.cred c w, 0x40, 4, true),
   (.cfin c w, 0x41, 4, true), (.upd c w, 0x42, 4, true), (.kill c w, 0x43, 4, true), (.revive c w, 0x44, 4, true),
   (.flushKeep c w, 0x45, 4, op == 0), (.flushInvalidate c w, 0x45, 4, op == 1), (.collAllReduce c w, 0x50, 5, coll == 0),
   (.collReduceScatter c w, 0x50, 5, coll == 1), (.collAllGather c w, 0x50, 5, coll == 2), (.collAllToAll c w, 0x50, 5, coll == 3),
   (.collBroadcast c w, 0x50, 5, coll == 4), (.collShardGather c w, 0x50, 5, coll == 5)]

/-- Whether the descriptor that a word reads has the type its instruction takes (R107). -/
def descFits (k : Core) (w : BitVec 128) : Bool :=
  match descType w with
  | some t => descOf k (wDesc w) % 256 == BitVec.ofNat 512 t
  | none => true

/-- A long instruction faults (R116): the core's fault carries its engine, tag and offset, and it keeps its tag without a pulse. -/
def flightFaults (c : Nat) (f : Flight) (code detail : Nat) (s t : State) : Prop :=
  faults c code f.eng (some f.tag) f.pc detail (modCore s c fun k =>
    { k with flights := k.flights.map fun x => if x.tag = f.tag then { x with ph := .faulted, flt := none } else x }) t

/-- The flights of a core once the one with a tag has finished, or has otherwise changed. -/
def flightsWith (k : Core) (tag : Nat) (f : Flight → Flight) : List Flight := k.flights.map fun x => if x.tag = tag then f x else x

/-- The rows of a pass that stand in a running pass of the array, once `f` has changed it. -/
def execsWith (k : Core) (tag : Nat) (f : ArrExec → ArrExec) : List ArrExec := k.arr.execs.map fun x => if x.tag == tag then f x else x

/-- Row `m` of a pass is committed (R58, R134): each unmasked column of its accumulator entry holds the row's result, the status is
raised by `flags`, and the running pass becomes `ex` of it. -/
def rowCommitted (c : Nat) (fl : Flight) (m : Nat) (cells : List (Nat × Nat)) (flags : BitVec 7) (ex : ArrExec → ArrExec) (retry : Word32)
    (s t : State) : Prop :=
  let k := getCore s c
  let k' := getCore t c
  let d := passDesc fl
  onlyCore c s t
    ∧ k' = { k with
        arr := { k.arr with acc := k'.arr.acc, execs := execsWith k fl.tag ex, retry }
        regs := { k.regs with fpstat := k.regs.fpstat ||| flags } }
    ∧ ∀ e n, n < 32 → accGet k'.arr e n =
        if e = d.base + m ∧ d.colMask.getLsbD n = true then BitVec.ofNat 32 (((cells.find? fun p => p.1 == n).map Prod.snd).getD 0)
        else accGet k.arr e n

/-- A chunk of an UPD has ended, with the progress `p` (R276, R282): the UPD goes on with the chunks left; behind the last one it is done,
or faults with the code of the lowest failed chunk and that chunk as detail. -/
def chunkEnded (c : Nat) (fl : Flight) (p : UpdProg) (s t : State) : Prop :=
  let k := getCore s c
  (p.todo ≠ [] → onlyCore c s t ∧ getCore t c = { k with flights := flightsWith k fl.tag fun x => { x with aux := .upd p } }) ∧
  (p.todo = [] → p.fails = [] → onlyCore c s t ∧ getCore t c =
    { k with flights := flightsWith k fl.tag fun x => { x with ph := .done, aux := .upd { p with outcome := 1 } } }) ∧
  ∀ i code, p.todo = [] → (i, code) ∈ p.fails → (∀ x ∈ p.fails, i < x.1 ∨ x = (i, code)) →
    (getCore t c).faulting = true ∧ (k.regs.faultInfo = 0 →
      (getCore t c).regs.faultInfo = BitVec.ofNat 18 (code + fl.eng * 256 + fl.tag * 4096 + 131072)
      ∧ (getCore t c).regs.faultDetail = BitVec.ofNat 32 i)

/-! ### Control space -/

/-- An access to a block is performed: none of the outcomes that come before applies (R27, R386, R469). -/
def performed (by_ : By) (statusRead : Bool) (layer region block : Nat) (s : State) : Prop :=
  blockDecodes layer region block = true ∧ blockPowered s layer region block = true
    ∧ pathReset s (isHost by_) layer region block = false ∧ gated s layer region block = false
    ∧ (frozen s && !(alwaysOnBlock layer region block)) = false ∧ debugAdmits s by_ statusRead = true

/-- An access to a register of a logical core is performed. -/
def coreReached (by_ : By) (c : Nat) (s : State) : Prop := ∃ k, siteOf s c = some k ∧ performed by_ false 3 (k / 54) (k % 54) s

/-- The command answers, core `c` becomes `k`, and nothing else changes. -/
def coreBecomes (c : Nat) (k : Core) (a : List Answer) (s t : State) : Prop := onlyCore c { s with answers := a } t ∧ getCore t c = k

/-- The command has one answer and changes nothing. -/
def answers (a : Answer) (s t : State) : Prop := t = { s with answers := [a] }

/-- A byte memory holds the `n` low bytes of `v` from `a`, and elsewhere what it held. -/
def bytesPut (a n v : Nat) (m m' : ByteMem) : Prop :=
  (∀ i, i < n → memGet m' (a + i) = BitVec.ofNat 8 (v / 256 ^ i)) ∧ ∀ x, (x < a ∨ a + n ≤ x) → memGet m' x = memGet m x

/-- The commands that are one access to a register of a core. -/
def coreAccess (by_ : By) (c : CoreNo) (v : Word32) (wr : Option Word32) (hi : Bool) (i4 : BitVec 4) (i6 : BitVec 6) (i2 : BitVec 2)
    (same : List Nat) (i3 : Fin 3) (x : Instr) : Prop :=
  x ∈ [.coreStart by_ c v, .coreHaltRequest by_ c v, .coreImemDataAccess by_ c wr, .coreDescDataAccess by_ c wr,
   .coreKregAccess by_ c hi wr, .coreArriveWrite by_ c i4 v same, .regionTableWrite by_ c i6 i2 v, .coreAccDataAccess by_ c wr,
   .coreFpctlWrite by_ c v, .coreSeedWrite by_ c hi v, .mbxCcntWrite by_ c i3 v]

/-- The commands that are one access to a register of another block, with its layer, region and block. -/
def blockAccess (by_ : By) (v : Word32) (wr : Option Word32) (l : LinkNo) (n : RegionNo) (flag : Bool) (ways : BitVec 5) (i32 : Fin 32)
    (site : SiteNo) (x : Instr × Nat × Nat × Nat) : Prop :=
  x ∈ [(.linkEnable by_ l v, 4 + l.val / 12, 31, l.val % 12), (.lnkRtDataAccess by_ wr, 0, 31, 64), (.seqReset by_ v, 0, 31, 64),
   (.ctxReset by_ v, 0, 31, 64), (.bypassOpen by_, 8, 31, 2), (.bypassClose by_, 8, 31, 2), (.logSelect by_ v, 0, 31, 128),
   (.stepIntClear by_ v, 0, 31, 128), (.sleepCompute by_ n flag, 0, n.val, 64), (.sleepComb0 by_ n flag, 0, n.val, 64),
   (.sleepComb1 by_ n flag, 0, n.val, 64), (.thermalShutdown by_ v, 0, 31, 133), (.thermalRelease by_ v, 0, 31, 133),
   (.splitChange by_ ways, 1, 31, 0), (.reservationAdmission by_ i32 v, 0, 31, 96), (.coldReset by_ v, 0, 31, 176),
   (.warmReset by_ v, 0, 31, 176), (.layerReset by_ v, 0, 31, 176), (.regionReset by_ v, 0, 31, 176), (.coreReset by_ v, 0, 31, 176),
   (.peripheralGate by_ v, 0, 31, 160), (.measurementExtend by_ v, 0, 31, 192), (.entropyRestart by_ v flag, 0, 31, 147),
   (.entropyBlockRead by_, 0, 31, 147), (.swarmSend by_ v, 3, 31, 0), (.swarmTally by_ v, 3, 31, 0), (.swarmDigestCheck by_ v, 3, 31, 0),
   (.rgnSwarmSecWrite by_ site v, 3, site.val / 54, 64)]

/-! ### Links and packets -/

/-- The network is at work: the logic runs, no packet of the device to itself is on its way, and no port holds frames whose pause has
ended. -/
def netRuns (s : State) : Prop :=
  frozen s = false ∧ s.net.loop = [] ∧ ∀ l, (getLink s l).frames = [] ∨ portPaused s l = true

/-- One link becomes `k`, the command answers, and nothing else changes. -/
def linkBecomes (l : Nat) (k : Link) (a : List Answer) (s t : State) : Prop :=
  t = { s with answers := a, net := { s.net with links := t.net.links } } ∧ getLink t l = k ∧ ∀ m, m ≠ l → getLink t m = getLink s m

/-- The same, with the event of a link's change of state or of lanes (R316, R338). -/
def linkBecomesLogged (l : Nat) (k : Link) (a : List Answer) (s t : State) : Prop :=
  ∃ u, linkBecomes l k a s u ∧ t = logEvent 0x10A (linkSrc l) 0 u

/-- A link that leaves service (R319, R338): its sequence numbers, credits, buffers and partner are gone. -/
def linkEmptied (k : Link) (st : LinkSt) : Link :=
  { k with
    st, partner := none, rxSeq := 0, nakOut := false, txSeq := 0, replayBuf := [], replayRow := 0, credits := [], owed := [], tx := []
    passed := [], rx := [], txRepeat := none, rxRequest := none, txSwap := none, rxSwap := none, reading := false, paused := []
    frames := [] }

/-- A link in service has gone down (R319, R338). -/
def linkFell (l : Nat) (st : LinkSt) (s t : State) : Prop :=
  let k := getLink t l
  k.st = st ∧ k.partner = none ∧ k.replayBuf = [] ∧ k.tx = [] ∧ k.rx = [] ∧ k.cause.getLsbD 0 = true ∧ k.ctl = (getLink s l).ctl
    ∧ k.saved = (getLink s l).saved

/-- A flit on the wire: with the acknowledgement of its link and the credits that it returns (R315, R318, R321). -/
def sentFlit (l : Nat) (k : Link) (f : Flit) : Answer :=
  .flit l (flitBits { f with ack := ackOf k, pool := (owedOf k).1, credits := (owedOf k).2 })
/-- One Ethernet context becomes `c`, the command answers, and nothing else changes but free values taken. -/
def ctxBecomes (key : Nat) (c : Ctx) (a : List Answer) (s t : State) : Prop :=
  t = { s with answers := a, free := t.free, net := { s.net with ctxs := t.net.ctxs } } ∧ getCtx t key = c
    ∧ ∀ x, x ≠ key → getCtx t x = getCtx s x

/-- A link counts a packet that it discards (R323, R330). -/
def linkDrops (l : Nat) (s t : State) : Prop :=
  linkBecomes l { getLink s l with drop := satInc (getLink s l).drop 1, cause := (getLink s l).cause ||| 8 } [] s t

/-- A core has recorded a fault of a long instruction, if it is its first (R116). -/
def faultedWith (c : Nat) (f : Flight) (code detail : Nat) (s t : State) : Prop :=
  (getCore t c).faulting = true ∧ ((getCore s c).regs.faultInfo = 0 →
    (getCore t c).regs.faultInfo = BitVec.ofNat 18 (code + f.eng * 256 + f.tag * 4096 + 131072)
    ∧ (getCore t c).regs.faultDetail = BitVec.ofNat 32 detail ∧ (getCore t c).regs.faultPc = f.pc)

/-- The engine's record of a COLL changes by `f`, and nothing else does (R349). -/
def collBecomes (k : Coll) (f : Coll → Coll) (s t : State) : Prop :=
  t = { s with net := { s.net with colls := s.net.colls.map fun x => if x.core == k.core && x.tag == k.tag then f x else x } }

/-- The engine has one collective, whose other members are other devices. -/
def onlyColl (k : Coll) (s : State) : Prop :=
  s.net.colls = [k] ∧ ∀ m ∈ k.members.zipIdx, m.2 ≠ k.rank → m.1.1 ≠ s.net.devid

/-- No member's data are all in that is still to be told so (R355). -/
def noDoneDue (k : Coll) : Prop :=
  ∀ x ∈ senders k, x ∈ k.doneSent ∨ ¬ x ∈ k.readySent
    ∨ ∃ a ∈ k.expect, a.1 = x ∧ covered k a.1 a.2.1 a.2.2.1 a.2.2.2 = false

/-- A collective waits to send to a rank that is not ready. -/
def sendBlocked (k : Coll) (r : Nat) : Prop :=
  k.active = true ∧ ∃ dest ph buf lo hi at_ rest, k.steps = .send dest ph buf lo hi at_ :: rest ∧ dest ≠ r ∧ ¬ dest ∈ k.readys


/-! ### The comb -/

/-- A slice has no line in a miss register and no refused requester. -/
def quiet (s : State) (n : Nat) : Prop := (getSlice s n).miss = [] ∧ (getSlice s n).refusals = []

/-- The copies of a line in the L1 caches are gone, but for that of the agent `keep` (R233). -/
def l1Without (ln : Nat) (keep : Option Nat) (s t : State) : Prop :=
  ∀ c, getCore t c = if some c = keep then getCore s c else { getCore s c with l1 := (getCore s c).l1.filter fun e => e.1 != ln }

/-- One line of the comb is `l`, and every other is as before. -/
def lineBecomes (ln : Nat) (l : CombLine) (s t : State) : Prop := getLine t ln = some l ∧ ∀ x, x ≠ ln → getLine t x = getLine s x

/-- One slice's registers are `x`, and every other's are as before. -/
def sliceBecomes (n : Nat) (x : Slice) (s t : State) : Prop := getSlice t n = x ∧ ∀ m, m ≠ n → getSlice t m = getSlice s m

/-- Only lines of the comb, and answers, have changed. -/
def onlyLines (a : List Answer) (s t : State) : Prop := t = { s with answers := a, comb := { s.comb with lines := t.comb.lines } }

/-- Only slices of the comb, and answers, have changed. -/
def onlySlices (a : List Answer) (s t : State) : Prop := t = { s with answers := a, comb := { s.comb with slices := t.comb.slices } }

/-- A write at a home has put the bytes that its mask names into the line, dirty, kept the writer's record and copy and taken those of the
others, and left check bytes that fit (R232, R233, R238, R261). -/
def lineWritten (agent ln : Nat) (l : CombLine) (mask : BitVec 64) (d : Line) (a : List Answer) (s t : State) : Prop :=
  t = { s with answers := a, cores := t.cores, comb := { s.comb with lines := t.comb.lines } } ∧ l1Without ln (some agent) s t
    ∧ lineBecomes ln (mkLine l.way (maskLine l.data d mask)
        (if l.dir.st = .reduce then { st := .dirty } else keepSharer l.dir .dirty (some agent)) none) s t

/-- HBM answers a read of a line at a home on a die at the first try: no path is closed, no freeze, the stack is up, the line is good, and
nothing strikes the read. -/
def hbmAnswers (s : State) (die ln : Nat) : Prop :=
  hbmPathDown s die = false ∧ s.sec.freezing = false ∧ (getStack s (stackOf s ln)).selfRefresh = false ∧ ¬ ln ∈ s.hbm.bad
    ∧ s.hbm.strike ≠ some .once ∧ s.hbm.strike ≠ some .twice

/-- HBM answers a read of a line at a home on a die with an error: 0x0A on a closed path, 0x0D from a stack in self-refresh, 0x09 where the
line fails both reads (R298, R301, R385, R386). -/
def hbmFails (s : State) (die ln code : Nat) : Prop :=
  (hbmPathDown s die = true ∧ code = 0x0A) ∨
  (hbmPathDown s die = false ∧ s.sec.freezing = false ∧ (getStack s (stackOf s ln)).selfRefresh = true ∧ code = 0x0D) ∨
  (hbmPathDown s die = false ∧ s.sec.freezing = false ∧ (getStack s (stackOf s ln)).selfRefresh = false
    ∧ (ln ∈ s.hbm.bad ∨ s.hbm.strike = some .twice) ∧ code = 0x09)


/-! ### Waggle boxes -/

/-- An access to a box is performed: a requester of control space reaches its block, a host core none of M2R and R2M, and a region
controller the boxes of its own while it has power (R366). -/
def boxReached (by_ : Boxer) (i : Nat) (s : State) : Prop :=
  ∃ l r b, boxBlock s i = some (l, r, b) ∧ match by_ with
    | .via x => performed x false l r b s ∧ (isHost x = true → i < 2408)
    | .controller => 2408 ≤ i ∧ blockPowered s l r b = true ∧ frozen s = false

/-- The pending bits after the MSI of a box (R367): none while the box is polled, its MSI is off, or its identity is outside its file. -/
def msiSent (b : Box) (e : List (Nat × Bool)) : List (Nat × Bool) :=
  let v := b.msi.toNat
  let file := v / 2 ^ 30 % 2
  let id := v % 2 ^ 11
  if b.poll = false ∧ b.msi.getLsbD 31 = true ∧ 0 < id ∧ id ≤ (if file = 1 then 2047 else 255) then
    tblPut e (v / 2 ^ 26 % 16 * 4096 + file * 2048 + id) true else e

/-- One box becomes `b`, the command answers, the pending bits are `e`, and nothing else changes. -/
def boxBecomes (i : Nat) (b : Box) (e : List (Nat × Bool)) (a : List Answer) (s t : State) : Prop :=
  t = { s with answers := a, mbx := { s.mbx with boxes := t.mbx.boxes, eip := e } } ∧ getBox t i = b ∧ ∀ j, j ≠ i → getBox t j = getBox s j


/-! ### Resets -/

/-- A core that has been reset (R383, R444). -/
def emptied (k : Core) : Prop := k.st = .empty ∧ k.regs = {} ∧ k.flights = [] ∧ k.faulting = false ∧ k.resetting = false

/-- What a cold reset leaves (R382, R390, R399, R437, R453): no core, line, collective or message is left; the NVM, the OTP, the feeds and
the thermal record are kept; RST_CAUSE holds the requester and the cause; the one event of the log names the reset. -/
def coldAfter (requester cause : Nat) (s t : State) : Prop :=
  t.pending = s.pending ∧ (∀ c, emptied (getCore t c)) ∧ t.comb.lines = [] ∧ t.net.colls = [] ∧ t.mbx = {} ∧ t.reg = {}
    ∧ t.rst = { cause := BitVec.ofNat 14 (requester * 4096 + cause), cold := sat16 s.rst.cold, warm := s.rst.warm }
    ∧ t.boot.ready = false ∧ t.boot.step = 0 ∧ t.boot.everReady = false ∧ t.boot.hostHeld = true ∧ t.boot.learnedNvm = s.boot.learnedNvm
    ∧ t.boot.cfgA = s.boot.cfgA ∧ t.boot.cfgB = s.boot.cfgB
    ∧ t.sec.otp = s.sec.otp ∧ t.sec.slotA = s.sec.slotA ∧ t.sec.slotB = s.sec.slotB ∧ t.sec.meas = []
    ∧ t.sec.level = (if lifecycle s = 0 then 2 else 0) ∧ t.mgt.nvm = s.mgt.nvm ∧ t.mgt.stepInt = 0
    ∧ (∃ e, t.mgt.ring = [e] ∧ e.code = 0x10C ∧ e.detail = BitVec.ofNat 80 (cause * 2 ^ 32 + requester * 2 ^ 40))
    ∧ t.thm.held = s.thm.held ∧ t.thm.shutdowns = s.thm.shutdowns ∧ t.thm.wearSaved = s.thm.wearSaved ∧ t.pwr.feeds = s.pwr.feeds
    ∧ t.pwr.st = if s.thm.held = true then .thermalOff else .emptyStandby

/-- What a warm reset leaves (R382): cores and comb lose what they hold; HBM keeps its contents in self-refresh, and the always-on domain its
registers and the privileged boxes of its block (R371). -/
def warmAfter (requester cause : Nat) (s t : State) : Prop :=
  t.pending = s.pending ∧ (∀ c, emptied (getCore t c)) ∧ t.comb.lines = [] ∧ t.net.colls = []
    ∧ t.mbx = { boxes := s.mbx.boxes.filter fun e => 2400 ≤ e.1 && e.1 < 2408 } ∧ t.reg = {}
    ∧ t.hbm.mem = s.hbm.mem ∧ t.hbm.bad = s.hbm.bad ∧ (∀ i, i < 12 → (getStack t i).selfRefresh = true)
    ∧ t.rst = { cause := BitVec.ofNat 14 (requester * 4096 + 256 + cause), cold := s.rst.cold, warm := sat16 s.rst.warm }
    ∧ t.boot.ready = false ∧ t.boot.step = 0 ∧ t.boot.hostHeld = true ∧ t.sec.otp = s.sec.otp ∧ t.sec.meas = []
    ∧ t.sec.level = (if lifecycle s = 0 then 2 else 0) ∧ t.mgt.nvm = s.mgt.nvm ∧ t.mgt.stepInt = s.mgt.stepInt ∧ t.thm = s.thm
    ∧ t.pwr.st = .standby ∧ t.pwr.feeds = s.pwr.feeds ∧ t.net.bypOpen = s.net.bypOpen ∧ t.net.bypHold = s.net.bypHold

/-- A reset that was performed has been logged, with its requester (R522). -/
def reported (detail : Nat) (t : State) : Prop :=
  ∃ e, t.mgt.ring.head? = some e ∧ e.code = 0x10C ∧ e.detail = BitVec.ofNat 80 detail

/-- A reset request that is ignored (R384, R500): only the event and CHIP_CAUSE.reset. -/
def resetRefused (s t : State) : Prop :=
  t = { s with answers := [.done], mgt := t.mgt } ∧ t.mgt.cause.getLsbD 2 = true
    ∧ ∃ e, t.mgt.ring.head? = some e ∧ e.code = 0x10C


/-! ### The management processor -/

/-- A request has been taken from its sender: a device's frame leaves the inbox, and the answers of the command before are gone (R325, R484). -/
def mpTaken (src : FrameSrc) (s : State) : State := takeInbox src { s with answers := [] }

/-- MP acts on a request: no other is being put together (R484). -/
def mpTurn (src : FrameSrc) (s : State) : State :=
  { mpTaken src s with frames := { (mpTaken src s).frames with asm := none } }

/-- MP is free for a request: it runs and hears the source, and is not putting another together (R484). -/
def mpFree (src : FrameSrc) (id : Word32) (s : State) : Prop := mpHears src s = true ∧ ∀ a, s.frames.asm = some a → a.id = id

/-- MP's state once a nonce has been used (R485). -/
def nonceSpent (n : BitVec 256) (s : State) : State :=
  { s with frames := { s.frames with nonces := s.frames.nonces.filter fun e => Config.freeBits256 e.1 != n } }

/-- A nonce is one of those issued in the last 60 s (R485). -/
def nonceFresh (n : BitVec 256) (s : State) : Prop :=
  ∃ e ∈ s.frames.nonces, Config.freeBits256 e.1 = n ∧ s.mgt.time ≤ e.2 + 60000 * 450000

/-- A signed command has been carried out: the request is answered with status 0 and no payload. -/
def mpDone (q : Signed) (code : Nat) (u t : State) : Prop := t = respond q.src code q.id 0 [] u


/-! ### Invariants of the whole -/

/-- A core's memories are in their canonical form. -/
def coreCanonical (k : Core) : Prop :=
  memWf k.bankA = true ∧ memWf k.bankB = true ∧ memWf k.tile = true ∧ memWf k.descMem = true

/-- Every byte memory is in its canonical form: HBM, the firmware slots, and each core's. -/
def MemoriesCanonical (s : State) : Prop :=
  memWf s.hbm.mem = true ∧ memWf s.sec.slotA = true ∧ memWf s.sec.slotB = true ∧ ∀ e ∈ s.cores, coreCanonical e.2

/-- OTP has kept every bit that was programmed, and what manufacture wrote (R453, R460). -/
def otpKept (o o' : Otp) : Prop :=
  o.lifecycle &&& o'.lifecycle = o.lifecycle ∧ o.policy &&& o'.policy = o.policy ∧ o.ownerHash &&& o'.ownerHash = o.ownerHash
    ∧ (o.enrolled = true → o'.enrolled = true) ∧ (o.purgeDone = true → o'.purgeDone = true)
    ∧ (∃ a, o'.arb0 = o.arb0 ++ a) ∧ (∃ a, o'.arb1 = o.arb1 ++ a)
    ∧ o'.rootHash = o.rootHash ∧ o'.serial = o.serial ∧ o'.uds = o.uds


/-! ### Thread groups -/

/-- A group is about to issue a thread word: it stands at the word, and no DRAIN that it would have to wait for is pending. -/
def threadReady (s : State) (c : CoreNo) (g : GroupNo) (opc : Nat) (w : ThreadWord) : Prop :=
  atThreadWord s c.val g.val (threadBits opc w) = true ∧ drainWait (getCore s c.val) g.val opc w = false

/-- What a thread word leaves of its core: the other groups, and all but the status registers, the issue count, and what the next
fetch records; the group goes on at a word, and an undefined encoding there faults with 0x32 (R163). -/
def groupMoves (c g w : Nat) (s t : State) : Prop :=
  let k := getCore s c
  let k' := getCore t c
  (∀ d, d ≠ c → getCore t d = getCore s d) ∧ (∀ h, h ≠ g → getGroup k' h = getGroup k h)
    ∧ (getGroup k' g).pc = w % 4096 ∧ (getGroup k' g).wait = .none
    ∧ k' = { k with tg := k'.tg, regs := k'.regs, faulting := k'.faulting, stall := k'.stall, flights := k'.flights }
    ∧ k'.tg = { k.tg with groups := k'.tg.groups, issued := satInc k.tg.issued 1, fault := k'.tg.fault }
    ∧ k'.faulting = ((getGroup k g).alive && threadUndefined (threadWordAt k w))
    ∧ (threadUndefined (threadWordAt k w) = false → k'.stall = k.stall ∧ k'.flights = k.flights ∧ k'.tg.fault = k.tg.fault)

/-- A lane executes a lane word: it is active and the word's predicate admits it (R160). -/
def executes (gr : Group) (w : ThreadWord) (t : Nat) : Bool := (execLanes gr w).getLsbD t

/-- A lane word has written `val` into its destination in every executing lane, and nothing else of its group but the place. -/
def laneResult (c g : Nat) (w : ThreadWord) (val : Group → Nat → Word32) (s t : State) : Prop :=
  let gr := getGroup (getCore s c) g
  let gr' := getGroup (getCore t c) g
  groupMoves c g (gr.pc + 1) s t ∧ gr' = { gr with v := gr'.v, pc := gr'.pc, wait := .none, part := [] }
    ∧ ∀ r i, i < 32 → vGet gr' r i = if executes gr w i = true ∧ r = w.dst.toNat then val gr i else vGet gr r i

/-- The seed of a core's draws (R83). -/
def seedOf (k : Core) : Nat := k.regs.seedLo.toNat + k.regs.seedHi.toNat * 2 ^ 32

/-- The words that write one register in each executing lane and raise no status: constructor, opcode, and the result in a lane
(R162, R184, R185). -/
def laneWords : List ((CoreNo → GroupNo → ThreadWord → Instr) × Nat × (Core → ThreadWord → Group → Nat → Word32)) :=
  let two (f : Word32 → Word32 → Word32) : Core → ThreadWord → Group → Nat → Word32 :=
    fun _ w gr t => f (opA gr w t) (opB false gr w t)
  [(.iadd, 0x01, two fun a b => a + b), (.isub, 0x02, two fun a b => a - b), (.imul, 0x03, two fun a b => a * b),
   (.imad, 0x04, fun _ w gr t => opA gr w t * opB false gr w t + vGet gr w.c.toNat t),
   (.imin, 0x05, two fun a b => if a.toInt ≤ b.toInt then a else b), (.imax, 0x06, two fun a b => if b.toInt ≤ a.toInt then a else b),
   (.umin, 0x07, two fun a b => if a.toNat ≤ b.toNat then a else b), (.umax, 0x08, two fun a b => if b.toNat ≤ a.toNat then a else b),
   (.andT, 0x09, two fun a b => a &&& b), (.orT, 0x0A, two fun a b => a ||| b), (.xorT, 0x0B, two fun a b => a ^^^ b),
   (.shl, 0x0C, two fun a b => BitVec.ofNat 32 (a.toNat * 2 ^ (b.toNat % 32))),
   (.shr, 0x0D, two fun a b => BitVec.ofNat 32 (a.toNat / 2 ^ (b.toNat % 32))),
   (.sra, 0x0E, two fun a b => BitVec.ofInt 32 (a.toInt / 2 ^ (b.toNat % 32))),
   (.mov, 0x0F, fun _ w gr t => if w.m.getLsbD 27 then opB false gr w t else opA gr w t),
   (.sel, 0x10, fun _ w gr t => if (pGet gr (mBits w 21 19)).getLsbD t then opA gr w t else opB false gr w t),
   (.rngU32, 0x34, fun k w gr t => BitVec.ofNat 32 (drawBits 32 (seedOf k) (uGet gr (mBits w 27 24)).toNat (uGet gr (mBits w 23 20)).toNat
     (vPair gr w.a.toNat t))),
   (.bmask, 0x35, fun k w gr t => BitVec.ofNat 32 (bernoulliMask (seedOf k) (uGet gr (mBits w 27 24)).toNat
     (uGet gr (mBits w 23 20)).toNat (vPair gr w.a.toNat t) (mBits w 15 0))),
   (.shfl, 0x38, fun _ w gr t =>
     let b := (opB false gr w t).toNat
     let from_ : Nat := match mBits w 21 19 with
       | 0 => b % 32 | 1 => if b ≤ t then t - b else t | 2 => if t + b < 32 then t + b else t | _ => t ^^^ (b % 32)
     opA gr w from_),
   (.vote, 0x39, fun _ w gr _ =>
     let m := pGet gr (w.a.toNat % 8) &&& gr.act
     match mBits w 21 19 with
       | 0 => if m = 0 then 0 else 1 | 1 => if m = gr.act then 1 else 0 | _ => m)]

/-- The FP words of one result in each executing lane: constructor, opcode, and the operation under the rounding mode and the flush
modes (R49, R60, R162). -/
def fpWords : List ((CoreNo → GroupNo → ThreadWord → Instr) × Nat × (RM → Bool → Bool → Nat → Nat → Nat → FOut)) :=
  [(.fadd, 0x20, fun rm fi fo a b _ => fpAdd rm fi fo false a b), (.fsub, 0x21, fun rm fi fo a b _ => fpAdd rm fi fo true a b),
   (.fmul, 0x22, fun rm fi fo a b _ => fpMul rm fi fo a b), (.ffma, 0x23, fun rm fi fo a b x => fpFma rm fi fo a b x),
   (.fmin, 0x24, fun _ fi fo a b _ => fpMinMax false fi fo a b), (.fmax, 0x25, fun _ fi fo a b _ => fpMinMax true fi fo a b),
   (.fabs, 0x26, fun _ fi fo a _ _ => fpAbs fi fo a), (.fdiv, 0x28, fun rm fi fo a b _ => fpDiv rm fi fo a b),
   (.fsqrt, 0x29, fun rm fi fo a _ _ => fpSqrt rm fi fo a), (.frcp, 0x2A, fun _ fi fo a _ _ => fpRcp fi fo a),
   (.frsq, 0x2B, fun _ fi fo a _ _ => fpRsq fi fo a), (.fex2, 0x2C, fun _ fi fo a _ _ => fpEx2 fi fo a),
   (.flg2, 0x2D, fun _ fi fo a _ _ => fpLg2 fi fo a)]

/-- The outcomes of a word in its executing lanes, in ascending order. -/
def outcomes (gr : Group) (w : ThreadWord) (val : Group → Nat → FOut) : List FOut := (lanesIn (execLanes gr w)).map (val gr)

/-- A lane word has written the bits of `val`, set the status bits that its lanes raised in CORE_FPSTAT, and counted the lanes of
the census in CORE_OVF_COUNT and in the census of the core's id (R49, R62). -/
def laneResultF (c g : Nat) (w : ThreadWord) (val : Group → Nat → FOut) (s t : State) : Prop :=
  let k := getCore s c
  let k' := getCore t c
  let gr := getGroup k g
  let n := ((outcomes gr w val).filter fun o => o.counted).length
  let id := fpCensus k.regs.fpctl
  laneResult c g w (fun gr i => BitVec.ofNat 32 (val gr i).bits) s t
    ∧ k'.regs.fpstat = k.regs.fpstat ||| (outcomes gr w val).foldl (fun x o => x ||| o.flags) 0
    ∧ k'.regs.ovfCount = satInc k.regs.ovfCount n
    ∧ (∀ x, tblGet 0 t.mgt.census x = if x = id then satInc (tblGet 0 s.mgt.census x) n else tblGet 0 s.mgt.census x)
    ∧ t = { s with cores := t.cores, mgt := { s.mgt with census := t.mgt.census } }

/-- A comparison has set its predicate in every executing lane; p0 keeps reading 1 (R155, R162). -/
def predResult (c g : Nat) (w : ThreadWord) (val : Group → Nat → Bool) (s t : State) : Prop :=
  let gr := getGroup (getCore s c) g
  let gr' := getGroup (getCore t c) g
  groupMoves c g (gr.pc + 1) s t ∧ gr' = { gr with p := gr'.p, pc := gr'.pc, wait := .none, part := [] }
    ∧ (∀ r i, i < 32 → (pGet gr' r).getLsbD i =
        if executes gr w i = true ∧ r = w.dst.toNat ∧ r ≠ 0 then val gr i else (pGet gr r).getLsbD i)
    ∧ t = { s with cores := t.cores }

/-- A group has gone on at a word with its own state `gr'`, and nothing else has changed but what groupMoves admits. -/
def groupResult (c g pc : Nat) (gr' : Group) (s t : State) : Prop :=
  groupMoves c g pc s t ∧ t = { s with cores := t.cores } ∧ getGroup (getCore t c) g = { gr' with pc := pc % 4096, wait := .none, part := [] }

/-- A kernel access faults the core (R116, R122, R163, R171): engine 3, the LAUNCH's tag and offset, and the first place of the
fault in CORE_TG_FAULT; the LAUNCH keeps its tag and sends no pulse. -/
def groupFaults (c g code lane detail : Nat) (s t : State) : Prop :=
  let k := getCore s c
  let k' := getCore t c
  onlyCore c s t ∧ k'.faulting = true ∧ k'.tg.groups = k.tg.groups
    ∧ (k.tg.fault.getLsbD 22 = false → k.regs.faultInfo = 0 → k'.tg.fault =
        BitVec.ofNat 23 (2 ^ 22 + lane * 2 ^ 17 + g * 2 ^ 13 + (if k.active then 2 ^ 12 else 0) + (getGroup k g).pc % 4096))
    ∧ ∀ f, launchOf k g = some f → k.regs.faultInfo = 0 →
        k'.regs.faultInfo = BitVec.ofNat 18 (code + 3 * 256 + f.tag * 4096 + 131072) ∧ k'.regs.faultPc = f.pc
        ∧ k'.regs.faultDetail = BitVec.ofNat 32 detail ∧ ∀ x ∈ k'.flights, x.tag = f.tag → x.ph = .faulted

/-- The register word `j` that a value of `n` bytes puts into a block (R172): a narrow value is zero- or sign-extended. -/
def blockWord (sext : Bool) (n v j : Nat) : Word32 :=
  if n < 4 ∧ sext = true then BitVec.ofInt 32 (toSigned (8 * n) v) else BitVec.ofNat 32 (v / 2 ^ (32 * j))

/-- The registers of a group after a load: in each executing lane the block at `dst` holds that lane's value. -/
def loadsBlocks (w : ThreadWord) (sext : Bool) (val : Nat → Nat) (gr gr' : Group) : Prop :=
  let n := widthBytes w
  ∀ r i, i < 32 → vGet gr' r i =
    if executes gr w i = true ∧ w.dst.toNat ≤ r ∧ r < w.dst.toNat + (n + 3) / 4 then blockWord sext n (val i) (r - w.dst.toNat)
    else vGet gr r i

/-- The bytes that the lanes of a store leave: the highest executing lane that covers a byte gives it, and a byte that no lane
covers is as before (R172). `old` and `new` read a byte. -/
def lanesStored (gr : Group) (w : ThreadWord) (addr : Nat → Nat) (old new : Nat → Byte) : Prop :=
  let n := widthBytes w
  (∀ x, (∀ i, i < 32 → executes gr w i = true → x < addr i ∨ addr i + n ≤ x) → new x = old x) ∧
  (∀ i o, i < 32 → executes gr w i = true → o < n →
    (∀ j, i < j → j < 32 → executes gr w j = true → addr i + o < addr j ∨ addr j + n ≤ addr i + o) →
    new (addr i + o) = BitVec.ofNat 8 (blockVal gr w.b.toNat n i / 256 ^ o))

/-- The line as its home or HBM holds it: a valid line of the comb, else the line of HBM, else zero (R221, R240). -/
def lineAt (s : State) (ln : Nat) : Line :=
  match getLine s ln with
  | some l => l.data
  | none => if inHbm (64 * ln) then hbmLine s ln else 0

/-- A byte of the device's memory. -/
def byteAt (s : State) (a : Nat) : Byte := lineByte (lineAt s (a / 64)) (a % 64)

/-- Memory holds the `n` bytes of `v` at `a`, the least significant first, and every other byte as before. -/
def stored (a n v : Nat) (s t : State) : Prop :=
  (∀ i, i < n → byteAt t (a + i) = BitVec.ofNat 8 (v / 256 ^ i)) ∧ ∀ x, (x < a ∨ a + n ≤ x) → byteAt t x = byteAt s x

/-- Nothing waits at a slice, and no access has been abandoned: the slice has no miss register open and remembers no refusal. -/
def quietAt (s : State) (n : Nat) : Prop := (getSlice s n).miss = [] ∧ (getSlice s n).refusals = [] ∧ s.comb.abandoned = []

/-- A line stands at a cache home at which nothing waits: `l` is valid there, no host core owns it or has a copy, and its parity is
good. -/
def atHome (s : State) (ln n : Nat) (l : CombLine) : Prop :=
  homeOf s ln = .cache n ∧ quietAt s n ∧ getLine s ln = some l ∧ l.dir.st ≠ .hostown ∧ checkLine l = .good ∧
    hostAckers l.dir none = []

/-- The table of BC's conditions (R96): equal, not equal, signed below, signed at least, unsigned below, unsigned at least. -/
def condHolds {n : Nat} (cond : BitVec 3) (a b : BitVec n) : Bool :=
  match cond.toNat with
  | 0 => decide (a = b)
  | 1 => decide (a ≠ b)
  | 2 => decide (a.toInt < b.toInt)
  | 3 => decide (b.toInt ≤ a.toInt)
  | 4 => decide (a.toNat < b.toNat)
  | _ => decide (b.toNat ≤ a.toNat)

end Sys2Proof.Machine
end

