-- ==== Sys2Proof/Certificates/Slice0/Obligations.lean ====
section
/-! DEFINITION. The statements for the provers. -/
open Sys2Proof Sys2Proof.Machine

/-- A step takes the command at the front of the queue and runs it with the queue's rest. With an empty queue it is a cycle of the
management clock (the model's choice, log 2; R377, R487): the timestamp counts, and nothing else changes unless something waits. -/
def Obligations.StepRunsTheFrontCommand : Prop :=
  ∀ (s : State) (c : Instr) (rest : List Instr),
    (s.pending = c :: rest → step s = exec c { s with pending := rest }) ∧
    (s.pending = [] → anyWaits s = false → s.mbx.owed = [] → s.swarm.waits = false → (∀ e ∈ s.pwr.fps, e.2.pend = []) →
      let m := s.mgt
      step s = .next { s with mgt :=
        if s.clk.datum = true then { m with time := (m.time + 1) % 2 ^ 64 }
        else if m.rcPhase = 3 then { m with time := (m.time + 9) % 2 ^ 64, rcPhase := 0 }
        else { m with rcPhase := m.rcPhase + 1 } })

/-- R96, R97: ADDK writes ka + b and SUBK ka - b, modulo 2^64, where b is kb or the immediate; k0 reads zero and discards a write. Only this
core changes, and of it kd, the offset, and what the next fetch records. B and a taken BC go to their own offset plus 16 times the signed
word count; BC compares ka with kb or a sign-extended value; LOOP leaves by its offset when kd is zero and otherwise counts kd down and goes
on. No register changes but LOOP's counter. It rests on the model's choices of logs 8, 25, 49. -/
def Obligations.ScalarWordsComputeAndBranch : Prop :=
  (∀ (c : CoreNo) (kd ka kb : BitVec 5) (useImm : Bool) (imm : Word64) (s : State),
     let k := getCore s c.val
     let b := if useImm then imm else kGet k kb
     (standsAt s c.val (shortBits 0x01 0 { flag := useImm, kd, ka, kb, imm }) →
       Completes (.addk c kd ka kb useImm imm) s fun t => advances c.val s t ∧ onlyK kd (kGet k ka + b) k (getCore t c.val)) ∧
     (standsAt s c.val (shortBits 0x02 0 { flag := useImm, kd, ka, kb, imm }) →
       Completes (.subk c kd ka kb useImm imm) s fun t => advances c.val s t ∧ onlyK kd (kGet k ka - b) k (getCore t c.val))) ∧
  (∀ (c : CoreNo) (kd ka kb : BitVec 5) (cond : BitVec 3) (useImm : Bool) (cmp : BitVec 48) (off : BitVec 16) (s : State),
     let k := getCore s c.val
     let target : BitVec 15 := k.pc + BitVec.ofInt 15 (16 * off.toInt)
     let a := kGet k ka
     let b := if useImm then cmp.signExtend 64 else kGet k kb
     (standsAt s c.val (shortBits 0x05 0 { imm := off.zeroExtend 64 }) →
       Completes (.b c off) s fun t => goesTo c.val target s t ∧ onlyK 0 0 k (getCore t c.val)) ∧
     (cond.toNat ≤ 5 → standsAt s c.val (shortBits 0x06 0 { flag := useImm, ka, kb, cond, imm := cmp ++ off }) →
       Completes (.bc c ka kb cond useImm cmp off) s fun t =>
         goesTo c.val (if condHolds cond a b then target else k.pc + 16) s t ∧ onlyK 0 0 k (getCore t c.val)) ∧
     (standsAt s c.val (shortBits 0x07 0 { kd, imm := off.zeroExtend 64 }) →
       Completes (.loop c kd off) s fun t =>
         if kGet k kd = 0 then goesTo c.val target s t ∧ onlyK 0 0 k (getCore t c.val)
         else advances c.val s t ∧ onlyK kd (kGet k kd - 1) k (getCore t c.val)))

/-- R98, R112, R249: LDK checks alignment, the region and its permission, and the dead ranges, in this order, and loads eight bytes, the
least significant first, through the L1 into kd; a failed check faults the core and writes no register. While the LDK of a register is out,
a word of the stream that reads the register stalls and changes nothing else; once it has returned, the word issues. STK stores the eight
bytes of kb, the least significant first, at the region's address, after the checks of LDK with write permission, and removes the dead
ranges it meets; no other byte of memory and no scalar register changes. It rests on the model's choices of log 8. -/
def Obligations.ScalarMemoryWordsCheckThenAccess : Prop :=
  (∀ (c : CoreNo) (kd ka : BitVec 5) (region : BitVec 6) (imm : Word64) (s : State),
     let k := getCore s c.val
     let off := (kGet k ka + imm).toNat
     let a := regionAddr k region.toNat off
     standsAt s c.val (shortBits 0x03 0 { kd, ka, region, imm }) →
       (off % 8 ≠ 0 → Completes (.ldk c kd ka region imm) s fun t => faults c.val 0x22 0 none (pcWord k) 0 s t) ∧
       (∀ code, off % 8 = 0 → regionCheck k region.toNat permR off 8 = some code →
         Completes (.ldk c kd ka region imm) s fun t => faults c.val code 0 none (pcWord k) region.toNat s t) ∧
       (off % 8 = 0 → regionCheck k region.toNat permR off 8 = none → deadHit k.dead a 8 = true →
         Completes (.ldk c kd ka region imm) s fun t => faults c.val 0x03 0 none (pcWord k) 0 s t) ∧
       (off % 8 = 0 → regionCheck k region.toNat permR off 8 = none → deadHit k.dead a 8 = false →
         (∀ d, a % 64 ≤ 56 → l1Find k (a / 64) = some d → Completes (.ldk c kd ka region imm) s fun t =>
           onlyCore c.val s t ∧ (getCore t c.val).pc = k.pc + 16
           ∧ onlyK kd (BitVec.ofNat 64 (getLineBytes d (a % 64) 8)) k (getCore t c.val)) ∧
         let x : ScalarAcc := { pc := pcWord k, kd := some kd, region := region.toNat, addr := a, cls := rgClass (regionOf k region.toNat)
                                value := 0 }
         let u := modCore s c.val fun k => { k with scalarq := [x] }
         (∀ s1 v, scalarTry c.val x u = (s1, .ok v) → Completes (.ldk c kd ka region imm) s fun t =>
           t = nextWord c.val (modCore s1 c.val fun k => kSet { k with scalarq := k.scalarq.tail } kd (BitVec.ofNat 64 v))) ∧
         (∀ s1 e, scalarTry c.val x u = (s1, .err e) → Completes (.ldk c kd ka region imm) s fun t =>
           t = coreFault c.val e 0 none (pcWord k) (checkDetail e region.toNat)
             (modCore s1 c.val fun k => { k with scalarq := k.scalarq.tail })) ∧
         (∀ s1, scalarTry c.val x u = (s1, .wait) → Completes (.ldk c kd ka region imm) s fun t => t = nextWord c.val s1))) ∧
  (∀ (c : CoreNo) (kd ka kb : BitVec 5) (useImm : Bool) (imm : Word64) (region : BitVec 6) (cond : BitVec 3) (cmp : BitVec 48)
     (off : BitVec 16) (s : State),
     let k := getCore s c.val
     ∀ e ∈ ([(.addk c kd ka kb useImm imm, shortBits 0x01 0 { flag := useImm, kd, ka, kb, imm }),
         (.subk c kd ka kb useImm imm, shortBits 0x02 0 { flag := useImm, kd, ka, kb, imm }),
         (.ldk c kd ka region imm, shortBits 0x03 0 { kd, ka, region, imm }),
         (.stk c ka kb region imm, shortBits 0x04 0 { ka, kb, region, imm }),
         (.bc c ka kb cond useImm cmp off, shortBits 0x06 0 { flag := useImm, ka, kb, cond, imm := cmp ++ off }),
         (.loop c kd off, shortBits 0x07 0 { kd, imm := off.zeroExtend 64 })] : List (Instr × BitVec 128)),
       ∀ (x : ScalarAcc) (r : BitVec 5) (v : Nat), k.scalarq = [x] → x.kd = some r → r ≠ 0 → r.toNat ∈ kReads e.2 →
         (atWord s c.val e.2 = true → scalarTry c.val x s = (s, .wait) → Completes e.1 s fun t =>
           onlyCore c.val s t ∧ getCore t c.val = { k with stall := .ldk }) ∧
         (frozen s = false → streamRuns k = true → k.stall = .ldk → scalarTry c.val x s = (s, .ok v) →
           Completes (.scoreboardIssue c) s fun t => onlyCore c.val s t ∧ (getCore t c.val).stall = .none ∧
             kGet (getCore t c.val) r = BitVec.ofNat 64 v ∧ ∀ q, q ≠ r → kGet (getCore t c.val) q = kGet k q)) ∧
  (∀ (c : CoreNo) (ka kb : BitVec 5) (region : BitVec 6) (imm : Word64) (s : State),
     let k := getCore s c.val
     let off := (kGet k ka + imm).toNat
     let a := regionAddr k region.toNat off
     standsAt s c.val (shortBits 0x04 0 { ka, kb, region, imm }) →
       (off % 8 ≠ 0 → Completes (.stk c ka kb region imm) s fun t => faults c.val 0x22 0 none (pcWord k) 0 s t) ∧
       (∀ code, off % 8 = 0 → regionCheck k region.toNat permW off 8 = some code →
         Completes (.stk c ka kb region imm) s fun t => faults c.val code 0 none (pcWord k) region.toNat s t) ∧
       (off % 8 = 0 → regionCheck k region.toNat permW off 8 = none → (∀ ln ∈ spanLines a 8, ∃ n l, atHome s ln n l) →
         Completes (.stk c ka kb region imm) s fun t =>
           stored a 8 (kGet k kb).toNat s t ∧ onlyK 0 0 k (getCore t c.val) ∧ (getCore t c.val).pc = k.pc + 16
           ∧ (getCore t c.val).dead = deadRemove k.dead a 8
           ∧ t = { s with cores := t.cores, comb := { s.comb with lines := t.comb.lines } }))

/-- R99 to R102, R109: WAITC goes on once the wrap-safe difference of counter and threshold is below 2^31 and stalls before; SIGC sends its
increment, a release one of other than zero once no long instruction and no copy is in flight and no STK is out; FENCE goes on once no tag
of its mask is in flight; SWITCH asks for a swap of the banks; TRAP faults with 0x21; HALT stops issue behind it. It rests on the model's
choices of logs 8, 24. -/
def Obligations.SynchronisationWordsWaitAndSend : Prop :=
  ∀ (c : CoreNo) (ctr : BitVec 4) (ka : BitVec 5) (imm mask : Word32) (release mem : Bool) (target : BitVec 11) (inc code : BitVec 16)
    (entry : BitVec 15) (s : State),
    let k := getCore s c.val
    let thr : Word32 := (kGet k ka).truncate 32 + imm
    let idle := k.flights.isEmpty && k.tg.copies.isEmpty
    (standsAt s c.val (waitcBits ctr ka imm) → Completes (.waitc c ctr ka imm) s fun t =>
      if (ctrOf k ctr.toNat - thr).toNat < 2 ^ 31 then advances c.val s t ∧ onlyK 0 0 k (getCore t c.val)
      else onlyCore c.val s t ∧ getCore t c.val = { k with stall := .waitc ctr.toNat thr }) ∧
    (standsAt s c.val (sigcBits release target ctr inc) → Completes (.sigc c release target ctr inc) s fun t =>
      if release ∧ inc ≠ 0 ∧ idle = false then
        onlyCore c.val s t ∧ getCore t c.val = { k with stall := .sigc target.toNat ctr.toNat inc.toNat }
      else sends c.val target.toNat ctr.toNat inc.toNat s t) ∧
    (∀ tg n i, frozen s = false → streamRuns k = true → k.stall = .sigc tg n i → idle = true → k.scalarq = [] →
      Completes (.sigcReleaseSend c) s fun t => sends c.val tg n i s t) ∧
    (standsAt s c.val (shortBits 0x71 7 { flag := mem, imm := mask.zeroExtend 64 }) → Completes (.fence c mem mask) s fun t =>
      if ∃ f ∈ k.flights, mask.getLsbD f.tag = true then onlyCore c.val s t ∧ getCore t c.val = { k with stall := .fence mask mem }
      else advances c.val s t ∧ onlyK 0 0 k (getCore t c.val)) ∧
    (standsAt s c.val (shortBits 0x70 7 { imm := entry.zeroExtend 64 }) → Completes (.switch c entry) s fun t =>
      onlyCore c.val s t ∧ getCore t c.val = { k with stall := .switch entry.toNat }) ∧
    (standsAt s c.val (shortBits 0x72 7 { imm := code.zeroExtend 64 }) → Completes (.trap c code) s fun t =>
      faults c.val 0x21 7 none (pcWord k) code.toNat s t) ∧
    (standsAt s c.val (shortBits 0x73 7 {}) → Completes (.halt c) s fun t =>
      onlyCore c.val s t ∧ getCore t c.val = { k with stall := .halt, pc := k.pc + 16 })

/-- R101, R104, R109, R443: a requested SWITCH takes effect once no kernel runs, no MOVE writes the standby bank and no scalar access is
out: the banks swap and the stream goes on at the entry; an invalid standby bank faults the core with 0x24 and swaps nothing. An increment
that arrives is added to its counter, modulo 2^32; one that names a generation that its target has left is dropped, sets a cause bit at its
sender and is counted by the region controller of its target. The pulse of a DMA move, an array or comb instruction or a kernel that has
done its work frees its tag; a FENCE that waited for no other tag goes on. It rests on the model's choices of logs 24, 49. -/
def Obligations.PulsesIncrementsAndSwitches : Prop :=
  (∀ (c : CoreNo) (e : Nat) (s : State),
     let k := getCore s c.val
     frozen s = false → streamRuns k = true → k.stall = .switch e → groupsBusy k = false → writesBank k (!k.active) = false →
       k.scalarq = [] →
       (standbyValid k = true → Completes (.switchTakesEffect c) s fun t =>
         goesTo c.val (BitVec.ofNat 15 e) (modCore s c.val fun k => { k with active := !k.active }) t) ∧
       (standbyValid k = false → Completes (.switchTakesEffect c) s fun t => faults c.val 0x24 7 none (pcWord k) 0 s t)) ∧
  (∀ (i : Nat) (x : SigFlight) (s : State), s.sigs[i]? = some x → frozen s = false → coreEnd s x.target = false →
     ((∀ g, x.gen = some g → g = coreGen s x.target) → Completes (.sigcArrival i) s fun t =>
       (∀ n, ctrOf (getCore t x.target) n =
         if n = x.counter then ctrOf (getCore s x.target) n + BitVec.ofNat 32 x.inc else ctrOf (getCore s x.target) n) ∧
       onlyCore x.target { s with sigs := s.sigs.eraseIdx i } t) ∧
     (∀ g k, x.gen = some g → g ≠ coreGen s x.target → siteOf s x.target = some k → Completes (.sigcArrival i) s fun t =>
       (∀ d n, ctrOf (getCore t d) n = ctrOf (getCore s d) n) ∧
       (getCore t x.sender).regs = { (getCore s x.sender).regs with cause := (getCore s x.sender).regs.cause ||| 0x10 } ∧
       getRgn t (k / 54) = { getRgn s (k / 54) with genDropSet := true, genDrop := satInc (getRgn s (k / 54)).genDrop 1 } ∧
       t = { s with sigs := s.sigs.eraseIdx i, cores := t.cores, rgn := t.rgn })) ∧
  (∀ (c : CoreNo) (tag : BitVec 5) (f : Flight) (s : State),
     let k := getCore s c.val
     frozen s = false → k.resetting = false → k.flights = [f] → f.tag = tag.toNat → f.ph = .done → f.eng ≠ 5 → (∀ p, f.aux ≠ .upd p) →
       ((∀ m mem, k.stall ≠ .fence m mem) → Completes (.eventPulse c tag) s fun t =>
         onlyCore c.val s t ∧ getCore t c.val = { k with flights := [] }) ∧
       (∀ m mem, k.stall = .fence m mem → (mem = true → k.scalarq = []) → streamRuns k = true → Completes (.eventPulse c tag) s fun t =>
         onlyCore c.val s t ∧ (getCore t c.val).flights = [] ∧ (getCore t c.val).pc = k.pc + 16))

/-- R103 to R105, R107: a long instruction whose descriptor has its type, whose tag, pages and queue are free, issues with what it captures;
then the comb port or the array takes its head up. A busy tag, a hazard or a full queue stalls the stream, and a descriptor of another type
faults with 0x0E, and a DRAIN without a receiver with its own fault. A long instruction at which the stream is stalled issues, unchanged,
once its hazard, its tag or its queue is free. It rests on the model's choices of logs 8, 26, 49. -/
def Obligations.LongInstructionsIssue : Prop :=
  (∀ (c : CoreNo) (w : LongWord) (u : Option AccUpset) (s : State) (e : Instr × Nat × Nat × Bool), e ∈ longForms c w u s →
     let k := getCore s c.val
     let b := longBits e.2.1 e.2.2.1 w
     e.2.2.2 = true → standsAt s c.val b →
       (descFits k b = false → Completes e.1 s fun t => faults c.val 0x0E (wEng b) (some (wTag b)) (pcWord k) 0 s t) ∧
       (∀ r, descFits k b = true → blockReason k b = some r → Completes e.1 s fun t =>
         onlyCore c.val s t ∧ getCore t c.val = { k with stall := .issue r }) ∧
       (descFits k b = true → blockReason k b = none → (atIssue none k (newFlight k b)).2.flt = none → Completes e.1 s fun t =>
         ∃ x, issued c.val b s x ∧ t = if wEng b = 4 then combKick c.val 8 x else if wEng b = 2 then accxKick c.val x else x) ∧
       (∀ code d, descFits k b = true → blockReason k b = none → (atIssue (badOf u) k (newFlight k b)).2.flt = some (code, d) →
         Completes e.1 s fun t => (getCore t c.val).faulting = true ∧ (k.regs.faultInfo = 0 →
           (getCore t c.val).regs.faultInfo = BitVec.ofNat 18 (code + wEng b * 256 + wTag b * 4096 + 131072)
           ∧ (getCore t c.val).regs.faultDetail = BitVec.ofNat 32 d))) ∧
  (∀ (c : CoreNo) (r : Nat) (s : State),
     let k := getCore s c.val
     let b := wordAt k
     frozen s = false → streamRuns k = true → k.stall = .issue r → k.scalarq = [] → undefinedEncoding b = false → descFits k b = true →
       (∀ q, blockReason k b = some q → Completes (.scoreboardIssue c) s fun t =>
         onlyCore c.val s t ∧ getCore t c.val = { k with stall := .issue q }) ∧
       (blockReason k b = none → (atIssue none k (newFlight k b)).2.flt = none → Completes (.scoreboardIssue c) s fun t =>
         ∃ x, issued c.val b s x ∧ t = if wEng b = 4 then combKick c.val 8 x else if wEng b = 2 then accxKick c.val x else x))

/-- R102, R115 to R117: a halted stream with nothing in flight enters HALTED and sets its cause; a faulted one whose other tags have ended
enters FAULTED; a stall that has lasted the watchdog's bound faults the core with 0x20 and the reason of the stall. It rests on the model's
choices of logs 30, 31. -/
def Obligations.CoresEnterTheirStates : Prop :=
  ∀ (c : CoreNo) (s : State),
    let k := getCore s c.val
    frozen s = false → k.resetting = false → k.st = .run → k.scalarq = [] →
      (k.faulting = false → (k.stall = .halt ∨ k.haltReq = true) → k.flights = [] → groupsBusy k = false →
        Completes (.coreEnterHalted c) s fun t => onlyCore c.val s t ∧ getCore t c.val =
          { k with st := .halted, stall := .none, haltReq := false, regs := { k.regs with cause := k.regs.cause ||| 2 } }) ∧
      (k.faulting = true → (∀ f ∈ k.flights, f.ph = .faulted ∨ f.eng = 3) →
        Completes (.coreEnterFaulted c) s fun t => onlyCore c.val s t ∧ getCore t c.val =
          { k with st := .faulted, stall := .none, haltReq := false, faulting := false
                   regs := { k.regs with cause := k.regs.cause ||| 1 } }) ∧
      (k.faulting = false → k.regs.wdog ≠ 0 → stallCode k ≠ 0 → Completes (.watchdogExpired c) s fun t =>
        let at_ := if k.stall = .halt then { k with pc := k.pc - 16 } else k
        faults c.val 0x20 (wEng (wordAt at_)) none (pcWord at_) (stallCode k) s t)

/-- R155, R160, R162, R184, R185: each of these 20 words gives its destination, in every lane that is active and that its predicate admits,
the result of the table, RNG.U32 and BMASK the draws at the element in their pair under the stream and the draw index of their uniforms, and
goes on at the next word; the other lanes, registers, groups and cores, and all of memory, are as before. -/
def Obligations.LaneWordsWriteTheirDestination : Prop :=
  ∀ e ∈ laneWords, ∀ (c : CoreNo) (g : GroupNo) (w : ThreadWord) (s : State), threadReady s c g e.2.1 w →
    Completes (e.1 c g w) s fun t => laneResult c.val g.val w (e.2.2 (getCore s c.val) w) s t ∧ t = { s with cores := t.cores }

/-- R49, R60, R162: each of these 13 FP words gives its destination, in every executing lane, the bits of its operation under the core's
modes, and ORs into CORE_FPSTAT the status bits that the lanes raised; nothing else changes. It rests on the model's choices of log 10. -/
def Obligations.FpWordsWriteResultAndStatus : Prop :=
  ∀ e ∈ fpWords, ∀ (c : CoreNo) (g : GroupNo) (w : ThreadWord) (s : State), threadReady s c g e.2.1 w →
    let k := getCore s c.val
    Completes (e.1 c g w) s fun t => laneResultF c.val g.val w (fun gr i =>
      e.2.2 (aluRm k w) (fpFtzIn k.regs.fpctl) (fpFtzOut k.regs.fpctl) (opA gr w i).toNat (opB true gr w i).toNat
        (vGet gr w.c.toNat i).toNat) s t

/-- R161, R162: ICMP sets its predicate to one of equal, not equal, signed below and at least, unsigned below and at least; FCMP compares
FP32 values, where a NaN is unordered with everything and -0 equals +0. IADD64 adds modulo 2^64 on register pairs, its second operand a
zero-extended register or uniform or a sign-extended immediate; WRU writes a uniform from the lowest active lane. No other register of the
group changes. -/
def Obligations.PredicatesPairsAndUniforms : Prop :=
  (∀ (c : CoreNo) (g : GroupNo) (w : ThreadWord) (s : State),
     let k := getCore s c.val
     (mBits w 21 19 ≤ 5 → threadReady s c g 0x11 w → Completes (.icmp c g w) s fun t =>
       predResult c.val g.val w (fun gr i =>
         condHolds (BitVec.ofNat 3 (mBits w 21 19)) (opA gr w i) (opB false gr w i)) s t) ∧
     (threadReady s c g 0x27 w → Completes (.fcmp c g w) s fun t =>
       predResult c.val g.val w (fun gr i =>
         fcmpCond (mBits w 21 19) (fpOrder (fpFtzIn k.regs.fpctl) (opA gr w i).toNat (opB true gr w i).toNat)) s t
       ∧ (getCore t c.val).regs.fpstat = k.regs.fpstat ||| (lanesIn (execLanes (getGroup k g.val) w)).foldl (fun x i =>
           x ||| ((readOp (fpFtzIn k.regs.fpctl) (opA (getGroup k g.val) w i).toNat).2
             ||| (readOp (fpFtzIn k.regs.fpctl) (opB true (getGroup k g.val) w i).toNat).2)) 0)) ∧
  (∀ (c : CoreNo) (g : GroupNo) (w : ThreadWord) (s : State),
     let gr := getGroup (getCore s c.val) g.val
     (threadReady s c g 0x12 w → Completes (.iadd64 c g w) s fun t =>
       let gr' := getGroup (getCore t c.val) g.val
       groupMoves c.val g.val (gr.pc + 1) s t ∧ t = { s with cores := t.cores } ∧ gr' = { gr with v := gr'.v, pc := gr'.pc, wait := .none, part := [] }
       ∧ ∀ i, i < 32 →
         (executes gr w i = true → (vPair gr' w.dst.toNat i : Int) =
           ((vPair gr w.a.toNat i : Int) + (if w.m.getLsbD 27 then ((w.m.extractLsb' 0 19).toInt : Int) else ((opB false gr w i).toNat : Int)))
             % 2 ^ 64)
         ∧ ∀ r, (executes gr w i = false ∨ (r ≠ w.dst.toNat ∧ r ≠ w.dst.toNat + 1)) → vGet gr' r i = vGet gr r i) ∧
     (∀ i, gr.act.getLsbD i = true → (∀ j, j < i → gr.act.getLsbD j = false) → threadReady s c g 0x3A w →
       Completes (.wru c g w) s fun t =>
         let gr' := getGroup (getCore t c.val) g.val
         groupMoves c.val g.val (gr.pc + 1) s t ∧ t = { s with cores := t.cores }
         ∧ gr' = { gr with u := gr'.u, pc := gr'.pc, wait := .none, part := [] }
         ∧ ∀ r, uGet gr' r = if r = w.dst.toNat then vGet gr w.a.toNat i else uGet gr r))

/-- R48, R54, R62, R182, R183: CVT converts each executing lane's value under the word's rounding and saturation and the core's flush modes,
and counts in the census what R54 counts; CVT.MX converts the executing lanes' values under one scale, which it writes to a uniform, and
writes 0xFF there and zero elements when an input is a NaN or an infinity. -/
def Obligations.ConversionsWriteAndCount : Prop :=
  ∀ (c : CoreNo) (g : GroupNo) (w : ThreadWord) (s : State),
    let k := getCore s c.val
    let gr := getGroup k g.val
    (threadReady s c g 0x30 w → Completes (.cvt c g w) s fun t =>
      laneResultF c.val g.val w (fun gr i =>
        cvtElem (mBits w 19 17) (fpRmDyn k.regs.fpctl) (mBits w 15 12) (mBits w 11 8) (w.m.getLsbD 16) (fpFtzIn k.regs.fpctl)
          (fpFtzOut k.regs.fpctl)
          (drawBits 4 (seedOf k) (uGet gr (mBits w 27 24)).toNat (uGet gr (mBits w 23 20)).toNat (vPair gr w.b.toNat i))
          (vGet gr w.a.toNat i).toNat) s t) ∧
    (let xs := (lanesIn (execLanes gr w)).map fun i => flushOp (fpFtzIn k.regs.fpctl) (vGet gr w.a.toNat i).toNat
     threadReady s c g 0x31 w → execLanes gr w ≠ 0 → Completes (.cvtMx c g w) s fun t =>
      let gr' := getGroup (getCore t c.val) g.val
      groupMoves c.val g.val (gr.pc + 1) s t ∧ t = { s with cores := t.cores }
      ∧ gr' = { gr with v := gr'.v, u := gr'.u, pc := gr'.pc, wait := .none, part := [] }
      ∧ (∀ r, r ≠ w.c.toNat → uGet gr' r = uGet gr r)
      ∧ (∀ r i, i < 32 → (executes gr w i = false ∨ r ≠ w.dst.toNat) → vGet gr' r i = vGet gr r i)
      ∧ match mxScale (mxOf (mBits w 15 12)) xs with
        | none => uGet gr' w.c.toNat = 0xFF ∧ ∀ i, i < 32 → executes gr w i = true → vGet gr' w.dst.toNat i = 0
        | some sc => uGet gr' w.c.toNat = BitVec.ofNat 32 sc ∧ ∀ i, i < 32 → executes gr w i = true →
            vGet gr' w.dst.toNat i = BitVec.ofNat 32 (mxElem (mxOf (mBits w 15 12)) (rmOf (mBits w 19 17) (fpRmDyn k.regs.fpctl) true)
              (fpFtzOut k.regs.fpctl)
              (drawBits 4 (seedOf k) (uGet gr (mBits w 27 24)).toNat (uGet gr (mBits w 23 20)).toNat (vPair gr w.b.toNat i))
              sc (flushOp (fpFtzIn k.regs.fpctl) (vGet gr w.a.toNat i).toNat)).bits)

/-- R171 to R174: a memory word whose lanes fail a check moves no byte and writes no register: the lowest failing lane faults the core, with
0x28 for a misaligned offset, 0x01 or 0x02 by the region, and 0x23 outside the claim of the tile buffer. -/
def Obligations.FailedLaneChecksFaultTheKernel : Prop :=
  ∀ (c : CoreNo) (g : GroupNo) (w : ThreadWord) (i code : Nat) (s : State),
    let k := getCore s c.val
    let gr := getGroup k g.val
    let lanes := lanesIn (execLanes gr w)
    let region : State → Prop := groupFaults c.val g.val code i (if code = 0x28 then 0 else memRegion w) s
    (laneChecks k gr w permR lanes = some (i, code) → threadReady s c g 0x40 w → Completes (.ld c g w) s region) ∧
    (laneChecks k gr w permW lanes = some (i, code) → threadReady s c g 0x41 w → Completes (.st c g w) s region) ∧
    (laneChecks k gr w permA lanes = some (i, code) → threadReady s c g 0x44 w → Completes (.atom c g w) s region) ∧
    (tileChecks k g.val gr w false lanes = some (i, code) → threadReady s c g 0x42 w →
      Completes (.ldt c g w) s (groupFaults c.val g.val code i 0 s)) ∧
    (tileChecks k g.val gr w true lanes = some (i, code) → threadReady s c g 0x43 w →
      Completes (.stt c g w) s (groupFaults c.val g.val code i 0 s))

/-- R172 to R174: a load that passes its checks writes, in each executing lane, the block of registers of its width from the bytes at the
lane's address, the least significant first; LD reads them through the L1, LDT from the tile buffer. It rests on the model's choices of log
8. -/
def Obligations.LoadsWriteTheirBlocks : Prop :=
  ∀ (c : CoreNo) (g : GroupNo) (w : ThreadWord) (s : State),
    let k := getCore s c.val
    let gr := getGroup k g.val
    let lanes := lanesIn (execLanes gr w)
    let n := widthBytes w
    let addr := laneAddr k gr w
    let lns := laneLines addr n lanes
    (tileChecks k g.val gr w false lanes = none → threadReady s c g 0x42 w → Completes (.ldt c g w) s fun t =>
      let gr' := getGroup (getCore t c.val) g.val
      groupMoves c.val g.val (gr.pc + 1) s t ∧ t = { s with cores := t.cores } ∧ gr' = { gr with v := gr'.v, pc := gr'.pc, wait := .none, part := [] }
      ∧ loadsBlocks w false (fun i => memRead k.tile (laneTile gr w i).toNat n) gr gr') ∧
    (∀ s1 got, laneChecks k gr w permR lanes = none → threadReady s c g 0x40 w → w.m.getLsbD 18 = false →
      (∀ i ∈ lanes, deadHit k.dead (addr i) n = false) → 
      readyLines { agent := c.val, master := c.val, cls := rgClass (regionOf k (memRegion w)), op := .read }
        (lns.filter fun ln => (l1Find k ln).isNone) s = (s, true) →
      readEach c.val (rgClass (regionOf k (memRegion w))) lns s = (s1, some got) → (∀ e ∈ got, ∃ d, e.2 = .ok d) →
      Completes (.ld c g w) s fun t =>
        let gr' := getGroup (getCore t c.val) g.val
        groupMoves c.val g.val (gr.pc + 1) s1 t ∧ t = { s1 with cores := t.cores } ∧ gr' = { gr with v := gr'.v, pc := gr'.pc, wait := .none, part := [] }
        ∧ loadsBlocks w (w.m.getLsbD 16)
            (fun i => spanValue (addr i) n ((got.filter fun e => (spanLines (addr i) n).contains e.1).filterMap fun e =>
              match e.2 with | .ok d => some (e.1, d) | _ => none)) gr gr')

/-- R172 to R174: a store that passes its checks puts each executing lane's bytes at its address, the highest lane's byte remaining where
lanes meet, and no other byte of memory or of the tile buffer changes. ST stores through to the lines at their homes, and removes the dead
ranges it meets; STT stores into the tile buffer. It rests on the model's choices of log 8. -/
def Obligations.StoresWriteTheirLanesBytes : Prop :=
  ∀ (c : CoreNo) (g : GroupNo) (w : ThreadWord) (s : State),
    let k := getCore s c.val
    let gr := getGroup k g.val
    let lanes := lanesIn (execLanes gr w)
    let addr := laneAddr k gr w
    (laneChecks k gr w permW lanes = none → threadReady s c g 0x41 w →
      (∀ ln ∈ laneLines addr (widthBytes w) lanes, ∃ n l, atHome s ln n l) → Completes (.st c g w) s fun t =>
        lanesStored gr w addr (byteAt s) (byteAt t)
        ∧ t = { s with cores := t.cores, comb := { s.comb with lines := t.comb.lines } }
        ∧ getGroup (getCore t c.val) g.val = { gr with pc := (gr.pc + 1) % 4096, wait := .none, part := [] }
        ∧ (getCore t c.val).tile = k.tile) ∧
    (tileChecks k g.val gr w true lanes = none → threadReady s c g 0x43 w → memWf k.tile = true → Completes (.stt c g w) s fun t =>
      lanesStored gr w (fun i => (laneTile gr w i).toNat) (memGet k.tile) (memGet (getCore t c.val).tile)
      ∧ onlyCore c.val s t ∧ getGroup (getCore t c.val) g.val = { gr with pc := (gr.pc + 1) % 4096, wait := .none, part := [] })

/-- R178, R179: an ATOM of one executing lane on a line at its home returns the old value and stores the new one of its operation: sum,
minimum or maximum, bitwise, exchange, or the operand where the old value equals the compare value. It rests on the model's choices of log
8. -/
def Obligations.AtomReturnsOldAndStoresNew : Prop :=
  ∀ (c : CoreNo) (g : GroupNo) (w : ThreadWord) (i n : Nat) (l : CombLine) (s : State),
    let k := getCore s c.val
    let gr := getGroup k g.val
    let b := widthBytes w
    let a := laneAddr k gr w i
    let old := getLineBytes l.data (a % 64) b
    let x := blockVal gr w.b.toNat b i
    let new := if w.c.toNat = 9 then (if old = blockVal gr w.dst.toNat b i then x else old) else atomInt w.c.toNat b old x
    lanesIn (execLanes gr w) = [i] → laneChecks k gr w permA [i] = none → threadReady s c g 0x44 w → w.c.toNat ≤ 9 →
      (b = 4 ∨ b = 8) → gr.part = [] → a % 64 + b ≤ 64 → deadHit k.dead a b = false → atHome s (a / 64) n l → Completes (.atom c g w) s fun t =>
        stored a b new s t ∧ t = { s with cores := t.cores, comb := { s.comb with lines := t.comb.lines } }
        ∧ loadsBlocks w false (fun _ => old) gr (getGroup (getCore t c.val) g.val)
        ∧ (getGroup (getCore t c.val) g.val).pc = (gr.pc + 1) % 4096

/-- R175, R176, R189: CPYA, once its source range and its claim pass, goes in flight with its counter, or counts at once when it moves no
byte; a copy that lands is counted; WAITC of a kernel waits for its threshold; SIGC of a kernel adds its increment, a release one after the
group's copies; FENCE goes on. A copy whose lines have been read puts its bytes into the tile buffer, leaves the list of copies, and adds
one to its arrival counter. It rests on the model's choices of logs 8, 19. -/
def Obligations.CopiesAndCountersOfAKernel : Prop :=
  (∀ (c : CoreNo) (g : GroupNo) (w : ThreadWord) (s : State),
     let k := getCore s c.val
     let gr := getGroup k g.val
     let o := uPair gr w.a.toNat
     let len := (uGet gr w.b.toNat).toNat
     let dst := (uGet gr w.dst.toNat).toNat
     let rg := memRegion w
     let ctr := mBits w 27 24
     let thr := uGet gr w.a.toNat + BitVec.ofNat 32 (mBits w 23 0)
     let cp : Copy := Copy.mk g.val gr.seq (mBits w 21 18) gr.pc rg (regionAddr k rg o) (rgClass (regionOf k rg)) len
       (if w.m.getLsbD 17 then none else some dst)
     (∀ f, launchOf k g.val = some f → (w.m.getLsbD 17 = true ∨ inWriteSet f.word dst len = true) → regionCheck k rg permR o len = none →
       len ≠ 0 → deadHit k.dead (regionAddr k rg o) len = false → threadReady s c g 0x45 w → Completes (.cpya c g w) s fun t =>
         onlyCore c.val s t ∧ getGroup (getCore t c.val) g.val = { gr with pc := (gr.pc + 1) % 4096, wait := .none, part := [] }
         ∧ (getCore t c.val).tile = k.tile ∧ (getCore t c.val).arrive = k.arrive
         ∧ (getCore t c.val).tg.copies = k.tg.copies ++ [cp]) ∧
     (∀ code, regionCheck k rg permR o len = some code → threadReady s c g 0x45 w →
       Completes (.cpya c g w) s (groupFaults c.val g.val code 0 rg s)) ∧
     (threadReady s c g 0x46 w → Completes (.kernelFence c g w) s (groupResult c.val g.val (gr.pc + 1) gr s)) ∧
     (threadReady s c g 0x54 w → Completes (.kernelWaitc c g w) s fun t =>
       if (ctrOf k ctr - thr).toNat < 2 ^ 31 then groupResult c.val g.val (gr.pc + 1) gr s t
       else onlyCore c.val s t ∧ getGroup (getCore t c.val) g.val = { gr with wait := .waitc ctr thr }) ∧
     (threadReady s c g 0x55 w → coreEnd s c.val = false →
       (w.m.getLsbD 23 = true → ∀ x ∈ k.tg.copies, ¬ (x.grp = g.val ∧ x.seq = gr.seq)) → Completes (.kernelSigc c g w) s fun t =>
         onlyCore c.val s t ∧ (getGroup (getCore t c.val) g.val).pc = (gr.pc + 1) % 4096
         ∧ ∀ n, ctrOf (getCore t c.val) n = if n = ctr then ctrOf k n + BitVec.ofNat 32 (mBits w 15 0) else ctrOf k n)) ∧
  (∀ (c : CoreNo) (i d : Nat) (x : Copy) (s s1 : State),
     let k := getCore s c.val
     k.tg.copies[i]? = some x → frozen s = false → k.resetting = false → x.dst = some d →
       (∀ g, ∀ n inc, (getGroup (getCore s1 c.val) g).wait ≠ .sigc n inc) →
       copyTile c.val x.cls (x.len / 64 + 2) x.addr d x.len s = (s1, .ok ()) → coreEnd s1 c.val = false →
       Completes (.cpyaComplete c i) s fun t =>
         onlyCore c.val s1 t ∧ (getCore t c.val).tile = (getCore s1 c.val).tile
         ∧ (getCore t c.val).tg.copies = (getCore s1 c.val).tg.copies.eraseIdx i
         ∧ ∀ n, ctrOf (getCore t c.val) n =
             if n = x.counter then ctrOf (getCore s1 c.val) n + 1 else ctrOf (getCore s1 c.val) n)

/-- R161, R166, R167: BRX sends the executing lanes to its target and the others to the next word, pushing the join entry and, where the
lanes divide, the entry of the others; more than 16 entries fault with 0x26. JOIN goes on with the topmost entry that has a lane left, and
faults with 0x27 when there is none. JMP goes to its target with the mask unchanged. -/
def Obligations.DivergenceKeepsAMaskStack : Prop :=
  ∀ (c : CoreNo) (g : GroupNo) (w : ThreadWord) (s : State),
    let gr := getGroup (getCore s c.val) g.val
    let x := execLanes gr w
    let y := gr.act &&& ~~~x
    let entry : BitVec 32 × Nat := (gr.act, mBits w 11 0)
    (threadReady s c g 0x50 w → gr.stack.length + gr.parked.length + (if x ≠ 0 ∧ y ≠ 0 then 2 else 1) ≤ 16 →
      Completes (.brx c g w) s
        (if x = 0 then groupResult c.val g.val (gr.pc + 1) { gr with stack := entry :: gr.stack } s
         else if y = 0 then groupResult c.val g.val (mBits w 23 12) { gr with stack := entry :: gr.stack } s
         else groupResult c.val g.val (mBits w 23 12) { gr with act := x, stack := (y, gr.pc + 1) :: entry :: gr.stack } s)) ∧
    (threadReady s c g 0x50 w → 16 < gr.stack.length + gr.parked.length + (if x ≠ 0 ∧ y ≠ 0 then 2 else 1) →
      Completes (.brx c g w) s (groupFaults c.val g.val 0x26 0 0 s)) ∧
    (∀ above m p below, threadReady s c g 0x51 w → gr.stack = above ++ (m, p) :: below → (∀ e ∈ above, e.1 = 0) → m ≠ 0 →
      Completes (.join c g w) s (groupResult c.val g.val p { gr with act := m, stack := below } s)) ∧
    (threadReady s c g 0x51 w → (∀ e ∈ gr.stack, e.1 = 0) → Completes (.join c g w) s (groupFaults c.val g.val 0x27 0 0 s)) ∧
    (threadReady s c g 0x52 w → Completes (.jmp c g w) s (groupResult c.val g.val (mBits w 23 12) gr s))

/-- R168 to R170: a barrier completes once every lane has arrived or exited: its mask is cleared, and the paths parked at it go back on the
stack in the order parked; until then the path parks and the topmost entry with a lane goes on; where none is left the group faults with
0x07 and the set of barriers with parked entries. EXIT takes the executing lanes away, and a group without lanes ends. -/
def Obligations.BarriersAndExits : Prop :=
  ∀ (c : CoreNo) (g : GroupNo) (w : ThreadWord) (s : State),
    let gr := getGroup (getCore s c.val) g.val
    let b := mBits w 7 0
    let here := tblGet 0 gr.arrive b ||| gr.act
    let out := execLanes gr w
    (threadReady s c g 0x53 w → here ||| gr.exited = BitVec.allOnes 32 → Completes (.bar c g w) s
      (groupResult c.val g.val (gr.pc + 1) { gr with
        arrive := tblPut gr.arrive b 0
        parked := gr.parked.filter fun p => p.1 != b
        stack := ((gr.parked.filter fun p => p.1 == b).map fun p => p.2).reverse ++ gr.stack } s)) ∧
    (∀ above m p below, threadReady s c g 0x53 w → here ||| gr.exited ≠ BitVec.allOnes 32 →
      gr.stack = above ++ (m, p) :: below → (∀ e ∈ above, e.1 = 0) → m ≠ 0 → Completes (.bar c g w) s
        (groupResult c.val g.val p { gr with
          act := m
          stack := below
          arrive := tblPut gr.arrive b here
          parked := gr.parked ++ [(b, gr.act, gr.pc + 1)] } s)) ∧
    (threadReady s c g 0x53 w → here ||| gr.exited ≠ BitVec.allOnes 32 → (∀ e ∈ gr.stack, e.1 = 0) → Completes (.bar c g w) s fun t =>
      onlyCore c.val s t ∧ (getCore t c.val).faulting = true ∧ ∃ ids : Nat,
        (∀ j, ids.testBit j = true ↔ j < 8 ∧ ∃ p ∈ gr.parked ++ [(b, gr.act, gr.pc + 1)], p.1 = j)
        ∧ ∀ f, launchOf (getCore s c.val) g.val = some f → (getCore s c.val).regs.faultInfo = 0 →
            (getCore t c.val).regs.faultInfo = BitVec.ofNat 18 (0x07 + 3 * 256 + f.tag * 4096 + 131072)
            ∧ (getCore t c.val).regs.faultDetail = BitVec.ofNat 32 ids) ∧
    (threadReady s c g 0x56 w → gr.act &&& ~~~out ≠ 0 → gr.arrive = [] → Completes (.exit c g w) s
      (groupResult c.val g.val (gr.pc + 1) { gr with
        act := gr.act &&& ~~~out
        stack := gr.stack.map fun e => (e.1 &&& ~~~out, e.2)
        parked := gr.parked.map fun p => (p.1, p.2.1 &&& ~~~out, p.2.2)
        exited := gr.exited ||| out } s)) ∧
    (threadReady s c g 0x56 w → gr.act = out → gr.arrive = [] → gr.parked = [] → (∀ e ∈ gr.stack, e.1 &&& ~~~out = 0) →
      drainPending (getCore s c.val) g.val = false → Completes (.exit c g w) s fun t =>
        onlyCore c.val s t ∧ (getGroup (getCore t c.val) g.val).alive = false
        ∧ (∀ h, h ≠ g.val → getGroup (getCore t c.val) h = getGroup (getCore s c.val) h)
        ∧ (getCore t c.val).tg.kernels = (getCore s c.val).tg.kernels.map fun x =>
            if x.seq = gr.seq then { x with exited := x.exited ||| BitVec.ofNat 16 (2 ^ g.val) } else x)

/-- R155, R157, R158: a group of the oldest kernel that has not started it starts with all lanes active at the entry word, v0 holding the
lane, u0 to u13 the launch's values, u14 the group and u15 the image core, and every other register zero; the kernel is complete once its 16
groups have exited and its copies have landed, and its LAUNCH is ready to pulse. It rests on the model's choices of log 19. -/
def Obligations.KernelsStartTheirGroupsAndComplete : Prop :=
  ∀ (c : CoreNo) (g : GroupNo) (x : Kernel) (rest : List Kernel) (f : Flight) (s : State),
    let k := getCore s c.val
    frozen s = false → k.resetting = false →
    (k.tg.kernels.find? (fun y => !(y.started.getLsbD g.val)) = some x → k.faulting = false → k.st = .run →
      (getGroup k g.val).alive = false → arrFlights k = [] → Completes (.kernelGroupStart c g) s fun t =>
        let gr := getGroup (getCore t c.val) g.val
        onlyCore c.val s t ∧ gr.alive = true ∧ gr.seq = x.seq ∧ gr.pc = x.entry % 4096 ∧ gr.act = BitVec.allOnes 32 ∧ gr.stack = []
        ∧ gr.parked = [] ∧ gr.exited = 0 ∧ gr.wait = .none
        ∧ (∀ r i, i < 32 → vGet gr r i = if r = 0 then BitVec.ofNat 32 i else 0) ∧ (∀ r, r ≠ 0 → pGet gr r = 0)
        ∧ (x.u.length = 14 → ∀ r, r < 14 → uGet gr r = x.u.getD r 0) ∧ (x.u.length = 14 → uGet gr 14 = BitVec.ofNat 32 g.val)
        ∧ (∀ h, h ≠ g.val → getGroup (getCore t c.val) h = getGroup k h)
        ∧ (getCore t c.val).tg.kernels = k.tg.kernels.map fun y =>
            if y.seq = x.seq then { y with started := y.started ||| BitVec.ofNat 16 (2 ^ g.val) } else y) ∧
    (k.tg.kernels = x :: rest → flightOf k x.tag = some f → f.ph ≠ .faulted → x.exited = BitVec.allOnes 16 →
      (∀ y ∈ k.tg.copies, y.seq ≠ x.seq) → Completes (.kernelComplete c) s fun t =>
        onlyCore c.val s t ∧ (getCore t c.val).tg.kernels = rest ∧ (getCore t c.val).tg.groups = k.tg.groups
        ∧ (getCore t c.val).flights = k.flights.map fun y => if y.tag = x.tag then { y with ph := .done } else y)

/-- R24, R26, R27, R381, R385, R475: what an access to a control register ends in where its block does not perform it: a bus error and event
0x010F where nothing decodes; else 0x0D without power; else 0x0A across a layer in reset; else, behind a stopped gate, a read of zero or an
ignored write; no answer from a stopped clock; and a bus error where the debug level turns the debug port away. An access in control space
of another size than 4 bytes, or misaligned, is a bus error. It rests on the model's choices of logs 47, 52. -/
def Obligations.ControlAccessesHaveOneOutcome : Prop :=
  ∀ (by_ : By) (c : CoreNo) (v : Word32) (wr : Option Word32) (hi : Bool) (i4 : BitVec 4) (i6 : BitVec 6) (i2 : BitVec 2)
    (same : List Nat) (i3 : Fin 3) (l : LinkNo) (n : RegionNo) (ways : BitVec 5) (i32 : Fin 32) (site : SiteNo) (s : State),
    let outcomes (i : Instr) (layer region block : Nat) : Prop :=
      (blockPowered s layer region block = false → Completes i s (answers (.error 0x0D) s)) ∧
      (blockPowered s layer region block = true → pathReset s (isHost by_) layer region block = true →
        Completes i s (answers (.error 0x0A) s)) ∧
      (blockPowered s layer region block = true → pathReset s (isHost by_) layer region block = false →
        gated s layer region block = true → Completes i s fun t => t = { s with answers := t.answers } ∧ (t.answers = [.value 0] ∨ t.answers = [.done])) ∧
      (blockPowered s layer region block = true → pathReset s (isHost by_) layer region block = false →
        gated s layer region block = false → frozen s = true → alwaysOnBlock layer region block = false →
        Completes i s fun t => t = { s with answers := [] }) ∧
      (blockPowered s layer region block = true → pathReset s (isHost by_) layer region block = false →
        gated s layer region block = false → (frozen s && !(alwaysOnBlock layer region block)) = false →
        by_ = .debug → s.sec.level ≠ 2 → Completes i s (answers .busError s))
    (∀ x, blockAccess by_ v wr l n hi ways i32 site x → outcomes x.1 x.2.1 x.2.2.1 x.2.2.2) ∧
    (∀ k i, siteOf s c.val = some k → k < 1296 → coreAccess by_ c v wr hi i4 i6 i2 same i3 i → outcomes i 3 (k / 54) (k % 54)) ∧
    (∀ i, siteOf s c.val = none → coreAccess by_ c v wr hi i4 i6 i2 same i3 i → Completes i s (answers (.error 0x0D) s)) ∧
    (∀ (size : BitVec 4) (a : Addr), size ≠ 4 ∨ a.toNat % 4 ≠ 0 ∨ a.toNat / 2 ^ 32 ≠ 0x0200 →
      Completes (.registerWrite by_ size a wr) s (answers .busError s)) ∧
    (∀ (a : Addr), a.toNat % 4 = 0 → a.toNat / 2 ^ 32 = 0x0200 →
      blockDecodes (bitsOf a.toNat 31 28) (bitsOf a.toNat 27 23) (bitsOf a.toNat 22 12) = false →
      Completes (.registerWrite by_ 4 a wr) s fun t =>
        t = answer (logEvent 0x10F (bitsOf a.toNat 31 12) 0 { s with answers := [] }) .busError)

/-- R115, R122: a write of CORE_CTL sets the entry; a start runs a LOADED core at the entry with the banks swapped, and a HALTED core at
CORE_PC; a halt request to a running core is set. Elsewhere they are ignored. -/
def Obligations.CoreControlStartsAndHalts : Prop :=
  ∀ (by_ : By) (c : CoreNo) (v : Word32) (s : State),
    let k := getCore s c.val
    let e := BitVec.ofNat 15 (v.toNat &&& 0x7FF0)
    let set : Core := { k with regs := { k.regs with entry := e } }
    let runs (k1 : Core) (t : State) : Prop :=
      onlyCore c.val { s with answers := [.done] } t ∧ streamMoved k1 (getCore t c.val) ∧ (getCore t c.val).k = k1.k
        ∧ (getCore t c.val).pc = k1.pc
    coreReached by_ c.val s →
    (k.st = .loaded → s.sec.purged = false → k.resetting = false → k.faulting = false →
      Completes (.coreStart by_ c v) s (runs { set with st := .run, active := !k.active, pc := e, haltReq := false })) ∧
    (k.st = .halted → s.sec.purged = false → k.resetting = false → k.faulting = false →
      Completes (.coreStart by_ c v) s (runs { set with st := .run, haltReq := false })) ∧
    (k.st = .empty ∨ k.st = .faulted ∨ (k.st = .run ∧ v.getLsbD 1 = false) →
      Completes (.coreStart by_ c v) s (coreBecomes c.val set [.done] s)) ∧
    (k.st = .run → Completes (.coreHaltRequest by_ c v) s (coreBecomes c.val { set with haltReq := true } [.done] s)) ∧
    (k.st ≠ .run → v.getLsbD 0 = false → Completes (.coreHaltRequest by_ c v) s (coreBecomes c.val set [.done] s))

/-- R107, R108, R122, R153: an access of a data register transfers the word at the index and advances the index; a write to the active bank
is refused with code 0x08 and does not advance; a scalar register and an accumulator are reached outside RUN only. -/
def Obligations.DataRegistersReachTheirMemories : Prop :=
  ∀ (by_ : By) (c : CoreNo) (hi : Bool) (v : Word32) (s : State),
    let k := getCore s c.val
    let r := k.regs
    let word := 4 * r.imemWord.toNat
    let desc := 4 * r.descWord.toNat
    coreReached by_ c.val s →
    Completes (.coreImemDataAccess by_ c none) s (coreBecomes c.val { k with regs := { r with imemWord := r.imemWord + 1 } }
      [.value (BitVec.ofNat 32 (memRead (bankMem k r.imemBank) word 4))] s) ∧
    (r.imemBank ≠ k.active → memWf (bankMem k r.imemBank) = true → Completes (.coreImemDataAccess by_ c (some v)) s fun t =>
      ∃ m, bytesPut word 4 v.toNat (bankMem k r.imemBank) m ∧ coreBecomes c.val
        (setValid (setBank { k with regs := { r with imemWord := r.imemWord + 1 } } r.imemBank m) r.imemBank false) [.done] s t) ∧
    (r.imemBank = k.active → Completes (.coreImemDataAccess by_ c (some v)) s fun t =>
      t = answer (logEvent 0x08 (coreSrc s c.val) 0 (putCore { s with answers := [] } c.val { k with regs := { r with cause := r.cause ||| 8 } }))
        .busError) ∧
    Completes (.coreDescDataAccess by_ c none) s (coreBecomes c.val { k with regs := { r with descWord := r.descWord + 1 } }
      [.value (BitVec.ofNat 32 (memRead k.descMem desc 4))] s) ∧
    (memWf k.descMem = true → Completes (.coreDescDataAccess by_ c (some v)) s fun t =>
      ∃ m, bytesPut desc 4 v.toNat k.descMem m
        ∧ coreBecomes c.val { k with descMem := m, regs := { r with descWord := r.descWord + 1 } } [.done] s t) ∧
    (k.st ≠ .run → Completes (.coreKregAccess by_ c hi none) s (coreBecomes c.val k
      [.value (if hi then (kGet k r.kregSel).extractLsb' 32 32 else (kGet k r.kregSel).extractLsb' 0 32)] s)) ∧
    (k.st ≠ .run → Completes (.coreKregAccess by_ c hi (some v)) s fun t =>
      onlyCore c.val { s with answers := [.done] } t ∧ getCore t c.val = { k with k := (getCore t c.val).k }
      ∧ onlyK r.kregSel (if hi then v ++ (kGet k r.kregSel).extractLsb' 0 32 else (kGet k r.kregSel).extractLsb' 32 32 ++ v) k (getCore t c.val)) ∧
    (k.st ≠ .run → Completes (.coreAccDataAccess by_ c none) s (coreBecomes c.val { k with arr := { k.arr with accAddr := k.arr.accAddr + 1 } }
      [.value (tblGet 0 k.arr.acc k.arr.accAddr.toNat)] s)) ∧
    (k.st ≠ .run → Completes (.coreAccDataAccess by_ c (some v)) s fun t =>
      onlyCore c.val { s with answers := [.done] } t
      ∧ getCore t c.val = { k with arr := { k.arr with accAddr := k.arr.accAddr + 1, acc := (getCore t c.val).arr.acc } }
      ∧ ∀ i, tblGet 0 (getCore t c.val).arr.acc i = if i = k.arr.accAddr.toNat then v else tblGet 0 k.arr.acc i) ∧
    (k.st = .run → ∀ wr, ∀ i ∈ [Instr.coreKregAccess by_ c hi wr, .coreAccDataAccess by_ c wr], Completes i s (answers .busError s))

/-- R6, R72, R89, R101, R111, R114, R372: what the writes of CORE_ARRIVE, of the region table, of CORE_FPCTL, of the seed and of a core's
waggle area store, reserved bits reading zero; a counter keeps what arrives in the same cycle; the region table is refused in RUN and
FAULTED, and so is the area. It rests on the model's choices of log 11. -/
def Obligations.CoreRegistersKeepWhatIsWritten : Prop :=
  ∀ (by_ : By) (c : CoreNo) (v : Word32) (ctr : BitVec 4) (i6 : BitVec 6) (i2 : BitVec 2) (hi : Bool) (s : State),
    let k := getCore s c.val
    let idle : Prop := k.st ≠ .run ∧ k.st ≠ .faulted
    coreReached by_ c.val s →
    Completes (.coreArriveWrite by_ c ctr v []) s (fun t =>
      onlyCore c.val { s with answers := [.done] } t
      ∧ (∀ n, ctrOf (getCore t c.val) n = if n = ctr.toNat then v else ctrOf k n)
      ∧ ((∀ n thr, k.stall ≠ .waitc n thr) → (∀ g n thr, (getGroup k g).wait ≠ .waitc n thr) →
          getCore t c.val = { k with arrive := (getCore t c.val).arrive })) ∧
    (∀ same : List Nat, Completes (.coreArriveWrite by_ c ctr v same) s fun t =>
      t = written (same.foldl (fun s n => addArrive c.val ctr.toNat n s) (setArrive c.val ctr.toNat v { s with answers := [] }))
      ∧ (coreEnd s c.val = false → onlyCore c.val { s with answers := [.done] } t
          ∧ ctrOf (getCore t c.val) ctr.toNat = v + BitVec.ofNat 32 same.sum)) ∧
    (idle → Completes (.regionTableWrite by_ c i6 i2 v) s fun t =>
      onlyCore c.val { s with answers := [.done] } t ∧ getCore t c.val = { k with regions := (getCore t c.val).regions }
      ∧ (∀ i, i ≠ i6.toNat → regionOf (getCore t c.val) i = regionOf k i)
      ∧ ∀ j : Nat, j < 4 → (regionOf (getCore t c.val) i6.toNat).extractLsb' (32 * j) 32 =
          if j = i2.toNat then (if j = 3 then v &&& 0xC7FF else v) else (regionOf k i6.toNat).extractLsb' (32 * j) 32) ∧
    (¬ idle → Completes (.regionTableWrite by_ c i6 i2 v) s (answers .busError s)) ∧
    Completes (.coreFpctlWrite by_ c v) s (coreBecomes c.val
      { k with regs := { k.regs with fpctl := if 5 ≤ v.toNat / 16 % 8 then v &&& 0x703 else v &&& 0x773 } } [.done] s) ∧
    Completes (.coreSeedWrite by_ c hi v) s (coreBecomes c.val
      { k with regs := if hi then { k.regs with seedHi := v } else { k.regs with seedLo := v } } [.done] s) ∧
    (∀ reg : Fin 3, idle → (reg = 2 → v.getLsbD 31 = true → twoEqual v = false ∧ inWindows (getBox s c.val).carea.toNat 256 = true) →
      Completes (.mbxCcntWrite by_ c reg v) s fun t =>
        t = { s with answers := [.done], mbx := { s.mbx with boxes := t.mbx.boxes } } ∧ (∀ i, i ≠ c.val → getBox t i = getBox s i)
      ∧ (reg = 0 → getBox t c.val = { getBox s c.val with carea := (getBox s c.val).carea.extractLsb' 32 16 ++ (v.extractLsb' 8 24 ++ (getBox s c.val).carea.extractLsb' 0 8 : Word32) })
      ∧ (reg = 1 → getBox t c.val = { getBox s c.val with carea := v.extractLsb' 0 16 ++ (getBox s c.val).carea.extractLsb' 0 32 })
      ∧ (reg = 2 → getBox t c.val = { getBox s c.val with ccnt := v &&& 0x8000FFFF })) ∧
    (idle → v.getLsbD 31 = true → twoEqual v = true ∨ inWindows (getBox s c.val).carea.toNat 256 = false →
      Completes (.mbxCcntWrite by_ c 2 v) s fun t =>
        t = { s with answers := [.busError], mbx := { s.mbx with boxes := t.mbx.boxes } } ∧ (∀ i, i ≠ c.val → getBox t i = getBox s i)
        ∧ getBox t c.val = { getBox s c.val with ccnt := (getBox s c.val).ccnt &&& 0x7FFFFFFF }) ∧
    (∀ reg : Fin 3, ¬ idle → Completes (.mbxCcntWrite by_ c reg v) s (answers .busError s))

/-- R195 to R201, R206 to R213: a MOVE whose descriptor is malformed faults with 0x0E, and one that fails its checks with their code; an
empty one is done at once; a tile copy of one run that fits in a burst puts its bytes at the destination and is done. A MOVE that failed
after its bursts faults when they have ended. A faulted MOVE to a bank leaves the bank invalid. It rests on the model's choices of logs 11,
14, 16. -/
def Obligations.MovesCopyOrFault : Prop :=
  ∀ (c : CoreNo) (tag : BitVec 5) (slots : Nat) (p : MoveProg) (fl : Flight) (s : State),
    let k := getCore s c.val
    let m := moveDesc fl
    let form := moveForm fl.desc m (dstBase k m)
    let spoiled : State := match p.bank with
      | some b => putCore s c.val (setValid k b false)
      | none => s
    frozen s = false → flightOf k tag.toNat = some fl → fl.eng = 1 → fl.aux = .move p →
    (k.resetting = false → fl.ph = .queued → (∀ f ∈ k.flights, f.eng = 1 → f = fl) →
      (∀ bit, form = some bit → Completes (.moveChannelStart c tag slots) s (flightFaults c.val fl 0x0E bit spoiled)) ∧
      (∀ code d, form = none → moveEmpty m = false → moveChecks k fl m = some (code, d) →
        Completes (.moveChannelStart c tag slots) s (flightFaults c.val fl code d spoiled)) ∧
      (form = none → moveEmpty m = true → m.crcMode = 0 → Completes (.moveChannelStart c tag slots) s fun t =>
        onlyCore c.val s t ∧ getCore t c.val = { k with flights := flightsWith k tag.toNat fun x => { x with ph := .done } }) ∧
      (form = none → moveChecks k fl m = none → p = { bank := none } → 0 < slots → m.srcKind = 1 → m.dstKind = 1 → m.skew = 0 →
        m.reduce = false → m.crcMode = 0 → m.n1 = 1 → m.n2 = 1 → 0 < m.len0 → 0 ≤ m.src → 0 ≤ m.dst →
        m.src.toNat % 64 + m.len0 ≤ 256 → (m.src + m.len0 ≤ m.dst ∨ m.dst + m.len0 ≤ m.src) → memWf k.tile = true →
        Completes (.moveChannelStart c tag slots) s fun t =>
          let k' := getCore t c.val
          onlyCore c.val s t
          ∧ k' = { k with
              tile := k'.tile
              flights := k'.flights
              dmaLast := k'.dmaLast
              dmaPass := k'.dmaPass
              regs := { k.regs with dmaLines := k'.regs.dmaLines } }
          ∧ (∀ f ∈ k'.flights, f.tag = tag.toNat → f.ph = .done)
          ∧ (∀ j, j < m.len0 → memGet k'.tile (m.dst.toNat + j) = memGet k.tile (m.src.toNat + j))
          ∧ ∀ x, (x < m.dst.toNat ∨ m.dst.toNat + m.len0 ≤ x) → memGet k'.tile x = memGet k.tile x)) ∧
    (∀ code d, fl.flt = some (code, d) → Completes (.moveFaultRaise c tag) s (flightFaults c.val fl code d spoiled))

/-- R130, R134, R137, R139, R144 to R146, R152: a pass in tile feed starts when the array instructions before it let it and its tile lies in
its read set, and faults with 0x0E or 0x23 otherwise. A row is decided in its turn: it faults with 0x09 where it reads uncorrectable data,
and where its check holds it commits or waits while its access is taken; a row whose check fails is held for a replay, or lost. A replay
behind the last row commits it or loses it. The pass ends with its column checks: it is done where they hold and no row is lost, and faults
with 0x06 otherwise; in stream feed a slot or a packet that is missing faults first, unless no column is in use. It rests on the model's
choices of logs 11, 15, 20, 49. -/
def Obligations.ArrayPassesRunRowByRow : Prop :=
  ∀ (c : CoreNo) (tag : BitVec 5) (cycle : Nat) (m : Fin 512) (u : RowUpset) (flips : List (Fin 32 × Word32)) (blocked : Bool)
    (fl : Flight) (s : State),
    let k := getCore s c.val
    let d := passDesc fl
    let fails (code detail : Nat) (t : State) : Prop := (getCore t c.val).faulting = true
      ∧ (k.regs.faultInfo = 0 → (getCore t c.val).regs.faultInfo = BitVec.ofNat 18 (code + fl.eng * 256 + tag.toNat * 4096 + 131072)
        ∧ (getCore t c.val).regs.faultDetail = BitVec.ofNat 32 detail)
    frozen s = false → flightOf k tag.toNat = some fl →
    (k.resetting = false → (wOpc fl.word = 0x20 ∨ wOpc fl.word = 0x21) → execOf k tag.toNat = none → (fl.ph = .queued ∨ fl.ph = .started) →
      (∀ f ∈ beforeTag (arrFlights k) tag.toNat, letsStart k fl f = true) → d.stream = false →
      let pass := match fl.aux with | .units n _ => n | _ => 0
      (passForm fl d = false → firstOutside fl.word (passReads fl d pass) = none → Completes (.arrayPassStart c tag cycle) s fun t =>
        onlyCore c.val s t ∧ getCore t c.val = { k with
          flights := flightsWith k tag.toNat fun x => { x with ph := .started }
          arr := { k.arr with execs := k.arr.execs ++ [{ tag := tag.toNat, pass, t0 := cycle }] } }) ∧
      (∀ code detail, (passForm fl d = true ∧ code = 0x0E ∧ detail = 0)
          ∨ (passForm fl d = false ∧ firstOutside fl.word (passReads fl d pass) = some detail ∧ code = 0x23) →
        Completes (.arrayPassStart c tag cycle) s (fails code detail))) ∧
    (∀ x, execOf k tag.toNat = some x →
      let r := rowResult k fl d x m.val u
      (m.val < d.rows → rowsTurn k fl = true →
        (∀ cells, (x.waitingRows.find? fun e => e.1 == m.val) = some (m.val, cells) →
          cells.map Prod.fst = ((List.range 32).filter fun n => d.colMask.getLsbD n) → (blocked = false ∨ d.stream = true) →
          Completes (.arrayRowCommit c tag m u blocked) s (rowCommitted c.val fl m.val cells 0 (fun y =>
            { y with committed := y.committed ++ [m.val], waitingRows := y.waitingRows.filter fun e => e.1 != m.val }) k.arr.retry s)) ∧
        ((∀ e ∈ x.waitingRows, e.1 ≠ m.val) → (∀ e ∈ x.sums, e.1 ≠ m.val) →
          (∀ n, badEntry d x u = some n → Completes (.arrayRowCommit c tag m u blocked) s (fails 0x09 (d.base + m.val + 512 * n))) ∧
          (badEntry d x u = none → r.ok = true → (blocked = false ∨ d.stream = true) →
            Completes (.arrayRowCommit c tag m u blocked) s (rowCommitted c.val fl m.val r.cells r.flags (fun y =>
              keepSums m.val r.sums { y with committed := y.committed ++ [m.val] }) k.arr.retry s)) ∧
          (badEntry d x u = none → r.ok = true → blocked = true → d.stream = false → x.waitingRows.length < 16 →
            Completes (.arrayRowCommit c tag m u blocked) s fun t => onlyCore c.val s t ∧ getCore t c.val =
              { k with
                regs := { k.regs with fpstat := k.regs.fpstat ||| r.flags }
                arr := { k.arr with
                  execs := execsWith k tag.toNat fun y =>
                    keepSums m.val r.sums { y with waitingRows := y.waitingRows ++ [(m.val, r.cells)] } } }) ∧
          (badEntry d x u = none → r.ok = false → Completes (.arrayRowCommit c tag m u blocked) s fun t =>
            getCore t c.val = { k with arr := { k.arr with
              check := BitVec.ofNat 18 (2 ^ 17 + 0x3F * 2 ^ 9 + (d.base + m.val) % 512)
              execs := execsWith k tag.toNat fun y => keepSums m.val r.sums <|
                if d.stream = true ∨ 8 ≤ y.failed then { y with failed := y.failed + 1, lostRow := y.lostRow <|> some m.val }
                else { y with failed := y.failed + 1, heldRows := y.heldRows ++ [m.val] } } }))) ∧
      (m.val ∈ x.heldRows → d.rows ≤ x.sums.length → badEntry d x u = none →
        (r.ok = true → Completes (.arrayRowReplay c tag m u) s (rowCommitted c.val fl m.val r.cells r.flags (fun y =>
          let z := keepSums m.val r.sums { y with heldRows := y.heldRows.filter fun n => n != m.val }
          { z with committed := z.committed ++ [m.val] }) (satInc k.arr.retry 1) s)) ∧
        (r.ok = false → Completes (.arrayRowReplay c tag m u) s fun t =>
          (getCore t c.val).arr.acc = k.arr.acc ∧ (getCore t c.val).arr.execs = execsWith k tag.toNat fun y =>
            let z := keepSums m.val r.sums { y with heldRows := y.heldRows.filter fun n => n != m.val }
            { z with lostRow := z.lostRow <|> some m.val })) ∧
      (x.waitingRows = [] → x.heldRows = [] → d.rows ≤ x.sums.length →
        let checks := d.colMask ≠ 0
        let packet := k.arr.packets.find? fun p => p.ord == fl.ord
        (∀ sl, d.stream = true → checks → missingSlot d x = some sl →
          Completes (.arrayPassEnd c tag flips) s (fails (if x.early.contains sl then 0x05 else 0x04) sl)) ∧
        (d.stream = true → checks → missingSlot d x = none → packet = none →
          Completes (.arrayPassEnd c tag flips) s (fails 0x04 (d.rows + skewDepth d.aFmt))) ∧
        ((d.stream = true → checks → missingSlot d x = none ∧ packet ≠ none) →
          let bad := badColumns k fl d x ((packet.map FeedSums.words).getD []) flips
          let column := match bad with | [n] => n | _ => 0x3F
          ((checks → bad = []) → x.lostRow = none →
            Completes (.arrayPassEnd c tag flips) s fun t => onlyCore c.val s t ∧ getCore t c.val = { k with
              flights := flightsWith k tag.toNat fun y =>
                if x.pass + 1 < d.passes then { y with aux := .units (x.pass + 1) none } else { y with ph := .done }
              arr := { k.arr with
                execs := k.arr.execs.filter fun y => y.tag != tag.toNat
                packets := k.arr.packets.filter fun p => p.ord != fl.ord } }) ∧
          (checks → bad ≠ [] → x.lostRow = none →
            Completes (.arrayPassEnd c tag flips) s (fails 6 (2 ^ 15 + column * 2 ^ 9))) ∧
          (∀ row, x.lostRow = some row →
            Completes (.arrayPassEnd c tag flips) s (fails 6
              ((if checks ∧ bad ≠ [] then column else 0x3F) * 2 ^ 9 + (d.base + row) % 512))))))

/-- R135, R136, R203, R204, R212: a stream-feed MOVE delivers its slots in order, each when it is due and counted as a line: to the pass
that runs, to the input queue before it, and counted as late when it has come after its cycle or after the pass; behind its last slot the
checksum packet, with the sums of its rows, is delivered and the MOVE is done. It rests on the model's choices of logs 15, 17. -/
def Obligations.StreamFeedDeliversItsSlots : Prop :=
  ∀ (c : CoreNo) (tag : BitVec 5) (cycle : Nat) (fl : Flight) (p : MoveProg) (s : State),
    let k := getCore s c.val
    let m := moveDesc fl
    let pass := k.flights.find? fun f => f.eng == 2 && decide (wOpc f.word = 0x20) && (passDesc f).stream && f.ord == fl.ord
    let line : Line := BitVec.ofNat 512 (skewLine m.laneFmt m.len0 m.n1 p.rows p.slot).1
    let sent (arr : Arr) (t : State) : Prop := onlyCore c.val s t ∧ getCore t c.val = { k with
      flights := flightsWith k tag.toNat fun f => { f with
        aux := .move { p with slot := p.slot + 1, first := if p.slot = 0 then cycle else p.first, last := cycle, moved := true } }
      regs := { k.regs with dmaLines := satInc k.regs.dmaLines 1 }
      arr }
    frozen s = false → k.resetting = false → flightOf k tag.toNat = some fl → fl.aux = .move p → m.dstKind = 3 → fl.ph = .started →
    (slotDue m p cycle = true →
      (∀ f x, pass = some f → execOf k f.tag = some x → x.tag = f.tag →
        Completes (.streamSlotArrival c tag cycle) s (sent (
          let q := x.t0 + p.slot
          { k.arr with
            late := if q < cycle then satInc k.arr.late 1 else k.arr.late
            execs := execsWith k f.tag fun _ =>
              if q < cycle then x else if cycle + 8 < q then { x with early := x.early ++ [p.slot] }
              else { x with got := x.got ++ [(p.slot, line)] } }))) ∧
      ((∃ f, pass = some f ∧ f.ph = .queued ∧ execOf k f.tag = none) ∨ (pass = none ∧ k.arr.feedPasses < fl.ord) →
        Completes (.streamSlotArrival c tag cycle) s
          (sent { k.arr with inq := k.arr.inq ++ [{ ord := fl.ord, slot := p.slot, cycle, data := line }] })) ∧
      ((∃ f, pass = some f ∧ f.ph ≠ .queued ∧ execOf k f.tag = none) ∨ (pass = none ∧ fl.ord ≤ k.arr.feedPasses) →
        Completes (.streamSlotArrival c tag cycle) s (sent { k.arr with late := satInc k.arr.late 1 }))) ∧
    (fl.flt = none → m.slots ≤ p.slot → m.crcMode = 0 → p.bank = none → Completes (.checksumPacketArrival c tag) s fun t =>
      onlyCore c.val s t ∧ getCore t c.val = { k with
        flights := flightsWith k tag.toNat fun f => { f with ph := .done }
        regs := { k.regs with dmaLines := satInc k.regs.dmaLines 8 }
        arr := { k.arr with packets := k.arr.packets ++ [{ ord := fl.ord, words := packetWords k fl m p.rows }] } })

/-- R40, R276, R277, R281, R282, R285, R287: a chunk pass of an UPD takes its engine's lowest chunk, reads the tag entry again, and ends by
it: with no slice for the chunk it fails with 0x0D, with tags that fit no pass with 0x0F and the event of R40, with a digest that does not
match with 0x10 and the event at its slice, all unwritten; otherwise its writes go in their order, and it is counted as full, weight-only or
verify once they are all accepted; one that must wait keeps the writes that are left, and a later command carries them on. A sweep's period
ends with its pass counted, and counted as dropped when chunks were left or skipped, and the next starts at shard 0 while the sweep is on. A
chunk is checked in shard and chunk order: an owner's mismatch is corrupt; a replica whose weights do not match its digest gets the stale
marker, a mark, a count and event 0x0103; a match changes nothing; a chunk whose tag line is held, or whose slices are down, is skipped; one
of whose lines must wait is checked by a later command. It rests on the model's choices of logs 11, 15, 28, 50. -/
def Obligations.ChunksFollowTagsAndDigests : Prop :=
  (∀ (c : CoreNo) (tag : BitVec 5) (i : Word32) (fl : Flight) (p : UpdProg) (s : State),
     let k := getCore s c.val
     let u := updDesc fl.desc
     let j := p.first + i.toNat
     let cls := rgClass (regionOf k 0)
     let a := chunkAt p.entry j
     let rest := p.todo.filter fun x => x != i.toNat
     let others := p.passes.filter fun x => x.chunk != i.toNat
     let goes (o : OpenPass) (x : State) : Prop :=
       let r := writeThrough 1202 (rgClass (regionOf (getCore x c.val) 0)) o.writes x
       (r.2.2 = .ok () → Completes (.updChunkPass c tag i) s (chunkEnded c.val fl { p with
         todo := rest, passes := others, full := p.full + b2n (o.kind == 2), wonly := p.wonly + b2n (o.kind == 1)
         verify := p.verify + b2n (o.kind == 0), nonfinite := p.nonfinite || o.nonfinite } r.1)) ∧
       (∀ e, r.2.2 = .err e → Completes (.updChunkPass c tag i) s
         (chunkEnded c.val fl { p with todo := rest, passes := others, fails := p.fails ++ [(i.toNat, e)] } r.1)) ∧
       (r.2.2 = .wait → Completes (.updChunkPass c tag i) s fun t => onlyCore c.val r.1 t ∧ getCore t c.val =
         { getCore r.1 c.val with flights := flightsWith (getCore r.1 c.val) fl.tag fun x =>
           { x with aux := .upd { p with passes := { o with writes := r.2.1 } :: others } } })
     frozen s = false → flightOf k tag.toNat = some fl → fl.ph = .started → fl.aux = .upd p →
     (∀ o, (p.passes.find? fun x => x.chunk == i.toNat) = some o → o.chunk = i.toNat → goes o s) ∧
     (k.resetting = false → i.toNat ∈ p.todo → (∀ o ∈ p.passes, o.chunk ≠ i.toNat) →
       (∀ x ∈ p.todo, x < i.toNat → updEngine s p.entry (p.first + x) ≠ updEngine s p.entry j) → shRecipe p.entry ≠ 2 →
       (updEngine s p.entry j = none → Completes (.updChunkPass c tag i) s
         (chunkEnded c.val fl { p with todo := rest, fails := p.fails ++ [(i.toNat, 0x0D)] } s)) ∧
       (∀ n s2 t, updEngine s p.entry j = some n → tagHeld s (tagAddr p.entry j / 64) = false → readTag 1202 cls p.entry j s = (s2, .ok t) →
         let counted (x : State) : State := modSlice x n fun y => { y with updChunks := satInc y.updChunks 1 }
         (passOf u.n t = none → Completes (.updChunkPass c tag i) s
           (chunkEnded c.val fl { p with todo := rest, fails := p.fails ++ [(i.toNat, 0x0F)] } (counted (tagsInconsistent n u.shard j s2)))) ∧
         ∀ kind s3 w cp m g, passOf u.n t = some kind →
           readParts 1202 cls { a with cLen := if kind = 0 then a.cLen else 0 } (kind ≠ 0) (kind = 2) s2 = (s3, .ok (w, cp, m, g)) →
           let bad : Prop := digest w ≠ t.wdig ∨ (kind = 0 ∧ shMaster p.entry = true ∧ digest cp ≠ t.cdig) ∨ (kind = 2 ∧ digest m ≠ t.mdig)
           let plan : PassPlan := if kind = 0 then { kind } else if kind = 1 then weightPlan u p.entry fl.seed j t w m
             else fullPlan u p.entry {} fl.seed j t w m g
           (bad → Completes (.updChunkPass c tag i) s (chunkEnded c.val fl { p with todo := rest, fails := p.fails ++ [(i.toNat, 0x10)] }
             (counted (shardCorrupt n u.shard j s3)))) ∧
           (¬ bad → goes { chunk := i.toNat, kind := plan.kind, nonfinite := plan.nonfinite, tagLine := tagAddr p.entry j / 64
                           writes := plan.writes } (counted s3))))) ∧
  (∀ (s : State),
     let cb := s.comb
     let w := cb.sweep
     let cls := bitsOf s.reg.cfg.toNat 8 6
     frozen s = false →
     Completes .digestSweepPeriod s (fun t => t = { s with comb := { cb with
       dsweepPasses := if w.running = true then cb.dsweepPasses + 1 else cb.dsweepPasses
       dsweepDropped := if w.running = true ∧ (w.active = true ∨ w.skipped = true) ∧ cb.dsweepDropped ≠ 0xFFFF then cb.dsweepDropped + 1
         else cb.dsweepDropped
       sweep := if cb.dsweepOn then { running := true, active := decide (0 < cb.shardCnt) } else {} } }) ∧
     (∀ s1 e, w.running = true → w.active = true → readShard 1204 cls w.shard s = (s1, .ok e) →
       let goes (r : State) (skip : Bool) (t : State) : Prop := t = { r with comb := { r.comb with sweep := { w with
         shard := if shChunks e ≤ w.chunk + 1 then w.shard + 1 else w.shard
         chunk := if shChunks e ≤ w.chunk + 1 then 0 else w.chunk + 1
         skipped := w.skipped || skip
         active := decide ((if shChunks e ≤ w.chunk + 1 then w.shard + 1 else w.shard) < r.comb.shardCnt) } } }
       ((shValid e = false ∨ shChunks e ≤ w.chunk) → Completes .digestSweepChunk s fun t => t = { s1 with comb := { s1.comb with
         sweep := { w with shard := w.shard + 1, chunk := 0, active := decide (w.shard + 1 < s1.comb.shardCnt) } } }) ∧
       (shValid e = true → w.chunk < shChunks e →
         let held := tagBusy s1 (tagAddr e w.chunk / 64)
         let own := bitsOf s1.reg.cfg.toNat 8 6
         ((updEngine s1 e w.chunk = none ∨ held = true) → Completes .digestSweepChunk s (goes s1 true)) ∧
         ∀ n s2 tg, updEngine s1 e w.chunk = some n → held = false → readTag 1204 own e w.chunk s1 = (s2, .ok tg) →
           (shOwned e = true → tg.mt ≠ tg.wt → Completes .digestSweepChunk s (goes s2 true)) ∧
           (∀ s3 wb cp m g, shOwned e = true → tg.mt = tg.wt →
             readParts 1204 own (chunkAt e w.chunk) true false s2 = (s3, .ok (wb, cp, m, g)) →
             let bad : Prop := digest wb ≠ tg.wdig ∨ digest m ≠ tg.mdig ∨ (shMaster e = true ∧ digest cp ≠ tg.cdig)
             (bad → Completes .digestSweepChunk s (goes (shardCorrupt n w.shard w.chunk s3) false)) ∧
             (¬ bad → Completes .digestSweepChunk s (goes s3 false))) ∧
           (∀ s3 wb, shOwned e = false → tg.wt ≠ 0xFFFFFFFF →
             readSpan 1204 own (chunkAt e w.chunk).w (2 * shParams e) s2 = (s3, .ok wb) →
             (digest wb = tg.wdig → Completes .digestSweepChunk s (goes s3 false)) ∧
             (∀ s4, digest wb ≠ tg.wdig → updWrite 1204 own (tagAddr e w.chunk) (tagBytes { tg with wt := 0xFFFFFFFF }) s3 = (s4, .ok ()) →
               Completes .digestSweepChunk s (goes
                 (logEvent 0x103 (sliceSrc n) (w.shard + w.chunk * 2 ^ 16) (modSlice s4 n fun x =>
                   { x with redCause := x.redCause ||| 8, digestFail := satInc x.digestFail 1 })) false))) ∧
           (shOwned e = false → tg.wt = 0xFFFFFFFF → Completes .digestSweepChunk s (goes s2 true))) ∧
       (∀ s2, shValid e = true → w.chunk < shChunks e → sweepChunk e w.shard w.chunk s1 = (s2, .wait) →
         Completes .digestSweepChunk s fun t => t = s2)))

/-- R314, R319, R321, R338, R339, R358: the states of a link: TRAIN to ALIGN with the lanes that full training has found, or with the saved
maps and equalisation where those are restored; a failed restored training tries in full and a full one goes DOWN; ALIGN to ACTIVE with full
credits and the partner, saving what full training found; DOWN trains again; RECOVER keeps the replay buffer, and its third entry within a
second, its timeout or a lost signal takes the link DOWN, empty, with its packets counted. LNK_CTL's fields are stored; its enable starts a
DISABLED link in native mode in TRAIN, and disabling an enabled one makes it DISABLED. It rests on the model's choices of logs 11, 32, 51.
-/
def Obligations.LinksMoveThroughTheirStates : Prop :=
  (∀ (l : LinkNo) (m : LaneMaps) (dev : BitVec 16) (lnk : BitVec 6) (gen : Byte) (s : State),
     let k := getLink s l.val
     let held := (k.replayBuf.filter fun e => e.2.eop).length + (k.rx.filter fun r => !r.drop && r.fwd.isNone).length
     netRuns s →
     (k.st = .train →
       ((k.restoring = false ∨ k.saved = none) → Completes (.equalisationLock l (some m)) s (linkBecomes l.val { k with
         st := .align, savedUsed := k.restoring, fullNext := k.fullNext && k.restoring, eq := s.free
         rxMap := m.rx, txMap := m.tx, rxBad := m.bad, rxSpare := usesSpare m.rx, txSpare := usesSpare m.tx
         rxSlot := 0, txSlot := 0, fecSeen := 0 } [] (takeFree s))) ∧
       (∀ x, k.restoring = true → k.saved = some x → Completes (.equalisationLock l (some m)) s (linkBecomes l.val { k with
         st := .align, savedUsed := true, eq := x.eq
         rxMap := x.rxMap, txMap := x.txMap, rxBad := x.rxBad, rxSpare := usesSpare x.rxMap, txSpare := usesSpare x.txMap
         rxSlot := 0, txSlot := 0, fecSeen := 0 } [] s)) ∧
       Completes (.equalisationLock l none) s
         (linkBecomes l.val (if k.restoring then { k with restoring := false } else { k with st := .down }) [] s)) ∧
     (k.st = .align → Completes (.alignLock l dev lnk gen) s (linkBecomesLogged l.val { k with
         st := .active
         partner := if k.eth then none else some (dev, lnk, gen)
         saved := if k.savedUsed then k.saved
           else some { partner := (dev, lnk, gen), rxMap := k.rxMap, txMap := k.txMap, rxBad := k.rxBad, eq := k.eq }
         fullNext := k.fullNext || (k.savedUsed && !k.eth && k.saved.any fun x => !(x.partner.1 == dev && x.partner.2.1 == lnk))
         recTimes := []
         credits := [(0, 24), (1, 24), (2, 40), (3, 40), (4, 48), (5, 48), (6, 16), (7, 16)] } [] s)) ∧
     (k.st = .down → k.reading = false → (k.eth = false ∨ portGood k.port = true) → Completes (.downRetry l) s (linkBecomes l.val { k with
         st := .train, restoring := k.saved.isSome && !(k.ctl.getLsbD 2) && !k.fullNext } [] s)) ∧
     (k.st = .active → (∀ x ∈ k.recTimes.drop 1, x + 450000000 ≤ s.mgt.time) → Completes (.recoverEntry l) s (linkBecomes l.val { k with
         st := .recover, recovers := satInc k.recovers 1, cause := k.cause ||| 2, replayRow := 0
         recTimes := (s.mgt.time :: k.recTimes).take 3 } [] s)) ∧
     (∀ a b r, k.st = .active → k.recTimes = a :: b :: r → s.mgt.time < b + 450000000 →
       Completes (.recoverEntry l) s (linkFell l.val .down s)) ∧
     (k.st = .recover → Completes (.recoverComplete l) s fun t =>
       (getLink t l.val).st = .active ∧ ∃ more, (getLink t l.val).replayBuf = k.replayBuf ++ more) ∧
     (k.st = .recover → Completes (.recoverTimeout l) s (linkFell l.val .down s)) ∧
     (k.st = .active ∨ k.st = .recover → Completes (.lossOfSignal l) s (linkFell l.val .down s)) ∧
     ((k.st = .active ∨ k.st = .recover) → (∀ e, (getLink s e).tx = []) → Completes (.lossOfSignal l) s (linkBecomesLogged l.val
       (linkEmptied { k with
         drop := satInc k.drop held
         cause := (if held = 0 then k.cause else k.cause ||| 8) ||| 1 } .down) [] s))) ∧
  (∀ (by_ : By) (l : LinkNo) (v : Word32) (s : State),
     let k := getLink s l.val
     performed by_ false (4 + l.val / 12) 31 (l.val % 12) s →
     (v.getLsbD 0 = true → v.getLsbD 1 = false → k.st = .disabled → s.sec.purged = false → (l.val < 46 ∨ s.net.bypClosed = false) →
       Completes (.linkEnable by_ l v) s (linkBecomes l.val { k with
         ctl := v &&& 0xFFFF0007, eth := false, reading := false, st := .train, restoring := k.saved.isSome && !(v.getLsbD 2) && !k.fullNext } [.done] s)) ∧
     ((v.getLsbD 0 = true ↔ k.st ≠ .disabled) →
       Completes (.linkEnable by_ l v) s (linkBecomes l.val { k with ctl := v &&& 0xFFFF0007 } [.done] s)) ∧
     (v.getLsbD 0 = false → (k.st = .active ∨ k.st = .recover) → Completes (.linkEnable by_ l v) s fun t =>
       (getLink t l.val).st = .disabled ∧ (getLink t l.val).replayBuf = [] ∧ (getLink t l.val).tx = []
       ∧ (getLink t l.val).cause.getLsbD 0 = true ∧ (getLink t l.val).ctl = v &&& 0xFFFF0007))

/-- R312 to R314, R316, R318, R319, R321, R323, R328, R329, R340, R341, R342, R359, R360: a data flit in order is taken and answered by a
flit of the link; a damaged one, or one in an uncorrectable codeword, is discarded with its codewords counted, and the first discard outside
a control slot is told by a NAK; a timeout replays the unacknowledged flits in order; a packet that waited 10 ms for credit is abandoned and
counted; a lane above its threshold is asked to move by a flit in the next control slot, a second one takes the link DOWN; the receive
direction moves to the spare at the control-slot index that its acknowledgement names. LNK_RT_DATA transfers the entry at the index, which
advances and wraps; an entry whose set crosses a link die or is wider than 12 is stored not valid with event 0x010E; seq_reset clears the
sequence number of the group, ctx_reset the contexts of the peer; the bypass opens unless held, its switches while PWR_GOOD is high and
RESET_N not asserted; closing it disables links 46 and 47. It rests on the model's choices of logs 11, 32, 51. -/
def Obligations.FlitsLanesRoutesAndBypass : Prop :=
  (∀ (l : LinkNo) (slot : Nat) (uncorr : BitVec 2) (bits : BitVec 2048) (a : RxAsm) (vc : BitVec 2) (cls : Bool) (p : TxPkt)
     (lane : Fin 4) (index : BitVec 16) (c0 c1 c2 c3 : Word32) (s : State),
     let k := getLink s l.val
     let f := (flitOf bits).1
     let cs := [c0.toNat, c1.toNat, c2.toNat, c3.toNat]
     let above (i : Nat) : Prop := bitsOf k.ctl.toNat 31 16 < cs.getD i 0
     let counted : Link := { k with fecCorr := satInc k.fecCorr cs.sum, eq := s.free }
     let new := (lostCodewords slot uncorr).filter fun c => decide (k.fecSeen ≤ c)
     let seen : Link := { k with
       rxSlot := slot, fecUncorr := satInc k.fecUncorr new.length, fecSeen := new.foldl (fun m c => max m (c + 1)) k.fecSeen }
     netRuns s → k.st = .active → k.eth = false → k.txSwap = none →
     (slot % 78 ≠ 0 → uncorr = 0 → (flitOf bits).2 = true → f.kind = 1 → f.seq = k.rxSeq.toNat → f.sop = false → f.eop = false →
       tblGet 0 k.credits f.pool + f.credits ≤ poolSize f.pool → k.rx.find? (fun r => r.vc == f.vc) = some a → a.drop = false →
       a.fwd = none → Completes (.flitReceived l slot uncorr bits) s fun t =>
         (getLink t l.val).rxSeq = k.rxSeq + 1 ∧ (getLink t l.val).nakOut = false ∧ t.answers ≠ []
         ∧ (getLink t l.val).rx = k.rx.filter (fun r => r.vc != f.vc) ++ [{ a with bytes := a.bytes ++ f.data.take f.bytes }]) ∧
     (k.rxSwap = none → ((flitOf bits).2 = false ∨ lostCodewords slot uncorr ≠ []) →
       ((slot % 78 = 0 ∨ k.nakOut = true) → Completes (.flitReceived l slot uncorr bits) s (linkBecomes l.val seen [] s)) ∧
       (slot % 78 ≠ 0 → k.nakOut = false → k.txSlot % 78 ≠ 0 → Completes (.flitReceived l slot uncorr bits) s fun t =>
         linkBecomes l.val { seen with nakOut := true, txSlot := k.txSlot + 1, owed := (getLink t l.val).owed }
           [sentFlit l.val k { kind := 2 }] s t)) ∧
     (k.replayBuf = [] → Completes (.replayTimeout l) s fun t => t = { s with answers := [] }) ∧
     (k.replayBuf ≠ [] → k.replayRow < 31 → (∀ e ∈ k.owed, e.2 = 0) → (∀ i < k.replayBuf.length, (k.txSlot + i) % 78 ≠ 0) →
       Completes (.replayTimeout l) s fun t =>
         linkBecomes l.val { k with
           replays := satInc k.replays 1, replayRow := k.replayRow + 1, txSlot := k.txSlot + k.replayBuf.length
           owed := (getLink t l.val).owed }
           (k.replayBuf.map fun e => .flit l.val (flitBits { dataFlit e.1 e.2 with ack := ackOf k })) s t) ∧
     (k.tx = [p] → p.vc = vc.toNat → p.cls = cls → p.flits ≠ [] → p.src = none →
       (0 < tblGet 0 k.credits (poolOf p) → Completes (.cutThroughTimeout l vc cls) s fun t => t = { s with answers := [] }) ∧
       (tblGet 0 k.credits (poolOf p) = 0 → Completes (.cutThroughTimeout l vc cls) s (linkBecomes l.val { k with
         tx := if p.begun then [{ p with
           more := false, inBuf := 1, flits := [{ vc := p.vc, cls := p.cls, sop := false, eop := true, abort := true, bytes := [] }] }] else []
         drop := satInc k.drop 1
         cause := k.cause ||| 8 } [] s))) ∧
     (k.rxRequest = some lane.val → k.rxSwap = none →
       (indexReached k.rxSlot index = false → Completes (.laneSwap l lane index) s fun t =>
         linkBecomes l.val { k with
           rxSwap := some (lane.val, index), txSlot := nextControl k.txSlot + 1, owed := (getLink t l.val).owed }
           [sentFlit l.val k (controlFlit s l.val 2 lane.val index.toNat)] s t) ∧
       (indexReached k.rxSlot index = true → Completes (.laneSwap l lane index) s fun t =>
         linkBecomesLogged l.val { k with
           rxBad := k.rxBad ||| BitVec.ofNat 5 (2 ^ laneOf k.rxMap lane.val), rxMap := toSpare k.rxMap lane.val, rxSpare := true
           rxRequest := none, cause := k.cause ||| 4, txSlot := nextControl k.txSlot + 1, owed := (getLink t l.val).owed }
           [sentFlit l.val k (controlFlit s l.val 2 lane.val index.toNat)] s t)) ∧
     ((∀ i < 4, above i → k.rxRequest = some i) →
       Completes (.linkAdaptation l c0 c1 c2 c3) s (linkBecomes l.val counted [] (takeFree s))) ∧
     (above lane.val → k.rxSwap = none → k.rxSpare = false → k.rxRequest = none → (∀ i < 4, above i → i = lane.val) →
       Completes (.linkAdaptation l c0 c1 c2 c3) s fun t =>
         linkBecomes l.val { counted with
           rxRequest := some lane.val, txSlot := nextControl k.txSlot + 1, owed := (getLink t l.val).owed }
           [sentFlit l.val counted (controlFlit s l.val 1 lane.val 0)] (takeFree s) t) ∧
     (above lane.val → k.rxRequest ≠ some lane.val → (k.rxSpare = true ∨ k.rxRequest ≠ none) →
       Completes (.linkAdaptation l c0 c1 c2 c3) s (linkFell l.val .down s))) ∧
  (∀ (by_ : By) (v : Word32) (s : State),
     let n := s.net
     let i := n.rtAddr.toNat
     let oneDie (first width : Nat) : Prop := width = 0 ∨ (first + width ≤ 48 ∧ first / 12 = (first + width - 1) / 12)
     let good : Prop := rtWidth v ≤ 12 ∧ oneDie (rtFirst v) (rtWidth v) ∧ (rtAltValid v = true → oneDie (rtAlt v) (rtWidth v))
     let entered (w : Word32) (u t : State) : Prop :=
       t = { u with answers := [.done], net := { n with rt := t.net.rt, rtAddr := n.rtAddr + 1 } }
       ∧ ∀ j, rtEntry t j = if j = i then w else rtEntry s j
     (performed by_ false 0 31 64 s →
       Completes (.lnkRtDataAccess by_ none) s (fun t =>
         t = { s with answers := [.value (rtEntry s i)], net := { n with rtAddr := n.rtAddr + 1 } }) ∧
       (good → Completes (.lnkRtDataAccess by_ (some v)) s (entered v s)) ∧
       (¬ good → Completes (.lnkRtDataAccess by_ (some v)) s (entered (v &&& 0x7FFFFFFF) (logEvent 0x10E (blockSrc 0 31 64) i s))) ∧
       (netRuns s → v.getLsbD 21 = false → Completes (.seqReset by_ v) s fun t =>
         t = { s with answers := [.done], net := { n with ctl := t.net.ctl, seqs := t.net.seqs } }
         ∧ t.net.ctl.toNat = v.toNat % 2 ^ 20 ∧ ∀ g, tblGet 0 t.net.seqs g = if g = v.toNat % 256 then 0 else tblGet 0 n.seqs g) ∧
       (netRuns s → v.getLsbD 20 = false → n.colls = [] → Completes (.ctxReset by_ v) s fun t =>
         t = { s with answers := [.done], net := { n with ctl := t.net.ctl, ctxs := t.net.ctxs } }
         ∧ t.net.ctl.toNat = v.toNat % 2 ^ 20
         ∧ ∀ key, getCtx t key = if key / 4 = v.toNat / 256 % 4096 then newCtx s else getCtx s key)) ∧
     (performed by_ false 8 31 2 s →
       (n.bypHold = true → Completes (.bypassOpen by_) s (answers .done s)) ∧
       (n.bypHold = false → Completes (.bypassOpen by_) s fun t =>
         t = { s with answers := [.done], net := { n with bypClosed := n.bypClosed && (!s.pins.pwrGood || s.pins.reset), bypOpen := true } }) ∧
       (n.bypOpen = false → Completes (.bypassClose by_) s (answers .done s)) ∧
       (n.bypOpen = true → Completes (.bypassClose by_) s fun t =>
         t.net.bypClosed = true ∧ t.net.bypOpen = false ∧ (getLink t 46).st = .disabled ∧ (getLink t 47).st = .disabled)))

/-- R325 to R327, R330: a packet for this device goes where its type says, an MFRAME to MP; one of another generation, of an unknown type,
of a length that its type contradicts or with a failing CRC is discarded and counted. A packet for another device is forwarded on the native
link that routing gives with its hop limit lowered; with no hop left, from an Ethernet port, or with no native way, it is discarded and
counted at its port. It rests on the model's choices of log 32. -/
def Obligations.PacketsReachTheirPlaces : Prop :=
  ∀ (l : LinkNo) (cls : Bool) (p : Packet) (s : State),
    let other : Prop := p.dgen ≠ 0 ∧ p.dgen ≠ s.boot.gen
    netRuns s →
    (p.dst = s.net.devid → (other ∨ packetBad (getLink s l.val).eth p = true) → Completes (.packetReceived l p) s fun t =>
      t = { s with answers := [], net := { s.net with drop := satInc s.net.drop 1 } }) ∧
    (p.dst = s.net.devid → ¬ other → packetBad (getLink s l.val).eth p = false → p.typ = 0x20 →
      Completes (.packetReceived l p) s fun t =>
        t = { s with answers := [], frames := { s.frames with inbox := s.frames.inbox ++ [(p.src, p.payload)] } }) ∧
    (p.dst = s.net.devid → ¬ other → packetBad (getLink s l.val).eth p = false → p.typ = 0x20 →
      Completes (.packetForward l cls p) s fun t =>
        t = { s with answers := [], frames := { s.frames with inbox := s.frames.inbox ++ [(p.src, p.payload)] } }) ∧
    (p.dst ≠ s.net.devid → (p.hop = 0 ∨ (getLink s l.val).eth = true ∨ forwardRoute p.dst s = .unreachable) →
      Completes (.packetForward l cls p) s (linkDrops l.val s)) ∧
    ((rtIndex s p.dst = none ∨ ∃ i, rtIndex s p.dst = some i ∧ rtEth (rtEntry s i) = true) → p.dst ≠ s.net.devid →
      Completes (.packetForward l cls p) s (linkDrops l.val s)) ∧
    (∀ e slot dl, p.hop ≠ 0 → (getLink s l.val).eth = false → forwardRoute p.dst s = .native e slot dl → (getLink s e).tx = [] →
      (getLink s e).credits = [] → Completes (.packetForward l cls p) s fun t =>
        let fl := flitsOf p.vc.toNat (cls || dl) (packetBytes { p with hop := p.hop - 1 })
        t = { s with answers := [], net := { s.net with links := t.net.links, rr := t.net.rr } }
        ∧ getLink t e = { getLink s e with tx := [{
            vc := p.vc.toNat, cls := cls || dl, flits := fl, inBuf := min fl.length (poolSize (2 * p.vc.toNat + b2n (cls || dl))) }] }
        ∧ tblGet 0 t.net.rr slot = e ∧ ∀ m, m ≠ e → getLink t m = getLink s m)

/-- R332, R333, R335 to R337: an Ethernet frame with a failing FCS or of another EtherType is dropped and counted, and an ARP request for
the port's address is answered, once its priority is not paused; a priority flow control frame pauses the priorities that the port entry
honours; an EACK frees what it covers, restarts the timeout and opens the window by one each window, and congestion echo halves it at most
once in a window; the timer sends an EACK where the peer can be reached, and clears what was to be acknowledged; a timeout doubles, and the
twelfth in a row fails the context. It rests on the model's choices of logs 34, 51. -/
def Obligations.EthernetContextsAcknowledge : Prop :=
  ∀ (l : LinkNo) (frame : List Byte) (p : Packet) (peer : BitVec 12) (vc : BitVec 2) (s : State),
    let k := getLink s l.val
    let key := ctxKey peer.toNat vc.toNat
    let c := getCtx s key
    netRuns s →
    (k.st = .active → k.eth = true →
      (withoutFcs frame = none → Completes (.ethFrameReceived l frame) s (linkDrops l.val s)) ∧
      ∀ fr, withoutFcs frame = some fr →
        (¬ beAt fr 12 2 ∈ [0x0806, 0x0800, 0x86DD, 0x8100, 0x8808] → Completes (.ethFrameReceived l frame) s (linkDrops l.val s)) ∧
        (∀ r, beAt fr 12 2 = 0x0806 → arpReply k.port (fr.drop 14) = some r →
          (portPaused s l.val = false → Completes (.ethFrameReceived l frame) s fun t =>
            t = { s with answers := [.frame l.val (withFcs r)] }) ∧
          (portPaused s l.val = true → Completes (.ethFrameReceived l frame) s
            (linkBecomes l.val { k with frames := k.frames ++ [withFcs r] } [] s))) ∧
        (beAt fr 12 2 = 0x8808 → beAt fr 0 6 = 0x0180C2000001 → beAt fr 14 2 = 0x0101 → k.frames = [] →
          Completes (.ethFrameReceived l frame) s fun t =>
            linkBecomes l.val { k with paused := (getLink t l.val).paused } [] s t
            ∧ ∀ i < 8, tblGet 0 (getLink t l.val).paused i =
                if (beAt fr 16 2).testBit i = true ∧ bitOf (bitsOf k.port.toNat 11 4) i = true then
                  s.mgt.time + ceilDiv (beAt fr (18 + 2 * i) 2 * 576) 1000
                else tblGet 0 k.paused i)) ∧
    (peerOf s p.src = some peer.toNat → p.vc = vc →
      let cum := BitVec.ofNat 32 (pField p 0x14 4)
      let echo := pField p 0x18 1 % 2 == 1
      let left := c.unacked.filter fun e => decide ((cum - e.pkt.seq).toNat ≥ 2 ^ 31)
      let n := c.unacked.length - left.length
      c.queue = [] →
      (0 < n → echo = false → Completes (.eackReceived p) s (ctxBecomes key { c with
          unacked := left
          window := if c.window ≤ c.sinceGrow + n then min s.net.ethWindow.toNat (c.window + 1) else c.window
          sinceGrow := if c.window ≤ c.sinceGrow + n then c.sinceGrow + n - c.window else c.sinceGrow + n
          sinceCut := c.sinceCut + n, dups := 0, rto := s.net.ethRto.toNat, expiries := 0 } [] s)) ∧
      (0 < n → echo = true → c.cut = true → c.sinceCut + n < c.window → Completes (.eackReceived p) s (ctxBecomes key { c with
          unacked := left, sinceGrow := 0, sinceCut := c.sinceCut + n, dups := 0, rto := s.net.ethRto.toNat, expiries := 0 } [] s)) ∧
      (0 < n → echo = true → (c.cut = false ∨ c.window ≤ c.sinceCut + n) → Completes (.eackReceived p) s (ctxBecomes key { c with
          unacked := left, window := max 4 (c.window / 2), sinceGrow := 0, sinceCut := 0, cut := true, dups := 0
          rto := s.net.ethRto.toNat, expiries := 0 } [] s)) ∧
      (c.unacked = [] → echo = false → c.sinceGrow < c.window → Completes (.eackReceived p) s
        (ctxBecomes key { c with dups := c.dups + 1 } [] s))) ∧
    (c.rxUnacked = 0 → Completes (.eackTimer peer vc) s fun t => t = { s with answers := [] }) ∧
    (c.rxUnacked ≠ 0 → route c.dev vc.toNat (clearAnswers s) = (clearAnswers s, .ok .unreachable) →
      Completes (.eackTimer peer vc) s fun t => t = { s with answers := [] }) ∧
    (∀ m pe e, c.rxUnacked ≠ 0 → route c.dev vc.toNat (clearAnswers s) = (clearAnswers s, .ok (.eth m pe e)) →
      Completes (.eackTimer peer vc) s fun t =>
        getCtx t key = { c with rxUnacked := 0, ceSeen := false } ∧ (∀ x, x ≠ key → getCtx t x = getCtx s x)
        ∧ (portPaused s m = false → ∃ fr, t.answers = [.frame m fr])) ∧
    ((c.unacked = [] ∨ c.failed = true) → Completes (.retransmissionTimeout peer vc) s fun t => t = { s with answers := [] }) ∧
    (c.unacked ≠ [] → c.failed = false → c.expiries < 11 → Completes (.retransmissionTimeout peer vc) s fun t =>
      { getCtx t key with entry := c.entry } = { c with expiries := c.expiries + 1, rto := min 1024 (2 * c.rto) }
      ∧ ∀ x, x ≠ key → { getCtx t x with entry := (getCtx s x).entry } = getCtx s x) ∧
    (c.unacked ≠ [] → c.failed = false → 11 ≤ c.expiries → s.net.colls = [] → Completes (.retransmissionTimeout peer vc) s fun t =>
      ctxBecomes key { c with failed := true, expiries := c.expiries + 1, unacked := [], queue := [] } [] 
        { s with net := { s.net with cause := s.net.cause ||| 16 } } t)

/-- R344, R345, R348, R349: in the turn of its core, and while fewer than 64 are in it, the engine takes the oldest COLL of the core; a
malformed descriptor or an invalid group faults with 0x0E, an extent outside its region with the region's code; a COLL of no elements is
done and still takes a sequence number; an accepted one stands in the records with the next sequence number of its group, and waits while
four of the group are active; one that was aborted before faults with 0x30 and the rank of the member that aborted it. A shard gather needs
a valid shard of another owner and its chunks. It rests on the model's choices of log 33. -/
def Obligations.CollectivesAreAccepted : Prop :=
  ∀ (c : CoreNo) (tag : BitVec 5) (f : Flight) (s : State),
    let k := getCore s c.val
    let d := collDesc f
    let seq := tblGet 0 s.net.seqs d.group + 1
    let taken (u : State) : State := { u with net := { u.net with lastCore := c.val } }
    netRuns s → getColl s c.val tag.toNat = none → (∀ x ∈ s.net.colls, x.active = true) →
    ((64 ≤ s.net.colls.length ∨ collNext s c.val = false) → Completes (.collAccept c tag) s fun t => t = { s with answers := [] }) ∧
    (s.net.colls.length < 64 → collNext s c.val = true → queuedColl k = some f → f.tag = tag.toNat →
    (collMalformed f = true → Completes (.collAccept c tag) s (flightFaults c.val f 0x0E 0 (taken (clearAnswers s)))) ∧
    (∀ s1 r mem, collMalformed f = false → d.op ≠ 5 → readGroup d.cls d.group (clearAnswers s) = (s1, .ok r) → s1.net = s.net →
      netRuns s1 → getCore s1 c.val = k →
      (r = none → Completes (.collAccept c tag) s (flightFaults c.val f 0x0E 0 (taken s1))) ∧
      (∀ own, r = some (own, mem) → ((d.op = 3 ∧ d.count % mem.length ≠ 0) ∨ (d.op = 4 ∧ mem.length ≤ d.root)) →
        Completes (.collAccept c tag) s (flightFaults c.val f 0x0E 0 (taken s1))) ∧
      (∀ own, r = some (own, mem) → ¬ ((d.op = 3 ∧ d.count % mem.length ≠ 0) ∨ (d.op = 4 ∧ mem.length ≤ d.root)) →
        (d.count = 0 → Completes (.collAccept c tag) s fun t =>
          t = { s1 with cores := t.cores, net := { s.net with seqs := t.net.seqs, lastCore := c.val } }
          ∧ (∀ g, tblGet 0 t.net.seqs g = if g = d.group then seq else tblGet 0 s.net.seqs g)
          ∧ getCore t c.val = { k with flights := flightsWith k tag.toNat fun x => { x with ph := .done } }) ∧
        (∀ code rg, d.count ≠ 0 → collRegions k d mem.length own = some (code, rg) →
          Completes (.collAccept c tag) s (flightFaults c.val f code rg (taken s1))) ∧
        (d.count ≠ 0 → collRegions k d mem.length own = none →
          reduces d = true → d.exact = true → inHbm (regionAddr k d.workR d.workOff) = true →
          Completes (.collAccept c tag) s (flightFaults c.val f 0x2C 0 (taken s1))) ∧
        (d.count ≠ 0 → collRegions k d mem.length own = none →
          ¬ (reduces d = true ∧ d.exact = true ∧ inHbm (regionAddr k d.workR d.workOff) = true) →
          (∀ x, flightOf k tag.toNat = some f → s.net.aborts.find? (fun x => x.1 == d.group && x.2.1 == seq) = some x →
            Completes (.collAccept c tag) s fun t =>
              faultedWith c.val f 0x30 ((mem.findIdx? fun m => m.1 == x.2.2).getD 0xFFFF) s1 t ∧ getColl t c.val tag.toNat = none) ∧
          (4 ≤ (s.net.colls.filter fun x => x.group == some d.group).length →
            (∀ x ∈ s.net.early, ¬ (x.1 = d.group ∧ x.2.1 = seq)) → (∀ x ∈ s.net.aborts, ¬ (x.1 = d.group ∧ x.2.1 = seq)) →
            Completes (.collAccept c tag) s fun t =>
              t.net.colls = s.net.colls ++ [{
                core := c.val, tag := tag.toNat, group := some d.group, seq, rank := own, members := mem, hash := collHash f
                steps := collSteps d mem.length own, expect := awaited (collSteps d mem.length own)
                sendTo := sentTo (collSteps d mem.length own) }]
              ∧ tblGet 0 t.net.seqs d.group = seq
              ∧ getCore t c.val = { k with flights := flightsWith k tag.toNat fun x => { x with ph := .started } })))) ∧
    (collMalformed f = false → d.op = 5 →
      (d.count = 0 → Completes (.collAccept c tag) s fun t =>
        t = { taken (clearAnswers s) with cores := t.cores }
        ∧ getCore t c.val = { k with flights := flightsWith k tag.toNat fun x => { x with ph := .done } }) ∧
      (d.count ≠ 0 → s.comb.shardCnt ≤ d.shard →
        Completes (.collAccept c tag) s (flightFaults c.val f 0x0E 0 (taken (clearAnswers s)))) ∧
      ∀ s1 e, d.count ≠ 0 → d.shard < s.comb.shardCnt → readShard 1201 d.cls d.shard (clearAnswers s) = (s1, .ok e) →
        s1.net = s.net → netRuns s1 → getCore s1 c.val = k →
        ((shValid e = false ∨ shOwned e = true) → Completes (.collAccept c tag) s (flightFaults c.val f 0x0E 0 (taken s1))) ∧
        (shValid e = true → shOwned e = false → shChunks e < d.first + d.count →
          Completes (.collAccept c tag) s (flightFaults c.val f 0x01 0 (taken s1)))))

/-- R350, R351, R355, R356: READY counts a rank as ready, one whose hash differs fails the collective with 0x31, and one for a collective
not accepted yet is kept; awaited DATA is written or contributed and counted, other DATA is dropped; the last DONE ends a collective whose
steps are done; ABORT fails it with 0x30, or with 0x31 where the READYs of the two members disagree, or is kept for one of the next four of
the group; the timeout fails it with 0x2F. It rests on the model's choices of logs 33, 36. -/
def Obligations.CollectivePacketsMoveTheirCollective : Prop :=
  ∀ (c : CoreNo) (tag : BitVec 5) (p : Packet) (k : Coll) (f : Flight) (r : Nat) (s : State),
    let g := pField p 0x18 1
    let seq := BitVec.ofNat 32 (pField p 0x14 4)
    let hash := BitVec.ofNat 32 (pField p 0x1C 4)
    let d := collDesc f
    netRuns s →
    (collOf s g seq = some k → k.core = c.val → k.tag = tag.toNat → rankOf k p.src = some r → flightOf (getCore s c.val) tag.toNat = some f →
      onlyColl k s →
      (hash = k.hash → sendBlocked k r → noDoneDue k → Completes (.readyReceived p) s (collBecomes k (fun x => { x with readys := r :: x.readys }) (clearAnswers s))) ∧
      (hash ≠ k.hash → Completes (.readyReceived p) s fun t => faultedWith c.val f 0x31 r s t ∧ t.net.colls = []) ∧
      (let phase := pField p 0x19 1
       let lo := pField p 0x1C 4
       let z := if phase = 0 then collElem d.fmt else sendElem d 2
       let n := p.payload.length / z
       let wanted : Prop := k.active = true ∧ p.payload.length % z = 0
         ∧ ∃ a ∈ k.expect, a.1 = r ∧ a.2.1 = phase ∧ a.2.2.1 ≤ lo ∧ lo + n ≤ a.2.2.2
       (¬ wanted → Completes (.dataReceived p) s fun t => t = { s with answers := [] }) ∧
       ∀ s1 m, wanted → sendBlocked k r → noDoneDue { k with got := k.got ++ [(r, phase, lo, m)] } → applyData k f phase lo p.payload (clearAnswers s) = (s1, m, .ok ()) → s1.net = s.net →
         netRuns s1 → getCore s1 c.val = getCore s c.val → m ≠ 0 →
         Completes (.dataReceived p) s (collBecomes k (fun x => { x with got := x.got ++ [(r, phase, lo, m)] }) s1)) ∧
      (sendBlocked k r → noDoneDue k → Completes (.doneReceived p) s (collBecomes k (fun x => { x with dones := r :: x.dones }) (clearAnswers s))) ∧
      (k.active = true → k.steps = [] → (∀ x ∈ k.sendTo, x = r ∨ x ∈ k.dones) → (∀ x ∈ senders k, x ∈ k.doneSent) → Completes (.doneReceived p) s fun t =>
        t.net.colls = [] ∧ getCore t c.val = { getCore s c.val with
          flights := flightsWith (getCore s c.val) tag.toNat fun x => { x with ph := .done } }) ∧
      Completes (.abortReceived p) s (fun t => t.net.colls = [] ∧ t.net.cause.getLsbD 2 = true
        ∧ faultedWith c.val f (if pField p 0x1C 1 = 0x31 ∧ r ∈ k.readySent ∧ ¬ r ∈ k.readys then 0x31 else 0x30) r s t) ∧
      (k.active = true → Completes (.collectiveTimeout c tag) s fun t =>
        t.net.colls = [] ∧ t.net.cause.getLsbD 1 = true ∧ faultedWith c.val f 0x2F 0xFFFF s t)) ∧
    (collOf s g seq = none →
      let ahead := (seq - (tblGet 0 s.net.seqs g + 1)).toNat
      Completes (.readyReceived p) s (fun t => t = { s with
        answers := [], net := { s.net with early := if ahead < 2 ^ 31 then s.net.early ++ [(g, seq, p.src, hash)] else s.net.early } }) ∧
      Completes (.dataReceived p) s (fun t => t = { s with answers := [] }) ∧
      Completes (.doneReceived p) s (fun t => t = { s with answers := [] }) ∧
      Completes (.abortReceived p) s fun t => t.net.cause = s.net.cause ||| 4
        ∧ (ahead < 4 → (g, seq, p.src) ∈ t.net.aborts) ∧ (4 ≤ ahead → t.net.aborts = s.net.aborts))

/-- R286, R354: GDATA whose digest holds puts the chunk's weights and the owner's tag into the replica, and the gather goes on; other
answers, and a damaged chunk, mark the chunk stale; over an Ethernet port the chunk may come in parts; a GSUPER is asked again after its
wait, and the fifth gives up. The owner answers a request by the chunk it holds, by GSUPER while it changes, by GCORRUPT where its digest
fails, and one that meets a held line waits. It rests on the model's choices of log 36. -/
def Obligations.ShardGathersFetchChunks : Prop :=
  ∀ (p : Packet) (superseded : Bool) (k : Coll) (g : Gather) (f : Flight) (s : State),
    let d := collDesc f
    let bytes := g.part ++ p.payload
    let size := 2 * shParams k.entry
    let without (x : Coll) : List Gather := x.gathers.filter fun y => y.chunk != g.chunk
    let goesOn (c : Instr) (change : Coll → Coll) (u : State) : Prop :=
      ∀ v, collBecomes k change u v → netRuns (gatherNext k.core k.tag v) →
        (∀ x ∈ (gatherNext k.core k.tag v).net.colls, x.active = true) → Completes c s fun t => t = gatherNext k.core k.tag v
    let staleBy (c : Instr) (u : State) : Prop :=
      ∀ s1 s2 t, readTag 1201 d.cls k.entry g.chunk u = (s1, .ok t) →
        engineWriteBytes 1201 d.cls 3 (tagAddr k.entry g.chunk) (tagBytes { t with wt := 0xFFFFFFFF }) s1 = (s2, .ok ()) →
        s1.net = s.net → s2.net = s.net → getCore s2 k.core = getCore s k.core →
        goesOn c (fun x => { x with gathers := without x, stale := g.chunk :: x.stale }) s2
    netRuns s → (∀ x ∈ s.net.colls, x.active = true) →
    (gatherOf s p = some (k, g) → flightOf (getCore s k.core) k.tag = some f → getColl s k.core k.tag = some k →
      (bytes.length < size → (peerOf s p.src).isSome = true → Completes (.gdataReceived p) s (collBecomes k (fun x => { x with
        gathers := x.gathers.map fun y => if y.tag = g.tag then { y with part := bytes } else y }) (clearAnswers s))) ∧
      (∀ s1, bytes.length = size → engineWriteBytes 1201 d.cls (bytes.length + 1) (replicaAddr k.entry g.chunk) bytes (clearAnswers s) = (s1, .ok ()) →
        s1.net = s.net → getCore s1 k.core = getCore s k.core →
        (digest bytes ≠ pField p 0x14 8 → staleBy (.gdataReceived p) s1) ∧
        ∀ s2, digest bytes = pField p 0x14 8 → engineWriteBytes 1201 d.cls 3 (tagAddr k.entry g.chunk)
            (tagBytes { mt := 0, wt := pField p 0x1C 4, wdig := pField p 0x14 8, mdig := 0, cdig := 0 }) s1 = (s2, .ok ()) →
          s2.net = s.net → getCore s2 k.core = getCore s k.core →
          goesOn (.gdataReceived p) (fun x => { x with gathers := without x }) s2) ∧
      ((size < bytes.length ∨ (bytes.length ≠ size ∧ peerOf s p.src = none)) → staleBy (.gdataReceived p) (clearAnswers s)) ∧
      staleBy (.gcorruptReceived p) (clearAnswers s) ∧ (5 ≤ g.tries → staleBy (.gsuperReceived p) (clearAnswers s)) ∧
      (g.tries < 5 → Completes (.gsuperReceived p) s (collBecomes k (fun x => { x with
        gathers := x.gathers.map fun y => if y.tag = g.tag then { y with waits := true, part := [] } else y }) (clearAnswers s)))) ∧
    (∀ s2, s.net.colls = [k] → k.gathers = [g] → g.waits = true → g.tag < 2 ^ 16 → flightOf (getCore s k.core) k.tag = some f →
      sendGreq k d g.chunk g.tag (clearAnswers s) = (s2, .ok ()) → netRuns s2 →
      Completes (.greqRetry (BitVec.ofNat 16 g.tag)) s (collBecomes k (fun x => { x with
        gathers := x.gathers.map fun y => if y.tag = g.tag then { y with waits := false, tries := y.tries + 1 } else y }) s2)) ∧
    (let i := pField p 0x14 2
     let ch := pField p 0x18 4
     let sends (c : Instr) (u : State) : Prop := netRuns u → Completes c s fun t => t = u
     let reply (typ : Byte) (u : State) : State := post none { dst := p.src, src := 0, typ, dgen := p.sgen, tag := p.tag } u
     (s.comb.shardCnt ≤ i → Completes (.greqReceived p superseded) s fun t => t = { s with answers := [] }) ∧
     (∀ s1, i < s.comb.shardCnt → readShard 1201 0 i (clearAnswers s) = (s1, .wait) →
       sends (.greqReceived p superseded) { s1 with net := { s1.net with greqs := s1.net.greqs ++ [p] } }) ∧
     ∀ s1 e, i < s.comb.shardCnt → readShard 1201 0 i (clearAnswers s) = (s1, .ok e) →
       let mine : Prop := shValid e = true ∧ shOwned e = true ∧ ch < shChunks e
       (¬ mine → sends (.greqReceived p superseded) s1) ∧
       (mine → (superseded = true ∨ tagHeld s1 (tagAddr e ch / 64) = true) → sends (.greqReceived p superseded) (reply 0x12 s1)) ∧
       ∀ s2 t s3 bs, mine → superseded = false → tagHeld s1 (tagAddr e ch / 64) = false → readTag 1201 0 e ch s1 = (s2, .ok t) →
         let a := if shMaster e then (chunkAt e ch).cp else (chunkAt e ch).w
         let dig := if shMaster e then t.cdig else t.wdig
         readSpan 1201 0 a (2 * shParams e) s2 = (s3, .ok bs) →
         (digest bs = dig → sends (.greqReceived p false)
           (replyRun p (payloadMax p.src 1 s3) a (BitVec.ofNat 96 (digest bs + t.wt * 2 ^ 64)) (bs.length + 1) bs s3)) ∧
         (digest bs ≠ dig → sends (.greqReceived p false)
           (reply 0x13 (shardCorrupt ((updEngine s3 e ch).getD (hashHome s3 ((chunkAt e ch).w / 64))) i ch s3))))

/-- R24, R221, R231 to R240, R244, R473: a home serves a read of a line it holds and records the sharer; a byte that is wrong is corrected
and counted, and an uncorrectable DIRTY line is lost with 0x09; a write is applied at once when no other cache shares the line, and waits in
a miss register for the acknowledgements of the others, or for the recall of an owner. A requester that does not reach the windows is
refused; in a frozen device the debug port at FULL reads what the array holds, once the die's sweep is done. It rests on the model's choices
of logs 8, 11, 18, 52. -/
def Obligations.HomesServeReadsAndWrites : Prop :=
  ∀ (q : Requester) (ln : BitVec 42) (mask : BitVec 64) (d : Line) (us : List Upset) (n : Nat) (l : CombLine) (s : State),
    let a := ln.toNat
    let x := getSlice s n
    (q.debug = true → s.sec.frozen = true → Completes (.combRead q ln us) s (answers
      (if s.sec.level = 2 ∧ s.sec.freezing = false ∧ scanLineReady a s = true then .line 1216 a (rawLine a s) else .refused) s)) ∧
    (frozen s = false → (q.debug = false ∨ s.sec.frozen = false) →
    (windowReach q s = false → Completes (.combRead q ln us) s (answers .refused s)
      ∧ Completes (.combWrite q ln mask d us) s (answers .refused s)) ∧
    (windowReach q s = true → homeOf s a = .cache n → quiet s n → getLine s a = some l →
    (l.dir.st ≠ .hostown → checkLine l = .good → Completes (.combRead q ln []) s fun t =>
      onlyLines [.line q.agent.val a l.data] s t
      ∧ lineBecomes a (if l.dir.st = .reduce then l else { l with dir := addSharer l.dir q.agent.val }) s t) ∧
    (∀ l' b, l.dir.st ≠ .hostown → l.dir.st ≠ .reduce → us ≠ [] → checkLine (us.foldl applyUpset l) = .fixed l' b →
      Completes (.combRead q ln us) s fun t =>
        t.answers = [.line q.agent.val a l'.data] ∧ lineBecomes a { l' with dir := addSharer l'.dir q.agent.val } s t
        ∧ (getSlice t n).corr = satInc x.corr 1 ∧ (getSlice t n).cause.getLsbD 0 = true) ∧
    (l.dir.st = .dirty → us ≠ [] → checkLine (us.foldl applyUpset l) = .bad → Completes (.combRead q ln us) s fun t =>
      t.answers = [.fail q.agent.val a 0x09] ∧ getLine t a = none ∧ (getSlice t n).uncorr = satInc x.uncorr 1
      ∧ t.mgt.stepInt.getLsbD 31 = true ∧ l1Without a none s t) ∧
    (l.dir.st ≠ .hostown → checkLine l = .good → ackers l.dir (some q.agent.val) = [] →
      Completes (.combWrite q ln mask d []) s (lineWritten q.agent.val a l mask d [.ack q.agent.val a] s)) ∧
    (l.dir.st ≠ .hostown → ackers l.dir (some q.agent.val) ≠ [] → Completes (.combWrite q ln mask d []) s fun t =>
      let m : Miss := { line := a, op := .invalidate (ackers l.dir (some q.agent.val)) (some q.agent.val)
                        waiters := [reqOf q (.write mask d)], starter := true }
      onlySlices [] s t ∧ sliceBecomes n { x with miss := [m] } s t) ∧
    (∀ o, l.dir.st = .hostown → l.dir.ptrs = [o] → o ≠ q.agent.val → Completes (.combRead q ln []) s fun t =>
      let m : Miss := { line := a, op := .recall o true, waiters := [reqOf q .read], starter := true }
      onlySlices [] s t ∧ sliceBecomes n { x with miss := [m] } s t)))

/-- R233 to R237, R298, R388: a miss fills a free way from HBM and serves its waiter, with one bad read retried; a fetch that HBM answers
with an error allocates nothing, and every waiter that is not to come again gets that error; the last acknowledgement lets the write go on,
an earlier one only leaves the round; an owner gets the line alone, gives it back by a write-back or at a recall; the data of a line that a
layer reset has taken from its home go to HBM; a request with no room at its home is refused and counted. A refused requester that sends
again is served once its home has room, and no longer counts as refused. It rests on the model's choices of logs 8, 9, 11, 18. -/
def Obligations.MissRegistersHoldTheirLines : Prop :=
  (∀ (h : HostNo) (ln : BitVec 42) (sharer : BitVec 12) (mask : BitVec 64) (d : Line) (q : Req) (rq : Requester) (m : Miss) (n : Nat)
     (l : CombLine) (strike : Option HbmStrike) (s : State),
     let a := ln.toNat
     let x := getSlice s n
     let own := 1200 + h.val
     let cleared : State := { s with answers := [], comb := { s.comb with slices := tblPut s.comb.slices n { x with miss := [] } } }
     frozen s = false → homeOf s a = .cache n → x.refusals = [] →
     (x.miss = [m] → m.line = a →
       (m.op = .fetch → getLine s a = none →
         (m.waiters = [q] → q.op = .read → (strike = none ∨ strike = some .once) → hbmAnswers s (sliceDie n) a →
           (∃ w, s.comb.split ≤ w ∧ w < 16 ∧ ∀ e ∈ setLines s n (hashSet a), e.2.way ≠ w) → Completes (.missFillComplete ln strike) s fun t =>
             t.answers = [.line q.agent a (hbmLine s a)] ∧ sliceBecomes n { x with miss := [] } s t
             ∧ (getStack t (stackOf s a)).retries =
                 (if strike = none then (getStack s (stackOf s a)).retries else satInc (getStack s (stackOf s a)).retries 1)
             ∧ ∃ w, s.comb.split ≤ w ∧ w < 16 ∧ (∀ e ∈ setLines s n (hashSet a), e.2.way ≠ w)
               ∧ lineBecomes a (mkLine w (hbmLine s a) (addSharer { st := .clean } q.agent) none) s t) ∧
         (∀ code, ((strike = none ∧ hbmFails s (sliceDie n) a code) ∨ (strike = some .twice ∧ hbmAnswers s (sliceDie n) a ∧ code = 0x09)) →
           Completes (.missFillComplete ln strike) s fun t =>
             t.answers = (m.waiters.filter fun r => decide (r.op ≠ .again)).map (fun r => .fail r.agent a code)
             ∧ sliceBecomes n { x with miss := [] } s t ∧ t.comb.lines = s.comb.lines ∧ t.cores = s.cores)) ∧
       (getLine s a = some l → l.dir.st ≠ .hostown → checkLine l = .good → m.waiters = [q] → q.op = .write mask d → sharer.toNat < 1200 →
         sharer.toNat ≠ q.agent →
         (m.op = .invalidate [sharer.toNat] (some q.agent) → Completes (.invalidationAck ln sharer) s
           (lineWritten q.agent a l mask d [.ack q.agent a] cleared)) ∧
         (∀ rest keep, rest ≠ [] → ¬ sharer.toNat ∈ rest → m.op = .invalidate (sharer.toNat :: rest) keep →
           Completes (.invalidationAck ln sharer) s fun t =>
             t = { s with answers := [], cores := t.cores, comb := { s.comb with slices := t.comb.slices } }
             ∧ sliceBecomes n { x with miss := [{ m with op := .invalidate rest keep }] } s t
             ∧ ∀ c, getCore t c = if c = sharer.toNat then { getCore s c with l1 := (getCore s c).l1.filter fun e => e.1 != a } else getCore s c)) ∧
       (∀ (new : Option Line) (keeps : Bool), getLine s a = some l → s.comb.splitTo = none → m.op = .recall own keeps → m.waiters = [] →
         Completes (.hostRecallResponse h ln new) s fun t =>
           onlyLines [] cleared t ∧ lineBecomes a (mkLine l.way (new.getD l.own)
             { st := if new.isSome = true ∨ hbmLine s a ≠ new.getD l.own then .dirty else .clean, ptrs := if keeps then [own] else [] } none) s t) ∧
       (m.waiters.length = (if m.starter then 33 else 32) → windowReach rq s = true → (rq.debug = false ∨ s.sec.frozen = false) →
         Completes (.combRead rq ln []) s fun t =>
           onlySlices [.refusedAt rq.agent.val a] s t ∧ sliceBecomes n { x with
             refuse := satInc x.refuse 1
             refusals := [{ agent := rq.agent.val, master := rq.master.val, line := a, count := 1, req := some (reqOf rq .read) }] } s t)) ∧
     (getLine s a = some l → x.miss = [] → l.dir.st ≠ .hostown → checkLine l = .good → ackers l.dir (some own) = [] →
       Completes (.hostOwnershipRequest h ln) s fun t =>
         t = { s with answers := [.line own a l.data], cores := t.cores, comb := { s.comb with lines := t.comb.lines } }
         ∧ l1Without a none s t ∧ lineBecomes a { mkLine l.way l.data { st := .hostown, ptrs := [own] } none with own := l.data } s t) ∧
     (¬ (a, own) ∈ s.comb.hostLeft → getLine s a = some l → x.miss = [] → s.comb.splitTo = none → l.dir.st = .hostown → l.dir.ptrs = [own] →
       Completes (.hostWriteBack h ln d) s fun t =>
         onlyLines [.ack own a] s t ∧ lineBecomes a (mkLine l.way d { st := .dirty } none) s t) ∧
     ((a, own) ∈ s.comb.hostLeft → getLine s a = none → hbmAnswers s (sliceDie (hashHome s a)) a → s.hbm.strike = none →
       Completes (.hostWriteBack h ln d) s fun t =>
         t.answers = [.ack own a] ∧ t.hbm.mem = memWrite s.hbm.mem (64 * a) 64 d.toNat
         ∧ t.comb = { s.comb with hostLeft := s.comb.hostLeft.filter fun e => e != (a, own) })) ∧
  (∀ (agent : Fin 1217) (ln : BitVec 42) (q : Req) (count n : Nat) (l : CombLine) (s : State),
     let a := ln.toNat
     frozen s = false → homeOf s a = .cache n → getLine s a = some l → l.dir.st ≠ .hostown → checkLine l = .good →
     (getSlice s n).miss = [] → q.op = .read → q.agent = agent.val →
     (getSlice s n).refusals = [{ agent := q.agent, master := q.master, line := a, count, req := some q }] →
     Completes (.requestReissue agent ln) s fun t =>
       t = { s with answers := [.line q.agent a l.data], comb := { s.comb with lines := t.comb.lines, slices := t.comb.slices } }
       ∧ sliceBecomes n { getSlice s n with refusals := [] } s t
       ∧ lineBecomes a (if l.dir.st = .reduce then l else { l with dir := addSharer l.dir agent.val }) s t)

/-- R178 to R181, R257 to R265: an atomic request applies its lanes to the line and returns the old values; a contribution outside exact
mode combines into a scratch line and into a REDUCE line of its tag, takes a DIRTY or CLEAN line into REDUCE, and is refused with 0x2B under
another tag; an exact contribution adds to its accumulator in the group, and to HBM is refused with 0x2C; a contribution that has waited
2^20 cycles sets way_wait. It rests on the model's choices of log 8. -/
def Obligations.AtomicsAndContributionsApplyAtHome : Prop :=
  ∀ (q : Requester) (ln : BitVec 42) (op : BitVec 6) (w : BitVec 4) (lanes : List AtomLane) (rop : BitVec 3) (fmt : BitVec 2) (e : BitVec 9)
    (elems : List (Nat × Word32)) (n way : Nat) (l : CombLine) (s : State),
    let a := ln.toNat
    let ag := q.agent.val
    let t0 : RedTag := { exact := false, op := rop, fmt, e := 0 }
    let combined (l : CombLine) (dir : Dir) : CombLine := mkLine l.way (combineLine rop.toNat fmt.toNat l.data elems) dir (some t0)
    frozen s = false → quiet s n →
    (atHome s a n l → ackers l.dir (some ag) = [] → Completes (.atomicApply q ln op w lanes) s
      (lineWritten ag a l (BitVec.allOnes 64) (atomApply op.toNat w.toNat l.data lanes).1
        [.olds ag a (atomApply op.toNat w.toNat l.data lanes).2] s)) ∧
    (homeOf s a = .scratch n way →
      (getLine s a = none → Completes (.reduceContribution q ln rop fmt elems) s fun t =>
        onlyLines [.ack ag a] s t ∧ lineBecomes a (combined (mkLine way 0 {} none) {}) s t) ∧
      (getLine s a = some l → checkLine l = .good → (l.red = none ∨ l.red = some t0) →
        Completes (.reduceContribution q ln rop fmt elems) s fun t => onlyLines [.ack ag a] s t ∧ lineBecomes a (combined l {}) s t) ∧
      (getLine s a = some l → checkLine l = .good → l.red ≠ none → l.red ≠ some t0 →
        Completes (.reduceContribution q ln rop fmt elems) s fun t =>
          onlySlices [.fail ag a 0x2B] s t ∧ sliceBecomes n { getSlice s n with redCause := (getSlice s n).redCause ||| 2 } s t)) ∧
    (atHome s a n l → s.comb.split < 15 →
      (l.dir.st = .reduce → l.red = some t0 → Completes (.reduceContribution q ln rop fmt elems) s fun t =>
        onlyLines [.ack ag a] s t ∧ lineBecomes a (combined l l.dir) s t) ∧
      (l.dir.st ≠ .reduce → ackers l.dir none = [] → reduceWays s n a < (16 - s.comb.split) / 2 →
        Completes (.reduceContribution q ln rop fmt elems) s fun t =>
          t = { s with answers := [.ack ag a], cores := t.cores, comb := { s.comb with lines := t.comb.lines } }
          ∧ l1Without a none s t ∧ lineBecomes a (combined l { st := .reduce }) s t)) ∧
    (inHbm (64 * a) = true → Completes (.exactContribution q ln fmt e elems) s (answers (.fail ag a 0x2C) s)) ∧
    (∀ (i : Nat) (v : Word32) (L : Nat → CombLine),
      let g := a / 4 * 4
      let r := exApply (toSigned 9 e.toNat) (accOf (L (i / 4)).data i) ((redSrc fmt.toNat).decode v.toNat)
      homeOf s g = .scratch n way → i < 16 → r.2 = false →
      (∀ j, j < 4 → getLine s (g + j) = some (L j) ∧ checkLine (L j) = .good ∧ (L j).red = some { exact := true, op := 0, fmt, e }) →
      Completes (.exactContribution q ln fmt e [(i, v)]) s fun t => onlyLines [.ack ag g] s t
        ∧ lineBecomes (g + i / 4) (mkLine (L (i / 4)).way (setLineBytes (L (i / 4)).data (16 * (i % 4)) 16 (ofSigned 128 r.1))
            (L (i / 4)).dir (L (i / 4)).red) s t)

/-- R225, R240, R243, R262: way_wait is set for a line that waits for a reduce way; a scrub visit moves to the next position, is counted
when dropped, and leaves a good line as it is; a slice wakes with no valid line, the next generation and its sweep running, and the sweep's
end is noted; a split change with all cores EMPTY clears the scratch lines, an unchanged split nothing, and a write is refused otherwise. It
rests on the model's choices of log 11. -/
def Obligations.SlicesScrubWakeAndSplit : Prop :=
  ∀ (by_ : By) (n : SliceNo) (ln : BitVec 42) (ways : BitVec 5) (s : State),
    let x := getSlice s n.val
    let pos := if x.scrubPos + 1 ≥ 32768 then 0 else x.scrubPos + 1
    let target := (sliceLines s n.val).find? fun e => storageLine e.1 e.2.way == x.scrubPos
    let w := min ways.toNat 16
    (frozen s = false → homeSlice s ln.toNat = some n.val → (∃ m ∈ x.miss, m.line = ln.toNat ∧ m.op = .wayWait) →
      Completes (.reduceWayWaitTimeout ln) s fun t =>
        onlySlices s.answers s t ∧ sliceBecomes n.val { x with redCause := x.redCause ||| 16 } s t) ∧
    (frozen s = false → sliceUp s n.val = true →
      (∀ us, Completes (.patrolScrubVisit n true us) s fun t => sliceBecomes n.val { x with
        scrubPos := pos, scrubDrop := satInc x.scrubDrop 1, cause := x.cause ||| 16 } s t ∧ t.comb.lines = s.comb.lines) ∧
      (∀ us, ¬ sliceDie n.val ∈ s.comb.scrubOff → target = none → Completes (.patrolScrubVisit n false us) s fun t =>
        sliceBecomes n.val { x with scrubPos := pos } s t ∧ t.comb.lines = s.comb.lines) ∧
      (∀ e, ¬ sliceDie n.val ∈ s.comb.scrubOff → target = some e → lineHeld s n.val e.1 = false → getLine s e.1 = some e.2 →
        checkLine e.2 = .good → Completes (.patrolScrubVisit n false []) s fun t =>
          sliceBecomes n.val { x with scrubPos := pos } s t ∧ ∀ y, getLine t y = getLine s y)) ∧
    (frozen s = false → Completes (.sliceWake n) s fun t =>
      sliceBecomes n.val { lost := x.lost, gen := x.gen + 1, sweeping := true, remaps := remapsFrom s n.val } s t
      ∧ (∀ y, getLine t y = if y ∈ (sliceLines s n.val).map Prod.fst then none else getLine s y)
      ∧ ¬ sliceDie n.val ∈ t.comb.swept) ∧
    (frozen s = false → x.sweeping = true → Completes (.wakeSweepComplete n) s fun t =>
      sliceBecomes n.val { x with sweeping := false } s t ∧ t.comb.lines = s.comb.lines
      ∧ ((∀ e ∈ t.comb.slices, sliceDie e.1 = sliceDie n.val → e.2.sweeping = false) → sliceDie n.val ∈ t.comb.swept)) ∧
    (performed by_ false 1 31 0 s →
      ((∃ e ∈ s.cores, e.2.st ≠ .empty) → Completes (.splitChange by_ ways) s (answers .busError s)) ∧
      ((∀ e ∈ s.cores, e.2.st = .empty) → w = s.comb.split → Completes (.splitChange by_ ways) s fun t =>
        t = { s with answers := [.done], comb := { s.comb with splitTo := none } }) ∧
      ((∀ e ∈ s.cores, e.2.st = .empty) → w ≠ s.comb.split → (∀ e ∈ s.comb.lines, inHbm (64 * e.1) = true → w ≤ e.2.way) →
        Completes (.splitChange by_ ways) s fun t => t.answers = [.done] ∧ t.comb.split = w ∧ t.comb.splitTo = none
          ∧ t.comb.lines = s.comb.lines.filter (fun e => inHbm (64 * e.1))
          ∧ ∀ m, m < 2592 → sliceUp s m = true → (getSlice t m).sweeping = true))

/-- R297 to R302, R304, R305: in its turn a stack answers a read of a good line, retries a failed one, and after a second failure answers
0x09 with the address kept and the line bad until it is written; a write puts the bytes of its mask, or nothing when its parity fails; in
self-refresh both get 0x0D. A hot stack refreshes twice as often and throttles, and cools with hysteresis; its patrol visits granule after
granule, from granule 0 in each period. It rests on the model's choices of logs 11, 52. -/
def Obligations.StacksReadWriteAndCool : Prop :=
  ∀ (q : Requester) (ln : BitVec 42) (mask : BitVec 64) (d : Line) (ecc : Nat) (st : StackNo) (temp : Byte) (expired good retry : Bool) (s : State),
    let a := ln.toNat
    let ag := q.agent.val
    let n := stackOf s a
    let k := getStack s n
    let x := getStack s st.val
    let onlyHbm (a : List Answer) (t : State) : Prop := t = { s with answers := a, hbm := t.hbm, reg := t.reg, mgt := t.mgt }
    let sums (c : Stack) (t : State) : Prop := getStack t n = c ∧ ∀ m, m ≠ n → getStack t m = getStack s m
    frozen s = false →
    (inHbm (64 * a) = false → Completes (.hbmRead q ln good retry ecc) s (answers (.fail ag a 0x02) s)
      ∧ Completes (.hbmWrite q ln mask d good) s (answers (.fail ag a 0x02) s)) ∧
    (inHbm (64 * a) = true → layerDown s 0 = false → s.sec.freezing = false →
      (s.reg.waiting = [] → takeTurn q a (clearAnswers s) = some (regAdmit q.master.val q.cls.toNat false (clearAnswers s)).1) ∧
      (takeTurn q a (clearAnswers s) = none →
        Completes (.hbmRead q ln good retry ecc) s (fun t => t = { s with answers := [] }) ∧
        Completes (.hbmWrite q ln mask d good) s (fun t => t = { s with answers := [] })) ∧
      ∀ u, takeTurn q a (clearAnswers s) = some u →
      (k.selfRefresh = true →
        Completes (.hbmRead q ln good retry ecc) s (fun t => onlyHbm [.fail ag a 0x0D] t ∧ t.hbm = s.hbm ∧ t.reg = u.reg) ∧
        Completes (.hbmWrite q ln mask d good) s (fun t => onlyHbm [.fail ag a 0x0D] t ∧ t.hbm = s.hbm ∧ t.reg = u.reg)) ∧
      (k.selfRefresh = false → a ∈ s.hbm.bad → Completes (.hbmRead q ln good retry ecc) s fun t =>
        onlyHbm [.fail ag a 0x09] t ∧ t.hbm.mem = s.hbm.mem ∧ t.hbm.bad = s.hbm.bad ∧ sums { k with
          eccCorr := satInc k.eccCorr ecc, fails := satInc k.fails 1, failAddr := some (a, false), failValid := true
          cause := k.cause ||| 4 } t) ∧
      (k.selfRefresh = false → ¬ a ∈ s.hbm.bad →
        Completes (.hbmRead q ln true retry ecc) s (fun t => onlyHbm [.line ag a (hbmLine s a)] t ∧ t.reg = u.reg
          ∧ t.hbm.mem = s.hbm.mem ∧ t.hbm.bad = s.hbm.bad ∧ sums { k with eccCorr := satInc k.eccCorr ecc } t) ∧
        Completes (.hbmRead q ln false true ecc) s (fun t => onlyHbm [.line ag a (hbmLine s a)] t
          ∧ t.reg = (regAdmit q.master.val q.cls.toNat true u).1.reg ∧ t.hbm.mem = s.hbm.mem ∧ t.hbm.bad = s.hbm.bad
          ∧ sums { k with eccCorr := satInc k.eccCorr ecc, retries := satInc k.retries 1, cause := k.cause ||| 1 } t) ∧
        Completes (.hbmRead q ln false false ecc) s (fun t => onlyHbm [.fail ag a 0x09] t ∧ t.hbm.mem = s.hbm.mem
          ∧ t.hbm.bad = a :: s.hbm.bad ∧ t.mgt.stepInt.getLsbD 31 = true ∧ sums { k with
              eccCorr := satInc k.eccCorr ecc, fails := satInc k.fails 1, failAddr := some (a, false), failValid := true
              cause := k.cause ||| 4 } t)) ∧
      (k.selfRefresh = false → memWf s.hbm.mem = true → Completes (.hbmWrite q ln mask d true) s fun t =>
        onlyHbm [.ack ag a] t ∧ t.mgt = s.mgt ∧ t.hbm.ctrls = s.hbm.ctrls ∧ t.hbm.bad = s.hbm.bad.filter (fun y => y != a)
        ∧ bytesPut (64 * a) 64 (maskLine (hbmLine s a) d mask).toNat s.hbm.mem t.hbm.mem) ∧
      (k.selfRefresh = false → Completes (.hbmWrite q ln mask d false) s fun t =>
        onlyHbm [.fail ag a 0x09] t ∧ t.hbm.mem = s.hbm.mem ∧ t.mgt.stepInt.getLsbD 31 = true
        ∧ sums { k with failAddr := some (a, true), failValid := true, cause := k.cause ||| 8 } t)) ∧
    (let hot := if 95 ≤ temp.toNat then true else if temp.toNat < 90 then false else x.throttled
     Completes (.hbmTempRead st temp) s fun t =>
      t = { s with hbm := t.hbm, reg := t.reg, mgt := t.mgt } ∧ t.hbm.mem = s.hbm.mem
      ∧ (∀ m, m ≠ st.val → getStack t m = getStack s m)
      ∧ getStack t st.val = { x with
          temp
          refreshX2 := if 85 < temp.toNat then true else if temp.toNat < 80 then false else x.refreshX2
          throttled := hot
          cause := if hot = true ∧ x.throttled = false then x.cause ||| 2 else x.cause }) ∧
    (let p := patrolNow s x
     let cls := bitsOf s.reg.cfg.toNat 11 9
     let drops : Prop := (hbmClass s cls).getLsbD 31 = true ∧ (hbmClass s cls).getLsbD 30 = true
     let granule := localToDevice s.hbm.winSize s.hbm.winBase st.val (256 * p.patrolPos) / 64
     (x.patrolFrom + max 1 x.patrolPeriod.toNat * hourCycles ≤ s.mgt.time → p.patrolPos = 0) ∧
     ((x.patrolOn = false ∨ x.selfRefresh = true ∨ patrolGranules ≤ p.patrolPos) →
       Completes (.hbmPatrolRead st expired good retry ecc) s fun t => t = s) ∧
     (x.patrolOn = true → x.selfRefresh = false → layerDown s 0 = false → p.patrolPos < patrolGranules →
      (drops → Completes (.hbmPatrolRead st true good retry ecc) s fun t => t.hbm.mem = s.hbm.mem ∧ t.hbm.bad = s.hbm.bad
        ∧ tblGet 0 t.reg.clsDrop cls = satInc (tblGet 0 s.reg.clsDrop cls) 1
        ∧ getStack t st.val = { p with patrolPos := p.patrolPos + 1, patrolDrop := satInc p.patrolDrop 1, cause := p.cause ||| 16 }) ∧
      ((expired = false ∨ ¬ drops) → s.hbm.bad = [] →
        Completes (.hbmPatrolRead st expired true retry ecc) s (fun t => t.hbm.mem = s.hbm.mem ∧ t.hbm.bad = []
          ∧ getStack t st.val = { p with patrolPos := p.patrolPos + 1, eccCorr := satInc p.eccCorr ecc }) ∧
        Completes (.hbmPatrolRead st expired false true ecc) s (fun t => t.hbm.mem = s.hbm.mem ∧ t.hbm.bad = []
          ∧ getStack t st.val = { p with
              patrolPos := p.patrolPos + 1, eccCorr := satInc p.eccCorr ecc, retries := satInc p.retries 1, cause := p.cause ||| 1 }) ∧
        Completes (.hbmPatrolRead st expired false false ecc) s (fun t => t.hbm.mem = s.hbm.mem
          ∧ t.hbm.bad = [granule, granule + 1, granule + 2, granule + 3] ∧ t.mgt.stepInt.getLsbD 31 = true)))) ∧
    Completes (.selfRefreshEntry st) s (fun t => t = { s with hbm := { s.hbm with ctrls := t.hbm.ctrls } }
      ∧ getStack t st.val = { x with selfRefresh := true } ∧ ∀ m, m ≠ st.val → getStack t m = getStack s m)

/-- R306: the capacity is the sum of the twelve stacks' derated capacities, and the limit nine tenths of it, rounded down; both are so again
after a stack has changed its mode; with all stacks normal and with all refresh doubled they have the values of the table. -/
def Obligations.CapacityAndLimitFollowTheModes : Prop :=
  let follow (u : State) : Prop := ∀ thr x2 : Nat → Bool,
    (∀ i, i < 12 → (getStack u i).throttled = thr i ∧ (getStack u i).refreshX2 = x2 i) →
    let derated (i : Nat) : Nat :=
      if thr i = true then (if x2 i = true then 58982 else 62259) else if x2 i = true then 117964 else 124518
    regCapacity u = ((List.range 12).map derated).sum ∧ 10 * regLimit u ≤ 9 * regCapacity u ∧ 9 * regCapacity u < 10 * (regLimit u + 1)
    ∧ ((∀ i, i < 12 → thr i = false ∧ x2 i = false) → regCapacity u = 1494216 ∧ regLimit u = 1344794)
    ∧ ((∀ i, i < 12 → thr i = false ∧ x2 i = true) → regCapacity u = 1415568 ∧ regLimit u = 1274011)
  ∀ (st : StackNo) (temp : Byte) (s : State), follow s ∧ (frozen s = false → Completes (.hbmTempRead st temp) s follow)

/-- R303 to R308: the regulator admits a request with its level by its reservation and counts it; a deadline of zero drops a droppable
request and raises another to level 3, as its expiry does later; ageing raises to level 2; a boundary clears the counts and puts admitted
entries in force; an entry is admitted when its range is good, overlaps none of its class and fits the limit, and is refused with its
reason. It rests on the model's choices of logs 14, 48. -/
def Obligations.TheRegulatorAdmitsAndReserves : Prop :=
  ∀ (by_ : By) (id : Nat) (master : Fin 1205) (cls : BitVec 3) (ln : BitVec 42) (tele : Bool) (dl : Option (BitVec 12)) (idx : Fin 32) (v : Word32) (s : State),
    let g := s.reg
    let c := cls.toNat
    let reg := hbmClass s c
    let n := tblGet 0 g.counts master.val
    let m := rsvMatch s master.val c
    let counted (k : Nat) (a : List Answer) (t : State) : Prop := (∀ i, tblGet 0 t.reg.counts i = if i = master.val then n + 64 else tblGet 0 g.counts i)
      ∧ tblGet 0 t.reg.clsReq c = tblGet 0 g.clsReq c + 1 ∧ tblGet 0 t.reg.clsBytes c = tblGet 0 g.clsBytes c + 64
      ∧ t.reg.waiting.length = k ∧ t = { s with answers := a, reg := t.reg }
    let level : Nat := match m with | some e => (if n ≥ 64 * e.eff then 0 else 2) | none => 1
    let w : Word32 := v ||| 0x80000000
    let old := getRsv s idx.val
    let e : Rsv := { old with lo := w &&& 0x01FFFFFF, admitted := false }
    let freed : State := { s with answers := [], reg := { g with rsv := tblPut g.rsv idx.val { old with admitted := false } } }
    (frozen s = false → s.sec.freezing = false →
      let drops : Prop := tele = true ∧ reg.getLsbD 31 = true
      let due : Prop := dl = some 0 ∨ (dl = none ∧ reg.getLsbD 30 = true ∧ reg.toNat % 4096 = 0)
      (¬ due → Completes (.requestAdmission id master cls tele dl ln) s fun t => counted (g.waiting.length + 1) [] t
        ∧ t.reg.waiting = g.waiting ++ [{
            id, master := master.val, cls := c, line := ln.toNat, level, droppable := tele && reg.getLsbD 31 }]) ∧
      (due → drops → Completes (.requestAdmission id master cls tele dl ln) s fun t => counted g.waiting.length [.dropped id] t
        ∧ t.reg.waiting = g.waiting ∧ tblGet 0 t.reg.clsDrop c = satInc (tblGet 0 g.clsDrop c) 1) ∧
      (due → ¬ drops → Completes (.requestAdmission id master cls tele dl ln) s fun t => counted (g.waiting.length + 1) [] t
        ∧ t.reg.waiting = g.waiting ++ [{ id, master := master.val, cls := c, line := ln.toNat, level := 3, droppable := false }])) ∧
    (frozen s = false →
      (∀ r, g.waiting.find? (fun r => r.id == id) = some r →
        (r.droppable = true → Completes (.deadlineExpiry id) s fun t => t = { s with answers := [.dropped id], reg := { g with
          waiting := g.waiting.filter fun x => x.id != id
          clsDrop := tblMod 0 g.clsDrop r.cls fun x => satInc x 1 } }) ∧
        (r.droppable = false → Completes (.deadlineExpiry id) s fun t => t = { s with reg := { g with
          waiting := g.waiting.map fun x => if x.id == id then { x with level := 3 } else x } })) ∧
      Completes (.requestAgeing id) s (fun t => t = { s with reg := { g with
        waiting := g.waiting.map fun x => if x.id = id ∧ x.level < 2 then { x with level := 2 } else x } }) ∧
      Completes .regulatorWindowBoundary s (fun t => t = { s with reg := { g with counts := [], overSeen := [], rsv := t.reg.rsv } }
        ∧ ∀ i e, (i, e) ∈ t.reg.rsv ↔ ∃ o, (i, o) ∈ g.rsv ∧ e = { o with
            inForce := o.admitted, now := o.lo, eff := if o.admitted then o.effNext else 0 })) ∧
    (performed by_ false 0 31 96 s →
      let bad : Prop := rsvLast e < rsvFirst e ∨ 1204 < rsvLast e
      let overlap : Prop := ∃ x ∈ freed.reg.rsv, x.1 ≠ idx.val ∧ x.2.admitted = true ∧ rsvClass x.2 = rsvClass e
        ∧ rsvFirst x.2 ≤ rsvLast e ∧ rsvFirst e ≤ rsvLast x.2
      let above : Prop := regLimit s < rsvSum freed + rsvWeight e
      let refused (why : BitVec 2) (t : State) : Prop := t.answers = [.done] ∧ t.reg.reason = why ∧ t.reg.cause.getLsbD 1 = true
        ∧ (getRsv t idx.val).admitted = false ∧ (getRsv t idx.val).lo = e.lo
      (bad → Completes (.reservationAdmission by_ idx v) s (refused 3)) ∧
      (¬ bad → overlap → Completes (.reservationAdmission by_ idx v) s (refused 2)) ∧
      (¬ bad → ¬ overlap → above → Completes (.reservationAdmission by_ idx v) s (refused 1)) ∧
      (¬ bad → ¬ overlap → ¬ above → Completes (.reservationAdmission by_ idx v) s fun t => t.answers = [.done]
        ∧ (getRsv t idx.val).admitted = true ∧ (getRsv t idx.val).lo = e.lo ∧ (getRsv t idx.val).budget = old.budget
        ∧ ∀ i, i ≠ idx.val → (getRsv t i).admitted = (getRsv s i).admitted))

/-- R366 to R370: an EMPTY box takes payload words, and fills at its header with the receiver's MSI; a FULL one refuses both with code 0x0C,
and a length above 64 is refused; release and acknowledgement empty a FULL box with the sender's MSI, each on its own kind of box, and are
refused elsewhere. It rests on the model's choices of log 35. -/
def Obligations.BoxesFillAndEmpty : Prop :=
  ∀ (by_ : Boxer) (box : BoxId) (w : Fin 16) (v : Word32) (s : State),
    let i := boxNo box
    let b := getBox s i
    let e := s.mbx.eip
    let src := match boxBlock s i with | some (l, r, k) => blockSrc l r k | none => 0
    let emptied (b' : Box) : List (Nat × Bool) := if hostSends i = true ∧ b.intEmpty = true then msiSent b' e else e
    boxReached by_ i s →
    (b.full = false → Completes (.mailboxDataWrite by_ box w v) s fun t =>
      boxBecomes i { b with data := (getBox t i).data } e [.done] s t
      ∧ ∀ j, j < 16 → (getBox t i).data.extractLsb' (32 * j) 32 = if j = w.val then v else b.data.extractLsb' (32 * j) 32) ∧
    (b.full = true → ∀ c ∈ [Instr.mailboxDataWrite by_ box w v, .mailboxSend by_ box v],
      Completes c s fun t => t = answer (logEvent 0x0C src 0 (clearAnswers s)) .busError) ∧
    (b.full = false → v.toNat % 128 ≤ 64 → (i < 1200 → coreEnd s i = false) →
      let b' : Box := { b with full := true, ackValid := false, hdr := v &&& 0xFFFFFF7F }
      Completes (.mailboxSend by_ box v) s
        (boxBecomes i b' (if hostReceives i = true ∧ b.intFull = true then msiSent b' e else e) [.done] s)) ∧
    (b.full = false → 64 < v.toNat % 128 → Completes (.mailboxSend by_ box v) s (answers .busError s)) ∧
    (b.full = true → i < 2400 → (1200 ≤ i → coreEnd s (i - 1200) = false) → Completes (.mailboxRelease by_ box) s
      (boxBecomes i { b with full := false } (emptied { b with full := false }) [.done] s)) ∧
    ((b.full = false ∨ 2400 ≤ i) → Completes (.mailboxRelease by_ box) s (answers .busError s)) ∧
    (b.full = true → 2400 ≤ i →
      let b' : Box := { b with full := false, ack := v.truncate 16, ackValid := true }
      Completes (.mailboxAck by_ box v) s (boxBecomes i b' (emptied b') [.done] s)) ∧
    ((b.full = false ∨ i < 2400) → Completes (.mailboxAck by_ box v) s (answers .busError s))

/-- R373: the post service delivers a message at once to an EMPTY box that it reaches and keeps it otherwise, behind those posted before it;
it refuses one to a box that the host complex does not send to, one of a bad length, and one beyond its limit; a held message is withdrawn
by its handle, and delivered when its box is tried again. It rests on the model's choices of logs 23, 35. -/
def Obligations.PostsAreHeldInOrder : Prop :=
  ∀ (box : BoxId) (hdr : Word32) (data : BitVec 512) (h : Nat) (p : PostMsg) (s : State),
    let i := boxNo box
    let b := getBox s i
    let m := s.mbx
    let refusedOnly (t : State) : Prop := t = { s with answers := [.refused] }
    let filled (p : BitVec 512) (hdr : Word32) : Box := { b with full := true, ackValid := false, hdr := hdr &&& 0xFFFFFF7F, data := p }
    frozen s = false →
    ((postLimit ≤ m.posts.length ∨ hostSends i = false ∨ 64 < hdr.toNat % 128) → Completes (.post (.post box hdr data)) s refusedOnly) ∧
    (m.posts.length < postLimit → hostSends i = true → hdr.toNat % 128 ≤ 64 →
      ((b.full = true ∨ boxReachable s i = false) → Completes (.post (.post box hdr data)) s fun t => t = { s with
        answers := [.handle m.nextHandle]
        mbx := { m with nextHandle := m.nextHandle + 1, posts := m.posts ++ [{ handle := m.nextHandle, box := i, hdr, data }] } }) ∧
      (b.full = false → boxReachable s i = true → (∀ x ∈ m.posts, x.box ≠ i ∧ x.handle ≠ m.nextHandle) → (i < 1200 → coreEnd s i = false) →
        Completes (.post (.post box hdr data)) s fun t =>
          t = { s with answers := [.handle m.nextHandle], mbx := { m with nextHandle := m.nextHandle + 1, boxes := t.mbx.boxes } }
          ∧ getBox t i = filled data hdr ∧ ∀ j, j ≠ i → getBox t j = getBox s j)) ∧
    ((∃ x ∈ m.posts, x.handle = h) → Completes (.post (.withdraw h)) s fun t =>
      t = { s with answers := [.done], mbx := { m with posts := m.posts.filter fun x => x.handle != h } }) ∧
    ((∀ x ∈ m.posts, x.handle ≠ h) → Completes (.post (.withdraw h)) s refusedOnly) ∧
    (m.posts = [p] → p.box = i → hostSends i = true → b.full = false → boxReachable s i = true → (i < 1200 → coreEnd s i = false) →
      Completes (.post (.retry box)) s fun t => t = { s with answers := [], mbx := { m with posts := [], boxes := t.mbx.boxes } }
        ∧ getBox t i = filled p.data p.hdr ∧ ∀ j, j ≠ i → getBox t j = getBox s j)

/-- R382, R390, R399, R437, R462, R469, R481, R514, R515: a write of RST_CTL resets only with its key, cold before warm; a warm reset before
the first ready is a cold one. RESET_N, the watchdog of MP and the power-up are cold resets with their own causes. It rests on the model's
choices of log 37. -/
def Obligations.ResetsReturnTheDevice : Prop :=
  ∀ (by_ : By) (v : Word32) (s : State),
    (performed by_ false 0 31 176 s →
      (v.toNat / 2 ^ 24 ≠ 0xA5 → Completes (.coldReset by_ v) s (answers .done s) ∧ Completes (.warmReset by_ v) s (answers .done s)) ∧
      (v.toNat / 2 ^ 24 = 0xA5 →
        Completes (.coldReset by_ v) s (fun t => t.answers = [.done] ∧ coldAfter (byCode by_) 0x03 s t) ∧
        (v.getLsbD 0 = false → s.boot.everReady = true →
          Completes (.warmReset by_ v) s fun t => t.answers = [.done] ∧ warmAfter (byCode by_) 0x10 s t) ∧
        (v.getLsbD 0 = false → s.boot.everReady = false →
          Completes (.warmReset by_ v) s fun t => t.answers = [.done] ∧ coldAfter (byCode by_) 0x10 s t))) ∧
    (s.pins.alwaysOn = true →
      Completes .mpWatchdogExpiry s (coldAfter 0 0x05 s) ∧
      Completes .resetNAssert s (fun t => coldAfter 0 0x02 s t ∧ t.pins.reset = true)) ∧
    (s.pins.alwaysOn = false →
      Completes .resetNAssert s (fun t => t = { s with pins := { s.pins with reset := true } }) ∧
      ((getFeed s 0).inUse = true ∨ (getFeed s 1).inUse = true →
        Completes .alwaysOnReady s fun t => coldAfter 0 0x01 s t ∧ t.pins.alwaysOn = true)) ∧
    Completes .resetNRelease s fun t => t = { s with pins := { s.pins with reset := false } }

/-- R383 to R388, R390, R416, R429, R442, R444, R522: a layer reset is taken up when none is under way, and ignored otherwise; its drain
ends by abandoning what still crosses the layer, counted and reported: a command's request at once, an access of a core or an engine when it
is sent again; then the layer's units are reset and released, and the end is logged. The base's stacks keep their contents in self-refresh;
one that cannot be restored ends in a cold reset of the module. A region reset takes its controller's state at once and begins the reset of
each powered core of its footprint; a core reset that of one core; both are ignored while one of their scope is under way. A chunk pass that
runs completes first; at the end the core is EMPTY, its generation advances, its boxes are EMPTY, its own reset is logged, and the region's
reset ends, logged, with its last core; at once where no core is to be reset. It rests on the model's choices of logs 11, 37. -/
def Obligations.LayersRegionsAndCoresReset : Prop :=
  (∀ (by_ : By) (v : Word32) (o : LayerRst) (retrained : List StackNo) (dead : Bool) (s : State),
     let l := v.toNat % 16
     let asked : LayerRst := { layer := l, force := v.getLsbD 5, phase := .drain, by_ := byCode by_ }
     let hold : Rst := { s.rst with layerOp := some { o with phase := .hold }, lost := false, lostCount := 0 }
     (performed by_ false 0 31 176 s →
       (s.rst.layerOp = none → l ≤ 7 → (l = 0 → isHost by_ = false) → s.boot.ready = true →
         Completes (.layerReset by_ v) s fun t =>
           t = { s with answers := [.done], hbm := t.hbm
                        rst := { s.rst with layerSel := BitVec.ofNat 4 l, lost := false, layerOp := some asked } }
           ∧ t.hbm.mem = s.hbm.mem ∧ t.hbm.bad = s.hbm.bad
           ∧ ∀ i, getStack t i = if l = 0 ∧ i < 12 then { getStack s i with selfRefresh := true } else getStack s i) ∧
       (s.rst.layerOp ≠ none ∨ 7 < l ∨ (l = 0 ∧ isHost by_ = true) ∨ s.boot.ready = false →
         Completes (.layerReset by_ v) s (resetRefused s))) ∧
     (frozen s = false → s.rst.layerOp = some o →
       (o.phase = .drain → 4 ≤ o.layer → Completes .layerDrainEnd s fun t =>
         t = { s with answers := [], rst := hold, comb := t.comb } ∧ t.comb.lines = s.comb.lines ∧ ∀ n, getSlice t n = getSlice s n) ∧
       (o.phase = .drain → o.layer ≤ 3 → (∀ n, (getSlice s n).miss = []) → (o.layer = 0 → s.reg.waiting = [] ∧ s.net.colls = []) → Completes .layerDrainEnd s fun t =>
         t = { s with answers := [], rst := hold, comb := t.comb } ∧ t.comb.lines = s.comb.lines ∧ ∀ n, getSlice t n = getSlice s n) ∧
       (∀ n m, o.phase = .drain → n ∈ s.comb.slices.map Prod.fst → dieLayer n = o.layer → m ∈ (getSlice s n).miss → m.waiters ≠ [] →
         Completes .layerDrainEnd s fun t => t.rst.lost = true ∧ (getSlice t n).miss = [] ∧ t.mgt.cause.getLsbD 2 = true
           ∧ ∀ q ∈ m.waiters, (q.op ≠ .again → .fail q.agent m.line 0x0B ∈ t.answers)
             ∧ (q.op = .again → (q.agent, q.master, m.line) ∈ t.comb.abandoned)) ∧
       (o.phase = .hold → Completes .layerResetRelease s fun t =>
         t.rst.layerOp = some { o with phase := .restore }
         ∧ (o.layer = 0 → t = { s with
               rst := t.rst, hbm := { s.hbm with ctrls := t.hbm.ctrls }, reg := {}, net := t.net
               boot := { s.boot with portCause := [], ucieCause := [] } }
             ∧ (∀ i, i < 12 → (getStack t i).selfRefresh = true) ∧ t.net.ctxs = [] ∧ t.net.rt = [] ∧ t.net.links = s.net.links)
         ∧ (1 ≤ o.layer → o.layer ≤ 2 → ∀ c, (getCore t c).l1 = [])
         ∧ (o.layer = 3 → s.net.colls = [] → ∀ n c, n < 24 → c < 50 → (getCore s (50 * n + c)).resetting = false → regionCores.coreUp s (50 * n + c) = true →
             emptied (getCore t (50 * n + c)))
         ∧ (4 ≤ o.layer → ∀ i, i < 12 → let k := getLink t (12 * (o.layer - 4) + i)
             k.st = .disabled ∧ k.partner = none ∧ k.tx = [] ∧ k.ctl = 0x10000000 ∧ k.saved = (getLink s (12 * (o.layer - 4) + i)).saved)) ∧
       (o.phase = .restore → o.layer ≠ 0 → (o.layer = 3 → ∀ e ∈ s.cores, e.2.resetting = false) → Completes (.layerReady retrained dead) s fun t =>
         t = { s with rst := { s.rst with layerOp := none }, mgt := t.mgt } ∧ reported (resetDetail 2 false o.layer 0 o.by_) t) ∧
       (o.phase = .restore → o.layer = 0 → dead = true → Completes (.layerReady retrained dead) s (coldAfter 2 0x03 s)) ∧
       (o.phase = .restore → o.layer = 0 → dead = false → Completes (.layerReady retrained dead) s fun t =>
         t.rst.layerOp = none ∧ (∀ i, i < 12 → (getStack t i).selfRefresh = false) ∧ t.cores = s.cores
         ∧ (retrained = [] → t.hbm.mem = s.hbm.mem ∧ t.mgt.stepInt = s.mgt.stepInt)
         ∧ (retrained ≠ [] → t.hbm.mem = memLost s.free ∧ t.mgt.stepInt.getLsbD 31 = true)))) ∧
  (∀ (by_ : By) (c : CoreNo) (v : Word32) (s : State),
     let n := v.toNat % 32
     let x := v.toNat % 2048
     let selR : Rst := { s.rst with regionSel := BitVec.ofNat 5 n }
     let selC : Rst := { s.rst with coreSel := BitVec.ofNat 11 x }
     let shutR : Prop := 23 < n ∨ (getFp s n).compute ≠ .on ∨ s.boot.ready = false ∨ n ∈ s.rst.regionBusy ∨ layerDown s 3 = true
     let shutC : Prop := 1200 ≤ x ∨ siteOf s x = none ∨ (getFp s (x / 50)).compute ≠ .on ∨ s.boot.ready = false
       ∨ (getCore s x).resetting = true ∨ x / 50 ∈ s.rst.regionBusy ∨ layerDown s 3 = true
     let idleR : Bool := (List.range 50).all fun d => !((regionCores s n).contains (50 * n + d)) && !(getCore s (50 * n + d)).resetting
     let r := c.val / 50
     let own := (getCore s c.val).resetBy
     (performed by_ false 0 31 176 s →
       (shutR → Completes (.regionReset by_ v) s (resetRefused s)) ∧
       (¬ shutR → Completes (.regionReset by_ v) s fun t =>
         t.answers = [.done]
         ∧ (idleR = false → t.rst = { selR with regionBusy := s.rst.regionBusy ++ [n], regionBy := tblPut s.rst.regionBy n (byCode by_) } ∧ t.mgt = s.mgt)
         ∧ (idleR = true → t.rst = { selR with regionBy := t.rst.regionBy } ∧ reported (resetDetail 3 false n 0 (byCode by_)) t)
         ∧ (∀ d, (getCore t d).resetting = true ↔ (getCore s d).resetting = true ∨ d ∈ regionCores s n)
         ∧ (∀ d, (getCore t d).xlat = if d / 50 = n then [] else (getCore s d).xlat)
         ∧ (∀ d, (getCore t d).k = (getCore s d).k ∧ (getCore t d).flights = (getCore s d).flights)
         ∧ t.comb = s.comb ∧ t.hbm = s.hbm
         ∧ ∀ e ∈ s.swarm.sites, (e.1 / 54 = n → e.2.enable = true → (e.1, { e.2 with failed := true, got := 0, done := false }) ∈ t.swarm.sites)) ∧
       (shutC → Completes (.coreReset by_ v) s (resetRefused s)) ∧
       (¬ shutC → Completes (.coreReset by_ v) s fun t =>
         onlyCore x { s with answers := [.done], rst := selC } t ∧ getCore t x = { getCore s x with resetting := true, resetBy := byCode by_ })) ∧
     (frozen s = false → (getCore s c.val).resetting = true → passOpen (getCore s c.val) = true →
       Completes (.coreResetComplete c) s fun t => t = settleUpd c.val s) ∧
     (frozen s = false → (getCore s c.val).resetting = true → passOpen (getCore s c.val) = false →
       Completes (.coreResetComplete c) s (fun t => emptied (getCore t c.val)) ∧
       (∀ k, s.net.colls = [] → siteOf s c.val = some k → tblSorted s.mbx.boxes = true → Completes (.coreResetComplete c) s fun t =>
         (∀ d, d ≠ c.val → getCore t d = getCore s d)
         ∧ (∀ j, tblGet 0 t.pwr.siteGen j = if j = k then tblGet 0 s.pwr.siteGen k + 1 else tblGet 0 s.pwr.siteGen j)
         ∧ (∀ j, getBox t j = if j = c.val ∨ j = 1200 + c.val then {} else getBox s j)
         ∧ t.comb = { s.comb with abandoned := s.comb.abandoned.filter fun a => a.2.1 != c.val } ∧ t.hbm = s.hbm
         ∧ (¬ r ∈ s.rst.regionBusy ∨ (∃ d, d < 50 ∧ 50 * r + d ≠ c.val ∧ (getCore s (50 * r + d)).resetting = true) →
             t.rst = s.rst ∧ (own = 0 → t.mgt = s.mgt) ∧ (own ≠ 0 → reported (resetDetail 4 false c.val 0 own) t))
         ∧ (r ∈ s.rst.regionBusy → (∀ d, d < 50 → 50 * r + d ≠ c.val → (getCore s (50 * r + d)).resetting = false) →
             t.rst = { s.rst with regionBusy := s.rst.regionBusy.filter fun y => y != r, regionBy := tblDel s.rst.regionBy r }
             ∧ reported (resetDetail 3 false r 0 (tblGet 0 s.rst.regionBy r)) t))))

/-- R375, R376, R378, R379, R381, R425: a good crystal locks the datum clock, and ends a wait for it by a warm reset; a trip stops the logic
clocks behind self-refresh, and a device that is not frozen waits in STANDBY; a droop raises a rail's swallow level at once and its release
lowers it by one; swallowed edges are counted. A write of CLK_PERIPH_EN is stored. It rests on the model's choices of logs 11, 14, 37. -/
def Obligations.ClocksFollowTheirSources : Prop :=
  ∀ (by_ : By) (n : RegionNo) (rail : Fin 3) (deep : Bool) (edges : Nat) (v : Word32) (s : State),
    let locked : Clk := { s.clk with xtalOk := true, rcTrimmed := true, pllLock := true, datum := true }
    let tripped : Clk := { s.clk with xtalOk := false, pllLock := false, datum := false, stopped := true, cause := s.clk.cause ||| 3 }
    let swallowed (s t : State) : Prop :=
      (tblGet {} t.clk.rgn n.val).swallow = satInc (tblGet {} s.clk.rgn n.val).swallow edges
      ∧ ∀ m, m ≠ n.val → (tblGet {} t.clk.rgn m).swallow = (tblGet {} s.clk.rgn m).swallow
    let others (t : State) : Prop := ∀ m r, m < 24 → r < 3 → (m ≠ n.val ∨ r ≠ rail.val) → levelOf t m r = levelOf s m r
    (s.pins.alwaysOn = true →
      (s.pwr.xtalHold = false → Completes .crystalGood s fun t => t = { s with clk := locked }) ∧
      (s.pwr.xtalHold = true → s.boot.everReady = true → Completes .crystalGood s fun t =>
        warmAfter 2 0x12 s t ∧ t.clk = { locked with stopped := false } ∧ t.pwr.xtalHold = false) ∧
      (s.pwr.xtalHold = true → s.boot.everReady = false → Completes .crystalGood s (coldAfter 2 0x12 s))) ∧
    (s.clk.datum = false → Completes .crystalTrip s fun t => t = { s with clk := { s.clk with xtalOk := false } }) ∧
    (s.clk.datum = true → Completes .crystalTrip s fun t =>
      (∀ i, i < 12 → (getStack t i).selfRefresh = true) ∧ t.hbm.mem = s.hbm.mem ∧ t.clk = tripped
      ∧ (s.sec.frozen = true → t = { s with clk := tripped, hbm := { s.hbm with ctrls := t.hbm.ctrls } })
      ∧ (s.sec.frozen = false → t.pwr.st = .standby ∧ t.pwr.xtalHold = true ∧ t.pins.pwrGood = false ∧ t.boot.hostHeld = true
          ∧ (∀ l, l < 48 → (getLink t l).st = .disabled) ∧ t.net.bypClosed = true ∧ t.thm.wearSaved = s.thm.wear ∧ t.cores = s.cores)) ∧
    (frozen s = false →
      Completes (.droopCrossing n rail deep) s (fun t =>
        t = { s with clk := { s.clk with rgn := t.clk.rgn, combLevel := t.clk.combLevel, cause := if deep then s.clk.cause ||| 4 else s.clk.cause } }
        ∧ levelOf t n.val rail.val = max (levelOf s n.val rail.val) (if deep then 2 else 1) ∧ others t
        ∧ ∀ m, (tblGet {} t.clk.rgn m).swallow = (tblGet {} s.clk.rgn m).swallow) ∧
      Completes (.droopRelease n rail edges) s (fun t =>
        t = { s with clk := { s.clk with rgn := t.clk.rgn, combLevel := t.clk.combLevel } }
        ∧ levelOf t n.val rail.val = levelOf s n.val rail.val - 1 ∧ others t ∧ (rail = 0 → swallowed s t)) ∧
      ((getFp s n.val).compute = .on → Completes (.effectiveLimitEnforcement n edges) s fun t =>
        t = { s with clk := { s.clk with rgn := t.clk.rgn } } ∧ swallowed s t
        ∧ ∀ m, (tblGet {} t.clk.rgn m).level = (tblGet {} s.clk.rgn m).level) ∧
      ((getFp s n.val).compute ≠ .on → Completes (.effectiveLimitEnforcement n edges) s fun t => t = s)) ∧
    (performed by_ false 0 31 160 s → Completes (.peripheralGate by_ v) s fun t =>
      t = { s with answers := [.done], clk := { s.clk with periphEn := v.truncate 6 } })

/-- R396 to R410, R417, R456 to R459, R462: the start-up sequence runs to ready where a slot is good and its components match, and at least
one host, one port of each pair, every UCIe port and one core site are good; otherwise it ends FAILED with the reason of the step that
failed (and the stacks that failed training), or in a thermal shutdown when a stack is hot, or waits in step 9 until the host boot times
out. The learned list is written to the NVM. It rests on the model's choices of logs 11, 12, 13, 38, 52. -/
def Obligations.StartUpEndsReadyOrFailed : Prop :=
  ∀ (r : StartRun) (slot ok : Bool) (s : State),
    let warm : Bool := (s.rst.cause.toNat / 256) % 16 == 1
    let list := if warm then s.boot.learned else s.boot.learnedNvm
    let good (kind i : Nat) : Prop := ¬ (kind, i) ∈ s.boot.fuseBad ∧ ∀ e ∈ list, e.kind = kind → e.index = i → e.bad = false
    let port (p : Fin 96) : Prop := good 5 p.val ∧ ¬ p ∈ r.ports
    let failed (reason : Nat) (t : State) : Prop := t.boot.failed = true ∧ t.boot.ready = false ∧ t.boot.step = 10
      ∧ t.boot.reason = BitVec.ofNat 8 reason ∧ t.boot.gen = (if s.boot.gen = 255 then 1 else s.boot.gen + 1)
      ∧ t.sec.otp = s.sec.otp ∧ t.hbm.mem = s.hbm.mem ∧ ∃ e, t.mgt.ring.head? = some e ∧ e.code = 0x10B
    let runs : Prop := slotChoice s = some slot ∧ confirmWord s slot = 0 ∧ digestOk s slot 2 = true
    let whole : Prop := r.base = true ∧ r.ucie = [] ∧ (∃ h : HostNo, good 6 h.val ∧ ¬ h ∈ r.hosts)
      ∧ (∀ p q : Fin 96, q.val = p.val ^^^ 1 → port p ∨ port q) ∧ (lifecycle s ≠ 3 ∨ s.sec.otp.purgeDone = true)
    let sites : Prop := digestOk s slot 5 = true ∧ ∃ x : SiteNo, good 1 x.val ∧ ¬ x ∈ r.sites ∧ ¬ x ∈ r.trial
    (mayStart s = false → Completes (.startUp r) s fun t => t = s) ∧
    (mayStart s = true →
      (r.rails = false → Completes (.startUp r) s (failed 0x01)) ∧
      (r.rails = true → slotChoice s = none → Completes (.startUp r) s (failed 0x02)) ∧
      (r.rails = true → runs →
        (warm = false → (r.base = false ∨ r.ucie ≠ []) → Completes (.startUp r) s (failed 0x03)) ∧
        (warm = false → r.base = true → r.ucie = [] → (∀ p q : Fin 96, q.val = p.val ^^^ 1 → port p ∨ port q) → (∀ h : HostNo, h ∈ r.hosts) →
          Completes (.startUp r) s (failed 0x05)) ∧
        (whole → r.hot = true → Completes (.startUp r) s fun t =>
          t.pwr.st = .thermalOff ∧ t.boot.ready = false ∧ t.thm.shutdowns = sat16 s.thm.shutdowns) ∧
        (whole → r.hot = false → r.untrained ≠ [] → Completes (.startUp r) s fun t => failed 0x04 t
          ∧ (∀ i, i < 12 → ((getStack t i).trained = true ↔ ∀ st ∈ r.untrained, st.val ≠ i))
          ∧ ∀ st, r.untrained = [st] → ∃ e, t.mgt.ring.head? = some e ∧ e.detail = BitVec.ofNat 80 (4 + 256 * 2 ^ st.val)) ∧
        (whole → r.hot = false → r.untrained = [] → sites → digestOk s slot 3 = true → digestOk s slot 4 = true →
          (r.answers = false → Completes (.startUp r) s fun t => t.boot.step = 9 ∧ t.boot.ready = false ∧ t.boot.failed = false
            ∧ t.boot.hostHeld = false) ∧
          (r.answers = true → Completes (.startUp r) s fun t => t.boot.ready = true ∧ t.boot.failed = false ∧ t.boot.step = 10
            ∧ t.boot.hostHeld = false ∧ t.boot.everReady = true ∧ t.boot.time = r.ms ∧ t.boot.degraded = isDegraded t
            ∧ t.boot.gen = (if s.boot.gen = 255 then 1 else s.boot.gen + 1) ∧ t.boot.learnedNvm = t.boot.learned
            ∧ t.pwr.st = .on ∧ t.pins.pwrGood = true ∧ t.sec.slot = slot
            ∧ getMeas t 1 = sha3 (leBytes 64 (getMeas s 1).toNat ++ leBytes 64 (digestOf s slot 1).toNat)
            ∧ (s.net.colls = [] → ∀ c : CoreNo, siteOf t c.val ≠ none → emptied (getCore t c.val))
            ∧ t.boot.hbmKept = (warm && decide (r.retrained = []))
            ∧ ∃ e, t.mgt.ring.head? = some e ∧ e.code = 0x10B)))) ∧
    (s.boot.step = 9 → s.boot.ready = false → Completes .hostBootTimeout s fun t =>
      t = { s with boot := { s.boot with hostHeld := true, failed := true, reason := 0x06, step := 10 }, mgt := t.mgt }
      ∧ ∃ e, t.mgt.ring.head? = some e ∧ e.code = 0x10B) ∧
    (s.boot.step ≠ 9 ∨ s.boot.ready = true → Completes .hostBootTimeout s fun t => t = s) ∧
    (nvmRuns s = true →
      Completes (.learnedListWrite true) s (fun t => t = { s with boot := { s.boot with
        learnedNvm := s.boot.learned, learnedSeq := s.boot.learnedSeq + 1 } }) ∧
      Completes (.learnedListWrite false) s (fun t => t = { s with mgt := t.mgt } ∧ ∃ e, t.mgt.ring.head? = some e ∧ e.code = 0x10E)) ∧
    (nvmRuns s = false → Completes (.learnedListWrite ok) s fun t => t = s)

/-- R65, R113, R115, R120, R410, R411 to R413, R415, R416, R418, R443: an operation of the injector is refused while one is in progress; it
reads its list, ends at once when it cannot, and waits when a line is held. Operation 1 sends the packets of its entries; operation 2 writes
the union of what is missing; operation 3 marks each enabled site done or failed. A controller puts a good chunk into the standby banks of
the sites that take it, and counts one it discards. Enabling a site clears what it has. The loader runs on the host of a ready device. An
image that the verifier rejects is answered with its reason and changes nothing; so is a load whose map or places do not suit the device,
whose split conflicts with that of loaded programs, for which no census id is free, a section that cannot be placed, or of a core without a
slot that the image hints at. Otherwise every core of the map is LOADED with its image, the scalar registers and accumulators at zero, its
entry, seed and region table in place, its standby bank valid, and the census of its program at zero. It rests on the model's choices of
logs 11, 40, 45. -/
def Obligations.ProgramsReachTheirCores : Prop :=
  (∀ (by_ : By) (v : Word32) (site : SiteNo) (n : RegionNo) (idx : Nat) (crcOk : Bool) (p : ChunkPkt) (e : Nat × SwarmSite) (c : Nat) (s : State),
     let w := s.swarm
     let list := w.list.toNat
     let cls := mgtClass s
     let begun (op : BitVec 2) : State := { s with answers := [], swarm := { w with loadId := v.truncate 16, op } }
     let ops : List (Instr × BitVec 2) := [(.swarmSend by_ v, 1), (.swarmTally by_ v, 2), (.swarmDigestCheck by_ v, 3)]
     let idle (r : State) (t : State) : Prop := t = { r with answers := r.answers ++ [.done], swarm := t.swarm }
       ∧ t.swarm = { r.swarm with op := 0, waits := false }
     let going (r : State) : State := { r with swarm := { r.swarm with waits := false } }
     (performed by_ false 3 31 0 s →
       (w.op ≠ 0 → ∀ x ∈ ops, Completes x.1 s (answers .busError s)) ∧
       (w.op = 0 → ∀ x ∈ ops,
         (∀ u code, readSpan 1204 cls list 64 (begun x.2) = (u, .err code) → Completes x.1 s (idle u)) ∧
         (∀ u, readSpan 1204 cls list 64 (begun x.2) = (u, .wait) → Completes x.1 s fun t =>
           t = { u with answers := u.answers ++ [.done], swarm := { u.swarm with waits := true } } )) ∧
       (∀ u h, w.op = 0 → readSpan 1204 cls list 64 (begun 1) = (u, .ok h) → u.swarm = (begun 1).swarm →
         let entries := (List.range (bytesAt h 0x10 4)).map fun i => ((going u).swarm.list.toNat + 64 + 16 * i, 16)
         ∀ u1 es, readMany 1204 (mgtClass (going u)) entries (going u) = (u1, .ok es) →
         ∀ u2 sz, readMany 1204 (mgtClass (going u1)) (es.map fun e => (bytesAt h 0 8 + 128 * bytesAt e 8 2, 8)) (going u1) = (u2, .ok sz) →
         ∀ u3 ds, readMany 1204 (mgtClass (going u2)) (es.map fun e => (bytesAt e 0 6, bytesAt e 6 2)) (going u2) = (u3, .ok ds) →
           Completes (.swarmSend by_ v) s fun t => t = { u3 with answers := u3.answers ++ [.done], swarm := t.swarm }
             ∧ t.swarm.packets = u3.swarm.packets ++ chunkPackets u3.swarm.loadId (es.zip (ds.zip (sz.map leNat)))
             ∧ (t.swarm.op = 0 ↔ t.swarm.packets = [] ∨ u3.swarm.op = 0)) ∧
       (∀ u h u1 ds u2, w.op = 0 → readSpan 1204 cls list 64 (begun 2) = (u, .ok h) → u.swarm = (begun 2).swarm → readDigests (bytesAt h 0 8) (going u) = (u1, .ok ds) →
         engineWriteBytes 1204 (mgtClass (going u1)) 64 (bytesAt h 8 8) (unionBytes (going u1)) (going u1) = (u2, .ok ()) →
         Completes (.swarmTally by_ v) s (idle u2)) ∧
       (∀ u h u1 ds, w.op = 0 → readSpan 1204 cls list 64 (begun 3) = (u, .ok h) → u.swarm = (begun 3).swarm → readDigests (bytesAt h 0 8) (going u) = (u1, .ok ds) →
         tblSorted u1.swarm.sites = true → Completes (.swarmDigestCheck by_ v) s fun t =>
           t = { u1 with answers := u1.answers ++ [.done], cores := t.cores, swarm := t.swarm } ∧ t.swarm.op = 0
           ∧ ∀ x ∈ u1.swarm.sites, let done := siteDone u1 x.1 x.2 ((ds.lookup x.2.sect.toNat).getD [])
               (x.2.enable = true → getSite t x.1 = { x.2 with done, failed := !done }) ∧ (x.2.enable = false → getSite t x.1 = x.2)
               ∧ ∀ d, x.2.enable = true → done = true → coreAt u1 x.1 = some d → standbyValid (getCore t d) = true)) ∧
     (performed by_ false 3 (site.val / 54) 64 s →
       (w.op ≠ 0 → Completes (.rgnSwarmSecWrite by_ site v) s (answers .busError s)) ∧
       (w.op = 0 → Completes (.rgnSwarmSecWrite by_ site v) s fun t =>
         t = { s with answers := [.done], swarm := { w with sites := t.swarm.sites } }
         ∧ (∀ i, i ≠ site.val → getSite t i = getSite s i)
         ∧ getSite t site.val = if v.getLsbD 31 = true then
               { enable := true, done := false, failed := false, sect := v.truncate 10, got := 0, gen := tblGet 0 s.pwr.siteGen site.val }
             else { getSite s site.val with enable := false, sect := v.truncate 10 })) ∧
     (frozen s = false → w.packets[idx]? = some p → n.val ∈ p.dest →
       let left (t : State) : Prop :=
         ((∀ m ∈ p.dest, m = n.val) → t.swarm.packets = w.packets.eraseIdx idx ∧ (w.packets.length = 1 → w.op = 1 → t.swarm.op = 0)) ∧
         ((∃ m ∈ p.dest, m ≠ n.val) → t.swarm.op = w.op
           ∧ t.swarm.packets = w.packets.set idx { p with dest := p.dest.filter fun x => x != n.val })
       let good : Prop := p.loadId = w.loadId ∧ crcOk = true ∧ p.chunk < 8 ∧ p.chunk < chunksOf p.size ∧ p.len = chunkLen p.size p.chunk
       (blockPowered s 3 n.val 64 = false → Completes (.chunkPacketReceived n idx crcOk) s fun t =>
         left t ∧ t = { s with swarm := { w with op := t.swarm.op, packets := t.swarm.packets } }) ∧
       (blockPowered s 3 n.val 64 = true → ¬ good ∨ takers s n.val p = [] → Completes (.chunkPacketReceived n idx crcOk) s fun t =>
         left t ∧ t = { s with swarm := { w with op := t.swarm.op, packets := t.swarm.packets, drops := t.swarm.drops } }
         ∧ tblGet 0 t.swarm.drops n.val = satInc (tblGet 0 w.drops n.val) 1) ∧
       (blockPowered s 3 n.val 64 = true → good → takers s n.val p = [e] →
         (e.2.gen ≠ tblGet 0 s.pwr.siteGen e.1 → Completes (.chunkPacketReceived n idx crcOk) s fun t =>
           left t ∧ t.cores = s.cores ∧ t.swarm.sites = w.sites
           ∧ getRgn t n.val = { getRgn s n.val with genDropSet := true, genDrop := satInc (getRgn s n.val).genDrop 1 }) ∧
         (e.2.gen = tblGet 0 s.pwr.siteGen e.1 → e.2.got.getLsbD p.chunk = false → coreAt s e.1 = some c → (getFp s n.val).compute = .on →
           Completes (.chunkPacketReceived n idx crcOk) s fun t =>
             left t ∧ onlyCore c { s with swarm := t.swarm } t ∧ t.swarm.drops = w.drops
             ∧ (∀ i, i ≠ e.1 → getSite t i = getSite s i)
             ∧ getSite t e.1 = { getSite s e.1 with got := (getSite s e.1).got ||| BitVec.ofNat 8 (2 ^ p.chunk) }
             ∧ (let k := getCore s c
                let k' := getCore t c
                k' = { k with bankA := k'.bankA, bankB := k'.bankB, validA := k'.validA, validB := k'.validB }
                ∧ standbyValid k' = false ∧ activeBank k' = activeBank k ∧ activeValid k' = activeValid k
                ∧ (memWf (bankMem k (!k.active)) = true → ∀ i b, p.data[i]? = some b → memGet (bankMem k' (!k.active)) (4096 * p.chunk + i) = b)
                ∧ ∀ x, (x < 4096 * p.chunk ∨ 4096 * p.chunk + p.data.length ≤ x) →
                    memGet (bankMem k' (!k.active)) x = memGet (bankMem k (!k.active)) x))))) ∧
  (∀ (q : LoadRequest) (id : Nat) (s : State),
     let img := q.image
     let map := q.map.map fun c => c.val
     let here (c : Nat) : Prop := siteOf s c ≠ none ∧ coreUp s c = true ∧ (getCore s c).resetting = false ∧ (getCore s c).st ≠ .run
     let placed (p : Nat × Addr) : Prop := inHbm p.2.toNat = true ∧ p.2.toNat + (sectionOr img p.1).len ≤ hbmBytes - s.boot.carve * 2 ^ 30
     let carved : Prop := ∃ x ∈ imgCoreList img, ∃ i, i < 64 ∧ inCarve s (imgRegion img x i) = true
     let suits : Prop := map.length = imgCores img ∧ map.eraseDups = map ∧ (∀ c ∈ map, here c) ∧ (∀ p ∈ q.places, placed p)
       ∧ ∀ i, i < imgCount img → (sectionAt img i).typ = 6 → ∃ p ∈ q.places, p.1 = i
     let loaded : Prop := ∃ x ∈ s.cores, x.2.st ≠ .empty
     let slots : Prop := ∀ j, j < map.length → hasSlots s img j (map.getD j 0) = true
     (frozen s = true ∨ s.boot.ready = false ∨ s.boot.hostHeld = true → Completes (.programLoad q) s fun t => t = { s with answers := [] }) ∧
     (frozen s = false → s.boot.ready = true → s.boot.hostHeld = false →
       (∀ x, verifyImage img q.places = some x → Completes (.programLoad q) s (answers (.verdict x.reason x.sect x.off) s)) ∧
       (verifyImage img q.places = none →
         (¬ suits ∨ carved → Completes (.programLoad q) s (answers .refused s)) ∧
         (suits → ¬ carved → loaded → imgWays img ≠ s.comb.split → Completes (.programLoad q) s (answers .splitConflict s)) ∧
         (suits → ¬ carved → (loaded → imgWays img = s.comb.split) →
           (censusId s q.census.toNat = none → Completes (.programLoad q) s (answers .censusExhaustion s)) ∧
           (censusId s q.census.toNat = some id → ¬ slots → Completes (.programLoad q) s fun t =>
             ∃ l, t = { s with answers := [.cores l] } ∧ ∀ c, c ∈ l ↔ ∃ j, j < map.length ∧ c = map.getD j 0 ∧ hasSlots s img j c = false) ∧
           (∀ u x, censusId s q.census.toNat = some id → slots → (loaded → u = clearAnswers s) →
             (¬ loaded → u = finishSplit { clearAnswers s with comb := { s.comb with splitTo := some (imgWays img) } }) →
             placeSections img q.places (modSwarm u fun w => { w with loadId := w.loadId + 1 }) = x →
             (x.2 = false → Completes (.programLoad q) s fun t => t = answer x.1 .refused) ∧
             (x.2 = true → q.failing = [] → (∀ j, j < map.length → imgBank img j ≠ []) →
             Completes (.programLoad q) s fun t =>
               tblGet 0 t.mgt.census id = 0 ∧ (∃ a, t.answers = a ++ [.done])
               ∧ ∀ j, j < map.length → let k := getCore t (map.getD j 0)
                   k.st = .loaded ∧ k.prog = id + 1 ∧ k.image = some j ∧ k.k = [] ∧ k.arr.acc = [] ∧ k.flights = [] ∧ k.l1 = []
                   ∧ k.active = (getCore s (map.getD j 0)).active ∧ standbyValid k = true
                   ∧ k.regs.entry = BitVec.ofNat 15 (imgCore img j).entry ∧ k.regs.wdog = BitVec.ofNat 16 (imgWdog img)
                   ∧ (k.regs.seedHi ++ k.regs.seedLo : Word64) = BitVec.ofNat 64 (imgSeed img) ∧ k.regs.fpctl = BitVec.ofNat 32 (256 * id)
                   ∧ ∀ i, i < 64 → regionOf k i = relocate s map (imgRegion img (imgCore img j) i)))))))

/-- R419 to R422, R431, R435: a feed in range is measured; one out of range leaves, with the event, and the last one takes the device's
power with it; one back in range returns. A drop above 1.3 times the baseline at 10 A or more is counted, and the hundredth in a row sets
the feed's integrity, which a thousand below clear; of a compute rail it sets the vertical fault and step 5. A baseline is captured where
there is none, and the means of a sample are kept. It rests on the model's choices of logs 11, 39. -/
def Obligations.FeedsAndSupplyPathsAreChecked : Prop :=
  ∀ (f : FeedNo) (n : RegionNo) (volts amps : BitVec 10) (drop ma : Nat) (base : BitVec 16) (cur : List (Fin 90 × BitVec 20)) (s : State),
    let x := getFeed s f.val
    let inside : Prop := 440 ≤ volts.toNat ∧ volts.toNat ≤ 600
    let feedIs (y : Feed) (s t : State) : Prop := getFeed t f.val = y ∧ (∀ g, g ≠ f.val → getFeed t g = getFeed s g)
      ∧ t = { s with pwr := { s.pwr with feeds := t.pwr.feeds } }
    let told (code : BitVec 16) (t : State) : Prop := ∃ e, t.mgt.ring.head? = some e ∧ e.code = code
    let measured : Feed := { x with dVolts := volts, dAmps := amps }
    let fp := getFp s n.val
    let fpIs (y : Fp) (s t : State) : Prop := getFp t n.val = y ∧ (∀ m, m ≠ n.val → getFp t m = getFp s m)
      ∧ t = { s with pwr := { s.pwr with fps := t.pwr.fps } }
    (inside ∨ x.inUse = false → Completes (.feedOutOfRange f volts) s (feedIs { x with dVolts := volts } s)) ∧
    (¬ inside → x.inUse = true → (getFeed s (1 - f.val)).inUse = true → Completes (.feedOutOfRange f volts) s fun t =>
      told 0x105 t ∧ t.pwr.feedCause = s.pwr.feedCause ||| BitVec.ofNat 4 (2 ^ f.val) ∧ t.pwr.st = s.pwr.st
      ∧ getFeed t f.val = { x with inUse := false, dVolts := volts, dAmps := 0 } ∧ getFeed t (1 - f.val) = getFeed s (1 - f.val)
      ∧ t.cores = s.cores ∧ t.hbm = s.hbm) ∧
    (¬ inside → x.inUse = true → (getFeed s (1 - f.val)).inUse = false → Completes (.feedOutOfRange f volts) s fun t =>
      t.pins.alwaysOn = false ∧ t.pins.pwrGood = false ∧ t.pwr.st = .emptyStandby ∧ (∀ c, emptied (getCore t c)) ∧ t.mgt.ring = []
      ∧ t.mgt.nvm = s.mgt.nvm ∧ t.sec.otp = s.sec.otp ∧ t.boot.learnedNvm = s.boot.learnedNvm ∧ t.thm.wearSaved = s.thm.wearSaved
      ∧ t.thm.restarts = [] ∧ (getFeed t f.val).inUse = false) ∧
    (inside → s.pins.alwaysOn = true → x.inUse = false → Completes (.feedReconnect f volts) s fun t => told 0x105 t
      ∧ getFeed t f.val = { x with dVolts := volts, inUse := true } ∧ getFeed t (1 - f.val) = getFeed s (1 - f.val)
      ∧ t = { s with pwr := { s.pwr with feeds := t.pwr.feeds }, mgt := t.mgt }) ∧
    (¬ (inside ∧ s.pins.alwaysOn = true ∧ x.inUse = false) → Completes (.feedReconnect f volts) s
      (feedIs { x with dVolts := volts, inUse := if inside then true else x.inUse } s)) ∧
    (mpUp s = true →
      (x.base = none ∨ x.inUse = false ∨ amps.toNat < 100 → Completes (.feedIntegrityCheck f volts amps drop) s (feedIs measured s)) ∧
      (∀ b, x.base = some b → x.inUse = true → 100 ≤ amps.toNat →
        let above : Prop := 13 * b.toNat * (10 * amps.toNat) < 1000 * drop
        (above → x.high < 99 ∨ x.integrity = true → Completes (.feedIntegrityCheck f volts amps drop) s
          (feedIs { measured with high := x.high + 1, low := 0 } s)) ∧
        (above → 99 ≤ x.high → x.integrity = false → Completes (.feedIntegrityCheck f volts amps drop) s fun t => told 0x106 t
          ∧ getFeed t f.val = { measured with high := x.high + 1, low := 0, integrity := true }
          ∧ t.pwr.feedCause = s.pwr.feedCause ||| BitVec.ofNat 4 (4 * 2 ^ f.val) ∧ t.cores = s.cores) ∧
        (¬ above → Completes (.feedIntegrityCheck f volts amps drop) s
          (feedIs { measured with high := 0, low := x.low + 1, integrity := if x.low + 1 < 1000 then x.integrity else false } s))) ∧
      (fp.vBase = none ∨ fp.compute ≠ .on ∨ ma < 1000 → Completes (.verticalSupplyCheck n drop ma) s fun t => t = s) ∧
      (∀ b, fp.vBase = some b → fp.compute = .on → 1000 ≤ ma →
        let above : Prop := 13 * b.toNat * ma < 1000 * drop
        (above → fp.vHigh < 99 ∨ fp.vfault = true → Completes (.verticalSupplyCheck n drop ma) s (fpIs { fp with vHigh := fp.vHigh + 1 } s)) ∧
        (above → 99 ≤ fp.vHigh → fp.vfault = false → Completes (.verticalSupplyCheck n drop ma) s fun t => told 0x106 t
          ∧ getFp t n.val = { fp with vHigh := fp.vHigh + 1, vfault := true, step := max 5 fp.step, cause := fp.cause ||| 8 }
          ∧ (∀ m, m ≠ n.val → getFp t m = getFp s m) ∧ t = { s with pwr := { s.pwr with fps := t.pwr.fps }, mgt := t.mgt }) ∧
        (¬ above → Completes (.verticalSupplyCheck n drop ma) s (fpIs { fp with vHigh := 0 } s))) ∧
      (x.base = none → Completes (.baselineCapture (.feed f) base) s (feedIs { x with base := some base } s)) ∧
      (x.base ≠ none → Completes (.baselineCapture (.feed f) base) s fun t => t = s) ∧
      (fp.vBase = none → Completes (.baselineCapture (.vertical n) base) s (fpIs { fp with vBase := some base } s)) ∧
      (fp.vBase ≠ none → Completes (.baselineCapture (.vertical n) base) s fun t => t = s) ∧
      Completes (.currentSample cur) s (fun t => t = { s with pwr := { s.pwr with cur := t.pwr.cur } }
        ∧ (∀ d v rest, cur = rest ++ [(d, v)] → tblGet 0 t.pwr.cur d.val = v)
        ∧ ∀ i : Nat, (∀ e ∈ cur, e.1.val ≠ i) → tblGet 0 t.pwr.cur i = tblGet 0 s.pwr.cur i)) ∧
    (mpUp s = false → ∀ i ∈ [Instr.feedIntegrityCheck f volts amps drop, .verticalSupplyCheck n drop ma, .baselineCapture (.feed f) base,
        .baselineCapture (.vertical n) base, .currentSample cur], Completes i s fun t => t = s)

/-- R410, R423 to R429, R430, R444, R445, R514, R517: a failed phase is logged and entered in the list; the second of a compute rail, or one
of a comb rail, takes the rail: the cores of a compute rail are EMPTY, and a comb group's slices are forced off with the step-integrity
flag. A sleep of a compute rail is refused while one of its cores is not EMPTY; a group asleep wakes, a compute rail behind the headroom
rule; the end of its ramp brings its units back. PWR_EN low puts a running device into STANDBY, its HBM contents kept in self-refresh and
every link down; PWR_EN high ends a retaining standby by a warm reset. It rests on the model's choices of logs 11, 39. -/
def Obligations.RailGroupsAndStandby : Prop :=
  (∀ (by_ : By) (n : RegionNo) (ph : Fin 12) (g : Fin 3) (sleep : Bool) (sum : Nat) (s : State),
     let i := 12 * n.val + ph.val
     let f := getFp s n.val
     let pg := phaseGroup ph.val
     let known : Prop := ph.val ∈ f.failed ∨ i ∈ s.boot.badPhases
     let up (st : GrpSt) : Prop := st = .on ∨ st = .asleep
     let noted (t : State) : Prop := ph.val ∈ (getFp t n.val).failed ∧ (getFp t n.val).cause.getLsbD 0 = true
       ∧ (∃ e ∈ t.boot.learned, e.kind = 7 ∧ e.index = i ∧ e.bad = true)
     let word : Instr := if g = 0 then .sleepCompute by_ n sleep else if g = 1 then .sleepComb0 by_ n sleep else .sleepComb1 by_ n sleep
     let ctl : BitVec 3 := BitVec.ofNat 3 (setField f.ctl.toNat (b2n sleep) 1 g.val)
     let busy : Prop := ∃ r, r < 50 ∧ (getCore s (50 * n.val + r)).st ≠ .empty
     let still : Prop := f.ramps = [] ∧ f.pend = [] ∧ f.waiting = false
       ∧ ∀ h, h < 3 → h ≠ g.val → (f.ctl.getLsbD h = true → groupSt f h ≠ .on) ∧ (f.ctl.getLsbD h = false → groupSt f h ≠ .asleep)
     let ns := groupSlices n.val (g.val - 1)
     let fpIs (y : Fp) (t : State) : Prop := getFp t n.val = y ∧ ∀ m, m ≠ n.val → getFp t m = getFp s m
     let onlyFps (t : State) : Prop := t = { s with answers := t.answers, pwr := { s.pwr with fps := t.pwr.fps } }
     let setG (y : Fp) (st : GrpSt) : Fp := if g = 0 then { y with compute := st } else if g = 1 then { y with comb0 := st } else { y with comb1 := st }
     (s.pins.alwaysOn = false ∨ known → Completes (.phaseFail n ph) s fun t => t = s) ∧
     (s.pins.alwaysOn = true → ¬ known →
       (s.pwr.st ≠ .on ∨ (pg = 0 ∧ deadOf s n.val 0 = 0) → Completes (.phaseFail n ph) s fun t => noted t ∧ t.cores = s.cores ∧ t.comb = s.comb
         ∧ groupSt (getFp t n.val) pg = groupSt f pg ∧ ∃ e, t.mgt.ring.head? = some e ∧ e.code = 0x108) ∧
       (s.pwr.st = .on → pg = 0 → 1 ≤ deadOf s n.val 0 → up f.compute → Completes (.phaseFail n ph) s fun t => noted t
         ∧ (getFp t n.val).compute = .lost ∧ (getFp t n.val).ramps = f.ramps.filter (fun r => r.1 != 0) ++ [(0, false)]
         ∧ (getFp t n.val).waiting = false ∧ t.boot.degraded = true ∧ ¬ n.val ∈ t.rst.regionBusy
         ∧ (s.net.colls = [] → ∀ c ∈ regionCores s n.val, emptied (getCore t c))) ∧
       (s.pwr.st = .on → pg ≠ 0 → up (groupSt f pg) → tblSorted s.comb.lines = true → Completes (.phaseFail n ph) s fun t => noted t
         ∧ groupSt (getFp t n.val) pg = .lost ∧ t.boot.degraded = true
         ∧ ∀ j ∈ groupSlices n.val (pg - 1), sliceUp s j = true → (getSlice t j).lost = true ∧ (getSlice t j).miss = []
             ∧ t.mgt.stepInt.getLsbD 31 = true ∧ sliceLines t j = [])) ∧
     (performed by_ false 0 n.val 64 s →
       (g = 0 → sleep = true → f.compute = .on → busy → Completes word s (answers .busError s)) ∧
       (s.pwr.st ≠ .on → ¬ (ctl.getLsbD 0 = true ∧ f.compute = .on ∧ busy) → Completes word s fun t =>
         t.answers = [.done] ∧ onlyFps t ∧ fpIs { f with ctl } t) ∧
       (s.pwr.st = .on → still → ¬ (ctl.getLsbD 0 = true ∧ f.compute = .on ∧ busy) →
         (g = 0 → sleep = true → f.compute = .on → ¬ busy → Completes word s fun t => t.answers = [.done] ∧ t.cores = s.cores
           ∧ fpIs { f with ctl, compute := .asleep, ramps := [(0, false)] } t) ∧
         (g ≠ 0 → sleep = true → groupSt f g.val = .on → (∀ j ∈ ns, (getSlice s j).miss = [] ∧ sliceLines s j = []) → Completes word s fun t =>
           t.answers = [.done] ∧ fpIs (setG { f with ctl, ramps := [(g.val, false)] } .asleep) t ∧ t.comb = s.comb ∧ t.hbm = s.hbm) ∧
         (g ≠ 0 → sleep = true → groupSt f g.val = .on → (∃ j ∈ ns, (getSlice s j).miss ≠ []) → Completes word s fun t =>
           t.answers = [.done] ∧ onlyFps t ∧ fpIs { f with ctl, pend := [(g.val, true)] } t) ∧
         (g ≠ 0 → sleep = true → groupSt f g.val = .on → tblSorted s.comb.lines = true → (∀ j ∈ ns, (getSlice s j).miss = []) →
           (∀ j ∈ ns, ∀ e ∈ sliceLines s j, inHbm (64 * e.1) = true → homeOf s e.1 = .cache j ∧ e.2.dir.st = .clean ∧ hostAckers e.2.dir none = []) → Completes word s fun t =>
           t.answers = [.done] ∧ fpIs (setG { f with ctl, ramps := [(g.val, false)] } .asleep) t ∧ t.hbm = s.hbm
           ∧ ∀ j ∈ ns, sliceLines t j = []) ∧
         (sleep = false → groupSt f g.val = .asleep → Completes word s fun t => t.answers = [.done] ∧ onlyFps t
           ∧ fpIs (if g = 0 then { f with ctl, waiting := true } else { f with ctl, ramps := [(g.val, true)] }) t) ∧
         ((if sleep = true then groupSt f g.val ≠ .on else groupSt f g.val ≠ .asleep) → Completes word s fun t => t.answers = [.done] ∧ onlyFps t
           ∧ fpIs { f with ctl } t))) ∧
     (frozen s = false →
       (f.waiting = true →
         (sum + 100 * (40 + s.pwr.inrush.toNat) ≤ 100 * s.pwr.railLimit.toNat → Completes (.headroomRecheck n sum) s fun t => onlyFps t
           ∧ fpIs { f with waiting := false, ramps := f.ramps ++ [(0, true)] } t) ∧
         (100 * s.pwr.railLimit.toNat < sum + 100 * (40 + s.pwr.inrush.toNat) → Completes (.headroomRecheck n sum) s fun t => t = s) ∧
         Completes (.headroomTimeout n) s fun t => onlyFps t
           ∧ getFp t n.val = { f with waiting := false, ramps := f.ramps ++ [(0, true)], cause := f.cause ||| 16 }
           ∧ ∀ m, m < 24 → m ≠ n.val → getFp t m = if m ∈ neighbours n.val then { getFp s m with step := min 16 ((getFp s m).step + 1) }
               else getFp s m) ∧
       (f.waiting = false → Completes (.headroomRecheck n sum) s (fun t => t = s) ∧ Completes (.headroomTimeout n) s fun t => t = s) ∧
       ((∀ r ∈ f.ramps, r.1 ≠ g.val) → Completes (.rampEnd n g) s fun t => t = s) ∧
       (f.ramps = [(g.val, false)] → f.pend = [] → Completes (.rampEnd n g) s fun t => onlyFps t ∧ fpIs { f with ramps := [] } t) ∧
       (f.ramps = [(g.val, false)] → f.pend = [(g.val, false)] → groupSt f g.val = .asleep → f.waiting = false → Completes (.rampEnd n g) s fun t =>
         onlyFps t ∧ fpIs (if g = 0 then { f with ramps := [], pend := [], waiting := true }
           else { f with ramps := [(g.val, true)], pend := [] }) t) ∧
       (g = 0 → f.ramps = [(0, true)] → f.pend = [] → s.net.colls = [] → Completes (.rampEnd n g) s fun t =>
         fpIs { f with ramps := [], compute := .on, step := if f.vfault = true then 5 else 0 } t
         ∧ ∀ r, r < 50 → siteOf s (50 * n.val + r) ≠ none → emptied (getCore t (50 * n.val + r))) ∧
       (g ≠ 0 → f.ramps = [(g.val, true)] → f.pend = [] → Completes (.rampEnd n g) s fun t =>
         fpIs (setG { f with ramps := [] } .on) t ∧ ∀ j ∈ ns, sliceGood s j = true →
           (getSlice t j).lost = false ∧ (getSlice t j).sweeping = true ∧ (getSlice t j).gen = (getSlice s j).gen + 1 ∧ sliceLines t j = []))) ∧
  (∀ (s : State),
     (s.pwr.st = .on → Completes .standbyEntry s fun t => t.pwr.st = .standby ∧ t.pins.pwrEn = false ∧ t.pins.pwrGood = false
       ∧ t.boot.hostHeld = true ∧ t.hbm.mem = s.hbm.mem ∧ t.hbm.bad = s.hbm.bad ∧ (∀ i, i < 12 → (getStack t i).selfRefresh = true)
       ∧ t.thm.wearSaved = s.thm.wear ∧ t.rst.layerOp = none ∧ (∀ l, l < 48 → (getLink t l).st = .disabled) ∧ t.net.bypClosed = true
       ∧ ∀ n, (getFp t n).ramps = [] ∧ (getFp t n).waiting = false) ∧
     (s.pwr.st ≠ .on → Completes .standbyEntry s fun t => t = { s with pins := { s.pins with pwrEn := false } }) ∧
     (s.pwr.st = .standby → s.pwr.xtalHold = false → s.boot.everReady = true → Completes .standbyExit s fun t =>
       warmAfter 2 0x10 s t ∧ t.pins.pwrEn = true) ∧
     (s.pwr.st ≠ .standby ∨ s.pwr.xtalHold = true → Completes .standbyExit s fun t => t = { s with pins := { s.pins with pwrEn := true } }))

/-- R432 to R441: a read of THM_TEMP answers the last conversion and starts one; a comparator warns, throttles its footprint by a step or
shuts the device down; the step rises with each millisecond of the input and falls with 10 ms below. A shutdown takes every rail, and the
third within an hour is held until it is released; a restart is a cold reset. MP's check distrusts a comb sensor that reads low three times,
follows the bonded interfaces, and saves their wear. It rests on the model's choices of logs 4, 11, 39. -/
def Obligations.TemperatureThrottlesAndShutsDown : Prop :=
  ∀ (by_ : By) (x : SensorId) (layer : Fin 4) (n : RegionNo) (temp : BitVec 16) (th : Threshold) (below : Bool) (v : Word32) (s : State),
    let i := sensorNo x
    let k := getSensor s i
    let tw := SensorId.tower layer n
    let tk := getSensor s (sensorNo tw)
    let f := getFp s n.val
    let floor := if f.vfault = true then 5 else 0
    let sensorIs (i : Nat) (y : Sensor) (s t : State) : Prop := getSensor t i = y ∧ ∀ j, j ≠ i → getSensor t j = getSensor s j
    let onlySensors (s t : State) : Prop := t = { s with thm := { s.thm with sensors := t.thm.sensors } }
    let told (code : BitVec 16) (t : State) : Prop := ∃ e, t.mgt.ring.head? = some e ∧ e.code = code
    let stepIs (a : Nat) (t : State) : Prop := getFp t n.val = { f with step := a } ∧ ∀ m, m ≠ n.val → getFp t m = getFp s m
    let shut (s t : State) : Prop := t.pwr.st = .thermalOff ∧ t.thm.shutdowns = sat16 s.thm.shutdowns ∧ told 0x107 t ∧ t.pins.pwrGood = false
      ∧ (∃ e, t.hbm.mem = memLost e) ∧ t.hbm.bad = [] ∧ t.boot.hostHeld = true ∧ t.rst.layerOp = none ∧ (∀ l, l < 48 → (getLink t l).st = .disabled)
      ∧ t.thm.wearSaved = s.thm.wear
    (∀ l r b, sensorBlock x = (l, r, b) → (∀ st, x ≠ .stack st) → performed by_ true l r b s → Completes (.thmTempRead by_ x) s fun t =>
      t.answers = [.value (BitVec.ofNat 32 (b2n k.valid * 2 ^ 31 + b2n k.busy * 2 ^ 30 + k.seq.toNat * 2 ^ 16 + k.temp.toNat))]
      ∧ sensorIs i { k with busy := true } s t ∧ onlySensors { s with answers := t.answers } t) ∧
    (s.pins.alwaysOn = true →
      (k.busy = true → Completes (.conversionComplete x temp) s fun t => onlySensors s t
        ∧ sensorIs i { k with busy := false, valid := true, seq := k.seq + 1, temp } s t) ∧
      (k.busy = false → Completes (.conversionComplete x temp) s fun t => t = s) ∧
      (k.warning = false → Completes (.comparatorTrip x .warning) s fun t => sensorIs i { k with warning := true, cause := k.cause ||| 1 } s t
        ∧ t = { s with thm := { s.thm with sensors := t.thm.sensors }, mgt := t.mgt } ∧ told (BitVec.ofNat 16 Config.warningEvent) t) ∧
      (tk.throttle = false → Completes (.comparatorTrip tw .throttle) s fun t =>
        sensorIs (sensorNo tw) { tk with throttle := true, cause := tk.cause ||| 2 } s t
        ∧ stepIs (if throttled s n.val = true then f.step else min 16 (f.step + 1)) t
        ∧ t = { s with thm := { s.thm with sensors := t.thm.sensors }, pwr := { s.pwr with fps := t.pwr.fps } }) ∧
      (k.warning = true → Completes (.comparatorTrip x .warning) s fun t => t = s) ∧
      (tk.throttle = true → Completes (.comparatorTrip tw .throttle) s fun t => t = s) ∧
      (s.pwr.st ≠ .thermalOff → Completes (.comparatorTrip x .shutdown) s fun t => shut s t
        ∧ t.thm.held = (s.thm.held || decide (recentRestarts s = 3)) ∧ (getSensor t i).shutdown = true) ∧
      Completes (.comparatorRelease x th) s (fun t => onlySensors s t ∧ sensorIs i (match th with
        | .warning => { k with warning := false } | .throttle => { k with throttle := false } | .shutdown => { k with shutdown := false }) s t)) ∧
    (frozen s = false →
      (throttled s n.val = true → Completes (.throttleStepRaise n) s (stepIs (min 16 (f.step + 1)))
        ∧ Completes (.throttleStepFall n below) s fun t => t = s) ∧
      (throttled s n.val = false → Completes (.throttleStepRaise n) s (fun t => t = s)
        ∧ Completes (.throttleStepFall n true) s (stepIs (max floor (f.step - 1)))
        ∧ Completes (.throttleStepFall n false) s fun t => t = s)) ∧
    (performed by_ false 0 31 133 s →
      (by_ = .mp → Completes (.thermalRelease by_ (v &&& 0xFFFFFFFD)) s fun t =>
        t = { s with answers := [.done], thm := { s.thm with held := false } }) ∧
      (isHost by_ = false → v.getLsbD 0 = false → s.pwr.st ≠ .thermalOff → s.pins.alwaysOn = true → Completes (.thermalShutdown by_ v) s fun t =>
        shut s t ∧ ∃ a, t.answers = a ++ [.done]) ∧
      (isHost by_ = true → Completes (.thermalShutdown by_ v) s (answers .busError s)) ∧
      (by_ ≠ .mp → Completes (.thermalRelease by_ v) s (answers .busError s))) ∧
    (s.pwr.st = .thermalOff → s.thm.held = false → Completes .thermalRestart s fun t => told 0x107 t
      ∧ t.rst = { cause := BitVec.ofNat 14 (2 * 4096 + 0x04), cold := sat16 s.rst.cold, warm := s.rst.warm } ∧ t.pwr.st = .emptyStandby
      ∧ (∀ c, emptied (getCore t c)) ∧ t.thm.restarts = (nowMs s :: s.thm.restarts).take 3 ∧ t.thm.shutdowns = s.thm.shutdowns) ∧
    (s.pwr.st ≠ .thermalOff ∨ s.thm.held = true → Completes .thermalRestart s fun t => t = s) ∧
    (mpUp s = true →
      (∀ loads, (∀ l ∈ loads, sensorsValid s l.n.val = false) → Completes (.thermalCrossCheck loads) s fun t =>
        t = { s with thm := { s.thm with wear := t.thm.wear } }
        ∧ ∀ j, j < 3 → getWear t j = match interfaceTemp s j with | some u => wearStep u (getWear s j) | none => getWear s j) ∧
      (∀ l : FpLoad, sensorsValid s l.n.val = true →
        let at_ (j : Nat) : Int := inUseTemp (getSensor s (24 * j + l.n.val))
        let read (j : Nat) : Int := toSigned 16 (getSensor s (24 * j + l.n.val)).temp.toNat * 6250
        let est0 : Int := (at_ 2 + at_ 0) / 2 + (s.thm.thetaC.toNat * l.comb0 + s.thm.thetaX.toNat * l.compute : Nat)
        let est1 : Int := (at_ 3 + at_ 1) / 2 + (s.thm.thetaC.toNat * l.comb1 + s.thm.thetaX.toNat * l.compute : Nat)
        let judged (j : Nat) (est : Int) (t : State) : Prop :=
          let y := getSensor s (24 * j + l.n.val)
          let dev := if read j + 800000 < est then y.dev + 1 else 0
          getSensor t (24 * j + l.n.val) = { y with
            est, dev, distrusted := decide (3 ≤ dev), cause := if 3 ≤ dev then y.cause ||| 4 else y.cause
            estWarning := if 3 ≤ dev then decide (9500000 ≤ est) || (decide (9000000 ≤ est) && y.estWarning) else y.estWarning
            estThrottle := if 3 ≤ dev then decide (10500000 ≤ est) || (decide (10000000 ≤ est) && y.estThrottle) else y.estThrottle }
        (getSensor s (24 + l.n.val)).distrusted = false → (getSensor s (48 + l.n.val)).distrusted = false →
        est0 < 9500000 → est1 < 9500000 → Completes (.thermalCrossCheck [l]) s fun t => judged 1 est0 t ∧ judged 2 est1 t
          ∧ (∀ j, j ≠ 24 + l.n.val → j ≠ 48 + l.n.val → getSensor t j = getSensor s j) ∧ t.pwr = s.pwr)) ∧
    (nvmRuns s = true → Completes .wearSave s fun t => t = { s with thm := { s.thm with wearSaved := s.thm.wear } }) ∧
    (nvmRuns s = false → Completes .wearSave s fun t => t = s)

/-- R462, R465, R469 to R476, R479, R480: a token is checked under the current nonce, which is drawn anew; an accepted one is measured and
sets the level, after a purge for FULL in DEPLOYED, and a refused one is reported. Any requester locks; the debug port sets the level in
BLANK. A freeze is taken at FULL in a running device: stacks go into self-refresh, then the clocks stop and the links go down. A write of
SEC_MEAS_CMD extends M7; the entropy source restarts for MP alone, withholds its output after a failure, and gives each block once. It rests
on the model's choices of logs 4, 11, 12, 13, 43, 46. -/
def Obligations.TokensLevelsAndFreezes : Prop :=
  ∀ (by_ : By) (id : Word32) (tk : List Byte) (v : Word32) (pass : Bool) (s : State),
    let x := s.sec
    let lvl : BitVec 2 := BitVec.ofNat 2 (bytesAt tk 6 1)
    let purges : Prop := lvl = 2 ∧ lifecycle s = 2
    let told (code : BitVec 16) (t : State) : Prop := ∃ e, t.mgt.ring.head? = some e ∧ e.code = code
    let m0 := sha3 (leBytes 64 (getMeas s 0).toNat ++ leBytes 64 (sha3 tk).toNat)
    let accepted (t : State) : Prop := t.sec.level = lvl ∧ t.sec.nonce = s.free ∧ t.sec.otp = x.otp ∧ getMeas t 0 = m0
      ∧ (lvl ≠ x.level → t.sec.cause = x.cause ||| 2 ∧ told 0x10D t)
      ∧ (∀ r, r ≠ 0 → getMeas t r = getMeas s r)
    let purged (t : State) : Prop := t.sec.purged = true ∧ t.boot.hostHeld = true ∧ t.comb.lines = [] ∧ t.hbm.mem = {} ∧ t.hbm.bad = []
      ∧ (∀ l, l < 48 → (getLink t l).st = .disabled ∧ (getLink t l).ctl.getLsbD 0 = false) ∧ t.mbx.eip = [] ∧ t.mbx.posts = []
      ∧ ∀ e ∈ t.cores, e.2.bankA = {} ∧ e.2.bankB = {} ∧ e.2.tile = {} ∧ e.2.descMem = {} ∧ e.2.l1 = []
    let refused (u t : State) : Prop := t.sec = { u.sec with nonce := s.free, cause := x.cause ||| 4 } ∧ told 0x10D t
      ∧ t = { u with sec := t.sec, mgt := t.mgt, free := s.free + 1, answers := t.answers }
    let atFull : Prop := x.level = 2 ∧ s.pwr.st = .on ∧ s.pins.reset = false
    let frozenOk (a : List Answer) (t : State) : Prop := t = { s with
        answers := a
        pins := t.pins
        hbm := { s.hbm with ctrls := t.hbm.ctrls }
        sec := { x with frozen := true, freezing := true, cause := x.cause ||| 32 } }
      ∧ ∀ i, getStack t i = if i < 12 then { getStack s i with selfRefresh := true } else getStack s i
    (mpUp s = true →
      (tokenOk tk s = true → ¬ purges → Completes (.token .debug id tk) s fun t => accepted t ∧ t.hbm = s.hbm ∧ t.cores = s.cores) ∧
      (tokenOk tk s = true → purges → Completes (.token .debug id tk) s fun t => accepted t ∧ purged t) ∧
      (tokenOk tk s = false → Completes (.token .debug id tk) s (refused s)) ∧
      (mpFree .port id s →
        (tokenOk tk s = true → Completes (.token .port id tk) s fun t => accepted t ∧ (∃ a, t.answers = a ++ [.reply 0 []]) ∧ (purges → purged t)) ∧
        (tokenOk tk s = false → Completes (.token .port id tk) s fun t => refused (mpTurn .port s) t ∧ t.answers = [.reply 3 []]) ∧
        ∀ d, mpHears (.device d) s = true → Completes (.token (.device d) id tk) s fun t => ∃ u, t = respond (.device d) 0x04 id (if tokenOk tk s = true then 0 else 3) [] u
          ∧ u.sec.nonce = s.free ∧ u.sec.level = (if tokenOk tk s = true then lvl else x.level) ∧ u.sec.otp = x.otp)) ∧
    (mpUp s = false → Completes (.token .debug id tk) s fun t => t = s) ∧
    (performed by_ false 0 31 192 s → by_ ≠ .debug →
      (x.level ≠ 0 → Completes (.debugLock by_ v) s fun t => told 0x10D t
        ∧ t = { s with answers := [.done], sec := { x with level := 0, cause := x.cause ||| 2 }, mgt := t.mgt }) ∧
      (x.level = 0 → Completes (.debugLock by_ v) s (answers .done s)) ∧
      (v.getLsbD 1 = false → Completes (.debugLevelSet by_ v) s (answers .done s)) ∧
      Completes (.measurementExtend by_ v) s (fun t => t = { s with answers := [.done], sec := { x with meas := t.sec.meas } }
        ∧ ∀ r, getMeas t r = if r = 7 then sha3 (leBytes 64 (getMeas s 7).toNat ++ leBytes 64 x.ext.toNat) else getMeas s r)) ∧
    (performed .mp false 0 31 192 s →
      (x.level ≠ 0 → v.getLsbD 2 = false → Completes (.debugLock .debug v) s fun t =>
        t.sec.level = 0 ∧ t.answers = [.done] ∧ t.sec.cause.getLsbD 1 = true) ∧
      (lifecycle s = 0 → v.getLsbD 1 = false → v.getLsbD 2 = false → v.toNat / 16 % 4 < 3 → Completes (.debugLevelSet .debug v) s fun t =>
        t.sec = { x with level := BitVec.ofNat 2 (v.toNat / 16 % 4)
                         cause := if x.level.toNat = v.toNat / 16 % 4 then x.cause else x.cause ||| 2 }
        ∧ t = { s with answers := [.done], sec := t.sec, mgt := t.mgt }) ∧
      (lifecycle s = 0 → v.getLsbD 1 = false → v.toNat / 16 % 4 = 2 → atFull → x.frozen = false →
        Completes (.freezeRequest (.ctl .debug v)) s (frozenOk [.done]))) ∧
    (s.pins.alwaysOn = true → x.frozen = false →
      (atFull → Completes (.freezeRequest .pin) s (fun t => frozenOk s.answers t ∧ t.pins.freeze = true)
        ∧ Completes (.freezeRequest .jtag) s (frozenOk s.answers)) ∧
      (¬ atFull → Completes (.freezeRequest .jtag) s fun t => t = { s with mgt := t.mgt } ∧ told 0x10D t)) ∧
    (s.pins.alwaysOn = true → x.frozen = true → Completes (.freezeRequest .jtag) s fun t => t = s) ∧
    (x.freezing = true → Completes .freezeClockStop s fun t => t.clk = { s.clk with stopped := true } ∧ t.sec = { x with freezing := false }
      ∧ (∀ l, l < 48 → (getLink t l).st = .disabled) ∧ t.cores = s.cores ∧ t.hbm = s.hbm) ∧
    (x.freezing = false → Completes .freezeClockStop s fun t => t = s) ∧
    (performed by_ false 0 31 147 s →
      (by_ ≠ .mp → Completes (.entropyRestart by_ v pass) s (answers .busError s)) ∧
      (by_ = .mp → Completes (.entropyRestart by_ v true) s (fun t => t = { s with
          answers := [.done], free := s.free + 1, sec := { x with rngValid := true, rngFail := false, rngBlock := s.free } })
        ∧ Completes (.entropyRestart by_ v false) s (answers .done s)) ∧
      (x.rngValid = true → Completes (.entropyBlockRead by_) s fun t => t = { s with
        answers := [.value (BitVec.ofNat 32 ((Config.freeBits512 x.rngBlock).toNat >>> 480))], free := s.free + 1
        sec := { x with rngBlocks := x.rngBlocks + 1, rngBlock := s.free } }) ∧
      (x.rngValid = false → Completes (.entropyBlockRead by_) s (answers (.value 0) s))) ∧
    (s.pins.alwaysOn = true → s.clk.periphEn.getLsbD 3 = true → Completes .entropyHealthFail s fun t => told 0x111 t
      ∧ t = { s with sec := { x with rngValid := false, rngFail := true, cause := x.cause ||| 8 }, mgt := t.mgt })

/-- R464, R481 to R485, R490: a request before MP's firmware runs has no answer, and one while another is put together is answered busy.
NONCE gives 32 fresh bytes, or is refused while the entropy source is withheld; ATTEST the signed report with certificate and key; LOG_READ
up to 44 entries. An update takes a signed header, erases the slot that did not boot, writes its components from 0x4000, and is committed
when the slot and its components verify; it lapses, and a write that fails gives it up. It rests on the model's choices of logs 4, 11, 12,
13, 44. -/
def Obligations.RequestsOfTheManagementPort : Prop :=
  ∀ (src : FrameSrc) (id : Word32) (nonce : BitVec 512) (seq : Word32) (header data : List Byte) (off : Nat) (nvmOk : Bool) (block : BitVec 2048)
    (sig : List Byte) (q : Signed) (key : List Byte) (policy : Byte) (miss : OtpMiss) (entries : List (Nat × Nat × Nat)) (s : State),
    let u := mpTurn src s
    let fw := s.frames.fw
    let slot := !s.sec.slot
    let reply (code status : Nat) (p : List Byte) (r t : State) : Prop := t = respond src code id status p r
    let noUpdate (r : State) : State := { r with frames := { r.frames with fw := none } }
    let lost (code : Nat) (t : State) : Prop := ∃ r, t = respond src code id 7 [] r ∧ r.frames.fw = none ∧ slotMem r slot = memLost s.free
      ∧ slotMem r s.sec.slot = slotMem s s.sec.slot ∧ ∃ e, r.mgt.ring.head? = some e ∧ e.code = 0x10E
    let commands : List (Instr × FrameSrc × Nat × Word32) :=
      [(.nonce src id, src, 0x01, id), (.attest src id nonce, src, 0x02, id), (.logRead src id seq, src, 0x03, id),
       (.fwBegin src id header nvmOk, src, 0x10, id), (.fwWrite src id off data nvmOk, src, 0x11, id), (.fwCommit src id nvmOk, src, 0x12, id),
       (.enrol q key policy miss, q.src, 0x20, q.id), (.returnDevice q miss, q.src, 0x21, q.id), (.cadRemove q entries, q.src, 0x22, q.id),
       (.cfgWrite src id block sig nvmOk, src, 0x23, id), (.controlWarmReset q, q.src, 0x24, q.id), (.controlColdReset q, q.src, 0x24, q.id),
       (.controlEnterStandby q, q.src, 0x24, q.id), (.controlLeaveStandby q, q.src, 0x24, q.id), (.controlThermalRelease q, q.src, 0x24, q.id),
       (.controlRecaptureBaselines q, q.src, 0x24, q.id), (.controlFullTraining q, q.src, 0x24, q.id)]
    (∀ x ∈ commands,
      (mpHears x.2.1 s = false → Completes x.1 s fun t => t = mpTaken x.2.1 s) ∧
      (∀ a, mpHears x.2.1 s = true → s.frames.asm = some a → a.id ≠ x.2.2.2 → Completes x.1 s fun t =>
        t = respond x.2.1 x.2.2.1 x.2.2.2 6 [] (mpTaken x.2.1 s))) ∧
    (mpFree src id s →
      (s.sec.rngValid = false → Completes (.nonce src id) s (reply 0x01 5 [] u)) ∧
      (s.sec.rngValid = true → Completes (.nonce src id) s (reply 0x01 0 (leBytes 32 (Config.freeBits256 s.free).toNat)
        { u with free := s.free + 1, frames := { u.frames with nonces := (s.free, s.mgt.time) :: s.frames.nonces } })) ∧
      (s.sec.alias_ = none → Completes (.attest src id nonce) s (reply 0x02 5 [] u)) ∧
      (∀ seed, s.sec.alias_ = some seed → Completes (.attest src id nonce) s (reply 0x02 0
        (reportBytes nonce s ++ Config.sign seed "druov-att" (reportBytes nonce s) s.free ++ s.sec.cert ++ Config.publicKey (deviceSeed s))
        { u with free := s.free + 1 })) ∧
      (src = .debug → s.sec.level = 0 → Completes (.logRead src id seq) s (reply 0x03 5 [] u)) ∧
      (src ≠ .debug ∨ s.sec.level ≠ 0 → Completes (.logRead src id seq) s (reply 0x03 0
        (((allEvents s.mgt).filter fun e => decide (seq.toNat ≤ e.seq.toNat)).take 44 |>.flatMap entryLog) u)) ∧
      (s.boot.ready = false →
        Completes (.fwBegin src id header nvmOk) s (reply 0x10 5 [] u) ∧ Completes (.fwWrite src id off data nvmOk) s (reply 0x11 5 [] u)
        ∧ Completes (.fwCommit src id nvmOk) s (reply 0x12 5 [] u)) ∧
      (s.boot.ready = true →
        (∀ w, fw = some w → w.lapsed = true →
          Completes (.fwBegin src id header nvmOk) s (reply 0x10 5 [] (noUpdate u)) ∧
          Completes (.fwWrite src id off data nvmOk) s (reply 0x11 5 [] u) ∧ Completes (.fwCommit src id nvmOk) s (reply 0x12 5 [] u)) ∧
        (fw = none → Completes (.fwWrite src id off data nvmOk) s (reply 0x11 5 [] u) ∧ Completes (.fwCommit src id nvmOk) s (reply 0x12 5 [] u)) ∧
        ((∀ w, fw = some w → w.lapsed = false) →
          (header.length ≠ 0x3000 → Completes (.fwBegin src id header nvmOk) s (reply 0x10 1 [] u)) ∧
          (header.length = 0x3000 → headerSigned s header = false → Completes (.fwBegin src id header nvmOk) s (reply 0x10 3 [] u)) ∧
          (header.length = 0x3000 → headerSigned s header = true →
            Completes (.fwBegin src id header true) s (reply 0x10 0 [] { u with
              frames := { u.frames with fw := some { header } }
              sec := if s.sec.slot = true then { s.sec with slotA := {} } else { s.sec with slotB := {} } }) ∧
            Completes (.fwBegin src id header false) s (lost 0x10))) ∧
        (∀ w, fw = some w → w.lapsed = false →
          (off < 0x4000 ∨ slotSize < off + data.length → Completes (.fwWrite src id off data nvmOk) s (reply 0x11 1 [] u)) ∧
          (0x4000 ≤ off → off + data.length ≤ slotSize →
            Completes (.fwWrite src id off data false) s (lost 0x11) ∧
            Completes (.fwWrite src id off data true) s fun t => ∃ r, reply 0x11 0 [] r t ∧ r = { u with sec := r.sec }
              ∧ slotMem r s.sec.slot = slotMem s s.sec.slot
              ∧ (∀ a, (a < off ∨ off + data.length ≤ a) → memGet (slotMem r slot) a = memGet (slotMem s slot) a)
              ∧ (memWf (slotMem s slot) = true → ∀ i b, data[i]? = some b → memGet (slotMem r slot) (off + i) = memGet (slotMem s slot) (off + i) ||| ~~~b)) ∧
          Completes (.fwCommit src id false) s (lost 0x12) ∧
          (let r := slotProgram (noUpdate u) slot 0 w.header
           let whole : Prop := slotValid r slot = true ∧ ∀ i : Nat, 2 ≤ i → i ≤ 5 → digestOk r slot i = true
           (whole → Completes (.fwCommit src id true) s (reply 0x12 0 [] r)) ∧
           (¬ whole → Completes (.fwCommit src id true) s (reply 0x12 3 [] r)))))) ∧
    Completes .fwUpdateTimeout s fun t => t = { s with frames := { s.frames with fw := fw.map fun w => { w with lapsed := true } } }

/-- R408, R422, R430, R437, R455, R466 to R468, R485, R486: a signed command is answered 5 where it may not come, 4 without a fresh nonce,
and 3 under a signature that does not verify, and its nonce is spent. ENROL takes an agreeing owner and moves to DEPLOYED; RETURN purges and
moves to RETURNED; CAD_REMOVE lists entries for the next cold start; a CONTROL acts once it is verified. CFG_WRITE replaces a copy by a
well-formed signed block. It rests on the model's choices of logs 11, 12, 13, 41, 43, 44. -/
def Obligations.SignedCommandsAct : Prop :=
  ∀ (q : Signed) (key : List Byte) (policy : Byte) (miss : OtpMiss) (entries : List (Nat × Nat × Nat)) (src : FrameSrc) (id : Word32)
    (block : BitVec 2048) (sig : List Byte) (nvmOk : Bool) (s : State),
    let u := nonceSpent q.nonce (mpTurn q.src s)
    let msg := serialBytes s ++ leBytes 32 q.nonce.toNat
    let o := s.sec.otp
    let hash := sha3 key
    let life := lifecycle s
    let open_ : Prop := s.boot.ready = true ∧ s.pwr.st = .on ∧ s.sec.frozen = false ∧ ∀ d, q.src ≠ .device d
    let verified (action : Nat) : Prop := Config.verify "druov-ctl" (cfgKey s) (msg ++ [0x24, BitVec.ofNat 8 action]) q.sig = true
    let agreed : Prop := o.policy &&& ~~~policy = 0 ∧ o.ownerHash &&& ~~~hash = 0
    let signed (k : String) (h : BitVec 512) (m : List Byte) : Prop := Config.verify k h m q.sig = true
    let controls : List (Instr × Nat × Prop × (State → State)) :=
      [(.controlWarmReset q, 1, s.boot.ready = true, warmReset 2 0x10), (.controlColdReset q, 2, True, coldReset 2 0x03),
       (.controlEnterStandby q, 3, s.boot.ready = true ∧ s.pwr.st = .on, enterStandby),
       (.controlLeaveStandby q, 4, s.boot.ready = true ∧ s.pwr.st = .standby ∧ s.pwr.xtalHold = false, warmReset 2 0x10),
       (.controlThermalRelease q, 5, True, fun r => { r with thm := { r.thm with held := false } }),
       (.controlRecaptureBaselines q, 6, s.boot.ready = true, fun r => { r with pwr := { r.pwr with
          feeds := r.pwr.feeds.map fun e => (e.1, { e.2 with base := none }), fps := r.pwr.fps.map fun e => (e.1, { e.2 with vBase := none }) } }),
       (.controlFullTraining q, 7, s.boot.ready = true, fun r => { r with boot := { r.boot with fullNext := true } })]
    let commands : List (Instr × Nat × Prop) :=
      [(.enrol q key policy miss, 0x20, open_ ∧ life = 1), (.returnDevice q miss, 0x21, open_ ∧ (life = 1 ∨ life = 2)),
       (.cadRemove q entries, 0x22, s.boot.ready = true ∧ life ≠ 3 ∧ ownerSlot o = 1)] ++ controls.map fun x => (x.1, 0x24, x.2.2.1)
    (mpFree q.src q.id s →
      (∀ x ∈ commands,
        (¬ x.2.2 → Completes x.1 s fun t => t = respond q.src x.2.1 q.id 5 [] u) ∧
        (x.2.2 → ¬ nonceFresh q.nonce s → Completes x.1 s fun t => t = respond q.src x.2.1 q.id 4 [] u)) ∧
      (nonceFresh q.nonce s →
        (∀ x ∈ controls, x.2.2.1 →
          (verified x.2.1 → Completes x.1 s (mpDone q 0x24 (x.2.2.2 u))) ∧
          (¬ verified x.2.1 → Completes x.1 s fun t => t = respond q.src 0x24 q.id 3 [] u)) ∧
        (open_ → life = 1 →
          (key.length ≠ 2592 ∨ 3 < policy.toNat → Completes (.enrol q key policy miss) s fun t => t = respond q.src 0x20 q.id 1 [] u) ∧
          (key.length = 2592 → policy.toNat ≤ 3 →
            (¬ signed "druov-enrol" hash (msg ++ [policy]) → Completes (.enrol q key policy miss) s fun t => t = respond q.src 0x20 q.id 3 [] u) ∧
            (signed "druov-enrol" hash (msg ++ [policy]) → ¬ agreed → Completes (.enrol q key policy miss) s fun t =>
              t = respond q.src 0x20 q.id 5 [] u) ∧
            (signed "druov-enrol" hash (msg ++ [policy]) → agreed → Completes (.enrol q key policy {}) s fun t => ∃ r, mpDone q 0x20 r t
              ∧ r.sec.otp = { o with policy := o.policy ||| policy, ownerHash := o.ownerHash ||| hash, enrolled := true, lifecycle := o.lifecycle ||| 2 }
              ∧ lifecycle r = 2 ∧ r.sec.cause = s.sec.cause ||| 16 ∧ r.boot = s.boot ∧ r.hbm = s.hbm))) ∧
        (open_ → life = 1 ∨ life = 2 →
          let good : Prop := (ownerSlot o = 1 ∧ signed "druov-ret" o.ownerHash msg) ∨ signed "druov-ret" o.rootHash msg
          (¬ good → Completes (.returnDevice q miss) s fun t => t = respond q.src 0x21 q.id 3 [] u) ∧
          (good → miss.lifecycle.getLsbD 2 = true → Completes (.returnDevice q miss) s fun t => ∃ r, t = respond q.src 0x21 q.id 7 [] r
            ∧ lifecycle r = life ∧ r.hbm = s.hbm) ∧
          (good → Completes (.returnDevice q {}) s fun t => ∃ r, mpDone q 0x21 r t ∧ lifecycle r = 3 ∧ r.sec.otp.ownerHash = BitVec.allOnes 512
            ∧ r.sec.otp.purgeDone = true ∧ r.hbm.mem = {} ∧ r.comb.lines = [] ∧ r.boot.cfgA = none ∧ r.boot.cfgB = none
            ∧ r.boot.hostHeld = true ∧ ∀ l, l < 48 → (getLink r l).st = .disabled ∧ (getLink r l).saved = none)) ∧
        (s.boot.ready = true → life ≠ 3 → ownerSlot o = 1 →
          let names := entries.flatMap fun e => leBytes 1 e.1 ++ leBytes 4 e.2.1 ++ leBytes 4 e.2.2
          (signed "druov-cad" o.ownerHash (msg ++ names) → Completes (.cadRemove q entries) s
            (mpDone q 0x22 { u with boot := { s.boot with removals := s.boot.removals ++ entries } })) ∧
          (¬ signed "druov-cad" o.ownerHash (msg ++ names) → Completes (.cadRemove q entries) s fun t =>
            t = respond q.src 0x22 q.id 3 [] u)))) ∧
    (mpFree src id s →
      let w := mpTurn src s
      let c : CfgCopy := { block, sig }
      let put (x : Option CfgCopy) : Boot := if replacesA s = true then { s.boot with cfgA := x } else { s.boot with cfgB := x }
      (s.boot.ready = false → Completes (.cfgWrite src id block sig nvmOk) s fun t => t = respond src 0x23 id 5 [] w) ∧
      (s.boot.ready = true →
        (cfgForm block = false → Completes (.cfgWrite src id block sig nvmOk) s fun t => t = respond src 0x23 id 1 [] w) ∧
        (cfgForm block = true → cfgSigned s c = false → Completes (.cfgWrite src id block sig nvmOk) s fun t => t = respond src 0x23 id 3 [] w) ∧
        (cfgForm block = true → cfgSigned s c = true →
          Completes (.cfgWrite src id block sig true) s (fun t => t = respond src 0x23 id 0 [] { w with boot := put (some c) }) ∧
          Completes (.cfgWrite src id block sig false) s fun t => ∃ r, t = respond src 0x23 id 7 [] r ∧ r = { w with boot := put none, mgt := r.mgt }
            ∧ ∃ e, r.mgt.ring.head? = some e ∧ e.code = 0x10E)))

/-- R482 to R485, R487, R490, R498 to R500, R37: a fragment joins the request under assembly, or is answered malformed, unknown or busy, and
an assembly lapses; the management port answers ARP and echo for its own address and Redfish its reads. MP copies the oldest entry to the
NVM ring, marks a phase that runs hot or deviates ten times, and counts dropped work, logged once an hour. The event selected is shown, the
step-integrity flag is cleared by its own bit, and the commit gate discards a step whose flag is set. It rests on the model's choices of
logs 4, 11, 22, 44. -/
def Obligations.TheManagementProcessorWorks : Prop :=
  ∀ (by_ : By) (src : FrameSrc) (b : List Byte) (fr : List Byte) (read : Bool) (r : Resource) (i : Fin 8) (flags : Bool) (census : Nat) (v : Word32)
    (rs : List (Fin 288 × BitVec 16 × Byte)) (s : State),
    let m := s.mgt
    let u := mpTaken src s
    let code := bytesAt b 3 1
    let id : Word32 := BitVec.ofNat 32 (bytesAt b 4 4)
    let asm := s.frames.asm
    let busy : Prop := ∃ a, asm = some a ∧ a.id ≠ id
    let clash : Prop := frameOk b = false ∨ ∃ a, asm = some a ∧ (a.code.toNat ≠ code ∨ a.count ≠ bytesAt b 10 2)
    let parts := match asm with | some a => tblPut a.parts (bytesAt b 8 2) (b.drop 16) | none => [(bytesAt b 8 2, b.drop 16)]
    let told (code : BitVec 16) (t : State) : Prop := ∃ e, t.mgt.ring.head? = some e ∧ e.code = code
    let port := mgtPort s
    let mac := (fr.drop 6).take 6
    let counted (t : State) : Prop := (∀ j, tblGet 0 t.mgt.bgStat j = if j = i.val then satInc (tblGet 0 m.bgStat j) 1 else tblGet 0 m.bgStat j)
      ∧ t.mgt.cause.getLsbD 4 = true ∧ t = { s with mgt := t.mgt }
    let discard : Prop := flags = true ∨ m.stepInt.getLsbD 31 = true
    (mpHears src s = true →
      (busy → Completes (.managementFrameFragment src b) s fun t => t = respond src code id 6 [] u) ∧
      (¬ busy → clash → Completes (.managementFrameFragment src b) s fun t => t = respond src code id 1 [] u) ∧
      (¬ busy → ¬ clash → ¬ code ∈ knownCodes → Completes (.managementFrameFragment src b) s fun t => t = respond src code id 2 [] u) ∧
      (¬ busy → ¬ clash → code ∈ knownCodes →
        (parts.length < bytesAt b 10 2 → Completes (.managementFrameFragment src b) s fun t => t = { u with frames := { u.frames with
          asm := some { id, code := BitVec.ofNat 8 code, count := bytesAt b 10 2, parts } } }) ∧
        (bytesAt b 10 2 ≤ parts.length → Completes (.managementFrameFragment src b) s fun t => t = u))) ∧
    (mpHears .port s = true →
      (∀ x, beAt fr 12 2 = 0x0806 → arpReply port (fr.drop 14) = some x → Completes (.managementPortFrame fr) s
        (answers (.frame 48 (mac ++ x.drop 6)) s)) ∧
      (∀ x, beAt fr 12 2 = 0x0800 → entryV6 port = false → echoReply port mac (Config.freeWord s.free).toNat (fr.drop 14) = some x →
        Completes (.managementPortFrame fr) s fun t => t = { s with free := s.free + 1, answers := [.frame 48 x] }) ∧
      (∀ x, beAt fr 12 2 = 0x86DD → entryV6 port = true → nsReply port mac (fr.drop 14) = some x →
        Completes (.managementPortFrame fr) s (answers (.frame 48 x) s)) ∧
      (¬ beAt fr 12 2 ∈ [0x0806, 0x0800, 0x86DD] → Completes (.managementPortFrame fr) s fun t => t = { s with answers := [] }) ∧
      ((cfgField (cfgInUse s) 0x2E 1).testBit 2 = true → Completes (.redfishRequest read r) s
        (answers (if read then .http 200 (resource r s) else .http 405 []) s))) ∧
    (nvmRuns s = true →
      ((∀ e ∈ m.ring, e.copied = true) → Completes (.logCopy true) s fun t => t = s) ∧
      (∀ front e back, m.ring = front ++ e :: back → e.copied = false → (∀ x ∈ back, x.copied = true) →
        (m.nvm.length < 851968 → Completes (.logCopy true) s fun t => t = { s with mgt := { m with
          ring := front ++ { e with copied := true } :: back, nvm := { e with copied := true } :: m.nvm } }) ∧
        Completes (.logCopy false) s fun t => told 0x10E t ∧ t = { s with mgt := t.mgt } ∧ t.mgt.nvm = m.nvm)) ∧
    (mpUp s = true →
      (let recent : Prop := ∃ e ∈ m.bgLogged, e.1 = i.val ∧ m.time < e.2 + 3600 * 1000 * 450000
       (recent → Completes (.backgroundWorkDropped i) s fun t => counted t ∧ t.mgt.ring = m.ring) ∧
       (¬ recent → Completes (.backgroundWorkDropped i) s fun t => counted t ∧ told 0x110 t ∧ tblGet 0 t.mgt.bgLogged i.val = m.time)) ∧
      (∀ p amps deg, rs = [(p, amps, deg)] → Completes (.regulatorHealthCheck rs) s fun t =>
        phCurrent t p.val = amps.toNat ∧ phTemp t p.val = deg.toNat ∧ (∀ j, j ≠ p.val → phCurrent t j = phCurrent s j ∧ phTemp t j = phTemp s j)
        ∧ (∀ j, j < 288 → tblGet 0 t.pwr.phDev j = if deviates t j = true then tblGet 0 s.pwr.phDev j + 1 else 0)
        ∧ (∀ j, j < 288 → (120 < phTemp t j ∨ 10 ≤ tblGet 0 t.pwr.phDev j) → ∃ e ∈ t.boot.learned, e.kind = 7 ∧ e.index = j ∧ e.suspect = true)
        ∧ ((∀ j, j < 288 → phTemp t j ≤ 120 ∧ tblGet 0 t.pwr.phDev j < 10) → t.boot = s.boot ∧ t.mgt = m))) ∧
    (nvmRuns s = false → Completes (.logCopy read) s fun t => t = s) ∧
    (mpUp s = false → ∀ x ∈ [Instr.backgroundWorkDropped i, .regulatorHealthCheck rs], Completes x s fun t => t = s) ∧
    (mpHears src s = false → Completes (.managementFrameFragment src b) s fun t => t = u) ∧
    (mpHears .port s = false → ∀ x ∈ [Instr.managementPortFrame fr, .redfishRequest read r], Completes x s fun t => t = { s with answers := [] }) ∧
    Completes .fragmentTimeout s (fun t => t = { s with frames := { s.frames with asm := none } }) ∧
    (performed by_ false 0 31 128 s →
      Completes (.logSelect by_ v) s (fun t => t = { s with answers := [.done], mgt := { m with logSel := v, logData := t.mgt.logData } }
        ∧ (∀ e ∈ t.mgt.logData, e ∈ m.ring ∧ e.seq = v) ∧ (t.mgt.logData = none → ∀ e ∈ m.ring, e.seq ≠ v)) ∧
      Completes (.stepIntClear by_ v) s fun t => t = { s with answers := [.done], mgt := { m with stepInt := 0 } }) ∧
    (frozen s = false → s.boot.ready = true → s.boot.hostHeld = false → Completes (.commitGate i flags census) s fun t =>
      t = { s with mgt := { m with census := t.mgt.census }, answers := t.answers }
      ∧ (discard → t.answers = [.value 0]) ∧ (¬ discard → t.answers = [.value 1])
      ∧ ∀ j, tblGet 0 t.mgt.census j = if j = i.val then satInc (tblGet 0 m.census j) census else tblGet 0 m.census j) ∧
    (frozen s = true ∨ s.boot.ready = false ∨ s.boot.hostHeld = true → Completes (.commitGate i flags census) s fun t => t = { s with answers := [] })

/-- R25 to R27, R63, R252, R275, R291, R292, R309 to R311, R358 to R360, R389, R432, R446 to R451, R500: what a write of the registers that
hold a setting or a record comes to: masks and settings hold what is written, within their width and bounds; a cause and a count lose the
bits written 1; a register that is held returns a bus error; an offset without a register keeps everything. It rests on the model's choices
of logs 47, 52. -/
def Obligations.RegistersHoldOrClearWhatIsWritten : Prop :=
  ∀ (by_ : By) (layer region block off : Nat) (v : Word32) (c : Nat) (s : State),
    let i : Instr := .registerWrite by_ 4 (BitVec.ofNat 48 (0x0200 * 2 ^ 32 + layer * 2 ^ 28 + region * 2 ^ 23 + block * 2 ^ 12 + off)) v
    let gone {n : Nat} (x : BitVec n) : BitVec n := x &&& ~~~(v.zeroExtend n)
    let becomes (u t : State) : Prop := t = { u with answers := [.done] }
    let at_ (l r b o : Nat) : Prop := layer = l ∧ region = r ∧ block = b ∧ off = o
    layer < 16 → region < 32 → block < 2048 → off < 4096 → off % 4 = 0 → performed by_ false layer region block s →
    (layer = 3 → region < 24 → block < 54 → coreAt s (54 * region + block) = some c →
      let k := getCore s c
      let coreIs (r : CoreRegs) (t : State) : Prop := coreBecomes c { k with regs := r } [.done] s t
      (off = 0x010 → Completes i s (coreIs { k.regs with cause := gone k.regs.cause })) ∧
      (off = 0x014 → Completes i s (coreIs { k.regs with causeMask := v.truncate 5 })) ∧
      (off = 0x028 → Completes i s (coreIs { k.regs with wdog := v.truncate 16 })) ∧
      (off = 0x0C4 → Completes i s (coreIs { k.regs with fpstat := gone k.regs.fpstat }))) ∧
    (at_ 1 31 0 0x04C → Completes i s (becomes { s with comb := { s.comb with
      dsweepOn := v.getLsbD 31, dsweepPeriod := BitVec.ofNat 16 (max 60 (v.toNat % 65536)) } })) ∧
    (at_ 1 31 0 0x048 → shardBusy s = true → Completes i s (answers .busError s)) ∧
    (at_ 1 31 0 0x048 → shardBusy s = false → Completes i s (becomes { s with comb := { s.comb with shardCnt := min 4096 (v.toNat % 8192) } })) ∧
    (at_ 0 31 96 0x018 → Completes i s (becomes { s with reg := { s.reg with cfg := v.truncate 12 } })) ∧
    (at_ 0 31 96 0x004 → Completes i s (becomes { s with reg := { s.reg with cause := gone s.reg.cause } })) ∧
    (at_ 0 31 64 0x014 → Completes i s (becomes { s with net := { s.net with timeout := BitVec.ofNat 16 (max 1 (v.toNat % 65536)) } })) ∧
    (at_ 0 31 64 0x00C → (∃ e ∈ s.net.links, e.2.st ≠ .disabled) → Completes i s (answers .busError s)) ∧
    (at_ 0 31 64 0x00C → (∀ e ∈ s.net.links, e.2.st = .disabled) → Completes i s (becomes { s with net := { s.net with devid := v.truncate 16 } })) ∧
    (at_ 0 31 160 0x004 → Completes i s (becomes { s with clk := { s.clk with cause := gone s.clk.cause } })) ∧
    (at_ 0 31 134 0 → Completes i s (becomes { s with pwr := { s.pwr with inrush := v.extractLsb' 16 8, railLimit := v.truncate 12 } })) ∧
    (at_ 8 31 1 0x008 → Completes i s (becomes { s with pwr := { s.pwr with feedCause := gone s.pwr.feedCause } })) ∧
    (at_ 0 31 128 0x010 → Completes i s (becomes { s with mgt := { s.mgt with cause := gone s.mgt.cause } })) ∧
    (at_ 0 31 128 0x014 → Completes i s (becomes { s with mgt := { s.mgt with causeMask := v.truncate 6 } })) ∧
    (at_ 0 31 192 0x004 → isHost by_ = true → Completes i s (answers .busError s)) ∧
    (at_ 0 31 192 0x004 → isHost by_ = false → Completes i s (becomes { s with sec := { s.sec with cause := gone s.sec.cause } })) ∧
    (at_ 0 31 128 0x7FC → Completes i s (answers .done s))

/-- R376, R381, R390, R399, R409, R430, R453: right after power-up the device is a dark one: no rail but the always-on domain's is up,
nothing has started, every core is EMPTY, every link DISABLED, memory lists nothing, and the registers hold the values that their tables
give for reset. The memories are in their canonical form. It rests on the model's choices of logs 3, 5, 6. -/
def Obligations.ResetHoldsTheSpecsValues : Prop :=
  let s := State.reset
  s.pending = [] ∧ s.pwr.st = .emptyStandby ∧ s.boot.ready = false ∧ s.boot.step = 0 ∧ s.boot.hostHeld = true ∧ s.clk.datum = false
    ∧ (∀ c, emptied (getCore s c)) ∧ (∀ l, (getLink s l).st = .disabled ∧ (getLink s l).ctl = 0x10000000) ∧ s.comb.lines = [] ∧ s.comb.split = 0
    ∧ s.hbm.mem.cells = [] ∧ s.mgt.ring = [] ∧ s.mgt.stepInt = 0
    ∧ s.clk.periphEn = 0x3B ∧ (∀ n : Nat, (tblGet {} s.clk.rgn n).deepMv = 60 ∧ (tblGet {} s.clk.rgn n).droopMv = 30)
    ∧ s.pwr.inrush = 20 ∧ s.pwr.railLimit = 1900 ∧ s.thm.thetaX = 50 ∧ s.thm.thetaC = 40
    ∧ s.net.timeout = 100 ∧ s.net.ethRto = 32 ∧ s.net.ethWindow = 128 ∧ s.comb.dsweepOn = true ∧ s.comb.dsweepPeriod = 600
    ∧ (∀ i, (getStack s i).patrolOn = true ∧ (getStack s i).patrolPeriod = 24)
    ∧ s.reg.cfg = 0xD49 ∧ (∀ i, (getBox s i).intEmpty = true ∧ (getBox s i).intFull = true ∧ (getBox s i).full = false)
    ∧ s.sec.otp.lifecycle = 0 ∧ MemoriesCanonical s

/-- Nothing but the step itself takes commands from the queue: whatever a command does, resets and losses of power among it, the commands
that wait behind it are as they were (the model's queue, log 1). -/
def Obligations.NoCommandTouchesTheQueue : Prop :=
  ∀ (c : Instr) (s t : State), exec c s = .next t → t.pending = s.pending

/-- R453, R460: no command clears an OTP bit or changes what manufacture wrote; the anti-rollback counters only gain words. -/
def Obligations.OtpBitsAreNeverCleared : Prop :=
  ∀ (c : Instr) (s t : State), exec c s = .next t → otpKept s.sec.otp t.sec.otp

/-- Every step keeps every byte memory in its canonical form, from every state that has it so (the model's memory, logs 3 and 4). -/
def Obligations.EveryStepKeepsMemoriesCanonical : Prop :=
  ∀ (s t : State), MemoriesCanonical s → step s = .next t → MemoriesCanonical t
end

