-- ==== Sys2Proof/Laws/Memory.lean ====
section
/-! SUPPORT. Tables and byte memories: a read after a write, and the canonical form that every memory operation keeps. -/
namespace Sys2Proof.Machine

/-! ### Tables -/

@[simp] theorem tblGet_nil {α : Type} (d : α) (k : Nat) : tblGet d [] k = d := rfl

@[simp] theorem tblGet_tblPut_same {α : Type} (d : α) (t : List (Nat × α)) (k : Nat) (v : α) : tblGet d (tblPut t k v) k = v := by
  induction t with
  | nil => simp [tblPut, tblGet]
  | cons e r ih =>
    obtain ⟨a, w⟩ := e
    by_cases h : a = k
    · simp [tblPut, tblGet, h]
    · by_cases h2 : k < a
      · simp [tblPut, tblGet, h, h2]
      · simp [tblPut, tblGet, h, h2, ih]

theorem tblGet_tblPut_other {α : Type} (d : α) (t : List (Nat × α)) (k j : Nat) (v : α) (h : j ≠ k) :
    tblGet d (tblPut t k v) j = tblGet d t j := by
  induction t with
  | nil => simp [tblPut, tblGet, Ne.symm h]
  | cons e r ih =>
    obtain ⟨a, w⟩ := e
    by_cases h1 : a = k
    · subst h1
      simp [tblPut, tblGet, Ne.symm h]
    · by_cases h2 : k < a
      · simp [tblPut, tblGet, h1, h2, Ne.symm h]
      · simp [tblPut, tblGet, h1, h2, ih]

theorem tblGet_tblPut {α : Type} (d : α) (t : List (Nat × α)) (k j : Nat) (v : α) :
    tblGet d (tblPut t k v) j = if j = k then v else tblGet d t j := by
  by_cases h : j = k
  · subst h; simp
  · simp [h, tblGet_tblPut_other]

@[simp] theorem tblGet_tblMod_same {α : Type} (d : α) (t : List (Nat × α)) (k : Nat) (f : α → α) :
    tblGet d (tblMod d t k f) k = f (tblGet d t k) := by simp [tblMod]

theorem tblGet_tblMod_other {α : Type} (d : α) (t : List (Nat × α)) (k j : Nat) (f : α → α) (h : j ≠ k) :
    tblGet d (tblMod d t k f) j = tblGet d t j := by simp [tblMod, tblGet_tblPut_other, h]

/-- Every key of a table whose keys rise from above `m` is above `m`. -/
theorem tblSorted_tail {α : Type} (a : Nat) (w : α) (r : List (Nat × α)) (h : tblSorted ((a, w) :: r) = true) : tblSorted r = true := by
  cases r with
  | nil => rfl
  | cons e r => obtain ⟨b, x⟩ := e; simp [tblSorted] at h; exact h.2

theorem tblSorted_cons {α : Type} (a : Nat) (w : α) (r : List (Nat × α)) :
    tblSorted ((a, w) :: r) = true ↔ (∀ e ∈ r, a < e.1) ∧ tblSorted r = true := by
  induction r generalizing a w with
  | nil => simp [tblSorted]
  | cons e r ih =>
    obtain ⟨b, x⟩ := e
    simp only [tblSorted, Bool.and_eq_true, decide_eq_true_eq, List.mem_cons, forall_eq_or_imp]
    constructor
    · rintro ⟨h1, h2⟩
      exact ⟨⟨h1, fun e he => Nat.lt_trans h1 ((ih b x).1 h2 |>.1 e he)⟩, h2⟩
    · rintro ⟨⟨h1, -⟩, h2⟩
      exact ⟨h1, h2⟩

theorem mem_tblPut {α : Type} (t : List (Nat × α)) (k : Nat) (v : α) (e : Nat × α) (h : e ∈ tblPut t k v) : e = (k, v) ∨ e ∈ t := by
  induction t with
  | nil => simpa [tblPut] using h
  | cons f r ih =>
    obtain ⟨a, w⟩ := f
    by_cases h1 : a = k
    · simp [tblPut, h1] at h; rcases h with h | h
      · exact .inl h
      · exact .inr (List.mem_cons_of_mem _ h)
    · by_cases h2 : k < a
      · simp [tblPut, h1, h2] at h; rcases h with h | h | h
        · exact .inl h
        · exact .inr (by simp [h])
        · exact .inr (List.mem_cons_of_mem _ h)
      · simp [tblPut, h1, h2] at h; rcases h with h | h
        · exact .inr (by simp [h])
        · rcases ih h with h | h
          · exact .inl h
          · exact .inr (List.mem_cons_of_mem _ h)

theorem tblSorted_tblPut {α : Type} (t : List (Nat × α)) (k : Nat) (v : α) (h : tblSorted t = true) : tblSorted (tblPut t k v) = true := by
  induction t with
  | nil => rfl
  | cons f r ih =>
    obtain ⟨a, w⟩ := f
    have hs := (tblSorted_cons a w r).1 h
    by_cases h1 : a = k
    · simp only [tblPut, h1, if_true]
      exact (tblSorted_cons k v r).2 ⟨fun e he => h1 ▸ hs.1 e he, hs.2⟩
    · by_cases h2 : k < a
      · simp only [tblPut, h1, h2, if_true, if_false]
        refine (tblSorted_cons k v _).2 ⟨?_, h⟩
        intro e he
        rcases List.mem_cons.1 he with rfl | he
        · exact h2
        · exact Nat.lt_trans h2 (hs.1 e he)
      · simp only [tblPut, h1, h2, if_false]
        refine (tblSorted_cons a w _).2 ⟨?_, ih hs.2⟩
        intro e he
        rcases mem_tblPut r k v e he with rfl | he
        · exact Nat.lt_of_le_of_ne (Nat.le_of_not_lt h2) h1
        · exact hs.1 e he

theorem mem_tblDel {α : Type} (t : List (Nat × α)) (k : Nat) (e : Nat × α) (h : e ∈ tblDel t k) : e ∈ t := by
  induction t with
  | nil => simp [tblDel] at h
  | cons f r ih =>
    obtain ⟨a, w⟩ := f
    by_cases h1 : a = k
    · simp [tblDel, h1] at h; exact List.mem_cons_of_mem _ h
    · simp [tblDel, h1] at h; rcases h with h | h
      · simp [h]
      · exact List.mem_cons_of_mem _ (ih h)

theorem tblSorted_tblDel {α : Type} (t : List (Nat × α)) (k : Nat) (h : tblSorted t = true) : tblSorted (tblDel t k) = true := by
  induction t with
  | nil => rfl
  | cons f r ih =>
    obtain ⟨a, w⟩ := f
    have hs := (tblSorted_cons a w r).1 h
    by_cases h1 : a = k
    · simp only [tblDel, h1, if_true]; exact hs.2
    · simp only [tblDel, h1, if_false]
      exact (tblSorted_cons a w _).2 ⟨fun e he => hs.1 e (mem_tblDel r k e he), ih hs.2⟩

/-! ### Byte memories -/

/-- Writing a byte keeps the canonical form. -/
theorem memWf_memPut (m : ByteMem) (a : Nat) (b : Byte) (h : memWf m = true) : memWf (memPut m a b) = true := by
  simp only [memWf, Bool.and_eq_true, Bool.or_eq_true, bne_iff_ne, ne_eq, List.all_eq_true] at h ⊢
  unfold memPut
  split
  · rename_i hb
    refine ⟨tblSorted_tblDel _ _ h.1, ?_⟩
    rcases h.2 with h2 | h2
    · exact absurd hb.1 h2
    · exact .inr fun e he => h2 e (mem_tblDel _ _ e he)
  · rename_i hb
    refine ⟨tblSorted_tblPut _ _ _ h.1, ?_⟩
    rcases h.2 with h2 | h2
    · exact .inl h2
    · by_cases he : m.epoch = 0
      · refine .inr fun e hm => ?_
        rcases mem_tblPut _ _ _ e hm with rfl | hm
        · exact fun hz => hb ⟨he, hz⟩
        · exact h2 e hm
      · exact .inl he

/-- So does writing several. -/
theorem memWf_memWrite (n : Nat) : ∀ (m : ByteMem) (a v : Nat), memWf m = true → memWf (memWrite m a n v) = true := by
  induction n with
  | zero => intro m a v h; exact h
  | succ n ih => intro m a v h; exact ih _ _ _ (memWf_memPut m a _ h)

/-- So does writing a list. -/
theorem memWf_memWriteBytes (bs : List Byte) : ∀ (m : ByteMem) (a : Nat), memWf m = true → memWf (memWriteBytes m a bs) = true := by
  induction bs with
  | nil => intro m a h; exact h
  | cons b r ih => intro m a h; exact ih _ _ (memWf_memPut m a b h)

/-- A memory just lost has it. -/
theorem memWf_memLost (e : Nat) : memWf (memLost e) = true := by simp [memWf, memLost, tblSorted]

/-- So has an empty one, and so have the memories of the reset state. -/
theorem memWf_empty : memWf {} = true := by decide

theorem tblGet_absent {α : Type} (d : α) (t : List (Nat × α)) (k : Nat) (h : ∀ e ∈ t, k < e.1) : tblGet d t k = d := by
  induction t with
  | nil => rfl
  | cons e r ih =>
    obtain ⟨a, w⟩ := e
    have h1 : k < a := h (a, w) (by simp)
    simp only [tblGet, Nat.ne_of_gt h1, if_false]
    exact ih fun e he => h e (List.mem_cons_of_mem _ he)

theorem tblGet_tblDel_same {α : Type} (d : α) (t : List (Nat × α)) (k : Nat) (h : tblSorted t = true) : tblGet d (tblDel t k) k = d := by
  induction t with
  | nil => rfl
  | cons e r ih =>
    obtain ⟨a, w⟩ := e
    have hs := (tblSorted_cons a w r).1 h
    by_cases h1 : a = k
    · simp only [tblDel, h1, if_true]; exact tblGet_absent d r k fun e he => h1 ▸ hs.1 e he
    · simp only [tblDel, h1, if_false, tblGet]; exact ih hs.2

theorem tblGet_tblDel_other {α : Type} (d : α) (t : List (Nat × α)) (k j : Nat) (h : j ≠ k) : tblGet d (tblDel t k) j = tblGet d t j := by
  induction t with
  | nil => rfl
  | cons e r ih =>
    obtain ⟨a, w⟩ := e
    by_cases h1 : a = k
    · subst h1; simp [tblDel, tblGet, Ne.symm h]
    · simp [tblDel, tblGet, h1, ih]

/-- A byte reads as it was last written. -/
theorem memGet_memPut_same (m : ByteMem) (a : Nat) (b : Byte) (h : memWf m = true) : memGet (memPut m a b) a = b := by
  simp only [memWf, Bool.and_eq_true] at h
  unfold memPut
  split
  · rename_i hb
    simp [memGet, memDefault, hb.1, hb.2, tblGet_tblDel_same _ _ _ h.1]
  · simp [memGet]

/-- Every other byte keeps its value. -/
theorem memGet_memPut_other (m : ByteMem) (a x : Nat) (b : Byte) (h : x ≠ a) : memGet (memPut m a b) x = memGet m x := by
  unfold memPut
  split
  · simp [memGet, memDefault, tblGet_tblDel_other _ _ _ _ h]
  · simp [memGet, memDefault, tblGet_tblPut_other _ _ _ _ _ h]

/-- A write of `n` bytes leaves every byte outside them. -/
theorem memGet_memWrite_other (n : Nat) : ∀ (m : ByteMem) (a v x : Nat), (x < a ∨ a + n ≤ x) → memGet (memWrite m a n v) x = memGet m x := by
  induction n with
  | zero => intro m a v x _; rfl
  | succ n ih =>
    intro m a v x h
    have h1 : memGet (memWrite m a (n + 1) v) x = memGet (memPut m a (BitVec.ofNat 8 v)) x := ih _ _ _ x (by omega)
    rw [h1, memGet_memPut_other _ _ _ _ (by omega)]

/-- A write of `n` bytes is read back whole. -/
theorem memRead_memWrite (n : Nat) : ∀ (m : ByteMem) (a v : Nat), memWf m = true → memRead (memWrite m a n v) a n = v % 256 ^ n := by
  induction n with
  | zero => intro m a v _; simp [memRead, Nat.mod_one]
  | succ n ih =>
    intro m a v h
    have hw := memWf_memPut m a (BitVec.ofNat 8 v) h
    have h1 : memGet (memWrite (memPut m a (BitVec.ofNat 8 v)) (a + 1) n (v / 256)) a = BitVec.ofNat 8 v := by
      rw [memGet_memWrite_other n _ _ _ a (by omega)]
      exact memGet_memPut_same m a _ h
    show (memGet (memWrite (memPut m a (BitVec.ofNat 8 v)) (a + 1) n (v / 256)) a).toNat
      + 256 * memRead (memWrite (memPut m a (BitVec.ofNat 8 v)) (a + 1) n (v / 256)) (a + 1) n = _
    rw [h1, ih _ _ _ hw, BitVec.toNat_ofNat, Nat.pow_succ (m := n), Nat.mul_comm (256 ^ n) 256, Nat.mod_mul]

end Sys2Proof.Machine
end

