-- ==== Sys2Proof/Laws/State.lean ====
section
/-! SUPPORT. What each named update leaves of the state: one lemma for each field that it keeps, and what a unit reads as after its own
update and after another's. -/
namespace Sys2Proof.Machine

/-! #### putCore -/

@[simp] theorem putCore_pending (s : State) (c : Nat) (k : Core) : (putCore s c k).pending = s.pending := rfl
@[simp] theorem putCore_comb (s : State) (c : Nat) (k : Core) : (putCore s c k).comb = s.comb := rfl
@[simp] theorem putCore_hbm (s : State) (c : Nat) (k : Core) : (putCore s c k).hbm = s.hbm := rfl
@[simp] theorem putCore_reg (s : State) (c : Nat) (k : Core) : (putCore s c k).reg = s.reg := rfl
@[simp] theorem putCore_clk (s : State) (c : Nat) (k : Core) : (putCore s c k).clk = s.clk := rfl
@[simp] theorem putCore_rst (s : State) (c : Nat) (k : Core) : (putCore s c k).rst = s.rst := rfl
@[simp] theorem putCore_pwr (s : State) (c : Nat) (k : Core) : (putCore s c k).pwr = s.pwr := rfl
@[simp] theorem putCore_thm (s : State) (c : Nat) (k : Core) : (putCore s c k).thm = s.thm := rfl
@[simp] theorem putCore_mgt (s : State) (c : Nat) (k : Core) : (putCore s c k).mgt = s.mgt := rfl
@[simp] theorem putCore_rgn (s : State) (c : Nat) (k : Core) : (putCore s c k).rgn = s.rgn := rfl
@[simp] theorem putCore_boot (s : State) (c : Nat) (k : Core) : (putCore s c k).boot = s.boot := rfl
@[simp] theorem putCore_net (s : State) (c : Nat) (k : Core) : (putCore s c k).net = s.net := rfl
@[simp] theorem putCore_mbx (s : State) (c : Nat) (k : Core) : (putCore s c k).mbx = s.mbx := rfl
@[simp] theorem putCore_swarm (s : State) (c : Nat) (k : Core) : (putCore s c k).swarm = s.swarm := rfl
@[simp] theorem putCore_sec (s : State) (c : Nat) (k : Core) : (putCore s c k).sec = s.sec := rfl
@[simp] theorem putCore_frames (s : State) (c : Nat) (k : Core) : (putCore s c k).frames = s.frames := rfl
@[simp] theorem putCore_pins (s : State) (c : Nat) (k : Core) : (putCore s c k).pins = s.pins := rfl
@[simp] theorem putCore_sigs (s : State) (c : Nat) (k : Core) : (putCore s c k).sigs = s.sigs := rfl
@[simp] theorem putCore_answers (s : State) (c : Nat) (k : Core) : (putCore s c k).answers = s.answers := rfl
@[simp] theorem putCore_free (s : State) (c : Nat) (k : Core) : (putCore s c k).free = s.free := rfl

/-! #### modCore -/

@[simp] theorem modCore_pending (s : State) (c : Nat) (f : Core → Core) : (modCore s c f).pending = s.pending := rfl
@[simp] theorem modCore_comb (s : State) (c : Nat) (f : Core → Core) : (modCore s c f).comb = s.comb := rfl
@[simp] theorem modCore_hbm (s : State) (c : Nat) (f : Core → Core) : (modCore s c f).hbm = s.hbm := rfl
@[simp] theorem modCore_reg (s : State) (c : Nat) (f : Core → Core) : (modCore s c f).reg = s.reg := rfl
@[simp] theorem modCore_clk (s : State) (c : Nat) (f : Core → Core) : (modCore s c f).clk = s.clk := rfl
@[simp] theorem modCore_rst (s : State) (c : Nat) (f : Core → Core) : (modCore s c f).rst = s.rst := rfl
@[simp] theorem modCore_pwr (s : State) (c : Nat) (f : Core → Core) : (modCore s c f).pwr = s.pwr := rfl
@[simp] theorem modCore_thm (s : State) (c : Nat) (f : Core → Core) : (modCore s c f).thm = s.thm := rfl
@[simp] theorem modCore_mgt (s : State) (c : Nat) (f : Core → Core) : (modCore s c f).mgt = s.mgt := rfl
@[simp] theorem modCore_rgn (s : State) (c : Nat) (f : Core → Core) : (modCore s c f).rgn = s.rgn := rfl
@[simp] theorem modCore_boot (s : State) (c : Nat) (f : Core → Core) : (modCore s c f).boot = s.boot := rfl
@[simp] theorem modCore_net (s : State) (c : Nat) (f : Core → Core) : (modCore s c f).net = s.net := rfl
@[simp] theorem modCore_mbx (s : State) (c : Nat) (f : Core → Core) : (modCore s c f).mbx = s.mbx := rfl
@[simp] theorem modCore_swarm (s : State) (c : Nat) (f : Core → Core) : (modCore s c f).swarm = s.swarm := rfl
@[simp] theorem modCore_sec (s : State) (c : Nat) (f : Core → Core) : (modCore s c f).sec = s.sec := rfl
@[simp] theorem modCore_frames (s : State) (c : Nat) (f : Core → Core) : (modCore s c f).frames = s.frames := rfl
@[simp] theorem modCore_pins (s : State) (c : Nat) (f : Core → Core) : (modCore s c f).pins = s.pins := rfl
@[simp] theorem modCore_sigs (s : State) (c : Nat) (f : Core → Core) : (modCore s c f).sigs = s.sigs := rfl
@[simp] theorem modCore_answers (s : State) (c : Nat) (f : Core → Core) : (modCore s c f).answers = s.answers := rfl
@[simp] theorem modCore_free (s : State) (c : Nat) (f : Core → Core) : (modCore s c f).free = s.free := rfl

/-! #### modRegs -/

@[simp] theorem modRegs_pending (s : State) (c : Nat) (f : CoreRegs → CoreRegs) : (modRegs s c f).pending = s.pending := rfl
@[simp] theorem modRegs_comb (s : State) (c : Nat) (f : CoreRegs → CoreRegs) : (modRegs s c f).comb = s.comb := rfl
@[simp] theorem modRegs_hbm (s : State) (c : Nat) (f : CoreRegs → CoreRegs) : (modRegs s c f).hbm = s.hbm := rfl
@[simp] theorem modRegs_reg (s : State) (c : Nat) (f : CoreRegs → CoreRegs) : (modRegs s c f).reg = s.reg := rfl
@[simp] theorem modRegs_clk (s : State) (c : Nat) (f : CoreRegs → CoreRegs) : (modRegs s c f).clk = s.clk := rfl
@[simp] theorem modRegs_rst (s : State) (c : Nat) (f : CoreRegs → CoreRegs) : (modRegs s c f).rst = s.rst := rfl
@[simp] theorem modRegs_pwr (s : State) (c : Nat) (f : CoreRegs → CoreRegs) : (modRegs s c f).pwr = s.pwr := rfl
@[simp] theorem modRegs_thm (s : State) (c : Nat) (f : CoreRegs → CoreRegs) : (modRegs s c f).thm = s.thm := rfl
@[simp] theorem modRegs_mgt (s : State) (c : Nat) (f : CoreRegs → CoreRegs) : (modRegs s c f).mgt = s.mgt := rfl
@[simp] theorem modRegs_rgn (s : State) (c : Nat) (f : CoreRegs → CoreRegs) : (modRegs s c f).rgn = s.rgn := rfl
@[simp] theorem modRegs_boot (s : State) (c : Nat) (f : CoreRegs → CoreRegs) : (modRegs s c f).boot = s.boot := rfl
@[simp] theorem modRegs_net (s : State) (c : Nat) (f : CoreRegs → CoreRegs) : (modRegs s c f).net = s.net := rfl
@[simp] theorem modRegs_mbx (s : State) (c : Nat) (f : CoreRegs → CoreRegs) : (modRegs s c f).mbx = s.mbx := rfl
@[simp] theorem modRegs_swarm (s : State) (c : Nat) (f : CoreRegs → CoreRegs) : (modRegs s c f).swarm = s.swarm := rfl
@[simp] theorem modRegs_sec (s : State) (c : Nat) (f : CoreRegs → CoreRegs) : (modRegs s c f).sec = s.sec := rfl
@[simp] theorem modRegs_frames (s : State) (c : Nat) (f : CoreRegs → CoreRegs) : (modRegs s c f).frames = s.frames := rfl
@[simp] theorem modRegs_pins (s : State) (c : Nat) (f : CoreRegs → CoreRegs) : (modRegs s c f).pins = s.pins := rfl
@[simp] theorem modRegs_sigs (s : State) (c : Nat) (f : CoreRegs → CoreRegs) : (modRegs s c f).sigs = s.sigs := rfl
@[simp] theorem modRegs_answers (s : State) (c : Nat) (f : CoreRegs → CoreRegs) : (modRegs s c f).answers = s.answers := rfl
@[simp] theorem modRegs_free (s : State) (c : Nat) (f : CoreRegs → CoreRegs) : (modRegs s c f).free = s.free := rfl

/-! #### modArr -/

@[simp] theorem modArr_pending (s : State) (c : Nat) (f : Arr → Arr) : (modArr s c f).pending = s.pending := rfl
@[simp] theorem modArr_comb (s : State) (c : Nat) (f : Arr → Arr) : (modArr s c f).comb = s.comb := rfl
@[simp] theorem modArr_hbm (s : State) (c : Nat) (f : Arr → Arr) : (modArr s c f).hbm = s.hbm := rfl
@[simp] theorem modArr_reg (s : State) (c : Nat) (f : Arr → Arr) : (modArr s c f).reg = s.reg := rfl
@[simp] theorem modArr_clk (s : State) (c : Nat) (f : Arr → Arr) : (modArr s c f).clk = s.clk := rfl
@[simp] theorem modArr_rst (s : State) (c : Nat) (f : Arr → Arr) : (modArr s c f).rst = s.rst := rfl
@[simp] theorem modArr_pwr (s : State) (c : Nat) (f : Arr → Arr) : (modArr s c f).pwr = s.pwr := rfl
@[simp] theorem modArr_thm (s : State) (c : Nat) (f : Arr → Arr) : (modArr s c f).thm = s.thm := rfl
@[simp] theorem modArr_mgt (s : State) (c : Nat) (f : Arr → Arr) : (modArr s c f).mgt = s.mgt := rfl
@[simp] theorem modArr_rgn (s : State) (c : Nat) (f : Arr → Arr) : (modArr s c f).rgn = s.rgn := rfl
@[simp] theorem modArr_boot (s : State) (c : Nat) (f : Arr → Arr) : (modArr s c f).boot = s.boot := rfl
@[simp] theorem modArr_net (s : State) (c : Nat) (f : Arr → Arr) : (modArr s c f).net = s.net := rfl
@[simp] theorem modArr_mbx (s : State) (c : Nat) (f : Arr → Arr) : (modArr s c f).mbx = s.mbx := rfl
@[simp] theorem modArr_swarm (s : State) (c : Nat) (f : Arr → Arr) : (modArr s c f).swarm = s.swarm := rfl
@[simp] theorem modArr_sec (s : State) (c : Nat) (f : Arr → Arr) : (modArr s c f).sec = s.sec := rfl
@[simp] theorem modArr_frames (s : State) (c : Nat) (f : Arr → Arr) : (modArr s c f).frames = s.frames := rfl
@[simp] theorem modArr_pins (s : State) (c : Nat) (f : Arr → Arr) : (modArr s c f).pins = s.pins := rfl
@[simp] theorem modArr_sigs (s : State) (c : Nat) (f : Arr → Arr) : (modArr s c f).sigs = s.sigs := rfl
@[simp] theorem modArr_answers (s : State) (c : Nat) (f : Arr → Arr) : (modArr s c f).answers = s.answers := rfl
@[simp] theorem modArr_free (s : State) (c : Nat) (f : Arr → Arr) : (modArr s c f).free = s.free := rfl

/-! #### modTg -/

@[simp] theorem modTg_pending (s : State) (c : Nat) (f : Tg → Tg) : (modTg s c f).pending = s.pending := rfl
@[simp] theorem modTg_comb (s : State) (c : Nat) (f : Tg → Tg) : (modTg s c f).comb = s.comb := rfl
@[simp] theorem modTg_hbm (s : State) (c : Nat) (f : Tg → Tg) : (modTg s c f).hbm = s.hbm := rfl
@[simp] theorem modTg_reg (s : State) (c : Nat) (f : Tg → Tg) : (modTg s c f).reg = s.reg := rfl
@[simp] theorem modTg_clk (s : State) (c : Nat) (f : Tg → Tg) : (modTg s c f).clk = s.clk := rfl
@[simp] theorem modTg_rst (s : State) (c : Nat) (f : Tg → Tg) : (modTg s c f).rst = s.rst := rfl
@[simp] theorem modTg_pwr (s : State) (c : Nat) (f : Tg → Tg) : (modTg s c f).pwr = s.pwr := rfl
@[simp] theorem modTg_thm (s : State) (c : Nat) (f : Tg → Tg) : (modTg s c f).thm = s.thm := rfl
@[simp] theorem modTg_mgt (s : State) (c : Nat) (f : Tg → Tg) : (modTg s c f).mgt = s.mgt := rfl
@[simp] theorem modTg_rgn (s : State) (c : Nat) (f : Tg → Tg) : (modTg s c f).rgn = s.rgn := rfl
@[simp] theorem modTg_boot (s : State) (c : Nat) (f : Tg → Tg) : (modTg s c f).boot = s.boot := rfl
@[simp] theorem modTg_net (s : State) (c : Nat) (f : Tg → Tg) : (modTg s c f).net = s.net := rfl
@[simp] theorem modTg_mbx (s : State) (c : Nat) (f : Tg → Tg) : (modTg s c f).mbx = s.mbx := rfl
@[simp] theorem modTg_swarm (s : State) (c : Nat) (f : Tg → Tg) : (modTg s c f).swarm = s.swarm := rfl
@[simp] theorem modTg_sec (s : State) (c : Nat) (f : Tg → Tg) : (modTg s c f).sec = s.sec := rfl
@[simp] theorem modTg_frames (s : State) (c : Nat) (f : Tg → Tg) : (modTg s c f).frames = s.frames := rfl
@[simp] theorem modTg_pins (s : State) (c : Nat) (f : Tg → Tg) : (modTg s c f).pins = s.pins := rfl
@[simp] theorem modTg_sigs (s : State) (c : Nat) (f : Tg → Tg) : (modTg s c f).sigs = s.sigs := rfl
@[simp] theorem modTg_answers (s : State) (c : Nat) (f : Tg → Tg) : (modTg s c f).answers = s.answers := rfl
@[simp] theorem modTg_free (s : State) (c : Nat) (f : Tg → Tg) : (modTg s c f).free = s.free := rfl

/-! #### modGroup -/

@[simp] theorem modGroup_pending (s : State) (c g : Nat) (f : Group → Group) : (modGroup s c g f).pending = s.pending := rfl
@[simp] theorem modGroup_comb (s : State) (c g : Nat) (f : Group → Group) : (modGroup s c g f).comb = s.comb := rfl
@[simp] theorem modGroup_hbm (s : State) (c g : Nat) (f : Group → Group) : (modGroup s c g f).hbm = s.hbm := rfl
@[simp] theorem modGroup_reg (s : State) (c g : Nat) (f : Group → Group) : (modGroup s c g f).reg = s.reg := rfl
@[simp] theorem modGroup_clk (s : State) (c g : Nat) (f : Group → Group) : (modGroup s c g f).clk = s.clk := rfl
@[simp] theorem modGroup_rst (s : State) (c g : Nat) (f : Group → Group) : (modGroup s c g f).rst = s.rst := rfl
@[simp] theorem modGroup_pwr (s : State) (c g : Nat) (f : Group → Group) : (modGroup s c g f).pwr = s.pwr := rfl
@[simp] theorem modGroup_thm (s : State) (c g : Nat) (f : Group → Group) : (modGroup s c g f).thm = s.thm := rfl
@[simp] theorem modGroup_mgt (s : State) (c g : Nat) (f : Group → Group) : (modGroup s c g f).mgt = s.mgt := rfl
@[simp] theorem modGroup_rgn (s : State) (c g : Nat) (f : Group → Group) : (modGroup s c g f).rgn = s.rgn := rfl
@[simp] theorem modGroup_boot (s : State) (c g : Nat) (f : Group → Group) : (modGroup s c g f).boot = s.boot := rfl
@[simp] theorem modGroup_net (s : State) (c g : Nat) (f : Group → Group) : (modGroup s c g f).net = s.net := rfl
@[simp] theorem modGroup_mbx (s : State) (c g : Nat) (f : Group → Group) : (modGroup s c g f).mbx = s.mbx := rfl
@[simp] theorem modGroup_swarm (s : State) (c g : Nat) (f : Group → Group) : (modGroup s c g f).swarm = s.swarm := rfl
@[simp] theorem modGroup_sec (s : State) (c g : Nat) (f : Group → Group) : (modGroup s c g f).sec = s.sec := rfl
@[simp] theorem modGroup_frames (s : State) (c g : Nat) (f : Group → Group) : (modGroup s c g f).frames = s.frames := rfl
@[simp] theorem modGroup_pins (s : State) (c g : Nat) (f : Group → Group) : (modGroup s c g f).pins = s.pins := rfl
@[simp] theorem modGroup_sigs (s : State) (c g : Nat) (f : Group → Group) : (modGroup s c g f).sigs = s.sigs := rfl
@[simp] theorem modGroup_answers (s : State) (c g : Nat) (f : Group → Group) : (modGroup s c g f).answers = s.answers := rfl
@[simp] theorem modGroup_free (s : State) (c g : Nat) (f : Group → Group) : (modGroup s c g f).free = s.free := rfl

/-! #### modExec -/

@[simp] theorem modExec_pending (s : State) (c tag : Nat) (f : ArrExec → ArrExec) : (modExec s c tag f).pending = s.pending := rfl
@[simp] theorem modExec_comb (s : State) (c tag : Nat) (f : ArrExec → ArrExec) : (modExec s c tag f).comb = s.comb := rfl
@[simp] theorem modExec_hbm (s : State) (c tag : Nat) (f : ArrExec → ArrExec) : (modExec s c tag f).hbm = s.hbm := rfl
@[simp] theorem modExec_reg (s : State) (c tag : Nat) (f : ArrExec → ArrExec) : (modExec s c tag f).reg = s.reg := rfl
@[simp] theorem modExec_clk (s : State) (c tag : Nat) (f : ArrExec → ArrExec) : (modExec s c tag f).clk = s.clk := rfl
@[simp] theorem modExec_rst (s : State) (c tag : Nat) (f : ArrExec → ArrExec) : (modExec s c tag f).rst = s.rst := rfl
@[simp] theorem modExec_pwr (s : State) (c tag : Nat) (f : ArrExec → ArrExec) : (modExec s c tag f).pwr = s.pwr := rfl
@[simp] theorem modExec_thm (s : State) (c tag : Nat) (f : ArrExec → ArrExec) : (modExec s c tag f).thm = s.thm := rfl
@[simp] theorem modExec_mgt (s : State) (c tag : Nat) (f : ArrExec → ArrExec) : (modExec s c tag f).mgt = s.mgt := rfl
@[simp] theorem modExec_rgn (s : State) (c tag : Nat) (f : ArrExec → ArrExec) : (modExec s c tag f).rgn = s.rgn := rfl
@[simp] theorem modExec_boot (s : State) (c tag : Nat) (f : ArrExec → ArrExec) : (modExec s c tag f).boot = s.boot := rfl
@[simp] theorem modExec_net (s : State) (c tag : Nat) (f : ArrExec → ArrExec) : (modExec s c tag f).net = s.net := rfl
@[simp] theorem modExec_mbx (s : State) (c tag : Nat) (f : ArrExec → ArrExec) : (modExec s c tag f).mbx = s.mbx := rfl
@[simp] theorem modExec_swarm (s : State) (c tag : Nat) (f : ArrExec → ArrExec) : (modExec s c tag f).swarm = s.swarm := rfl
@[simp] theorem modExec_sec (s : State) (c tag : Nat) (f : ArrExec → ArrExec) : (modExec s c tag f).sec = s.sec := rfl
@[simp] theorem modExec_frames (s : State) (c tag : Nat) (f : ArrExec → ArrExec) : (modExec s c tag f).frames = s.frames := rfl
@[simp] theorem modExec_pins (s : State) (c tag : Nat) (f : ArrExec → ArrExec) : (modExec s c tag f).pins = s.pins := rfl
@[simp] theorem modExec_sigs (s : State) (c tag : Nat) (f : ArrExec → ArrExec) : (modExec s c tag f).sigs = s.sigs := rfl
@[simp] theorem modExec_answers (s : State) (c tag : Nat) (f : ArrExec → ArrExec) : (modExec s c tag f).answers = s.answers := rfl
@[simp] theorem modExec_free (s : State) (c tag : Nat) (f : ArrExec → ArrExec) : (modExec s c tag f).free = s.free := rfl

/-! #### modSlice -/

@[simp] theorem modSlice_pending (s : State) (n : Nat) (f : Slice → Slice) : (modSlice s n f).pending = s.pending := rfl
@[simp] theorem modSlice_cores (s : State) (n : Nat) (f : Slice → Slice) : (modSlice s n f).cores = s.cores := rfl
@[simp] theorem modSlice_hbm (s : State) (n : Nat) (f : Slice → Slice) : (modSlice s n f).hbm = s.hbm := rfl
@[simp] theorem modSlice_reg (s : State) (n : Nat) (f : Slice → Slice) : (modSlice s n f).reg = s.reg := rfl
@[simp] theorem modSlice_clk (s : State) (n : Nat) (f : Slice → Slice) : (modSlice s n f).clk = s.clk := rfl
@[simp] theorem modSlice_rst (s : State) (n : Nat) (f : Slice → Slice) : (modSlice s n f).rst = s.rst := rfl
@[simp] theorem modSlice_pwr (s : State) (n : Nat) (f : Slice → Slice) : (modSlice s n f).pwr = s.pwr := rfl
@[simp] theorem modSlice_thm (s : State) (n : Nat) (f : Slice → Slice) : (modSlice s n f).thm = s.thm := rfl
@[simp] theorem modSlice_mgt (s : State) (n : Nat) (f : Slice → Slice) : (modSlice s n f).mgt = s.mgt := rfl
@[simp] theorem modSlice_rgn (s : State) (n : Nat) (f : Slice → Slice) : (modSlice s n f).rgn = s.rgn := rfl
@[simp] theorem modSlice_boot (s : State) (n : Nat) (f : Slice → Slice) : (modSlice s n f).boot = s.boot := rfl
@[simp] theorem modSlice_net (s : State) (n : Nat) (f : Slice → Slice) : (modSlice s n f).net = s.net := rfl
@[simp] theorem modSlice_mbx (s : State) (n : Nat) (f : Slice → Slice) : (modSlice s n f).mbx = s.mbx := rfl
@[simp] theorem modSlice_swarm (s : State) (n : Nat) (f : Slice → Slice) : (modSlice s n f).swarm = s.swarm := rfl
@[simp] theorem modSlice_sec (s : State) (n : Nat) (f : Slice → Slice) : (modSlice s n f).sec = s.sec := rfl
@[simp] theorem modSlice_frames (s : State) (n : Nat) (f : Slice → Slice) : (modSlice s n f).frames = s.frames := rfl
@[simp] theorem modSlice_pins (s : State) (n : Nat) (f : Slice → Slice) : (modSlice s n f).pins = s.pins := rfl
@[simp] theorem modSlice_sigs (s : State) (n : Nat) (f : Slice → Slice) : (modSlice s n f).sigs = s.sigs := rfl
@[simp] theorem modSlice_answers (s : State) (n : Nat) (f : Slice → Slice) : (modSlice s n f).answers = s.answers := rfl
@[simp] theorem modSlice_free (s : State) (n : Nat) (f : Slice → Slice) : (modSlice s n f).free = s.free := rfl

/-! #### putLine -/

@[simp] theorem putLine_pending (s : State) (ln : Nat) (l : CombLine) : (putLine ln l s).pending = s.pending := rfl
@[simp] theorem putLine_cores (s : State) (ln : Nat) (l : CombLine) : (putLine ln l s).cores = s.cores := rfl
@[simp] theorem putLine_hbm (s : State) (ln : Nat) (l : CombLine) : (putLine ln l s).hbm = s.hbm := rfl
@[simp] theorem putLine_reg (s : State) (ln : Nat) (l : CombLine) : (putLine ln l s).reg = s.reg := rfl
@[simp] theorem putLine_clk (s : State) (ln : Nat) (l : CombLine) : (putLine ln l s).clk = s.clk := rfl
@[simp] theorem putLine_rst (s : State) (ln : Nat) (l : CombLine) : (putLine ln l s).rst = s.rst := rfl
@[simp] theorem putLine_pwr (s : State) (ln : Nat) (l : CombLine) : (putLine ln l s).pwr = s.pwr := rfl
@[simp] theorem putLine_thm (s : State) (ln : Nat) (l : CombLine) : (putLine ln l s).thm = s.thm := rfl
@[simp] theorem putLine_mgt (s : State) (ln : Nat) (l : CombLine) : (putLine ln l s).mgt = s.mgt := rfl
@[simp] theorem putLine_rgn (s : State) (ln : Nat) (l : CombLine) : (putLine ln l s).rgn = s.rgn := rfl
@[simp] theorem putLine_boot (s : State) (ln : Nat) (l : CombLine) : (putLine ln l s).boot = s.boot := rfl
@[simp] theorem putLine_net (s : State) (ln : Nat) (l : CombLine) : (putLine ln l s).net = s.net := rfl
@[simp] theorem putLine_mbx (s : State) (ln : Nat) (l : CombLine) : (putLine ln l s).mbx = s.mbx := rfl
@[simp] theorem putLine_swarm (s : State) (ln : Nat) (l : CombLine) : (putLine ln l s).swarm = s.swarm := rfl
@[simp] theorem putLine_sec (s : State) (ln : Nat) (l : CombLine) : (putLine ln l s).sec = s.sec := rfl
@[simp] theorem putLine_frames (s : State) (ln : Nat) (l : CombLine) : (putLine ln l s).frames = s.frames := rfl
@[simp] theorem putLine_pins (s : State) (ln : Nat) (l : CombLine) : (putLine ln l s).pins = s.pins := rfl
@[simp] theorem putLine_sigs (s : State) (ln : Nat) (l : CombLine) : (putLine ln l s).sigs = s.sigs := rfl
@[simp] theorem putLine_answers (s : State) (ln : Nat) (l : CombLine) : (putLine ln l s).answers = s.answers := rfl
@[simp] theorem putLine_free (s : State) (ln : Nat) (l : CombLine) : (putLine ln l s).free = s.free := rfl

/-! #### dropLine -/

@[simp] theorem dropLine_pending (s : State) (ln : Nat) : (dropLine ln s).pending = s.pending := rfl
@[simp] theorem dropLine_cores (s : State) (ln : Nat) : (dropLine ln s).cores = s.cores := rfl
@[simp] theorem dropLine_hbm (s : State) (ln : Nat) : (dropLine ln s).hbm = s.hbm := rfl
@[simp] theorem dropLine_reg (s : State) (ln : Nat) : (dropLine ln s).reg = s.reg := rfl
@[simp] theorem dropLine_clk (s : State) (ln : Nat) : (dropLine ln s).clk = s.clk := rfl
@[simp] theorem dropLine_rst (s : State) (ln : Nat) : (dropLine ln s).rst = s.rst := rfl
@[simp] theorem dropLine_pwr (s : State) (ln : Nat) : (dropLine ln s).pwr = s.pwr := rfl
@[simp] theorem dropLine_thm (s : State) (ln : Nat) : (dropLine ln s).thm = s.thm := rfl
@[simp] theorem dropLine_mgt (s : State) (ln : Nat) : (dropLine ln s).mgt = s.mgt := rfl
@[simp] theorem dropLine_rgn (s : State) (ln : Nat) : (dropLine ln s).rgn = s.rgn := rfl
@[simp] theorem dropLine_boot (s : State) (ln : Nat) : (dropLine ln s).boot = s.boot := rfl
@[simp] theorem dropLine_net (s : State) (ln : Nat) : (dropLine ln s).net = s.net := rfl
@[simp] theorem dropLine_mbx (s : State) (ln : Nat) : (dropLine ln s).mbx = s.mbx := rfl
@[simp] theorem dropLine_swarm (s : State) (ln : Nat) : (dropLine ln s).swarm = s.swarm := rfl
@[simp] theorem dropLine_sec (s : State) (ln : Nat) : (dropLine ln s).sec = s.sec := rfl
@[simp] theorem dropLine_frames (s : State) (ln : Nat) : (dropLine ln s).frames = s.frames := rfl
@[simp] theorem dropLine_pins (s : State) (ln : Nat) : (dropLine ln s).pins = s.pins := rfl
@[simp] theorem dropLine_sigs (s : State) (ln : Nat) : (dropLine ln s).sigs = s.sigs := rfl
@[simp] theorem dropLine_answers (s : State) (ln : Nat) : (dropLine ln s).answers = s.answers := rfl
@[simp] theorem dropLine_free (s : State) (ln : Nat) : (dropLine ln s).free = s.free := rfl

/-! #### modStack -/

@[simp] theorem modStack_pending (s : State) (n : Nat) (f : Stack → Stack) : (modStack s n f).pending = s.pending := rfl
@[simp] theorem modStack_cores (s : State) (n : Nat) (f : Stack → Stack) : (modStack s n f).cores = s.cores := rfl
@[simp] theorem modStack_comb (s : State) (n : Nat) (f : Stack → Stack) : (modStack s n f).comb = s.comb := rfl
@[simp] theorem modStack_reg (s : State) (n : Nat) (f : Stack → Stack) : (modStack s n f).reg = s.reg := rfl
@[simp] theorem modStack_clk (s : State) (n : Nat) (f : Stack → Stack) : (modStack s n f).clk = s.clk := rfl
@[simp] theorem modStack_rst (s : State) (n : Nat) (f : Stack → Stack) : (modStack s n f).rst = s.rst := rfl
@[simp] theorem modStack_pwr (s : State) (n : Nat) (f : Stack → Stack) : (modStack s n f).pwr = s.pwr := rfl
@[simp] theorem modStack_thm (s : State) (n : Nat) (f : Stack → Stack) : (modStack s n f).thm = s.thm := rfl
@[simp] theorem modStack_mgt (s : State) (n : Nat) (f : Stack → Stack) : (modStack s n f).mgt = s.mgt := rfl
@[simp] theorem modStack_rgn (s : State) (n : Nat) (f : Stack → Stack) : (modStack s n f).rgn = s.rgn := rfl
@[simp] theorem modStack_boot (s : State) (n : Nat) (f : Stack → Stack) : (modStack s n f).boot = s.boot := rfl
@[simp] theorem modStack_net (s : State) (n : Nat) (f : Stack → Stack) : (modStack s n f).net = s.net := rfl
@[simp] theorem modStack_mbx (s : State) (n : Nat) (f : Stack → Stack) : (modStack s n f).mbx = s.mbx := rfl
@[simp] theorem modStack_swarm (s : State) (n : Nat) (f : Stack → Stack) : (modStack s n f).swarm = s.swarm := rfl
@[simp] theorem modStack_sec (s : State) (n : Nat) (f : Stack → Stack) : (modStack s n f).sec = s.sec := rfl
@[simp] theorem modStack_frames (s : State) (n : Nat) (f : Stack → Stack) : (modStack s n f).frames = s.frames := rfl
@[simp] theorem modStack_pins (s : State) (n : Nat) (f : Stack → Stack) : (modStack s n f).pins = s.pins := rfl
@[simp] theorem modStack_sigs (s : State) (n : Nat) (f : Stack → Stack) : (modStack s n f).sigs = s.sigs := rfl
@[simp] theorem modStack_answers (s : State) (n : Nat) (f : Stack → Stack) : (modStack s n f).answers = s.answers := rfl
@[simp] theorem modStack_free (s : State) (n : Nat) (f : Stack → Stack) : (modStack s n f).free = s.free := rfl

/-! #### hbmStore -/

@[simp] theorem hbmStore_pending (s : State) (ln : Nat) (d : Line) : (hbmStore ln d s).pending = s.pending := by simp only [hbmStore]
@[simp] theorem hbmStore_cores (s : State) (ln : Nat) (d : Line) : (hbmStore ln d s).cores = s.cores := by simp only [hbmStore]
@[simp] theorem hbmStore_comb (s : State) (ln : Nat) (d : Line) : (hbmStore ln d s).comb = s.comb := by simp only [hbmStore]
@[simp] theorem hbmStore_reg (s : State) (ln : Nat) (d : Line) : (hbmStore ln d s).reg = s.reg := by simp only [hbmStore]
@[simp] theorem hbmStore_clk (s : State) (ln : Nat) (d : Line) : (hbmStore ln d s).clk = s.clk := by simp only [hbmStore]
@[simp] theorem hbmStore_rst (s : State) (ln : Nat) (d : Line) : (hbmStore ln d s).rst = s.rst := by simp only [hbmStore]
@[simp] theorem hbmStore_pwr (s : State) (ln : Nat) (d : Line) : (hbmStore ln d s).pwr = s.pwr := by simp only [hbmStore]
@[simp] theorem hbmStore_thm (s : State) (ln : Nat) (d : Line) : (hbmStore ln d s).thm = s.thm := by simp only [hbmStore]
@[simp] theorem hbmStore_mgt (s : State) (ln : Nat) (d : Line) : (hbmStore ln d s).mgt = s.mgt := by simp only [hbmStore]
@[simp] theorem hbmStore_rgn (s : State) (ln : Nat) (d : Line) : (hbmStore ln d s).rgn = s.rgn := by simp only [hbmStore]
@[simp] theorem hbmStore_boot (s : State) (ln : Nat) (d : Line) : (hbmStore ln d s).boot = s.boot := by simp only [hbmStore]
@[simp] theorem hbmStore_net (s : State) (ln : Nat) (d : Line) : (hbmStore ln d s).net = s.net := by simp only [hbmStore]
@[simp] theorem hbmStore_mbx (s : State) (ln : Nat) (d : Line) : (hbmStore ln d s).mbx = s.mbx := by simp only [hbmStore]
@[simp] theorem hbmStore_swarm (s : State) (ln : Nat) (d : Line) : (hbmStore ln d s).swarm = s.swarm := by simp only [hbmStore]
@[simp] theorem hbmStore_sec (s : State) (ln : Nat) (d : Line) : (hbmStore ln d s).sec = s.sec := by simp only [hbmStore]
@[simp] theorem hbmStore_frames (s : State) (ln : Nat) (d : Line) : (hbmStore ln d s).frames = s.frames := by simp only [hbmStore]
@[simp] theorem hbmStore_pins (s : State) (ln : Nat) (d : Line) : (hbmStore ln d s).pins = s.pins := by simp only [hbmStore]
@[simp] theorem hbmStore_sigs (s : State) (ln : Nat) (d : Line) : (hbmStore ln d s).sigs = s.sigs := by simp only [hbmStore]
@[simp] theorem hbmStore_answers (s : State) (ln : Nat) (d : Line) : (hbmStore ln d s).answers = s.answers := by simp only [hbmStore]
@[simp] theorem hbmStore_free (s : State) (ln : Nat) (d : Line) : (hbmStore ln d s).free = s.free := by simp only [hbmStore]

/-! #### modFp -/

@[simp] theorem modFp_pending (s : State) (n : Nat) (f : Fp → Fp) : (modFp s n f).pending = s.pending := rfl
@[simp] theorem modFp_cores (s : State) (n : Nat) (f : Fp → Fp) : (modFp s n f).cores = s.cores := rfl
@[simp] theorem modFp_comb (s : State) (n : Nat) (f : Fp → Fp) : (modFp s n f).comb = s.comb := rfl
@[simp] theorem modFp_hbm (s : State) (n : Nat) (f : Fp → Fp) : (modFp s n f).hbm = s.hbm := rfl
@[simp] theorem modFp_reg (s : State) (n : Nat) (f : Fp → Fp) : (modFp s n f).reg = s.reg := rfl
@[simp] theorem modFp_clk (s : State) (n : Nat) (f : Fp → Fp) : (modFp s n f).clk = s.clk := rfl
@[simp] theorem modFp_rst (s : State) (n : Nat) (f : Fp → Fp) : (modFp s n f).rst = s.rst := rfl
@[simp] theorem modFp_thm (s : State) (n : Nat) (f : Fp → Fp) : (modFp s n f).thm = s.thm := rfl
@[simp] theorem modFp_mgt (s : State) (n : Nat) (f : Fp → Fp) : (modFp s n f).mgt = s.mgt := rfl
@[simp] theorem modFp_rgn (s : State) (n : Nat) (f : Fp → Fp) : (modFp s n f).rgn = s.rgn := rfl
@[simp] theorem modFp_boot (s : State) (n : Nat) (f : Fp → Fp) : (modFp s n f).boot = s.boot := rfl
@[simp] theorem modFp_net (s : State) (n : Nat) (f : Fp → Fp) : (modFp s n f).net = s.net := rfl
@[simp] theorem modFp_mbx (s : State) (n : Nat) (f : Fp → Fp) : (modFp s n f).mbx = s.mbx := rfl
@[simp] theorem modFp_swarm (s : State) (n : Nat) (f : Fp → Fp) : (modFp s n f).swarm = s.swarm := rfl
@[simp] theorem modFp_sec (s : State) (n : Nat) (f : Fp → Fp) : (modFp s n f).sec = s.sec := rfl
@[simp] theorem modFp_frames (s : State) (n : Nat) (f : Fp → Fp) : (modFp s n f).frames = s.frames := rfl
@[simp] theorem modFp_pins (s : State) (n : Nat) (f : Fp → Fp) : (modFp s n f).pins = s.pins := rfl
@[simp] theorem modFp_sigs (s : State) (n : Nat) (f : Fp → Fp) : (modFp s n f).sigs = s.sigs := rfl
@[simp] theorem modFp_answers (s : State) (n : Nat) (f : Fp → Fp) : (modFp s n f).answers = s.answers := rfl
@[simp] theorem modFp_free (s : State) (n : Nat) (f : Fp → Fp) : (modFp s n f).free = s.free := rfl

/-! #### modFeed -/

@[simp] theorem modFeed_pending (s : State) (n : Nat) (f : Feed → Feed) : (modFeed s n f).pending = s.pending := rfl
@[simp] theorem modFeed_cores (s : State) (n : Nat) (f : Feed → Feed) : (modFeed s n f).cores = s.cores := rfl
@[simp] theorem modFeed_comb (s : State) (n : Nat) (f : Feed → Feed) : (modFeed s n f).comb = s.comb := rfl
@[simp] theorem modFeed_hbm (s : State) (n : Nat) (f : Feed → Feed) : (modFeed s n f).hbm = s.hbm := rfl
@[simp] theorem modFeed_reg (s : State) (n : Nat) (f : Feed → Feed) : (modFeed s n f).reg = s.reg := rfl
@[simp] theorem modFeed_clk (s : State) (n : Nat) (f : Feed → Feed) : (modFeed s n f).clk = s.clk := rfl
@[simp] theorem modFeed_rst (s : State) (n : Nat) (f : Feed → Feed) : (modFeed s n f).rst = s.rst := rfl
@[simp] theorem modFeed_thm (s : State) (n : Nat) (f : Feed → Feed) : (modFeed s n f).thm = s.thm := rfl
@[simp] theorem modFeed_mgt (s : State) (n : Nat) (f : Feed → Feed) : (modFeed s n f).mgt = s.mgt := rfl
@[simp] theorem modFeed_rgn (s : State) (n : Nat) (f : Feed → Feed) : (modFeed s n f).rgn = s.rgn := rfl
@[simp] theorem modFeed_boot (s : State) (n : Nat) (f : Feed → Feed) : (modFeed s n f).boot = s.boot := rfl
@[simp] theorem modFeed_net (s : State) (n : Nat) (f : Feed → Feed) : (modFeed s n f).net = s.net := rfl
@[simp] theorem modFeed_mbx (s : State) (n : Nat) (f : Feed → Feed) : (modFeed s n f).mbx = s.mbx := rfl
@[simp] theorem modFeed_swarm (s : State) (n : Nat) (f : Feed → Feed) : (modFeed s n f).swarm = s.swarm := rfl
@[simp] theorem modFeed_sec (s : State) (n : Nat) (f : Feed → Feed) : (modFeed s n f).sec = s.sec := rfl
@[simp] theorem modFeed_frames (s : State) (n : Nat) (f : Feed → Feed) : (modFeed s n f).frames = s.frames := rfl
@[simp] theorem modFeed_pins (s : State) (n : Nat) (f : Feed → Feed) : (modFeed s n f).pins = s.pins := rfl
@[simp] theorem modFeed_sigs (s : State) (n : Nat) (f : Feed → Feed) : (modFeed s n f).sigs = s.sigs := rfl
@[simp] theorem modFeed_answers (s : State) (n : Nat) (f : Feed → Feed) : (modFeed s n f).answers = s.answers := rfl
@[simp] theorem modFeed_free (s : State) (n : Nat) (f : Feed → Feed) : (modFeed s n f).free = s.free := rfl

/-! #### modRgn -/

@[simp] theorem modRgn_pending (s : State) (n : Nat) (f : Rgn → Rgn) : (modRgn s n f).pending = s.pending := rfl
@[simp] theorem modRgn_cores (s : State) (n : Nat) (f : Rgn → Rgn) : (modRgn s n f).cores = s.cores := rfl
@[simp] theorem modRgn_comb (s : State) (n : Nat) (f : Rgn → Rgn) : (modRgn s n f).comb = s.comb := rfl
@[simp] theorem modRgn_hbm (s : State) (n : Nat) (f : Rgn → Rgn) : (modRgn s n f).hbm = s.hbm := rfl
@[simp] theorem modRgn_reg (s : State) (n : Nat) (f : Rgn → Rgn) : (modRgn s n f).reg = s.reg := rfl
@[simp] theorem modRgn_clk (s : State) (n : Nat) (f : Rgn → Rgn) : (modRgn s n f).clk = s.clk := rfl
@[simp] theorem modRgn_rst (s : State) (n : Nat) (f : Rgn → Rgn) : (modRgn s n f).rst = s.rst := rfl
@[simp] theorem modRgn_pwr (s : State) (n : Nat) (f : Rgn → Rgn) : (modRgn s n f).pwr = s.pwr := rfl
@[simp] theorem modRgn_thm (s : State) (n : Nat) (f : Rgn → Rgn) : (modRgn s n f).thm = s.thm := rfl
@[simp] theorem modRgn_mgt (s : State) (n : Nat) (f : Rgn → Rgn) : (modRgn s n f).mgt = s.mgt := rfl
@[simp] theorem modRgn_boot (s : State) (n : Nat) (f : Rgn → Rgn) : (modRgn s n f).boot = s.boot := rfl
@[simp] theorem modRgn_net (s : State) (n : Nat) (f : Rgn → Rgn) : (modRgn s n f).net = s.net := rfl
@[simp] theorem modRgn_mbx (s : State) (n : Nat) (f : Rgn → Rgn) : (modRgn s n f).mbx = s.mbx := rfl
@[simp] theorem modRgn_swarm (s : State) (n : Nat) (f : Rgn → Rgn) : (modRgn s n f).swarm = s.swarm := rfl
@[simp] theorem modRgn_sec (s : State) (n : Nat) (f : Rgn → Rgn) : (modRgn s n f).sec = s.sec := rfl
@[simp] theorem modRgn_frames (s : State) (n : Nat) (f : Rgn → Rgn) : (modRgn s n f).frames = s.frames := rfl
@[simp] theorem modRgn_pins (s : State) (n : Nat) (f : Rgn → Rgn) : (modRgn s n f).pins = s.pins := rfl
@[simp] theorem modRgn_sigs (s : State) (n : Nat) (f : Rgn → Rgn) : (modRgn s n f).sigs = s.sigs := rfl
@[simp] theorem modRgn_answers (s : State) (n : Nat) (f : Rgn → Rgn) : (modRgn s n f).answers = s.answers := rfl
@[simp] theorem modRgn_free (s : State) (n : Nat) (f : Rgn → Rgn) : (modRgn s n f).free = s.free := rfl

/-! #### modSensor -/

@[simp] theorem modSensor_pending (s : State) (n : Nat) (f : Sensor → Sensor) : (modSensor s n f).pending = s.pending := rfl
@[simp] theorem modSensor_cores (s : State) (n : Nat) (f : Sensor → Sensor) : (modSensor s n f).cores = s.cores := rfl
@[simp] theorem modSensor_comb (s : State) (n : Nat) (f : Sensor → Sensor) : (modSensor s n f).comb = s.comb := rfl
@[simp] theorem modSensor_hbm (s : State) (n : Nat) (f : Sensor → Sensor) : (modSensor s n f).hbm = s.hbm := rfl
@[simp] theorem modSensor_reg (s : State) (n : Nat) (f : Sensor → Sensor) : (modSensor s n f).reg = s.reg := rfl
@[simp] theorem modSensor_clk (s : State) (n : Nat) (f : Sensor → Sensor) : (modSensor s n f).clk = s.clk := rfl
@[simp] theorem modSensor_rst (s : State) (n : Nat) (f : Sensor → Sensor) : (modSensor s n f).rst = s.rst := rfl
@[simp] theorem modSensor_pwr (s : State) (n : Nat) (f : Sensor → Sensor) : (modSensor s n f).pwr = s.pwr := rfl
@[simp] theorem modSensor_mgt (s : State) (n : Nat) (f : Sensor → Sensor) : (modSensor s n f).mgt = s.mgt := rfl
@[simp] theorem modSensor_rgn (s : State) (n : Nat) (f : Sensor → Sensor) : (modSensor s n f).rgn = s.rgn := rfl
@[simp] theorem modSensor_boot (s : State) (n : Nat) (f : Sensor → Sensor) : (modSensor s n f).boot = s.boot := rfl
@[simp] theorem modSensor_net (s : State) (n : Nat) (f : Sensor → Sensor) : (modSensor s n f).net = s.net := rfl
@[simp] theorem modSensor_mbx (s : State) (n : Nat) (f : Sensor → Sensor) : (modSensor s n f).mbx = s.mbx := rfl
@[simp] theorem modSensor_swarm (s : State) (n : Nat) (f : Sensor → Sensor) : (modSensor s n f).swarm = s.swarm := rfl
@[simp] theorem modSensor_sec (s : State) (n : Nat) (f : Sensor → Sensor) : (modSensor s n f).sec = s.sec := rfl
@[simp] theorem modSensor_frames (s : State) (n : Nat) (f : Sensor → Sensor) : (modSensor s n f).frames = s.frames := rfl
@[simp] theorem modSensor_pins (s : State) (n : Nat) (f : Sensor → Sensor) : (modSensor s n f).pins = s.pins := rfl
@[simp] theorem modSensor_sigs (s : State) (n : Nat) (f : Sensor → Sensor) : (modSensor s n f).sigs = s.sigs := rfl
@[simp] theorem modSensor_answers (s : State) (n : Nat) (f : Sensor → Sensor) : (modSensor s n f).answers = s.answers := rfl
@[simp] theorem modSensor_free (s : State) (n : Nat) (f : Sensor → Sensor) : (modSensor s n f).free = s.free := rfl

/-! #### modMgt -/

@[simp] theorem modMgt_pending (s : State) (f : Mgt → Mgt) : (modMgt s f).pending = s.pending := rfl
@[simp] theorem modMgt_cores (s : State) (f : Mgt → Mgt) : (modMgt s f).cores = s.cores := rfl
@[simp] theorem modMgt_comb (s : State) (f : Mgt → Mgt) : (modMgt s f).comb = s.comb := rfl
@[simp] theorem modMgt_hbm (s : State) (f : Mgt → Mgt) : (modMgt s f).hbm = s.hbm := rfl
@[simp] theorem modMgt_reg (s : State) (f : Mgt → Mgt) : (modMgt s f).reg = s.reg := rfl
@[simp] theorem modMgt_clk (s : State) (f : Mgt → Mgt) : (modMgt s f).clk = s.clk := rfl
@[simp] theorem modMgt_rst (s : State) (f : Mgt → Mgt) : (modMgt s f).rst = s.rst := rfl
@[simp] theorem modMgt_pwr (s : State) (f : Mgt → Mgt) : (modMgt s f).pwr = s.pwr := rfl
@[simp] theorem modMgt_thm (s : State) (f : Mgt → Mgt) : (modMgt s f).thm = s.thm := rfl
@[simp] theorem modMgt_rgn (s : State) (f : Mgt → Mgt) : (modMgt s f).rgn = s.rgn := rfl
@[simp] theorem modMgt_boot (s : State) (f : Mgt → Mgt) : (modMgt s f).boot = s.boot := rfl
@[simp] theorem modMgt_net (s : State) (f : Mgt → Mgt) : (modMgt s f).net = s.net := rfl
@[simp] theorem modMgt_mbx (s : State) (f : Mgt → Mgt) : (modMgt s f).mbx = s.mbx := rfl
@[simp] theorem modMgt_swarm (s : State) (f : Mgt → Mgt) : (modMgt s f).swarm = s.swarm := rfl
@[simp] theorem modMgt_sec (s : State) (f : Mgt → Mgt) : (modMgt s f).sec = s.sec := rfl
@[simp] theorem modMgt_frames (s : State) (f : Mgt → Mgt) : (modMgt s f).frames = s.frames := rfl
@[simp] theorem modMgt_pins (s : State) (f : Mgt → Mgt) : (modMgt s f).pins = s.pins := rfl
@[simp] theorem modMgt_sigs (s : State) (f : Mgt → Mgt) : (modMgt s f).sigs = s.sigs := rfl
@[simp] theorem modMgt_answers (s : State) (f : Mgt → Mgt) : (modMgt s f).answers = s.answers := rfl
@[simp] theorem modMgt_free (s : State) (f : Mgt → Mgt) : (modMgt s f).free = s.free := rfl

/-! #### chipCause -/

@[simp] theorem chipCause_pending (s : State) (b : BitVec 6) : (chipCause b s).pending = s.pending := rfl
@[simp] theorem chipCause_cores (s : State) (b : BitVec 6) : (chipCause b s).cores = s.cores := rfl
@[simp] theorem chipCause_comb (s : State) (b : BitVec 6) : (chipCause b s).comb = s.comb := rfl
@[simp] theorem chipCause_hbm (s : State) (b : BitVec 6) : (chipCause b s).hbm = s.hbm := rfl
@[simp] theorem chipCause_reg (s : State) (b : BitVec 6) : (chipCause b s).reg = s.reg := rfl
@[simp] theorem chipCause_clk (s : State) (b : BitVec 6) : (chipCause b s).clk = s.clk := rfl
@[simp] theorem chipCause_rst (s : State) (b : BitVec 6) : (chipCause b s).rst = s.rst := rfl
@[simp] theorem chipCause_pwr (s : State) (b : BitVec 6) : (chipCause b s).pwr = s.pwr := rfl
@[simp] theorem chipCause_thm (s : State) (b : BitVec 6) : (chipCause b s).thm = s.thm := rfl
@[simp] theorem chipCause_rgn (s : State) (b : BitVec 6) : (chipCause b s).rgn = s.rgn := rfl
@[simp] theorem chipCause_boot (s : State) (b : BitVec 6) : (chipCause b s).boot = s.boot := rfl
@[simp] theorem chipCause_net (s : State) (b : BitVec 6) : (chipCause b s).net = s.net := rfl
@[simp] theorem chipCause_mbx (s : State) (b : BitVec 6) : (chipCause b s).mbx = s.mbx := rfl
@[simp] theorem chipCause_swarm (s : State) (b : BitVec 6) : (chipCause b s).swarm = s.swarm := rfl
@[simp] theorem chipCause_sec (s : State) (b : BitVec 6) : (chipCause b s).sec = s.sec := rfl
@[simp] theorem chipCause_frames (s : State) (b : BitVec 6) : (chipCause b s).frames = s.frames := rfl
@[simp] theorem chipCause_pins (s : State) (b : BitVec 6) : (chipCause b s).pins = s.pins := rfl
@[simp] theorem chipCause_sigs (s : State) (b : BitVec 6) : (chipCause b s).sigs = s.sigs := rfl
@[simp] theorem chipCause_answers (s : State) (b : BitVec 6) : (chipCause b s).answers = s.answers := rfl
@[simp] theorem chipCause_free (s : State) (b : BitVec 6) : (chipCause b s).free = s.free := rfl

/-! #### logEvent -/

@[simp] theorem logEvent_pending (s : State) (code src detail : Nat) : (logEvent code src detail s).pending = s.pending := by simp only [logEvent, modMgt]
@[simp] theorem logEvent_cores (s : State) (code src detail : Nat) : (logEvent code src detail s).cores = s.cores := by simp only [logEvent, modMgt]
@[simp] theorem logEvent_comb (s : State) (code src detail : Nat) : (logEvent code src detail s).comb = s.comb := by simp only [logEvent, modMgt]
@[simp] theorem logEvent_hbm (s : State) (code src detail : Nat) : (logEvent code src detail s).hbm = s.hbm := by simp only [logEvent, modMgt]
@[simp] theorem logEvent_reg (s : State) (code src detail : Nat) : (logEvent code src detail s).reg = s.reg := by simp only [logEvent, modMgt]
@[simp] theorem logEvent_clk (s : State) (code src detail : Nat) : (logEvent code src detail s).clk = s.clk := by simp only [logEvent, modMgt]
@[simp] theorem logEvent_rst (s : State) (code src detail : Nat) : (logEvent code src detail s).rst = s.rst := by simp only [logEvent, modMgt]
@[simp] theorem logEvent_pwr (s : State) (code src detail : Nat) : (logEvent code src detail s).pwr = s.pwr := by simp only [logEvent, modMgt]
@[simp] theorem logEvent_thm (s : State) (code src detail : Nat) : (logEvent code src detail s).thm = s.thm := by simp only [logEvent, modMgt]
@[simp] theorem logEvent_rgn (s : State) (code src detail : Nat) : (logEvent code src detail s).rgn = s.rgn := by simp only [logEvent, modMgt]
@[simp] theorem logEvent_boot (s : State) (code src detail : Nat) : (logEvent code src detail s).boot = s.boot := by simp only [logEvent, modMgt]
@[simp] theorem logEvent_net (s : State) (code src detail : Nat) : (logEvent code src detail s).net = s.net := by simp only [logEvent, modMgt]
@[simp] theorem logEvent_mbx (s : State) (code src detail : Nat) : (logEvent code src detail s).mbx = s.mbx := by simp only [logEvent, modMgt]
@[simp] theorem logEvent_swarm (s : State) (code src detail : Nat) : (logEvent code src detail s).swarm = s.swarm := by simp only [logEvent, modMgt]
@[simp] theorem logEvent_sec (s : State) (code src detail : Nat) : (logEvent code src detail s).sec = s.sec := by simp only [logEvent, modMgt]
@[simp] theorem logEvent_frames (s : State) (code src detail : Nat) : (logEvent code src detail s).frames = s.frames := by simp only [logEvent, modMgt]
@[simp] theorem logEvent_pins (s : State) (code src detail : Nat) : (logEvent code src detail s).pins = s.pins := by simp only [logEvent, modMgt]
@[simp] theorem logEvent_sigs (s : State) (code src detail : Nat) : (logEvent code src detail s).sigs = s.sigs := by simp only [logEvent, modMgt]
@[simp] theorem logEvent_answers (s : State) (code src detail : Nat) : (logEvent code src detail s).answers = s.answers := by simp only [logEvent, modMgt]
@[simp] theorem logEvent_free (s : State) (code src detail : Nat) : (logEvent code src detail s).free = s.free := by simp only [logEvent, modMgt]

/-! #### setStepInt -/

@[simp] theorem setStepInt_pending (s : State) (source : Nat) : (setStepInt source s).pending = s.pending := by simp only [setStepInt, modMgt]
@[simp] theorem setStepInt_cores (s : State) (source : Nat) : (setStepInt source s).cores = s.cores := by simp only [setStepInt, modMgt]
@[simp] theorem setStepInt_comb (s : State) (source : Nat) : (setStepInt source s).comb = s.comb := by simp only [setStepInt, modMgt]
@[simp] theorem setStepInt_hbm (s : State) (source : Nat) : (setStepInt source s).hbm = s.hbm := by simp only [setStepInt, modMgt]
@[simp] theorem setStepInt_reg (s : State) (source : Nat) : (setStepInt source s).reg = s.reg := by simp only [setStepInt, modMgt]
@[simp] theorem setStepInt_clk (s : State) (source : Nat) : (setStepInt source s).clk = s.clk := by simp only [setStepInt, modMgt]
@[simp] theorem setStepInt_rst (s : State) (source : Nat) : (setStepInt source s).rst = s.rst := by simp only [setStepInt, modMgt]
@[simp] theorem setStepInt_pwr (s : State) (source : Nat) : (setStepInt source s).pwr = s.pwr := by simp only [setStepInt, modMgt]
@[simp] theorem setStepInt_thm (s : State) (source : Nat) : (setStepInt source s).thm = s.thm := by simp only [setStepInt, modMgt]
@[simp] theorem setStepInt_rgn (s : State) (source : Nat) : (setStepInt source s).rgn = s.rgn := by simp only [setStepInt, modMgt]
@[simp] theorem setStepInt_boot (s : State) (source : Nat) : (setStepInt source s).boot = s.boot := by simp only [setStepInt, modMgt]
@[simp] theorem setStepInt_net (s : State) (source : Nat) : (setStepInt source s).net = s.net := by simp only [setStepInt, modMgt]
@[simp] theorem setStepInt_mbx (s : State) (source : Nat) : (setStepInt source s).mbx = s.mbx := by simp only [setStepInt, modMgt]
@[simp] theorem setStepInt_swarm (s : State) (source : Nat) : (setStepInt source s).swarm = s.swarm := by simp only [setStepInt, modMgt]
@[simp] theorem setStepInt_sec (s : State) (source : Nat) : (setStepInt source s).sec = s.sec := by simp only [setStepInt, modMgt]
@[simp] theorem setStepInt_frames (s : State) (source : Nat) : (setStepInt source s).frames = s.frames := by simp only [setStepInt, modMgt]
@[simp] theorem setStepInt_pins (s : State) (source : Nat) : (setStepInt source s).pins = s.pins := by simp only [setStepInt, modMgt]
@[simp] theorem setStepInt_sigs (s : State) (source : Nat) : (setStepInt source s).sigs = s.sigs := by simp only [setStepInt, modMgt]
@[simp] theorem setStepInt_answers (s : State) (source : Nat) : (setStepInt source s).answers = s.answers := by simp only [setStepInt, modMgt]
@[simp] theorem setStepInt_free (s : State) (source : Nat) : (setStepInt source s).free = s.free := by simp only [setStepInt, modMgt]

/-! #### modBoot -/

@[simp] theorem modBoot_pending (s : State) (f : Boot → Boot) : (modBoot s f).pending = s.pending := rfl
@[simp] theorem modBoot_cores (s : State) (f : Boot → Boot) : (modBoot s f).cores = s.cores := rfl
@[simp] theorem modBoot_comb (s : State) (f : Boot → Boot) : (modBoot s f).comb = s.comb := rfl
@[simp] theorem modBoot_hbm (s : State) (f : Boot → Boot) : (modBoot s f).hbm = s.hbm := rfl
@[simp] theorem modBoot_reg (s : State) (f : Boot → Boot) : (modBoot s f).reg = s.reg := rfl
@[simp] theorem modBoot_clk (s : State) (f : Boot → Boot) : (modBoot s f).clk = s.clk := rfl
@[simp] theorem modBoot_rst (s : State) (f : Boot → Boot) : (modBoot s f).rst = s.rst := rfl
@[simp] theorem modBoot_pwr (s : State) (f : Boot → Boot) : (modBoot s f).pwr = s.pwr := rfl
@[simp] theorem modBoot_thm (s : State) (f : Boot → Boot) : (modBoot s f).thm = s.thm := rfl
@[simp] theorem modBoot_mgt (s : State) (f : Boot → Boot) : (modBoot s f).mgt = s.mgt := rfl
@[simp] theorem modBoot_rgn (s : State) (f : Boot → Boot) : (modBoot s f).rgn = s.rgn := rfl
@[simp] theorem modBoot_net (s : State) (f : Boot → Boot) : (modBoot s f).net = s.net := rfl
@[simp] theorem modBoot_mbx (s : State) (f : Boot → Boot) : (modBoot s f).mbx = s.mbx := rfl
@[simp] theorem modBoot_swarm (s : State) (f : Boot → Boot) : (modBoot s f).swarm = s.swarm := rfl
@[simp] theorem modBoot_sec (s : State) (f : Boot → Boot) : (modBoot s f).sec = s.sec := rfl
@[simp] theorem modBoot_frames (s : State) (f : Boot → Boot) : (modBoot s f).frames = s.frames := rfl
@[simp] theorem modBoot_pins (s : State) (f : Boot → Boot) : (modBoot s f).pins = s.pins := rfl
@[simp] theorem modBoot_sigs (s : State) (f : Boot → Boot) : (modBoot s f).sigs = s.sigs := rfl
@[simp] theorem modBoot_answers (s : State) (f : Boot → Boot) : (modBoot s f).answers = s.answers := rfl
@[simp] theorem modBoot_free (s : State) (f : Boot → Boot) : (modBoot s f).free = s.free := rfl

/-! #### modLink -/

@[simp] theorem modLink_pending (s : State) (l : Nat) (f : Link → Link) : (modLink s l f).pending = s.pending := rfl
@[simp] theorem modLink_cores (s : State) (l : Nat) (f : Link → Link) : (modLink s l f).cores = s.cores := rfl
@[simp] theorem modLink_comb (s : State) (l : Nat) (f : Link → Link) : (modLink s l f).comb = s.comb := rfl
@[simp] theorem modLink_hbm (s : State) (l : Nat) (f : Link → Link) : (modLink s l f).hbm = s.hbm := rfl
@[simp] theorem modLink_reg (s : State) (l : Nat) (f : Link → Link) : (modLink s l f).reg = s.reg := rfl
@[simp] theorem modLink_clk (s : State) (l : Nat) (f : Link → Link) : (modLink s l f).clk = s.clk := rfl
@[simp] theorem modLink_rst (s : State) (l : Nat) (f : Link → Link) : (modLink s l f).rst = s.rst := rfl
@[simp] theorem modLink_pwr (s : State) (l : Nat) (f : Link → Link) : (modLink s l f).pwr = s.pwr := rfl
@[simp] theorem modLink_thm (s : State) (l : Nat) (f : Link → Link) : (modLink s l f).thm = s.thm := rfl
@[simp] theorem modLink_mgt (s : State) (l : Nat) (f : Link → Link) : (modLink s l f).mgt = s.mgt := rfl
@[simp] theorem modLink_rgn (s : State) (l : Nat) (f : Link → Link) : (modLink s l f).rgn = s.rgn := rfl
@[simp] theorem modLink_boot (s : State) (l : Nat) (f : Link → Link) : (modLink s l f).boot = s.boot := rfl
@[simp] theorem modLink_mbx (s : State) (l : Nat) (f : Link → Link) : (modLink s l f).mbx = s.mbx := rfl
@[simp] theorem modLink_swarm (s : State) (l : Nat) (f : Link → Link) : (modLink s l f).swarm = s.swarm := rfl
@[simp] theorem modLink_sec (s : State) (l : Nat) (f : Link → Link) : (modLink s l f).sec = s.sec := rfl
@[simp] theorem modLink_frames (s : State) (l : Nat) (f : Link → Link) : (modLink s l f).frames = s.frames := rfl
@[simp] theorem modLink_pins (s : State) (l : Nat) (f : Link → Link) : (modLink s l f).pins = s.pins := rfl
@[simp] theorem modLink_sigs (s : State) (l : Nat) (f : Link → Link) : (modLink s l f).sigs = s.sigs := rfl
@[simp] theorem modLink_answers (s : State) (l : Nat) (f : Link → Link) : (modLink s l f).answers = s.answers := rfl
@[simp] theorem modLink_free (s : State) (l : Nat) (f : Link → Link) : (modLink s l f).free = s.free := rfl

/-! #### modCtx -/

@[simp] theorem modCtx_pending (s : State) (key : Nat) (f : Ctx → Ctx) : (modCtx s key f).pending = s.pending := rfl
@[simp] theorem modCtx_cores (s : State) (key : Nat) (f : Ctx → Ctx) : (modCtx s key f).cores = s.cores := rfl
@[simp] theorem modCtx_comb (s : State) (key : Nat) (f : Ctx → Ctx) : (modCtx s key f).comb = s.comb := rfl
@[simp] theorem modCtx_hbm (s : State) (key : Nat) (f : Ctx → Ctx) : (modCtx s key f).hbm = s.hbm := rfl
@[simp] theorem modCtx_reg (s : State) (key : Nat) (f : Ctx → Ctx) : (modCtx s key f).reg = s.reg := rfl
@[simp] theorem modCtx_clk (s : State) (key : Nat) (f : Ctx → Ctx) : (modCtx s key f).clk = s.clk := rfl
@[simp] theorem modCtx_rst (s : State) (key : Nat) (f : Ctx → Ctx) : (modCtx s key f).rst = s.rst := rfl
@[simp] theorem modCtx_pwr (s : State) (key : Nat) (f : Ctx → Ctx) : (modCtx s key f).pwr = s.pwr := rfl
@[simp] theorem modCtx_thm (s : State) (key : Nat) (f : Ctx → Ctx) : (modCtx s key f).thm = s.thm := rfl
@[simp] theorem modCtx_mgt (s : State) (key : Nat) (f : Ctx → Ctx) : (modCtx s key f).mgt = s.mgt := rfl
@[simp] theorem modCtx_rgn (s : State) (key : Nat) (f : Ctx → Ctx) : (modCtx s key f).rgn = s.rgn := rfl
@[simp] theorem modCtx_boot (s : State) (key : Nat) (f : Ctx → Ctx) : (modCtx s key f).boot = s.boot := rfl
@[simp] theorem modCtx_mbx (s : State) (key : Nat) (f : Ctx → Ctx) : (modCtx s key f).mbx = s.mbx := rfl
@[simp] theorem modCtx_swarm (s : State) (key : Nat) (f : Ctx → Ctx) : (modCtx s key f).swarm = s.swarm := rfl
@[simp] theorem modCtx_sec (s : State) (key : Nat) (f : Ctx → Ctx) : (modCtx s key f).sec = s.sec := rfl
@[simp] theorem modCtx_frames (s : State) (key : Nat) (f : Ctx → Ctx) : (modCtx s key f).frames = s.frames := rfl
@[simp] theorem modCtx_pins (s : State) (key : Nat) (f : Ctx → Ctx) : (modCtx s key f).pins = s.pins := rfl
@[simp] theorem modCtx_sigs (s : State) (key : Nat) (f : Ctx → Ctx) : (modCtx s key f).sigs = s.sigs := rfl
@[simp] theorem modCtx_answers (s : State) (key : Nat) (f : Ctx → Ctx) : (modCtx s key f).answers = s.answers := rfl
@[simp] theorem modCtx_free (s : State) (key : Nat) (f : Ctx → Ctx) : (modCtx s key f).free = s.free := rfl

/-! #### modColl -/

@[simp] theorem modColl_pending (s : State) (c tag : Nat) (f : Coll → Coll) : (modColl s c tag f).pending = s.pending := rfl
@[simp] theorem modColl_cores (s : State) (c tag : Nat) (f : Coll → Coll) : (modColl s c tag f).cores = s.cores := rfl
@[simp] theorem modColl_comb (s : State) (c tag : Nat) (f : Coll → Coll) : (modColl s c tag f).comb = s.comb := rfl
@[simp] theorem modColl_hbm (s : State) (c tag : Nat) (f : Coll → Coll) : (modColl s c tag f).hbm = s.hbm := rfl
@[simp] theorem modColl_reg (s : State) (c tag : Nat) (f : Coll → Coll) : (modColl s c tag f).reg = s.reg := rfl
@[simp] theorem modColl_clk (s : State) (c tag : Nat) (f : Coll → Coll) : (modColl s c tag f).clk = s.clk := rfl
@[simp] theorem modColl_rst (s : State) (c tag : Nat) (f : Coll → Coll) : (modColl s c tag f).rst = s.rst := rfl
@[simp] theorem modColl_pwr (s : State) (c tag : Nat) (f : Coll → Coll) : (modColl s c tag f).pwr = s.pwr := rfl
@[simp] theorem modColl_thm (s : State) (c tag : Nat) (f : Coll → Coll) : (modColl s c tag f).thm = s.thm := rfl
@[simp] theorem modColl_mgt (s : State) (c tag : Nat) (f : Coll → Coll) : (modColl s c tag f).mgt = s.mgt := rfl
@[simp] theorem modColl_rgn (s : State) (c tag : Nat) (f : Coll → Coll) : (modColl s c tag f).rgn = s.rgn := rfl
@[simp] theorem modColl_boot (s : State) (c tag : Nat) (f : Coll → Coll) : (modColl s c tag f).boot = s.boot := rfl
@[simp] theorem modColl_mbx (s : State) (c tag : Nat) (f : Coll → Coll) : (modColl s c tag f).mbx = s.mbx := rfl
@[simp] theorem modColl_swarm (s : State) (c tag : Nat) (f : Coll → Coll) : (modColl s c tag f).swarm = s.swarm := rfl
@[simp] theorem modColl_sec (s : State) (c tag : Nat) (f : Coll → Coll) : (modColl s c tag f).sec = s.sec := rfl
@[simp] theorem modColl_frames (s : State) (c tag : Nat) (f : Coll → Coll) : (modColl s c tag f).frames = s.frames := rfl
@[simp] theorem modColl_pins (s : State) (c tag : Nat) (f : Coll → Coll) : (modColl s c tag f).pins = s.pins := rfl
@[simp] theorem modColl_sigs (s : State) (c tag : Nat) (f : Coll → Coll) : (modColl s c tag f).sigs = s.sigs := rfl
@[simp] theorem modColl_answers (s : State) (c tag : Nat) (f : Coll → Coll) : (modColl s c tag f).answers = s.answers := rfl
@[simp] theorem modColl_free (s : State) (c tag : Nat) (f : Coll → Coll) : (modColl s c tag f).free = s.free := rfl

/-! #### modBox -/

@[simp] theorem modBox_pending (s : State) (i : Nat) (f : Box → Box) : (modBox s i f).pending = s.pending := rfl
@[simp] theorem modBox_cores (s : State) (i : Nat) (f : Box → Box) : (modBox s i f).cores = s.cores := rfl
@[simp] theorem modBox_comb (s : State) (i : Nat) (f : Box → Box) : (modBox s i f).comb = s.comb := rfl
@[simp] theorem modBox_hbm (s : State) (i : Nat) (f : Box → Box) : (modBox s i f).hbm = s.hbm := rfl
@[simp] theorem modBox_reg (s : State) (i : Nat) (f : Box → Box) : (modBox s i f).reg = s.reg := rfl
@[simp] theorem modBox_clk (s : State) (i : Nat) (f : Box → Box) : (modBox s i f).clk = s.clk := rfl
@[simp] theorem modBox_rst (s : State) (i : Nat) (f : Box → Box) : (modBox s i f).rst = s.rst := rfl
@[simp] theorem modBox_pwr (s : State) (i : Nat) (f : Box → Box) : (modBox s i f).pwr = s.pwr := rfl
@[simp] theorem modBox_thm (s : State) (i : Nat) (f : Box → Box) : (modBox s i f).thm = s.thm := rfl
@[simp] theorem modBox_mgt (s : State) (i : Nat) (f : Box → Box) : (modBox s i f).mgt = s.mgt := rfl
@[simp] theorem modBox_rgn (s : State) (i : Nat) (f : Box → Box) : (modBox s i f).rgn = s.rgn := rfl
@[simp] theorem modBox_boot (s : State) (i : Nat) (f : Box → Box) : (modBox s i f).boot = s.boot := rfl
@[simp] theorem modBox_net (s : State) (i : Nat) (f : Box → Box) : (modBox s i f).net = s.net := rfl
@[simp] theorem modBox_swarm (s : State) (i : Nat) (f : Box → Box) : (modBox s i f).swarm = s.swarm := rfl
@[simp] theorem modBox_sec (s : State) (i : Nat) (f : Box → Box) : (modBox s i f).sec = s.sec := rfl
@[simp] theorem modBox_frames (s : State) (i : Nat) (f : Box → Box) : (modBox s i f).frames = s.frames := rfl
@[simp] theorem modBox_pins (s : State) (i : Nat) (f : Box → Box) : (modBox s i f).pins = s.pins := rfl
@[simp] theorem modBox_sigs (s : State) (i : Nat) (f : Box → Box) : (modBox s i f).sigs = s.sigs := rfl
@[simp] theorem modBox_answers (s : State) (i : Nat) (f : Box → Box) : (modBox s i f).answers = s.answers := rfl
@[simp] theorem modBox_free (s : State) (i : Nat) (f : Box → Box) : (modBox s i f).free = s.free := rfl

/-! #### modSwarm -/

@[simp] theorem modSwarm_pending (s : State) (f : Swarm → Swarm) : (modSwarm s f).pending = s.pending := rfl
@[simp] theorem modSwarm_cores (s : State) (f : Swarm → Swarm) : (modSwarm s f).cores = s.cores := rfl
@[simp] theorem modSwarm_comb (s : State) (f : Swarm → Swarm) : (modSwarm s f).comb = s.comb := rfl
@[simp] theorem modSwarm_hbm (s : State) (f : Swarm → Swarm) : (modSwarm s f).hbm = s.hbm := rfl
@[simp] theorem modSwarm_reg (s : State) (f : Swarm → Swarm) : (modSwarm s f).reg = s.reg := rfl
@[simp] theorem modSwarm_clk (s : State) (f : Swarm → Swarm) : (modSwarm s f).clk = s.clk := rfl
@[simp] theorem modSwarm_rst (s : State) (f : Swarm → Swarm) : (modSwarm s f).rst = s.rst := rfl
@[simp] theorem modSwarm_pwr (s : State) (f : Swarm → Swarm) : (modSwarm s f).pwr = s.pwr := rfl
@[simp] theorem modSwarm_thm (s : State) (f : Swarm → Swarm) : (modSwarm s f).thm = s.thm := rfl
@[simp] theorem modSwarm_mgt (s : State) (f : Swarm → Swarm) : (modSwarm s f).mgt = s.mgt := rfl
@[simp] theorem modSwarm_rgn (s : State) (f : Swarm → Swarm) : (modSwarm s f).rgn = s.rgn := rfl
@[simp] theorem modSwarm_boot (s : State) (f : Swarm → Swarm) : (modSwarm s f).boot = s.boot := rfl
@[simp] theorem modSwarm_net (s : State) (f : Swarm → Swarm) : (modSwarm s f).net = s.net := rfl
@[simp] theorem modSwarm_mbx (s : State) (f : Swarm → Swarm) : (modSwarm s f).mbx = s.mbx := rfl
@[simp] theorem modSwarm_sec (s : State) (f : Swarm → Swarm) : (modSwarm s f).sec = s.sec := rfl
@[simp] theorem modSwarm_frames (s : State) (f : Swarm → Swarm) : (modSwarm s f).frames = s.frames := rfl
@[simp] theorem modSwarm_pins (s : State) (f : Swarm → Swarm) : (modSwarm s f).pins = s.pins := rfl
@[simp] theorem modSwarm_sigs (s : State) (f : Swarm → Swarm) : (modSwarm s f).sigs = s.sigs := rfl
@[simp] theorem modSwarm_answers (s : State) (f : Swarm → Swarm) : (modSwarm s f).answers = s.answers := rfl
@[simp] theorem modSwarm_free (s : State) (f : Swarm → Swarm) : (modSwarm s f).free = s.free := rfl

/-! #### modSite -/

@[simp] theorem modSite_pending (s : State) (k : Nat) (f : SwarmSite → SwarmSite) : (modSite k f s).pending = s.pending := rfl
@[simp] theorem modSite_cores (s : State) (k : Nat) (f : SwarmSite → SwarmSite) : (modSite k f s).cores = s.cores := rfl
@[simp] theorem modSite_comb (s : State) (k : Nat) (f : SwarmSite → SwarmSite) : (modSite k f s).comb = s.comb := rfl
@[simp] theorem modSite_hbm (s : State) (k : Nat) (f : SwarmSite → SwarmSite) : (modSite k f s).hbm = s.hbm := rfl
@[simp] theorem modSite_reg (s : State) (k : Nat) (f : SwarmSite → SwarmSite) : (modSite k f s).reg = s.reg := rfl
@[simp] theorem modSite_clk (s : State) (k : Nat) (f : SwarmSite → SwarmSite) : (modSite k f s).clk = s.clk := rfl
@[simp] theorem modSite_rst (s : State) (k : Nat) (f : SwarmSite → SwarmSite) : (modSite k f s).rst = s.rst := rfl
@[simp] theorem modSite_pwr (s : State) (k : Nat) (f : SwarmSite → SwarmSite) : (modSite k f s).pwr = s.pwr := rfl
@[simp] theorem modSite_thm (s : State) (k : Nat) (f : SwarmSite → SwarmSite) : (modSite k f s).thm = s.thm := rfl
@[simp] theorem modSite_mgt (s : State) (k : Nat) (f : SwarmSite → SwarmSite) : (modSite k f s).mgt = s.mgt := rfl
@[simp] theorem modSite_rgn (s : State) (k : Nat) (f : SwarmSite → SwarmSite) : (modSite k f s).rgn = s.rgn := rfl
@[simp] theorem modSite_boot (s : State) (k : Nat) (f : SwarmSite → SwarmSite) : (modSite k f s).boot = s.boot := rfl
@[simp] theorem modSite_net (s : State) (k : Nat) (f : SwarmSite → SwarmSite) : (modSite k f s).net = s.net := rfl
@[simp] theorem modSite_mbx (s : State) (k : Nat) (f : SwarmSite → SwarmSite) : (modSite k f s).mbx = s.mbx := rfl
@[simp] theorem modSite_sec (s : State) (k : Nat) (f : SwarmSite → SwarmSite) : (modSite k f s).sec = s.sec := rfl
@[simp] theorem modSite_frames (s : State) (k : Nat) (f : SwarmSite → SwarmSite) : (modSite k f s).frames = s.frames := rfl
@[simp] theorem modSite_pins (s : State) (k : Nat) (f : SwarmSite → SwarmSite) : (modSite k f s).pins = s.pins := rfl
@[simp] theorem modSite_sigs (s : State) (k : Nat) (f : SwarmSite → SwarmSite) : (modSite k f s).sigs = s.sigs := rfl
@[simp] theorem modSite_answers (s : State) (k : Nat) (f : SwarmSite → SwarmSite) : (modSite k f s).answers = s.answers := rfl
@[simp] theorem modSite_free (s : State) (k : Nat) (f : SwarmSite → SwarmSite) : (modSite k f s).free = s.free := rfl

/-! #### modSec -/

@[simp] theorem modSec_pending (s : State) (f : Sec → Sec) : (modSec s f).pending = s.pending := rfl
@[simp] theorem modSec_cores (s : State) (f : Sec → Sec) : (modSec s f).cores = s.cores := rfl
@[simp] theorem modSec_comb (s : State) (f : Sec → Sec) : (modSec s f).comb = s.comb := rfl
@[simp] theorem modSec_hbm (s : State) (f : Sec → Sec) : (modSec s f).hbm = s.hbm := rfl
@[simp] theorem modSec_reg (s : State) (f : Sec → Sec) : (modSec s f).reg = s.reg := rfl
@[simp] theorem modSec_clk (s : State) (f : Sec → Sec) : (modSec s f).clk = s.clk := rfl
@[simp] theorem modSec_rst (s : State) (f : Sec → Sec) : (modSec s f).rst = s.rst := rfl
@[simp] theorem modSec_pwr (s : State) (f : Sec → Sec) : (modSec s f).pwr = s.pwr := rfl
@[simp] theorem modSec_thm (s : State) (f : Sec → Sec) : (modSec s f).thm = s.thm := rfl
@[simp] theorem modSec_mgt (s : State) (f : Sec → Sec) : (modSec s f).mgt = s.mgt := rfl
@[simp] theorem modSec_rgn (s : State) (f : Sec → Sec) : (modSec s f).rgn = s.rgn := rfl
@[simp] theorem modSec_boot (s : State) (f : Sec → Sec) : (modSec s f).boot = s.boot := rfl
@[simp] theorem modSec_net (s : State) (f : Sec → Sec) : (modSec s f).net = s.net := rfl
@[simp] theorem modSec_mbx (s : State) (f : Sec → Sec) : (modSec s f).mbx = s.mbx := rfl
@[simp] theorem modSec_swarm (s : State) (f : Sec → Sec) : (modSec s f).swarm = s.swarm := rfl
@[simp] theorem modSec_frames (s : State) (f : Sec → Sec) : (modSec s f).frames = s.frames := rfl
@[simp] theorem modSec_pins (s : State) (f : Sec → Sec) : (modSec s f).pins = s.pins := rfl
@[simp] theorem modSec_sigs (s : State) (f : Sec → Sec) : (modSec s f).sigs = s.sigs := rfl
@[simp] theorem modSec_answers (s : State) (f : Sec → Sec) : (modSec s f).answers = s.answers := rfl
@[simp] theorem modSec_free (s : State) (f : Sec → Sec) : (modSec s f).free = s.free := rfl

/-! #### modFrames -/

@[simp] theorem modFrames_pending (s : State) (f : Frames → Frames) : (modFrames s f).pending = s.pending := rfl
@[simp] theorem modFrames_cores (s : State) (f : Frames → Frames) : (modFrames s f).cores = s.cores := rfl
@[simp] theorem modFrames_comb (s : State) (f : Frames → Frames) : (modFrames s f).comb = s.comb := rfl
@[simp] theorem modFrames_hbm (s : State) (f : Frames → Frames) : (modFrames s f).hbm = s.hbm := rfl
@[simp] theorem modFrames_reg (s : State) (f : Frames → Frames) : (modFrames s f).reg = s.reg := rfl
@[simp] theorem modFrames_clk (s : State) (f : Frames → Frames) : (modFrames s f).clk = s.clk := rfl
@[simp] theorem modFrames_rst (s : State) (f : Frames → Frames) : (modFrames s f).rst = s.rst := rfl
@[simp] theorem modFrames_pwr (s : State) (f : Frames → Frames) : (modFrames s f).pwr = s.pwr := rfl
@[simp] theorem modFrames_thm (s : State) (f : Frames → Frames) : (modFrames s f).thm = s.thm := rfl
@[simp] theorem modFrames_mgt (s : State) (f : Frames → Frames) : (modFrames s f).mgt = s.mgt := rfl
@[simp] theorem modFrames_rgn (s : State) (f : Frames → Frames) : (modFrames s f).rgn = s.rgn := rfl
@[simp] theorem modFrames_boot (s : State) (f : Frames → Frames) : (modFrames s f).boot = s.boot := rfl
@[simp] theorem modFrames_net (s : State) (f : Frames → Frames) : (modFrames s f).net = s.net := rfl
@[simp] theorem modFrames_mbx (s : State) (f : Frames → Frames) : (modFrames s f).mbx = s.mbx := rfl
@[simp] theorem modFrames_swarm (s : State) (f : Frames → Frames) : (modFrames s f).swarm = s.swarm := rfl
@[simp] theorem modFrames_sec (s : State) (f : Frames → Frames) : (modFrames s f).sec = s.sec := rfl
@[simp] theorem modFrames_pins (s : State) (f : Frames → Frames) : (modFrames s f).pins = s.pins := rfl
@[simp] theorem modFrames_sigs (s : State) (f : Frames → Frames) : (modFrames s f).sigs = s.sigs := rfl
@[simp] theorem modFrames_answers (s : State) (f : Frames → Frames) : (modFrames s f).answers = s.answers := rfl
@[simp] theorem modFrames_free (s : State) (f : Frames → Frames) : (modFrames s f).free = s.free := rfl

/-! #### answer -/

@[simp] theorem answer_pending (s : State) (a : Answer) : (answer s a).pending = s.pending := rfl
@[simp] theorem answer_cores (s : State) (a : Answer) : (answer s a).cores = s.cores := rfl
@[simp] theorem answer_comb (s : State) (a : Answer) : (answer s a).comb = s.comb := rfl
@[simp] theorem answer_hbm (s : State) (a : Answer) : (answer s a).hbm = s.hbm := rfl
@[simp] theorem answer_reg (s : State) (a : Answer) : (answer s a).reg = s.reg := rfl
@[simp] theorem answer_clk (s : State) (a : Answer) : (answer s a).clk = s.clk := rfl
@[simp] theorem answer_rst (s : State) (a : Answer) : (answer s a).rst = s.rst := rfl
@[simp] theorem answer_pwr (s : State) (a : Answer) : (answer s a).pwr = s.pwr := rfl
@[simp] theorem answer_thm (s : State) (a : Answer) : (answer s a).thm = s.thm := rfl
@[simp] theorem answer_mgt (s : State) (a : Answer) : (answer s a).mgt = s.mgt := rfl
@[simp] theorem answer_rgn (s : State) (a : Answer) : (answer s a).rgn = s.rgn := rfl
@[simp] theorem answer_boot (s : State) (a : Answer) : (answer s a).boot = s.boot := rfl
@[simp] theorem answer_net (s : State) (a : Answer) : (answer s a).net = s.net := rfl
@[simp] theorem answer_mbx (s : State) (a : Answer) : (answer s a).mbx = s.mbx := rfl
@[simp] theorem answer_swarm (s : State) (a : Answer) : (answer s a).swarm = s.swarm := rfl
@[simp] theorem answer_sec (s : State) (a : Answer) : (answer s a).sec = s.sec := rfl
@[simp] theorem answer_frames (s : State) (a : Answer) : (answer s a).frames = s.frames := rfl
@[simp] theorem answer_pins (s : State) (a : Answer) : (answer s a).pins = s.pins := rfl
@[simp] theorem answer_sigs (s : State) (a : Answer) : (answer s a).sigs = s.sigs := rfl
@[simp] theorem answer_free (s : State) (a : Answer) : (answer s a).free = s.free := rfl

/-! #### clearAnswers -/

@[simp] theorem clearAnswers_pending (s : State) : (clearAnswers s).pending = s.pending := rfl
@[simp] theorem clearAnswers_cores (s : State) : (clearAnswers s).cores = s.cores := rfl
@[simp] theorem clearAnswers_comb (s : State) : (clearAnswers s).comb = s.comb := rfl
@[simp] theorem clearAnswers_hbm (s : State) : (clearAnswers s).hbm = s.hbm := rfl
@[simp] theorem clearAnswers_reg (s : State) : (clearAnswers s).reg = s.reg := rfl
@[simp] theorem clearAnswers_clk (s : State) : (clearAnswers s).clk = s.clk := rfl
@[simp] theorem clearAnswers_rst (s : State) : (clearAnswers s).rst = s.rst := rfl
@[simp] theorem clearAnswers_pwr (s : State) : (clearAnswers s).pwr = s.pwr := rfl
@[simp] theorem clearAnswers_thm (s : State) : (clearAnswers s).thm = s.thm := rfl
@[simp] theorem clearAnswers_mgt (s : State) : (clearAnswers s).mgt = s.mgt := rfl
@[simp] theorem clearAnswers_rgn (s : State) : (clearAnswers s).rgn = s.rgn := rfl
@[simp] theorem clearAnswers_boot (s : State) : (clearAnswers s).boot = s.boot := rfl
@[simp] theorem clearAnswers_net (s : State) : (clearAnswers s).net = s.net := rfl
@[simp] theorem clearAnswers_mbx (s : State) : (clearAnswers s).mbx = s.mbx := rfl
@[simp] theorem clearAnswers_swarm (s : State) : (clearAnswers s).swarm = s.swarm := rfl
@[simp] theorem clearAnswers_sec (s : State) : (clearAnswers s).sec = s.sec := rfl
@[simp] theorem clearAnswers_frames (s : State) : (clearAnswers s).frames = s.frames := rfl
@[simp] theorem clearAnswers_pins (s : State) : (clearAnswers s).pins = s.pins := rfl
@[simp] theorem clearAnswers_sigs (s : State) : (clearAnswers s).sigs = s.sigs := rfl
@[simp] theorem clearAnswers_free (s : State) : (clearAnswers s).free = s.free := rfl

/-! #### written -/

@[simp] theorem written_pending (s : State) : (written s).pending = s.pending := rfl
@[simp] theorem written_cores (s : State) : (written s).cores = s.cores := rfl
@[simp] theorem written_comb (s : State) : (written s).comb = s.comb := rfl
@[simp] theorem written_hbm (s : State) : (written s).hbm = s.hbm := rfl
@[simp] theorem written_reg (s : State) : (written s).reg = s.reg := rfl
@[simp] theorem written_clk (s : State) : (written s).clk = s.clk := rfl
@[simp] theorem written_rst (s : State) : (written s).rst = s.rst := rfl
@[simp] theorem written_pwr (s : State) : (written s).pwr = s.pwr := rfl
@[simp] theorem written_thm (s : State) : (written s).thm = s.thm := rfl
@[simp] theorem written_mgt (s : State) : (written s).mgt = s.mgt := rfl
@[simp] theorem written_rgn (s : State) : (written s).rgn = s.rgn := rfl
@[simp] theorem written_boot (s : State) : (written s).boot = s.boot := rfl
@[simp] theorem written_net (s : State) : (written s).net = s.net := rfl
@[simp] theorem written_mbx (s : State) : (written s).mbx = s.mbx := rfl
@[simp] theorem written_swarm (s : State) : (written s).swarm = s.swarm := rfl
@[simp] theorem written_sec (s : State) : (written s).sec = s.sec := rfl
@[simp] theorem written_frames (s : State) : (written s).frames = s.frames := rfl
@[simp] theorem written_pins (s : State) : (written s).pins = s.pins := rfl
@[simp] theorem written_sigs (s : State) : (written s).sigs = s.sigs := rfl
@[simp] theorem written_free (s : State) : (written s).free = s.free := rfl

/-! #### refuse -/

@[simp] theorem refuse_pending (s : State) : (refuse s).pending = s.pending := rfl
@[simp] theorem refuse_cores (s : State) : (refuse s).cores = s.cores := rfl
@[simp] theorem refuse_comb (s : State) : (refuse s).comb = s.comb := rfl
@[simp] theorem refuse_hbm (s : State) : (refuse s).hbm = s.hbm := rfl
@[simp] theorem refuse_reg (s : State) : (refuse s).reg = s.reg := rfl
@[simp] theorem refuse_clk (s : State) : (refuse s).clk = s.clk := rfl
@[simp] theorem refuse_rst (s : State) : (refuse s).rst = s.rst := rfl
@[simp] theorem refuse_pwr (s : State) : (refuse s).pwr = s.pwr := rfl
@[simp] theorem refuse_thm (s : State) : (refuse s).thm = s.thm := rfl
@[simp] theorem refuse_mgt (s : State) : (refuse s).mgt = s.mgt := rfl
@[simp] theorem refuse_rgn (s : State) : (refuse s).rgn = s.rgn := rfl
@[simp] theorem refuse_boot (s : State) : (refuse s).boot = s.boot := rfl
@[simp] theorem refuse_net (s : State) : (refuse s).net = s.net := rfl
@[simp] theorem refuse_mbx (s : State) : (refuse s).mbx = s.mbx := rfl
@[simp] theorem refuse_swarm (s : State) : (refuse s).swarm = s.swarm := rfl
@[simp] theorem refuse_sec (s : State) : (refuse s).sec = s.sec := rfl
@[simp] theorem refuse_frames (s : State) : (refuse s).frames = s.frames := rfl
@[simp] theorem refuse_pins (s : State) : (refuse s).pins = s.pins := rfl
@[simp] theorem refuse_sigs (s : State) : (refuse s).sigs = s.sigs := rfl
@[simp] theorem refuse_free (s : State) : (refuse s).free = s.free := rfl

/-! #### readAs -/

@[simp] theorem readAs_pending (s : State) (w : Word32) : (readAs w s).pending = s.pending := rfl
@[simp] theorem readAs_cores (s : State) (w : Word32) : (readAs w s).cores = s.cores := rfl
@[simp] theorem readAs_comb (s : State) (w : Word32) : (readAs w s).comb = s.comb := rfl
@[simp] theorem readAs_hbm (s : State) (w : Word32) : (readAs w s).hbm = s.hbm := rfl
@[simp] theorem readAs_reg (s : State) (w : Word32) : (readAs w s).reg = s.reg := rfl
@[simp] theorem readAs_clk (s : State) (w : Word32) : (readAs w s).clk = s.clk := rfl
@[simp] theorem readAs_rst (s : State) (w : Word32) : (readAs w s).rst = s.rst := rfl
@[simp] theorem readAs_pwr (s : State) (w : Word32) : (readAs w s).pwr = s.pwr := rfl
@[simp] theorem readAs_thm (s : State) (w : Word32) : (readAs w s).thm = s.thm := rfl
@[simp] theorem readAs_mgt (s : State) (w : Word32) : (readAs w s).mgt = s.mgt := rfl
@[simp] theorem readAs_rgn (s : State) (w : Word32) : (readAs w s).rgn = s.rgn := rfl
@[simp] theorem readAs_boot (s : State) (w : Word32) : (readAs w s).boot = s.boot := rfl
@[simp] theorem readAs_net (s : State) (w : Word32) : (readAs w s).net = s.net := rfl
@[simp] theorem readAs_mbx (s : State) (w : Word32) : (readAs w s).mbx = s.mbx := rfl
@[simp] theorem readAs_swarm (s : State) (w : Word32) : (readAs w s).swarm = s.swarm := rfl
@[simp] theorem readAs_sec (s : State) (w : Word32) : (readAs w s).sec = s.sec := rfl
@[simp] theorem readAs_frames (s : State) (w : Word32) : (readAs w s).frames = s.frames := rfl
@[simp] theorem readAs_pins (s : State) (w : Word32) : (readAs w s).pins = s.pins := rfl
@[simp] theorem readAs_sigs (s : State) (w : Word32) : (readAs w s).sigs = s.sigs := rfl
@[simp] theorem readAs_free (s : State) (w : Word32) : (readAs w s).free = s.free := rfl

/-! #### takeFree -/

@[simp] theorem takeFree_pending (s : State) : (takeFree s).pending = s.pending := rfl
@[simp] theorem takeFree_cores (s : State) : (takeFree s).cores = s.cores := rfl
@[simp] theorem takeFree_comb (s : State) : (takeFree s).comb = s.comb := rfl
@[simp] theorem takeFree_hbm (s : State) : (takeFree s).hbm = s.hbm := rfl
@[simp] theorem takeFree_reg (s : State) : (takeFree s).reg = s.reg := rfl
@[simp] theorem takeFree_clk (s : State) : (takeFree s).clk = s.clk := rfl
@[simp] theorem takeFree_rst (s : State) : (takeFree s).rst = s.rst := rfl
@[simp] theorem takeFree_pwr (s : State) : (takeFree s).pwr = s.pwr := rfl
@[simp] theorem takeFree_thm (s : State) : (takeFree s).thm = s.thm := rfl
@[simp] theorem takeFree_mgt (s : State) : (takeFree s).mgt = s.mgt := rfl
@[simp] theorem takeFree_rgn (s : State) : (takeFree s).rgn = s.rgn := rfl
@[simp] theorem takeFree_boot (s : State) : (takeFree s).boot = s.boot := rfl
@[simp] theorem takeFree_net (s : State) : (takeFree s).net = s.net := rfl
@[simp] theorem takeFree_mbx (s : State) : (takeFree s).mbx = s.mbx := rfl
@[simp] theorem takeFree_swarm (s : State) : (takeFree s).swarm = s.swarm := rfl
@[simp] theorem takeFree_sec (s : State) : (takeFree s).sec = s.sec := rfl
@[simp] theorem takeFree_frames (s : State) : (takeFree s).frames = s.frames := rfl
@[simp] theorem takeFree_pins (s : State) : (takeFree s).pins = s.pins := rfl
@[simp] theorem takeFree_sigs (s : State) : (takeFree s).sigs = s.sigs := rfl
@[simp] theorem takeFree_answers (s : State) : (takeFree s).answers = s.answers := rfl

/-! #### coreFault -/

@[simp] theorem coreFault_pending (s : State) (c code eng : Nat) (tag : Option Nat) (pc : BitVec 16) (detail : Nat) : (coreFault c code eng tag pc detail s).pending = s.pending := rfl
@[simp] theorem coreFault_comb (s : State) (c code eng : Nat) (tag : Option Nat) (pc : BitVec 16) (detail : Nat) : (coreFault c code eng tag pc detail s).comb = s.comb := rfl
@[simp] theorem coreFault_hbm (s : State) (c code eng : Nat) (tag : Option Nat) (pc : BitVec 16) (detail : Nat) : (coreFault c code eng tag pc detail s).hbm = s.hbm := rfl
@[simp] theorem coreFault_reg (s : State) (c code eng : Nat) (tag : Option Nat) (pc : BitVec 16) (detail : Nat) : (coreFault c code eng tag pc detail s).reg = s.reg := rfl
@[simp] theorem coreFault_clk (s : State) (c code eng : Nat) (tag : Option Nat) (pc : BitVec 16) (detail : Nat) : (coreFault c code eng tag pc detail s).clk = s.clk := rfl
@[simp] theorem coreFault_rst (s : State) (c code eng : Nat) (tag : Option Nat) (pc : BitVec 16) (detail : Nat) : (coreFault c code eng tag pc detail s).rst = s.rst := rfl
@[simp] theorem coreFault_pwr (s : State) (c code eng : Nat) (tag : Option Nat) (pc : BitVec 16) (detail : Nat) : (coreFault c code eng tag pc detail s).pwr = s.pwr := rfl
@[simp] theorem coreFault_thm (s : State) (c code eng : Nat) (tag : Option Nat) (pc : BitVec 16) (detail : Nat) : (coreFault c code eng tag pc detail s).thm = s.thm := rfl
@[simp] theorem coreFault_mgt (s : State) (c code eng : Nat) (tag : Option Nat) (pc : BitVec 16) (detail : Nat) : (coreFault c code eng tag pc detail s).mgt = s.mgt := rfl
@[simp] theorem coreFault_rgn (s : State) (c code eng : Nat) (tag : Option Nat) (pc : BitVec 16) (detail : Nat) : (coreFault c code eng tag pc detail s).rgn = s.rgn := rfl
@[simp] theorem coreFault_boot (s : State) (c code eng : Nat) (tag : Option Nat) (pc : BitVec 16) (detail : Nat) : (coreFault c code eng tag pc detail s).boot = s.boot := rfl
@[simp] theorem coreFault_net (s : State) (c code eng : Nat) (tag : Option Nat) (pc : BitVec 16) (detail : Nat) : (coreFault c code eng tag pc detail s).net = s.net := rfl
@[simp] theorem coreFault_mbx (s : State) (c code eng : Nat) (tag : Option Nat) (pc : BitVec 16) (detail : Nat) : (coreFault c code eng tag pc detail s).mbx = s.mbx := rfl
@[simp] theorem coreFault_swarm (s : State) (c code eng : Nat) (tag : Option Nat) (pc : BitVec 16) (detail : Nat) : (coreFault c code eng tag pc detail s).swarm = s.swarm := rfl
@[simp] theorem coreFault_sec (s : State) (c code eng : Nat) (tag : Option Nat) (pc : BitVec 16) (detail : Nat) : (coreFault c code eng tag pc detail s).sec = s.sec := rfl
@[simp] theorem coreFault_frames (s : State) (c code eng : Nat) (tag : Option Nat) (pc : BitVec 16) (detail : Nat) : (coreFault c code eng tag pc detail s).frames = s.frames := rfl
@[simp] theorem coreFault_pins (s : State) (c code eng : Nat) (tag : Option Nat) (pc : BitVec 16) (detail : Nat) : (coreFault c code eng tag pc detail s).pins = s.pins := rfl
@[simp] theorem coreFault_sigs (s : State) (c code eng : Nat) (tag : Option Nat) (pc : BitVec 16) (detail : Nat) : (coreFault c code eng tag pc detail s).sigs = s.sigs := rfl
@[simp] theorem coreFault_answers (s : State) (c code eng : Nat) (tag : Option Nat) (pc : BitVec 16) (detail : Nat) : (coreFault c code eng tag pc detail s).answers = s.answers := rfl
@[simp] theorem coreFault_free (s : State) (c code eng : Nat) (tag : Option Nat) (pc : BitVec 16) (detail : Nat) : (coreFault c code eng tag pc detail s).free = s.free := rfl

/-! #### flightFault -/

@[simp] theorem flightFault_pending (s : State) (c : Nat) (f : Flight) (code detail : Nat) : (flightFault c f code detail s).pending = s.pending := rfl
@[simp] theorem flightFault_comb (s : State) (c : Nat) (f : Flight) (code detail : Nat) : (flightFault c f code detail s).comb = s.comb := rfl
@[simp] theorem flightFault_hbm (s : State) (c : Nat) (f : Flight) (code detail : Nat) : (flightFault c f code detail s).hbm = s.hbm := rfl
@[simp] theorem flightFault_reg (s : State) (c : Nat) (f : Flight) (code detail : Nat) : (flightFault c f code detail s).reg = s.reg := rfl
@[simp] theorem flightFault_clk (s : State) (c : Nat) (f : Flight) (code detail : Nat) : (flightFault c f code detail s).clk = s.clk := rfl
@[simp] theorem flightFault_rst (s : State) (c : Nat) (f : Flight) (code detail : Nat) : (flightFault c f code detail s).rst = s.rst := rfl
@[simp] theorem flightFault_pwr (s : State) (c : Nat) (f : Flight) (code detail : Nat) : (flightFault c f code detail s).pwr = s.pwr := rfl
@[simp] theorem flightFault_thm (s : State) (c : Nat) (f : Flight) (code detail : Nat) : (flightFault c f code detail s).thm = s.thm := rfl
@[simp] theorem flightFault_mgt (s : State) (c : Nat) (f : Flight) (code detail : Nat) : (flightFault c f code detail s).mgt = s.mgt := rfl
@[simp] theorem flightFault_rgn (s : State) (c : Nat) (f : Flight) (code detail : Nat) : (flightFault c f code detail s).rgn = s.rgn := rfl
@[simp] theorem flightFault_boot (s : State) (c : Nat) (f : Flight) (code detail : Nat) : (flightFault c f code detail s).boot = s.boot := rfl
@[simp] theorem flightFault_net (s : State) (c : Nat) (f : Flight) (code detail : Nat) : (flightFault c f code detail s).net = s.net := rfl
@[simp] theorem flightFault_mbx (s : State) (c : Nat) (f : Flight) (code detail : Nat) : (flightFault c f code detail s).mbx = s.mbx := rfl
@[simp] theorem flightFault_swarm (s : State) (c : Nat) (f : Flight) (code detail : Nat) : (flightFault c f code detail s).swarm = s.swarm := rfl
@[simp] theorem flightFault_sec (s : State) (c : Nat) (f : Flight) (code detail : Nat) : (flightFault c f code detail s).sec = s.sec := rfl
@[simp] theorem flightFault_frames (s : State) (c : Nat) (f : Flight) (code detail : Nat) : (flightFault c f code detail s).frames = s.frames := rfl
@[simp] theorem flightFault_pins (s : State) (c : Nat) (f : Flight) (code detail : Nat) : (flightFault c f code detail s).pins = s.pins := rfl
@[simp] theorem flightFault_sigs (s : State) (c : Nat) (f : Flight) (code detail : Nat) : (flightFault c f code detail s).sigs = s.sigs := rfl
@[simp] theorem flightFault_answers (s : State) (c : Nat) (f : Flight) (code detail : Nat) : (flightFault c f code detail s).answers = s.answers := rfl
@[simp] theorem flightFault_free (s : State) (c : Nat) (f : Flight) (code detail : Nat) : (flightFault c f code detail s).free = s.free := rfl

/-! ### Units -/

@[simp] theorem getCore_putCore_same (s : State) (c : Nat) (k : Core) : getCore (putCore s c k) c = k := by simp [getCore, putCore]
theorem getCore_putCore_other (s : State) (c d : Nat) (k : Core) (h : d ≠ c) : getCore (putCore s c k) d = getCore s d := by
  simp [getCore, putCore, tblGet_tblPut_other _ _ _ _ _ h]
@[simp] theorem getCore_modCore_same (s : State) (c : Nat) (f : Core → Core) : getCore (modCore s c f) c = f (getCore s c) := by simp [modCore]
theorem getCore_modCore_other (s : State) (c d : Nat) (f : Core → Core) (h : d ≠ c) : getCore (modCore s c f) d = getCore s d := by
  simp [modCore, getCore_putCore_other _ _ _ _ h]
@[simp] theorem getCore_modRegs_same (s : State) (c : Nat) (f : CoreRegs → CoreRegs) :
    getCore (modRegs s c f) c = { getCore s c with regs := f (getCore s c).regs } := by simp [modRegs]
@[simp] theorem getCore_modArr_same (s : State) (c : Nat) (f : Arr → Arr) :
    getCore (modArr s c f) c = { getCore s c with arr := f (getCore s c).arr } := by simp [modArr]
@[simp] theorem getCore_modTg_same (s : State) (c : Nat) (f : Tg → Tg) :
    getCore (modTg s c f) c = { getCore s c with tg := f (getCore s c).tg } := by simp [modTg]
theorem modCore_modCore (s : State) (c : Nat) (f g : Core → Core) : modCore (modCore s c f) c g = modCore s c fun k => g (f k) := by
  have h (t : List (Nat × Core)) (a b : Core) : tblPut (tblPut t c a) c b = tblPut t c b := by
    induction t with
    | nil => simp [tblPut]
    | cons e r ih =>
      obtain ⟨x, w⟩ := e
      by_cases h1 : x = c
      · simp [tblPut, h1]
      · by_cases h2 : c < x
        · simp [tblPut, h1, h2]
        · simp [tblPut, h1, h2, ih]
  simp [modCore, putCore, getCore, h]

@[simp] theorem getSlice_modSlice_same (s : State) (n : Nat) (f : Slice → Slice) : getSlice (modSlice s n f) n = f (getSlice s n) := by
  simp [getSlice, modSlice]
theorem getSlice_modSlice_other (s : State) (n m : Nat) (f : Slice → Slice) (h : m ≠ n) : getSlice (modSlice s n f) m = getSlice s m := by
  simp [getSlice, modSlice, tblGet_tblPut_other _ _ _ _ _ h]
@[simp] theorem getStack_modStack_same (s : State) (n : Nat) (f : Stack → Stack) : getStack (modStack s n f) n = f (getStack s n) := by
  simp [getStack, modStack]
theorem getStack_modStack_other (s : State) (n m : Nat) (f : Stack → Stack) (h : m ≠ n) : getStack (modStack s n f) m = getStack s m := by
  simp [getStack, modStack, tblGet_tblPut_other _ _ _ _ _ h]
@[simp] theorem getFp_modFp_same (s : State) (n : Nat) (f : Fp → Fp) : getFp (modFp s n f) n = f (getFp s n) := by simp [getFp, modFp]
theorem getFp_modFp_other (s : State) (n m : Nat) (f : Fp → Fp) (h : m ≠ n) : getFp (modFp s n f) m = getFp s m := by
  simp [getFp, modFp, tblGet_tblPut_other _ _ _ _ _ h]
@[simp] theorem getRgn_modRgn_same (s : State) (n : Nat) (f : Rgn → Rgn) : getRgn (modRgn s n f) n = f (getRgn s n) := by
  simp [getRgn, modRgn]
theorem getRgn_modRgn_other (s : State) (n m : Nat) (f : Rgn → Rgn) (h : m ≠ n) : getRgn (modRgn s n f) m = getRgn s m := by
  simp [getRgn, modRgn, tblGet_tblPut_other _ _ _ _ _ h]
@[simp] theorem getSensor_modSensor_same (s : State) (n : Nat) (f : Sensor → Sensor) : getSensor (modSensor s n f) n = f (getSensor s n) := by
  simp [getSensor, modSensor]
theorem getSensor_modSensor_other (s : State) (n m : Nat) (f : Sensor → Sensor) (h : m ≠ n) :
    getSensor (modSensor s n f) m = getSensor s m := by
  simp [getSensor, modSensor, tblGet_tblPut_other _ _ _ _ _ h]
@[simp] theorem getBox_modBox_same (s : State) (i : Nat) (f : Box → Box) : getBox (modBox s i f) i = f (getBox s i) := by
  simp [getBox, modBox]
theorem getBox_modBox_other (s : State) (i j : Nat) (f : Box → Box) (h : j ≠ i) : getBox (modBox s i f) j = getBox s j := by
  simp [getBox, modBox, tblGet_tblPut_other _ _ _ _ _ h]
@[simp] theorem getLink_modLink_same (s : State) (l : Nat) (f : Link → Link) : getLink (modLink s l f) l = f (getLink s l) := by
  simp [getLink, modLink]
theorem getLink_modLink_other (s : State) (l m : Nat) (f : Link → Link) (h : m ≠ l) : getLink (modLink s l f) m = getLink s m := by
  simp [getLink, modLink, tblGet_tblPut_other _ _ _ _ _ h]
@[simp] theorem getSite_modSite_same (s : State) (k : Nat) (f : SwarmSite → SwarmSite) : getSite (modSite k f s) k = f (getSite s k) := by
  simp [getSite, modSite, modSwarm]
@[simp] theorem getFeed_modFeed_same (s : State) (i : Nat) (f : Feed → Feed) : getFeed (modFeed s i f) i = f (getFeed s i) := by
  simp [getFeed, modFeed]
@[simp] theorem getGroup_modGroup_same (s : State) (c g : Nat) (f : Group → Group) :
    getGroup (getCore (modGroup s c g f) c) g = f (getGroup (getCore s c) g) := by
  simp [modGroup, getGroup]
theorem getGroup_modGroup_other (s : State) (c g h : Nat) (f : Group → Group) (hne : h ≠ g) :
    getGroup (getCore (modGroup s c g f) c) h = getGroup (getCore s c) h := by
  simp [modGroup, getGroup, tblGet_tblMod_other _ _ _ _ _ hne]

/-! ### Scalar registers -/

@[simp] theorem kGet_zero (k : Core) : kGet k 0 = 0 := rfl
theorem kGet_kSet_same (k : Core) (r : BitVec 5) (v : Word64) (h : r ≠ 0) : kGet (kSet k r v) r = v := by
  rw [kSet, if_neg h, kGet, if_neg h]; exact tblGet_tblPut_same ..
theorem kGet_kSet_other (k : Core) (r q : BitVec 5) (v : Word64) (h : q ≠ r) : kGet (kSet k r v) q = kGet k q := by
  have h2 : q.toNat ≠ r.toNat := fun e => h (BitVec.eq_of_toNat_eq e)
  by_cases hr : r = 0
  · simp [kSet, hr]
  · by_cases hq : q = 0
    · simp [kGet, hq]
    · rw [kSet, if_neg hr, kGet, if_neg hq, kGet, if_neg hq]; exact tblGet_tblPut_other _ _ _ _ _ h2

/-! ### Control-space accesses -/

/-- An access that no condition of R27 stops is performed. -/
theorem ctl_performed (by_ : By) (statusRead : Bool) (layer region block : Nat) (f : State → State) (s : State)
    (h1 : blockDecodes layer region block = true) (h2 : blockPowered s layer region block = true)
    (h3 : pathReset s (isHost by_) layer region block = false) (h4 : gated s layer region block = false)
    (h5 : (frozen s && !(alwaysOnBlock layer region block)) = false) (h6 : debugAdmits s by_ statusRead = true) :
    ctl by_ statusRead layer region block f s = f (clearAnswers s) := by
  have a2 : blockPowered (clearAnswers s) layer region block = true := h2
  have a3 : pathReset (clearAnswers s) (isHost by_) layer region block = false := h3
  have a4 : gated (clearAnswers s) layer region block = false := h4
  have a5 : (frozen (clearAnswers s) && !(alwaysOnBlock layer region block)) = false := h5
  have a6 : debugAdmits (clearAnswers s) by_ statusRead = true := h6
  simp [ctl, h1, a2, a3, a4, a5, a6]

end Sys2Proof.Machine
end

