-- ==== Sys2Proof/Laws/Access.lean ====
section
/-! SUPPORT. Accesses that are performed, what a change of one core comes to, and the bytes of a memory after a write. -/
namespace Sys2Proof.Machine

/-- A performed access runs its register's effect. -/
theorem performed_ctl {by_ : By} {sr : Bool} {l r b : Nat} {s : State} (h : performed by_ sr l r b s) (f : State → State) :
    ctl by_ sr l r b f s = f (clearAnswers s) := by
  obtain ⟨h1, h2, h3, h4, h5, h6⟩ := h
  exact ctl_performed by_ sr l r b f s h1 h2 h3 h4 h5 h6

/-- So does one of a block of region 31. -/
theorem performed_ctlGlobal {by_ : By} {sr : Bool} {l b : Nat} {s : State} (h : performed by_ sr l 31 b s) (f : State → State) :
    ctlGlobal by_ sr l b f s = f (clearAnswers s) := performed_ctl h f

/-- So does one of a core. -/
theorem performed_ctlCore {by_ : By} {c : Nat} {s : State} (h : coreReached by_ c s) (f : State → State) :
    ctlCore by_ false c f s = f (clearAnswers s) := by
  obtain ⟨k, hk, h⟩ := h
  unfold ctlCore; rw [hk]; exact performed_ctl h f

/-- Changing one core and answering leaves everything else. -/
theorem coreBecomes_putCore (c : Nat) (k : Core) (a : List Answer) (s t : State)
    (h : t = { s with answers := a, cores := tblPut s.cores c k }) : coreBecomes c k a s t := by
  subst h
  refine ⟨⟨rfl, fun d hd => ?_⟩, ?_⟩
  · exact tblGet_tblPut_other _ _ _ _ _ hd
  · exact tblGet_tblPut_same _ _ _ _

/-- Byte `i` of a number that has been written. -/
theorem memGet_memWrite_at (n : Nat) : ∀ (m : ByteMem) (a v i : Nat), memWf m = true → i < n →
    memGet (memWrite m a n v) (a + i) = BitVec.ofNat 8 (v / 256 ^ i) := by
  induction n with
  | zero => intro m a v i _ h; omega
  | succ n ih =>
    intro m a v i hw hi
    cases i with
    | zero =>
      show memGet (memWrite (memPut m a (BitVec.ofNat 8 v)) (a + 1) n (v / 256)) a = _
      rw [memGet_memWrite_other n _ _ _ a (by omega), memGet_memPut_same m a _ hw]; simp
    | succ i =>
      show memGet (memWrite (memPut m a (BitVec.ofNat 8 v)) (a + 1) n (v / 256)) (a + (i + 1)) = _
      have := ih (memPut m a (BitVec.ofNat 8 v)) (a + 1) (v / 256) i (memWf_memPut m a _ hw) (by omega)
      rw [show a + (i + 1) = a + 1 + i by omega, this, Nat.div_div_eq_div_mul, Nat.pow_succ, Nat.mul_comm]

/-- A write puts its bytes and no others. -/
theorem bytesPut_memWrite (m : ByteMem) (a n v : Nat) (h : memWf m = true) : bytesPut a n v m (memWrite m a n v) :=
  ⟨fun i hi => memGet_memWrite_at n m a v i h hi, fun x hx => memGet_memWrite_other n m a v x hx⟩

end Sys2Proof.Machine
end

