-- ==== Sys2Proof/Laws/Comb.lean ====
section
/-! SUPPORT. Bytes and lines: what merging bytes into a line does, what the comb holds after a line is put, and what a write of a line
that stands at its home does. -/
namespace Sys2Proof.Machine

theorem pow_bytes (n : Nat) : (2 : Nat) ^ (8 * n) = 256 ^ n := by rw [Nat.pow_mul]

theorem pow_line : (256 : Nat) ^ 64 = 2 ^ (8 * 64) := (pow_bytes 64).symm

theorem leNat_lt (l : List (BitVec 8)) : leNat l < 256 ^ l.length := by
  induction l with
  | nil => simp [leNat]
  | cons b r ih =>
    simp only [leNat, List.length_cons, Nat.pow_succ]
    have := b.isLt
    omega

theorem leNat_byte (l : List (BitVec 8)) : ∀ i, leNat l / 256 ^ i % 256 = (l.getD i 0).toNat := by
  induction l with
  | nil => intro i; simp [leNat]
  | cons b r ih =>
    intro i
    cases i with
    | zero =>
      have := b.isLt
      simp [leNat]; omega
    | succ n =>
      have := b.isLt
      rw [Nat.pow_succ, Nat.mul_comm, ← Nat.div_div_eq_div_mul]
      have : leNat (b :: r) / 256 = leNat r := by simp only [leNat]; omega
      rw [this, ih]; simp

theorem shift_bytes (x i : Nat) : x >>> (8 * i) = x / 256 ^ i := by
  rw [Nat.shiftRight_eq_div_pow, Nat.pow_mul]

theorem lineByte_toNat (d : Line) (i : Nat) : (lineByte d i).toNat = d.toNat / 256 ^ i % 256 := by
  simp [lineByte, shift_bytes]

/-- A byte of a line made of 64 bytes. -/
theorem lineByte_ofBytes (l : List (BitVec 8)) (h : l.length = 64) (i : Nat) :
    lineByte (BitVec.ofNat 512 (leNat l)) i = l.getD i 0 := by
  apply BitVec.eq_of_toNat_eq
  have hlt := leNat_lt l
  rw [h, pow_line] at hlt
  have e : (BitVec.ofNat 512 (leNat l)).toNat = leNat l := by rw [BitVec.toNat_ofNat]; exact Nat.mod_eq_of_lt hlt
  rw [lineByte_toNat, e, leNat_byte]

/-- Merging bytes into a line takes those the mask names and leaves the others (R238). -/
theorem lineByte_maskLine (d v : Line) (m : BitVec 64) (i : Nat) (h : i < 64) :
    lineByte (maskLine d v m) i = if m.getLsbD i then lineByte v i else lineByte d i := by
  unfold maskLine
  rw [lineByte_ofBytes _ (by simp)]
  simp [List.getD_eq_getElem?_getD, h]

theorem leBytes_map (n : Nat) : ∀ x, leBytes n x = (List.range n).map fun i => BitVec.ofNat 8 (x / 256 ^ i) := by
  induction n with
  | zero => intro x; rfl
  | succ n ih =>
    intro x
    rw [leBytes, ih, List.range_succ_eq_map, List.map_cons, List.map_map]
    congr 1
    · simp
    · apply List.map_congr_left
      intro i _
      simp only [Function.comp, Nat.pow_succ', Nat.div_div_eq_div_mul, Nat.succ_eq_add_one]

/-- The XOR of a list of bytes, byte by byte. -/
theorem foldl_xor {α : Type} (f g : α → Byte) (l : List α) :
    ∀ a b, l.foldl (fun x i => x ^^^ (f i ^^^ g i)) (a ^^^ b) = l.foldl (fun x i => x ^^^ f i) a ^^^ l.foldl (fun x i => x ^^^ g i) b := by
  induction l with
  | nil => intro a b; rfl
  | cons i r ih =>
    intro a b
    simp only [List.foldl_cons]
    rw [← ih, show a ^^^ b ^^^ (f i ^^^ g i) = a ^^^ f i ^^^ (b ^^^ g i) by ac_rfl]

theorem oddParity_bits : ∀ b : BitVec 8, oddParity b.toNat = !((b.getLsbD 0 ^^ b.getLsbD 1) ^^ (b.getLsbD 2 ^^ b.getLsbD 3)
    ^^ ((b.getLsbD 4 ^^ b.getLsbD 5) ^^ (b.getLsbD 6 ^^ b.getLsbD 7))) := by decide

theorem oddParity_xor (a b : BitVec 8) : oddParity (a ^^^ b).toNat = (oddParity a.toNat == oddParity b.toNat) := by
  simp only [oddParity_bits, BitVec.getLsbD_xor]
  generalize a.getLsbD 0 = a0; generalize a.getLsbD 1 = a1; generalize a.getLsbD 2 = a2; generalize a.getLsbD 3 = a3
  generalize a.getLsbD 4 = a4; generalize a.getLsbD 5 = a5; generalize a.getLsbD 6 = a6; generalize a.getLsbD 7 = a7
  generalize b.getLsbD 0 = b0; generalize b.getLsbD 1 = b1; generalize b.getLsbD 2 = b2; generalize b.getLsbD 3 = b3
  generalize b.getLsbD 4 = b4; generalize b.getLsbD 5 = b5; generalize b.getLsbD 6 = b6; generalize b.getLsbD 7 = b7
  have h : ∀ x y : Bool, (!(x ^^ y)) = ((!x) == (!y)) := by decide
  rw [← h]
  congr 1
  have h4 : ∀ x y z w : Bool, ((x ^^ y) ^^ (z ^^ w)) = ((x ^^ z) ^^ (y ^^ w)) := by decide
  rw [h4 a0 b0, h4 a2 b2, h4 a4 b4, h4 a6 b6, h4 (a0 ^^ a1), h4 (a4 ^^ a5), h4 ((a0 ^^ a1) ^^ (a2 ^^ a3))]

theorem lineXor_range (d : Line) : lineXor d = (List.range 64).foldl (fun x i => x ^^^ lineByte d i) 0 := by
  rw [lineXor, lineBytes, leBytes_map, List.foldl_map]
  simp only [lineByte, shift_bytes]

theorem lineByte_xor (a b : Line) (i : Nat) : lineByte (a ^^^ b) i = lineByte a i ^^^ lineByte b i := by
  apply BitVec.eq_of_getLsbD_eq
  intro j hj
  simp only [lineByte, BitVec.getLsbD_ofNat, BitVec.getLsbD_xor, BitVec.toNat_xor, Nat.testBit_shiftRight, Nat.testBit_xor]
  cases decide (j < 8) <;> simp

theorem lineByte_zero (i : Nat) : lineByte 0 i = 0 := by simp [lineByte]

theorem foldl_congr_mem {α β : Type} (f g : β → α → β) (l : List α) (h : ∀ x, ∀ i ∈ l, f x i = g x i) :
    ∀ x, l.foldl f x = l.foldl g x := by
  induction l with
  | nil => intro x; rfl
  | cons i r ih =>
    intro x
    simp only [List.foldl_cons]
    rw [h x i (by simp), ih fun y j hj => h y j (by simp [hj])]

theorem lineXor_maskLine (l d : Line) (m : BitVec 64) : lineXor (maskLine l d m) = lineXor l ^^^ lineXor (maskLine 0 (l ^^^ d) m) := by
  rw [lineXor_range, lineXor_range l, lineXor_range (maskLine 0 _ m), ← foldl_xor (lineByte l)]
  apply foldl_congr_mem
  intro x i hi
  have hi' : i < 64 := List.mem_range.mp hi
  rw [lineByte_maskLine _ _ _ _ hi', lineByte_maskLine _ _ _ _ hi', lineByte_xor, lineByte_zero]
  split
  · rw [← BitVec.xor_assoc (lineByte l i), BitVec.xor_self, BitVec.zero_xor]
  · simp

theorem testBit_bits (p : Nat → Bool) (n : Nat) : ((List.range n).map fun i => if p i then 2 ^ i else 0).sum < 2 ^ n ∧
    ∀ j, j < n → ((List.range n).map fun i => if p i then 2 ^ i else 0).sum.testBit j = p j := by
  induction n with
  | zero => simp
  | succ n ih =>
    obtain ⟨lt, bit⟩ := ih
    rw [List.range_succ, List.map_append, List.sum_append]
    simp only [List.map_cons, List.map_nil, List.sum_cons, List.sum_nil, Nat.add_zero]
    refine ⟨by split <;> (rw [Nat.pow_succ]; omega), ?_⟩
    intro j hj
    by_cases e : j = n
    · subst e
      cases h : p j
      · simp [Nat.testBit_lt_two_pow lt]
      · simp only [if_true]
        rw [Nat.add_comm, Nat.testBit_two_pow_add_eq, Nat.testBit_lt_two_pow lt]; rfl
    · have hj' : j < n := by omega
      cases h : p n
      · simpa using bit j hj'
      · simp only [if_true]
        rw [Nat.add_comm, Nat.testBit_two_pow_add_gt hj']
        exact bit j hj'

theorem getLsbD_parOf (d : Line) (i : Nat) (h : i < 64) : (parOf d).getLsbD i = oddParity (lineByte d i).toNat := by
  rw [parOf, BitVec.getLsbD_ofNat, (testBit_bits (fun i => oddParity (lineByte d i).toNat) 64).2 i h]
  simp [h]

/-- A write into a line whose parity and check byte are good leaves them good (R238, R239). -/
theorem writeInto_good {l : CombLine} (h : checkLine l = .good) (m : BitVec 64) (d : Line) (dir : Dir) :
    writeInto l m d dir = mkLine l.way (maskLine l.data d m) dir none := by
  obtain ⟨hb, hc, hx⟩ : badBytes l = [] ∧ checkBad l = false ∧ lineXor l.data ^^^ l.chk = 0 := by
    unfold checkLine at h
    split at h <;> simp_all
  have hp : l.par = parOf l.data := by
    apply BitVec.eq_of_getLsbD_eq
    intro i hi
    rw [getLsbD_parOf _ _ hi]
    have := (List.filter_eq_nil_iff.mp hb) i (List.mem_range.mpr hi)
    simpa using (by simpa using this : oddParity (lineByte l.data i).toNat = l.par.getLsbD i).symm
  have hk : l.chk = lineXor l.data := (BitVec.xor_eq_zero_iff.mp hx).symm
  have hq : l.chkPar = oddParity l.chk.toNat := by
    simp only [checkBad, bne_eq_false_iff_eq] at hc
    exact hc.symm
  unfold writeInto mkLine
  simp only
  rw [lineXor_maskLine l.data, ← hk, oddParity_xor, ← hq]
  have e : (l.par &&& ~~~m) ||| (parOf d &&& m) = parOf (maskLine l.data d m) := by
    apply BitVec.eq_of_getLsbD_eq
    intro i hi
    rw [getLsbD_parOf _ _ hi, lineByte_maskLine _ _ _ _ hi]
    simp only [BitVec.getLsbD_or, BitVec.getLsbD_and, BitVec.getLsbD_not, hi, decide_true, Bool.true_and, getLsbD_parOf _ _ hi, hp]
    cases m.getLsbD i <;> simp
  rw [e]
/-- The bytes that a byte mask names. -/
theorem getLsbD_byteMask (off n i : Nat) (h : i < 64) : (byteMask off n).getLsbD i = decide (off ≤ i ∧ i < off + n) := by
  unfold byteMask
  rw [BitVec.getLsbD_ofNat, Nat.testBit_shiftLeft, Nat.testBit_two_pow_sub_one]
  simp only [h, decide_true, Bool.true_and]
  by_cases a : off ≤ i
  · simp [a]; omega
  · simp [a]

/-- A byte of a line that holds a value at an offset. -/
theorem lineByte_placed (off n v j : Nat) (h : off + n ≤ 64) (hj : j < n) :
    lineByte (placed off n v) (off + j) = BitVec.ofNat 8 (v / 256 ^ j) := by
  apply BitVec.eq_of_toNat_eq
  rw [lineByte_toNat]
  unfold placed
  have e : (2 : Nat) ^ (8 * n) = 256 ^ n := by rw [Nat.pow_mul]
  rw [BitVec.toNat_ofNat, Nat.shiftLeft_eq, e, show (2 : Nat) ^ (8 * off) = 256 ^ off by rw [Nat.pow_mul]]
  have hb : v % 256 ^ n * 256 ^ off < 2 ^ 512 := by
    have h1 : v % 256 ^ n < 256 ^ n := Nat.mod_lt _ (Nat.pow_pos (by decide))
    have h2 : v % 256 ^ n * 256 ^ off < 256 ^ n * 256 ^ off := Nat.mul_lt_mul_of_pos_right h1 (Nat.pow_pos (by decide))
    have h3 : 256 ^ n * 256 ^ off ≤ 256 ^ 64 := by
      rw [← Nat.pow_add]; exact Nat.pow_le_pow_right (by decide) (by omega)
    rw [pow_line] at h3
    exact Nat.lt_of_lt_of_le h2 h3
  rw [Nat.mod_eq_of_lt hb, Nat.pow_add, ← Nat.div_div_eq_div_mul, Nat.mul_div_cancel _ (Nat.pow_pos (by decide))]
  rw [BitVec.toNat_ofNat]
  have h5 : (256 : Nat) ^ n = 256 ^ j * 256 ^ (n - j) := by rw [← Nat.pow_add]; congr 1; omega
  rw [h5, Nat.mod_mul_right_div_self]
  have h6 : (256 : Nat) ^ (n - j) = 256 * 256 ^ (n - j - 1) := by rw [← Nat.pow_succ']; congr 1; omega
  rw [h6, Nat.mod_mul_right_mod]

theorem tblGet_map_some {α : Type} (t : List (Nat × α)) (k : Nat) :
    tblGet none (t.map fun e => (e.1, some e.2)) k = (t.find? fun e => e.1 == k).map Prod.snd := by
  induction t with
  | nil => rfl
  | cons e r ih =>
    by_cases h : e.1 = k
    · simp [tblGet, h]
    · have : (e.1 == k) = false := by simp [h]
      simp [tblGet, h, ih, List.find?, this]

theorem map_tblPut {α β : Type} (f : α → β) (t : List (Nat × α)) (k : Nat) (v : α) :
    (tblPut t k v).map (fun e => (e.1, f e.2)) = tblPut (t.map fun e => (e.1, f e.2)) k (f v) := by
  induction t with
  | nil => rfl
  | cons e r ih =>
    obtain ⟨x, w⟩ := e
    by_cases h : x = k
    · simp [tblPut, h]
    · by_cases h2 : k < x
      · simp [tblPut, h, h2]
      · simp [tblPut, h, h2, ih]

@[simp] theorem getLine_putLine_same (ln : Nat) (l : CombLine) (s : State) : getLine (putLine ln l s) ln = some l := by
  simp only [getLine, putLine, map_tblPut (fun x : CombLine => some x), tblGet_tblPut_same]

theorem getLine_putLine_other (ln x : Nat) (l : CombLine) (s : State) (h : x ≠ ln) : getLine (putLine ln l s) x = getLine s x := by
  simp only [getLine, putLine, map_tblPut (fun y : CombLine => some y)]
  exact tblGet_tblPut_other _ _ _ _ _ h

@[simp] theorem getLine_modCore (s : State) (c : Nat) (f : Core → Core) (ln : Nat) : getLine (modCore s c f) ln = getLine s ln := rfl
@[simp] theorem getLine_l1DropAll (s : State) (x : Nat) (k : Option Nat) (ln : Nat) : getLine (l1DropAll x k s) ln = getLine s ln := rfl
@[simp] theorem homeOf_modCore (s : State) (c : Nat) (f : Core → Core) (ln : Nat) : homeOf (modCore s c f) ln = homeOf s ln := rfl
@[simp] theorem homeOf_putLine (s : State) (x : Nat) (l : CombLine) (ln : Nat) : homeOf (putLine x l s) ln = homeOf s ln := rfl
@[simp] theorem homeOf_l1DropAll (s : State) (x : Nat) (k : Option Nat) (ln : Nat) : homeOf (l1DropAll x k s) ln = homeOf s ln := rfl
@[simp] theorem lineHeld_modCore (s : State) (c : Nat) (f : Core → Core) (n ln : Nat) : lineHeld (modCore s c f) n ln = lineHeld s n ln := rfl
@[simp] theorem lineHeld_putLine (s : State) (x : Nat) (l : CombLine) (n ln : Nat) : lineHeld (putLine x l s) n ln = lineHeld s n ln := rfl
@[simp] theorem lineHeld_l1DropAll (s : State) (x : Nat) (k : Option Nat) (n ln : Nat) : lineHeld (l1DropAll x k s) n ln = lineHeld s n ln := rfl

/-- A line whose bytes and check byte are good has no byte of bad parity. -/
theorem badBytes_of_good {l : CombLine} (h : checkLine l = .good) : badBytes l = [] := by
  unfold checkLine at h
  split at h <;> simp_all

/-- Where no host core must acknowledge an invalidation of all sharers, none must acknowledge one that spares a sharer. -/
theorem hostAckers_keep {d : Dir} (h : hostAckers d none = []) (k : Option Nat) : hostAckers d k = [] := by
  unfold hostAckers ackers at h ⊢
  split at h <;> rename_i hc
  · simpa [hc] using h
  · rw [if_neg hc]
    rw [List.filter_eq_nil_iff] at h ⊢
    intro a ha
    exact h a (List.mem_filter.mpr ⟨(List.mem_filter.mp ha).1, by simp⟩)

theorem lineHeld_of_quiet {s : State} {n : Nat} (h : quietAt s n) (ln : Nat) : lineHeld s n ln = false := by simp [lineHeld, h.1]

/-- A write of a core to a line that stands at its home: the bytes named change, the line's check bytes fit, and other cores lose their
copies (R233, R238). -/
theorem homeWrite_atHome {s : State} {ln n : Nat} {l : CombLine} (agent master cls : Nat) (mask : BitVec 64) (d : Line)
    (h : atHome s ln n l) :
    homeWrite agent master cls ln mask d s =
      (putLine ln (mkLine l.way (maskLine l.data d mask)
          (if l.dir.st = .reduce then { st := .dirty } else keepSharer l.dir .dirty (some agent)) none)
        (l1DropAll ln (some agent) s), .ok ()) := by
  obtain ⟨h1, hq, h3, h4, h5, h6⟩ := h
  have hb : lineForWrite n ln l mask s = (s, .line l) := by simp [lineForWrite, badBytes_of_good h5]
  simp [homeWrite, h1, lineHeld_of_quiet hq, h3, h4, hb, hostAckers_keep h6, writeInto_good h5]

/-- Nothing is taken up at a slice at which nothing waits. -/
theorem settleWays_quiet {s : State} {n : Nat} (h : (getSlice s n).miss = []) : settleWays n s = s := by simp [settleWays, h]

theorem forgetRefusals_quiet {s : State} {n : Nat} (h : (getSlice s n).refusals = []) (ln a m : Nat) : forgetRefusals n ln a m s = s := by
  simp [forgetRefusals, h]

theorem registerFree_quiet {s : State} {n : Nat} (h : quietAt s n) (ln a m : Nat) : registerFree (getSlice s n) ln a m = true := by
  simp [registerFree, promised, h.1, h.2.1]

theorem takeAbandoned_quiet {s : State} (h : s.comb.abandoned = []) (a m : Nat) (l : List Nat) : takeAbandoned a m l s = none := by
  simp [takeAbandoned, h]

/-- The access of a core or an engine to a home at which nothing waits is what the home does (R235, R236). -/
theorem access_quiet {α : Type} {s : State} {n ln : Nat} (q : Req) (f : State → State × Res α) (x : State) (a : α)
    (hh : homeSlice s ln = some n) (hq : quietAt s n) (hf : f s = (x, .ok a)) (hx : (getSlice x n).miss = []) :
    access q ln f s = (x, .ok a) := by
  unfold access
  rw [takeAbandoned_quiet hq.2.2, hh]
  simp only [lineHeld_of_quiet hq, registerFree_quiet hq, Bool.not_true, Bool.and_false, forgetRefusals_quiet hq.2.1, hf]
  simp only [Bool.false_eq_true, if_false]
  split
  · rfl
  · rw [settleWays_quiet hx]

/-- The same for a write of a core or an engine to a line that stands at its home. -/
theorem writeAt_atHome {s : State} {ln n : Nat} {l : CombLine} (agent master cls : Nat) (mask : BitVec 64) (d : Line)
    (h : atHome s ln n l) :
    writeAt agent master cls ln mask d s =
      (putLine ln (mkLine l.way (maskLine l.data d mask)
          (if l.dir.st = .reduce then { st := .dirty } else keepSharer l.dir .dirty (some agent)) none)
        (l1DropAll ln (some agent) s), .ok ()) :=
  access_quiet _ _ _ _ (by simp [homeSlice, h.1]) h.2.1 (homeWrite_atHome agent master cls mask d h) h.2.1.1

theorem lineAt_of_getLine {s t : State} {ln : Nat} (h : getLine t ln = getLine s ln) (hm : t.hbm = s.hbm) : lineAt t ln = lineAt s ln := by
  unfold lineAt hbmLine; rw [h, hm]

end Sys2Proof.Machine
end

