-- ==== Sys2Proof/Laws/Caches.lean ====
section
/-! SUPPORT. What the homes do to the cores: a read, a write, a fetch or an eviction changes of any core at most its L1. -/
namespace Sys2Proof.Machine

/-- Of every core at most the L1 has changed. -/
def l1Only (s t : State) : Prop := ∀ c, ∃ m, getCore t c = { getCore s c with l1 := m }

theorem l1Only_of_cores {s t : State} (h : t.cores = s.cores) : l1Only s t := fun c => ⟨(getCore s c).l1, by simp [getCore, h]⟩

theorem l1Only_refl (s : State) : l1Only s s := l1Only_of_cores rfl

theorem l1Only_trans {s t u : State} (h : l1Only s t) (h' : l1Only t u) : l1Only s u := fun c => by
  obtain ⟨m, e⟩ := h c
  obtain ⟨m', e'⟩ := h' c
  exact ⟨m', by rw [e', e]⟩

/-- After a change that leaves the cores alone. -/
theorem l1Only_after {s t u : State} (h : l1Only s t) (e : u.cores = t.cores) : l1Only s u := l1Only_trans h (l1Only_of_cores e)

theorem l1Only_modCore (s : State) (c : Nat) (f : Core → Core) (h : ∀ k, ∃ m, f k = { k with l1 := m }) : l1Only s (modCore s c f) := by
  intro d
  by_cases e : d = c
  · subst e; rw [getCore_modCore_same]; exact h _
  · rw [getCore_modCore_other _ _ _ _ e]; exact ⟨_, rfl⟩

theorem tblGet_map {α : Type} (d : α) (f : Nat → α → α) (t : List (Nat × α)) (c : Nat) :
    tblGet d (t.map fun e => (e.1, f e.1 e.2)) c = d ∨ tblGet d (t.map fun e => (e.1, f e.1 e.2)) c = f c (tblGet d t c) := by
  induction t with
  | nil => exact .inl rfl
  | cons e r ih =>
    by_cases h : e.1 = c
    · right; simp [tblGet, h]
    · simpa [tblGet, h] using ih

theorem l1Only_l1DropAll (ln : Nat) (keep : Option Nat) (s : State) : l1Only s (l1DropAll ln keep s) := by
  intro c
  let f : Nat → Core → Core := fun a k => if some a = keep then k else { k with l1 := k.l1.filter fun x => x.1 != ln }
  have e : (l1DropAll ln keep s).cores = s.cores.map fun e => (e.1, f e.1 e.2) := by
    simp only [l1DropAll, f]
    apply List.map_congr_left
    intro a _
    split <;> rfl
  have key : getCore (l1DropAll ln keep s) c = {} ∧ (∀ x ∈ s.cores, x.1 ≠ c) ∨ getCore (l1DropAll ln keep s) c = f c (getCore s c) := by
    simp only [getCore, e]
    generalize s.cores = t
    induction t with
    | nil => left; exact ⟨rfl, by simp⟩
    | cons a r ih =>
      by_cases h : a.1 = c
      · right; simp [tblGet, h]
      · simp only [List.map_cons, tblGet, h, if_false]
        rcases ih with ih | ih
        · left; exact ⟨ih.1, by simp [h]; simpa using ih.2⟩
        · right; exact ih
  rcases key with ⟨k1, k2⟩ | k
  · have : getCore s c = {} := by
      unfold getCore
      generalize s.cores = t at k2
      induction t with
      | nil => rfl
      | cons a r ih =>
        have ha : a.1 ≠ c := k2 a (by simp)
        simp only [tblGet, ha, if_false]
        exact ih fun x hx => k2 x (by simp [hx])
    exact ⟨[], by rw [k1, this]⟩
  · rw [k]; simp only [f]; split
    · exact ⟨_, rfl⟩
    · exact ⟨_, rfl⟩

theorem l1Only_l1Drop (c ln : Nat) (s : State) : l1Only s (l1Drop c ln s) := by
  unfold l1Drop; split
  · exact l1Only_modCore _ _ _ fun k => ⟨_, rfl⟩
  · exact l1Only_refl s

@[simp] theorem regAdmit_cores (m c : Nat) (u : Bool) (s : State) : (regAdmit m c u s).1.cores = s.cores := rfl

theorem retryFailed_cores (ln m c : Nat) (s : State) : (retryFailed ln m c s).cores = s.cores := by simp [retryFailed, hbmReadFailed]
theorem retryPassed_cores (n m c : Nat) (s : State) : (retryPassed n m c s).cores = s.cores := by simp [retryPassed]
theorem hbmWriteRejected_cores (ln : Nat) (s : State) : (hbmWriteRejected ln s).cores = s.cores := by simp [hbmWriteRejected]

/-- A read of HBM changes no core. -/
theorem hbmRead_cores (die m c ln : Nat) (s : State) : (hbmRead die m c ln s).1.cores = s.cores := by
  unfold hbmRead
  repeat' split
  all_goals simp [retryFailed_cores, retryPassed_cores]

/-- A write to HBM changes no core. -/
theorem hbmWrite_cores (die m c ln : Nat) (d : Line) (s : State) : (hbmWrite die m c ln d s).1.cores = s.cores := by
  unfold hbmWrite
  repeat' split
  all_goals simp [hbmWriteRejected_cores]

theorem hbmWriteBack_cores (die m c ln : Nat) (d : Line) (s : State) : (hbmWriteBack die m c ln d s).1.cores = s.cores := by
  unfold hbmWriteBack
  have h := hbmWrite_cores die m c ln d s
  split
  · rename_i e; rw [e] at h; exact h
  · exact h

@[simp] theorem addLearned_cores (e : Learned) (s : State) : (addLearned e s).cores = s.cores := rfl

theorem noteCorrected_cores (n p : Nat) (s : State) : (noteCorrected n p s).cores = s.cores := by
  unfold noteCorrected
  extract_lets
  repeat' split
  all_goals rfl

theorem noteLoss_cores (n ln : Nat) (b : Bool) (s : State) : (noteLoss n ln b s).cores = s.cores := by simp [noteLoss]

theorem checkedRead_l1 (n ln : Nat) (l : CombLine) (b : Bool) (s : State) : l1Only s (checkedRead n ln l b s).1 := by
  unfold checkedRead
  split
  · exact l1Only_refl s
  · exact l1Only_of_cores (by simp [noteCorrected_cores])
  · split
    · exact l1Only_after (l1Only_trans (l1Only_of_cores (modSlice_cores s _ _)) (l1Only_l1DropAll _ _ _)) rfl
    · split
      · exact l1Only_of_cores (by simp)
      · exact l1Only_after (l1Only_trans (l1Only_of_cores (noteLoss_cores _ _ _ _)) (l1Only_l1DropAll _ _ _)) rfl

theorem startRecall_cores (n ln o : Nat) (b : Bool) (s : State) : (startRecall n ln o b s).cores = s.cores := by simp [startRecall, openMiss]
theorem startRound_cores (n ln : Nat) (hs : List Nat) (k : Option Nat) (s : State) : (startRound n ln hs k s).cores = s.cores := by
  simp [startRound, openMiss]

theorem evictLine_l1 (n m c ln : Nat) (s : State) : l1Only s (evictLine n m c ln s).1 := by
  unfold evictLine
  split
  · exact l1Only_refl s
  split
  · split
    · exact l1Only_refl s
    · split
      · exact l1Only_of_cores (startRecall_cores ..)
      · exact l1Only_of_cores (startRound_cores ..)
  split
  · exact l1Only_after (l1Only_l1DropAll _ _ _) rfl
  · split
    next s1 l' e =>
      have h1 : l1Only s s1 := by
        have hh : l1Only s (s1, Checked.data l').1 := e ▸ checkedRead_l1 n ln _ false s
        exact hh
      have h2 : (hbmWriteBack (sliceDie n) m c ln l'.data s1).1.cores = s1.cores := hbmWriteBack_cores ..
      split <;> (rename_i e2; rw [e2] at h2)
      · exact l1Only_after (l1Only_trans (l1Only_after h1 h2) (l1Only_l1DropAll _ _ _)) rfl
      · exact l1Only_after h1 h2
      · exact l1Only_after h1 h2
    next s1 _ _ e =>
      have h := congrArg Prod.fst e
      exact h ▸ checkedRead_l1 n ln _ false s

theorem takeWay_l1 (n m c ln : Nat) (s : State) : l1Only s (takeWay n m c ln s).1 := by
  unfold takeWay
  dsimp only
  split
  · exact l1Only_refl s
  · split
    · exact l1Only_refl s
    next v _ =>
      have h := evictLine_l1 n m c v.1 (takeFree s)
      split <;> (rename_i e; rw [e] at h; exact l1Only_trans (l1Only_of_cores (by simp)) h)

theorem fetchLine_l1 (n m c ln : Nat) (dir : Dir) (s : State) : l1Only s (fetchLine n m c ln dir s).1 := by
  unfold fetchLine
  have h := hbmRead_cores (sliceDie n) m c ln s
  split
  · rename_i e; rw [e] at h; exact l1Only_of_cores h
  · rename_i e; rw [e] at h; exact l1Only_of_cores h
  · rename_i s1 d e
    rw [e] at h
    have h2 := takeWay_l1 n m c ln s1
    have held (op : MissOp) (x : State) : (holdFor n ln op x).cores = x.cores := by unfold holdFor openMiss; split <;> simp
    split <;> (rename_i e2; rw [e2] at h2)
    · exact l1Only_trans (l1Only_of_cores h) h2
    · exact l1Only_trans (l1Only_of_cores h) h2
    · exact l1Only_after (l1Only_trans (l1Only_of_cores h) h2) (held _ _)

theorem presentLine_l1 (n a m c ln : Nat) (b : Bool) (s : State) : l1Only s (presentLine n a m c ln b s).1 := by
  unfold presentLine
  split
  · exact l1Only_refl s
  split
  · exact fetchLine_l1 _ _ _ _ _ _
  next l _ =>
    split
    · exact l1Only_of_cores (startRecall_cores ..)
    · have h := checkedRead_l1 n ln l false s
      split
      · rename_i e; rw [e] at h; exact h
      · rename_i e; rw [e] at h; exact h
      · rename_i e; rw [e] at h; exact l1Only_trans h (fetchLine_l1 _ _ _ _ _ _)

theorem homeRead_l1 (a m c ln : Nat) (s : State) : l1Only s (homeRead a m c ln s).1 := by
  unfold homeRead
  split
  · exact l1Only_refl s
  · split
    · exact l1Only_refl s
    split
    · exact l1Only_refl s
    next l _ =>
      split <;> (rename_i e; exact (congrArg Prod.fst e) ▸ checkedRead_l1 _ ln l false s)
  · split
    · exact l1Only_refl s
    · exact l1Only_of_cores (hbmRead_cores ..)
  next n _ =>
    have h := presentLine_l1 n a m c ln true s
    split
    · rename_i e; rw [e] at h
      split
      · exact h
      · exact l1Only_after h (by simp)
    · rename_i e; rw [e] at h; exact h
    · rename_i e; rw [e] at h; exact h

theorem standBy_cores (n ln a m : Nat) (s : State) : (standBy n ln a m s).cores = s.cores := by
  unfold standBy joinWaiter addWaiter forgetRefusals noteRefusal
  dsimp only
  repeat' split
  all_goals simp

theorem forgetRefusals_cores (n ln a m : Nat) (s : State) : (forgetRefusals n ln a m s).cores = s.cores := by
  unfold forgetRefusals; dsimp only; split <;> simp

/-- A read of a core or an engine changes of any core at most its L1. -/
theorem readAt_l1 (a m c ln : Nat) (s : State) : l1Only s (readAt a m c ln s).1 := by
  unfold readAt access
  split
  · rename_i s1 _ e
    unfold takeAbandoned at e
    split at e
    · injection e with e; subst e; exact l1Only_of_cores rfl
    · exact absurd e (by simp)
  · exact homeRead_l1 a m c ln s
  · rename_i n _ _
    split
    · exact l1Only_of_cores (standBy_cores ..)
    split
    · exact l1Only_of_cores (by simp [noteRefusal])
    have h := l1Only_trans (l1Only_of_cores (forgetRefusals_cores n ln a m s)) (homeRead_l1 a m c ln (forgetRefusals n ln a m s))
    split <;> (rename_i e; rw [e] at h)
    · exact l1Only_after h (standBy_cores ..)
    · exact h
    · exact h

theorem l1Insert_l1 (ln : Nat) (d : Line) (k : Core) : ∃ m, l1Insert ln d k = { k with l1 := m } := ⟨_, rfl⟩

/-- A line read of a core changes of any core at most its L1 (R173). -/
theorem coreReadLine_l1 (c cls ln : Nat) (s : State) : l1Only s (coreReadLine c cls ln s).1 := by
  unfold coreReadLine
  split
  · exact l1Only_modCore _ _ _ fun k => l1Insert_l1 _ _ k
  · have h := readAt_l1 c c cls ln s
    split
    · rename_i s1 d e; rw [e] at h
      have put (b : Bool) : l1Only s (if b then modCore s1 c (l1Insert ln d) else s1) := by
        cases b
        · exact h
        · exact l1Only_trans h (l1Only_modCore _ _ _ fun k => l1Insert_l1 _ _ k)
      exact put _
    · rename_i e; rw [e] at h; exact h
    · rename_i e; rw [e] at h; exact h

theorem coreReadLines_l1 (c cls : Nat) : ∀ (l : List Nat) (s : State), l1Only s (coreReadLines c cls l s).1 := by
  intro l
  induction l with
  | nil => exact fun s => l1Only_refl s
  | cons ln r ih =>
    intro s
    have h := coreReadLine_l1 c cls ln s
    unfold coreReadLines
    split
    · rename_i s1 d e
      rw [e] at h
      have h2 := ih s1
      split <;> (rename_i e2; rw [e2] at h2; exact l1Only_trans h h2)
    · rename_i e; rw [e] at h; exact h
    · rename_i e; rw [e] at h; exact h

theorem readEach_l1 (c cls : Nat) : ∀ (l : List Nat) (s : State), l1Only s (readEach c cls l s).1 := by
  intro l
  induction l with
  | nil => exact fun s => l1Only_refl s
  | cons ln r ih =>
    intro s
    have h := coreReadLine_l1 c cls ln s
    unfold readEach
    split
    · rename_i e; rw [e] at h; exact h
    · rename_i s1 x _ e
      rw [e] at h
      have h2 := ih s1
      split <;> (rename_i e2; rw [e2] at h2; exact l1Only_trans h h2)

end Sys2Proof.Machine
end

