-- ==== Sys2Proof/Laws/Stream.lean ====
section
/-! SUPPORT. What the shared operations of the control stream do: going on at an offset, writing a scalar register, faulting. -/
namespace Sys2Proof.Machine

theorem onlyCore_refl (c : Nat) (s : State) : onlyCore c s s := ⟨rfl, fun _ _ => rfl⟩

theorem onlyCore_trans {c : Nat} {s t u : State} (h : onlyCore c s t) (h' : onlyCore c t u) : onlyCore c s u := by
  obtain ⟨a, b⟩ := h
  obtain ⟨a', b'⟩ := h'
  refine ⟨?_, fun d hd => (b' d hd).trans (b d hd)⟩
  rw [a', a]

theorem onlyCore_modCore (c : Nat) (s : State) (f : Core → Core) : onlyCore c s (modCore s c f) :=
  ⟨rfl, fun d hd => getCore_modCore_other s c d f hd⟩

/-- What a fault leaves of the faulted core (R116). -/
theorem getCore_coreFault (c code eng : Nat) (tag : Option Nat) (pc : BitVec 16) (detail : Nat) (s : State) :
    getCore (coreFault c code eng tag pc detail s) c =
      (let k := getCore s c
       let r := k.regs
       let r' := if r.faultInfo ≠ 0 then { r with cause := r.cause ||| 4 } else
         { r with faultPc := pc, faultDetail := BitVec.ofNat 32 detail
                  faultInfo := BitVec.ofNat 18 (code + eng * 2 ^ 8 + tag.getD 0 * 2 ^ 12 + b2n tag.isSome * 2 ^ 17) }
       { k with regs := r', faulting := true, stall := .none }) := by
  simp only [coreFault, getCore_modCore_same]

theorem onlyCore_coreFault (c code eng : Nat) (tag : Option Nat) (pc : BitVec 16) (detail : Nat) (s : State) :
    onlyCore c s (coreFault c code eng tag pc detail s) := onlyCore_modCore ..

/-- Going on at an offset changes only the core, and of it the offset, the stall, and what the fetch records (R93). -/
theorem goTo_moves (c : Nat) (pc : BitVec 15) (s : State) (h : streamRuns (getCore s c) = true) :
    goesTo c pc s (goTo c pc s) ∧ (getCore (goTo c pc s) c).k = (getCore s c).k := by
  have hf : (getCore s c).faulting = false := by
    simp only [streamRuns, Bool.and_eq_true, Bool.not_eq_true'] at h
    exact h.1.1.2
  let k := getCore s c
  let k1 : Core := { k with pc, stall := .none }
  have hr : streamRuns k1 = true := h
  have e1 : getCore (modCore s c fun k => { k with pc, stall := .none }) c = k1 := getCore_modCore_same ..
  by_cases u : undefinedEncoding (wordAt k1) = true
  · have eg : goTo c pc s = coreFault c 0x32 0 none (pcWord k1) 0 (modCore s c fun k => { k with pc, stall := .none }) := by
      simp only [goTo, fetchCheck, e1, hr, u, Bool.and_self, if_true]
    have ec := getCore_coreFault c 0x32 0 none (pcWord k1) 0 (modCore s c fun k => { k with pc, stall := .none })
    rw [e1, ← eg] at ec
    refine ⟨⟨?_, ?_, ?_⟩, ?_⟩
    · rw [eg]; exact onlyCore_trans (onlyCore_modCore ..) (onlyCore_coreFault ..)
    · rw [ec]
      refine ⟨rfl, ?_, ?_, ?_⟩
      · exact u.symm
      · intro hu; exact absurd u (by rw [show undefinedEncoding (wordAt k1) = false from hu]; decide)
      · intro _ hz
        have hz1 : ¬ (k1.regs.faultInfo ≠ 0) := by simpa using hz
        simp only [if_neg hz1]
        rfl
    · rw [ec]
    · rw [ec]
  · have u' : undefinedEncoding (wordAt k1) = false := by simpa using u
    have eg : goTo c pc s = modCore s c fun k => { k with pc, stall := .none } := by
      simp [goTo, fetchCheck, e1, u']
    rw [eg]
    refine ⟨⟨onlyCore_modCore .., ?_, ?_⟩, ?_⟩
    · rw [e1]
      refine ⟨?_, ?_, fun _ => rfl, ?_⟩
      · rfl
      · show k.faulting = _
        rw [u']; exact hf
      · intro hu; exact absurd hu u
    · rw [e1]
    · rw [e1]

theorem streamRuns_kSet (k : Core) (r : BitVec 5) (v : Word64) : streamRuns (kSet k r v) = streamRuns k := by
  unfold kSet; split <;> rfl

theorem onlyK_kSet (kd : BitVec 5) (v : Word64) (k : Core) : onlyK kd v k (kSet k kd v) := by
  intro r
  by_cases hr : r = kd
  · subst hr
    by_cases h0 : r = 0
    · subst h0; simp [kGet]
    · rw [kGet_kSet_same _ _ _ h0]; simp only [true_and]; rw [if_pos h0]
  · rw [kGet_kSet_other _ _ _ _ hr]; simp [hr]

theorem kGet_congr (k k' : Core) (h : k'.k = k.k) (r : BitVec 5) : kGet k' r = kGet k r := by simp [kGet, h]

theorem kSet_shape (k : Core) (r : BitVec 5) (v : Word64) : ∃ m, kSet k r v = { k with k := m } := by
  unfold kSet; split
  · exact ⟨k.k, rfl⟩
  · exact ⟨_, rfl⟩

/-- What going on leaves of a core whose scalar registers alone differ. -/
theorem streamMoved_of_k {k k1 k' : Core} {m : List (Nat × Word64)} (e : k1 = { k with k := m }) (h : streamMoved k1 k') :
    streamMoved k k' := by
  obtain ⟨b1, b2, b3, b4⟩ := h
  subst e
  exact ⟨b1, b2, b3, b4⟩

/-- With no scalar access out there is nothing to leave alone. -/
theorem dropLoads_nil {k : Core} (h : k.scalarq = []) (kd : BitVec 5) : dropLoads kd k = k := by
  cases k; simp_all [dropLoads]

/-- Writing a scalar register and going on (R96). -/
theorem setK_moves (c : Nat) (kd : BitVec 5) (v : Word64) (s : State) (h : streamRuns (getCore s c) = true)
    (hq : (getCore s c).scalarq = []) :
    advances c s (setK c kd v s) ∧ onlyK kd v (getCore s c) (getCore (setK c kd v s) c) := by
  let s1 := modCore s c fun k => kSet (dropLoads kd k) kd v
  have e1 : getCore s1 c = kSet (getCore s c) kd v := by
    show getCore (modCore s c _) c = _
    rw [getCore_modCore_same, dropLoads_nil hq]
  have hr : streamRuns (getCore s1 c) = true := by rw [e1, streamRuns_kSet]; exact h
  obtain ⟨⟨a, b, d⟩, ek⟩ := goTo_moves c ((getCore s1 c).pc + 16) s1 hr
  obtain ⟨m, hm⟩ := kSet_shape (getCore s c) kd v
  have hpc : (getCore s1 c).pc = (getCore s c).pc := by rw [e1, hm]
  refine ⟨⟨onlyCore_trans (onlyCore_modCore ..) a, streamMoved_of_k (e1.trans hm) b, ?_⟩, ?_⟩
  · rw [← hpc]; exact d
  · intro r
    show kGet (getCore (goTo c _ s1) c) r = _
    rw [kGet_congr _ _ ek, e1]
    exact onlyK_kSet kd v _ r

/-- Where the stream stands at a word with no scalar access out, the word is met at once. -/
theorem shortStep_stands {s : State} {c : CoreNo} {w : BitVec 128} (h : standsAt s c.val w) (f : State → State) : shortStep c w f s = f s := by
  obtain ⟨ha, hq⟩ := h
  have hst : (getCore s c.val).stall = .none := by
    simp only [atWord, Bool.and_eq_true, beq_iff_eq] at ha
    exact ha.1.1.2
  have hu : unstall c.val s = s := by simp [unstall, hst]
  have hd : scalarDrain c.val s = s := by simp [scalarDrain, hq, scalarRun]
  simp [shortStep, hu, hd, ha, scalarWaits, hq]

/-- A word at which the stream stands: it runs. -/
theorem atWord_runs {s : State} {c : Nat} {w : BitVec 128} (h : atWord s c w = true) : streamRuns (getCore s c) = true := by
  simp only [atWord, Bool.and_eq_true] at h
  exact h.1.1.1.2

/-- A jump goes to its own offset plus 16 times the signed word count. -/
theorem jump_target (pc : BitVec 15) (off : BitVec 16) :
    pc + BitVec.signExtend 15 (off ++ 0#4) = pc + BitVec.ofInt 15 (16 * off.toInt) := by
  congr 1
  apply BitVec.eq_of_toInt_eq
  have h : (off ++ 0#4).toInt = 16 * off.toInt := by
    simp only [BitVec.toInt_eq_toNat_bmod, BitVec.toNat_append]
    have := off.isLt
    simp [Nat.shiftLeft_eq]
    simp only [Int.bmod]
    split <;> split <;> omega
  rw [BitVec.toInt_signExtend, BitVec.toInt_ofInt, h]
  simp

end Sys2Proof.Machine
end

