-- ==== Sys2Proof/Machine/Scan.lean ====
section
/-! DEFINITION. What the debug port reads by scan (R473): the table has no row for a scan, which changes nothing (log 52). -/
namespace Sys2Proof.Machine

/-- What a scan asks for: the status flops of a block, or an array of a powered layer. -/
inductive Scan
  /-- observation scan: the status and control words of a block that is no register of the security block -/
  | status (layer region block : Nat)
  | tile (c : Nat)
  | bank (c : Nat) (b : Bool)
  | descriptors (c : Nat)
  | accumulators (c : Nat)
  | combLine (ln : Nat)
  deriving DecidableEq, Repr

/-- Whether a scan is an observation scan. -/
def Scan.observes : Scan → Bool
  | .status _ _ _ => true
  | _ => false

/-- Where a full scan reads: a core's site, or the die of a line's home, has power, and the comb arrays have been swept (R240). -/
def scanReady (x : Scan) (s : State) : Bool :=
  let coreReady (c : Nat) : Bool := match siteOf s c with
    | some k => blockPowered s 3 (k / 54) (k % 54)
    | none => false
  match x with
  | .status l r b => blockDecodes l r b && blockPowered s l r b && !(l == 0 && r == 31 && decide (140 ≤ b))
  | .tile c => coreReady c
  | .bank c _ => coreReady c
  | .descriptors c => coreReady c
  | .accumulators c => coreReady c
  | .combLine ln => scanLineReady ln s

/-- Whether the debug port may scan: an observation at LIMITED or FULL while the device runs, a full scan at FULL once a freeze has
stopped the clocks (R469, R473, R475). -/
def scanAdmits (x : Scan) (s : State) : Bool :=
  s.pins.alwaysOn && scanReady x s &&
    (if x.observes then decide (1 ≤ s.sec.level.toNat) && !(frozen s) else decide (s.sec.level = 2) && s.sec.frozen && !s.sec.freezing)

/-- What it reads: of a block its first four words, which are its status, cause and mask; of an array its bytes as they are. -/
def scanData (x : Scan) (s : State) : List Byte :=
  match x with
  | .status l r b => (List.range 4).flatMap fun i => leBytes 4 (regValue s l r b (4 * i)).toNat
  | .tile c => memBytes (getCore s c).tile 0 393216
  | .bank c b => memBytes (bankMem (getCore s c) b) 0 32768
  | .descriptors c => memBytes (getCore s c).descMem 0 4096
  | .accumulators c => (List.range 16384).flatMap fun i => leBytes 4 (tblGet 0 (getCore s c).arr.acc i).toNat
  | .combLine ln => lineBytes (rawLine ln s)

/-- A scan: its bytes, or none where it is refused. -/
def scan (x : Scan) (s : State) : Option (List Byte) := if scanAdmits x s then some (scanData x s) else none

end Sys2Proof.Machine
end

