-- ==== Sys2Proof/WellFormed.lean ====
section
/-! DEFINITION. Which commands are well formed: an instruction word that the rules define, and operands that a sender can have. -/
namespace Sys2Proof

open Sys2Proof.Machine

/-- A control word is no undefined encoding (R93). -/
def wordDefined (b : BitVec 128) : Bool := !(undefinedEncoding b)

/-- A thread word is no undefined encoding (R163). -/
def threadDefined (opc : Nat) (w : ThreadWord) : Bool := !(threadUndefined (threadBits opc w))

/-- A long word whose operation, bits [45:44], is `op` (R140, R245). -/
def formOk (opc eng op : Nat) (w : LongWord) : Bool := bitsOf w.low.toNat 45 44 == op && wordDefined (longBits opc eng w)

/-- No element occurs twice. -/
def distinct {α : Type} [BEq α] : List α → Bool
  | [] => true
  | a :: r => !(r.contains a) && distinct r

/-- Increments that arrive in one cycle are of 16 bits (R100). -/
def incrementsOk (l : List Nat) : Bool := l.all fun n => decide (n < 65536)

/-- An access has 1, 2, 4 or 8 bytes (R24). -/
def sizeOk (n : BitVec 4) : Bool := n == 1 || n == 2 || n == 4 || n == 8

/-- An atomic request has a defined operation and a width that it takes, and at most 32 lanes, each aligned within the line (R178,
R179). -/
def atomicOk (op : BitVec 6) (w : BitVec 4) (lanes : List AtomLane) : Bool :=
  (if op.toNat ≤ 9 then w == 4 || w == 8 else if op = 10 then w == 4 else op == 11 && w == 2)
    && decide (lanes.length ≤ 32) && lanes.all fun l => decide (l.off + w.toNat ≤ 64) && l.off % w.toNat == 0

/-- A contribution outside exact mode: add, min or max, in FP32, BF16 or FP16, of elements with slots in the line (R256, R257). -/
def reduceOk (op : BitVec 3) (fmt : BitVec 2) (es : List (Nat × Word32)) : Bool :=
  decide (op.toNat ≤ 2) && decide (fmt.toNat ≤ 2) && distinct (es.map Prod.fst)
    && es.all fun e => decide (e.1 < if fmt = 1 then 32 else 16)

/-- A contribution in exact mode: elements with slots in the group of four lines (R263). -/
def exactOk (fmt : BitVec 2) (es : List (Nat × Word32)) : Bool :=
  decide (fmt.toNat ≤ 2) && distinct (es.map Prod.fst) && es.all fun e => decide (e.1 < 16)

/-- A packet carries at most 4,096 bytes behind its header (R324). -/
def packetOk (p : Packet) : Bool := decide (p.payload.length ≤ 4096)

/-- A request fits the 4,096 fragments of R484. -/
def requestOk (n : Nat) : Bool := decide (n ≤ 4096 * 1408)

/-- An Ethernet frame without its FCS has its header, and at most 9,004 bytes behind it, a VLAN tag among them. -/
def frameLengthOk (f : List Byte) : Bool := decide (14 ≤ f.length) && decide (f.length ≤ 9018)

/-- The outcomes of a start name no unit twice. -/
def startRunOk (r : StartRun) : Bool :=
  distinct r.phases && distinct r.ports && distinct r.hosts && distinct r.slices && distinct r.retrained && distinct r.sites && distinct r.trial

/-- Entries to remove are of the kinds of R403. -/
def removalsOk (es : List (Nat × Nat × Nat)) : Bool := es.all fun e => decide (1 ≤ e.1) && decide (e.1 ≤ 7)

/-- A cross-check has one load for each footprint. -/
def loadsOk (ls : List FpLoad) : Bool := distinct (ls.map fun l => l.n)

/-- A sample has one mean for each domain. -/
def samplesOk (cur : List (Fin 90 × BitVec 20)) : Bool := distinct (cur.map Prod.fst)

/-- A health check reads a phase once. -/
def readingsOk (rs : List (Fin 288 × BitVec 16 × Byte)) : Bool := distinct (rs.map Prod.fst)

/-- A load names each core once, and each section once. -/
def loadRequestOk (q : LoadRequest) : Bool := distinct q.map && distinct (q.places.map Prod.fst)

/-- Changed bits are given byte by byte, once each. -/
def upsetsOk (us : List Upset) : Bool := distinct (us.map fun u => u.byte)

/-- Whether a command is well formed. The meanings do not ask it: they have an outcome for every operand. -/
def wellFormed (i : Instr) : Bool :=
  match i with
  | .addk _ kd ka kb u imm => wordDefined (shortBits 0x01 0 { flag := u, kd, ka, kb, imm })
  | .subk _ kd ka kb u imm => wordDefined (shortBits 0x02 0 { flag := u, kd, ka, kb, imm })
  | .ldk _ kd ka region imm => wordDefined (shortBits 0x03 0 { kd, ka, region, imm })
  | .stk _ ka kb region imm => wordDefined (shortBits 0x04 0 { ka, kb, region, imm })
  | .b _ off => wordDefined (shortBits 0x05 0 { imm := off.zeroExtend 64 })
  | .bc _ ka kb cond u cmp off => wordDefined (shortBits 0x06 0 { flag := u, ka, kb, cond, imm := cmp ++ off })
  | .loop _ kd off => wordDefined (shortBits 0x07 0 { kd, imm := off.zeroExtend 64 })
  | .move _ w => wordDefined (longBits 0x10 1 w)
  | .mma _ w => wordDefined (longBits 0x20 2 w)
  | .conv _ w => wordDefined (longBits 0x21 2 w)
  | .accxDrain _ w _ => formOk 0x22 2 0 w
  | .accxStore _ w _ => formOk 0x22 2 1 w
  | .accxLoad _ w => formOk 0x22 2 2 w
  | .launch _ w => wordDefined (longBits 0x30 3 w)
  | .cred _ w => wordDefined (longBits 0x40 4 w)
  | .cfin _ w => wordDefined (longBits 0x41 4 w)
  | .upd _ w => wordDefined (longBits 0x42 4 w)
  | .kill _ w => wordDefined (longBits 0x43 4 w)
  | .revive _ w => wordDefined (longBits 0x44 4 w)
  | .flushKeep _ w => formOk 0x45 4 0 w
  | .flushInvalidate _ w => formOk 0x45 4 1 w
  | .collAllReduce _ w => wordDefined (longBits 0x50 5 w)
  | .collReduceScatter _ w => wordDefined (longBits 0x50 5 w)
  | .collAllGather _ w => wordDefined (longBits 0x50 5 w)
  | .collAllToAll _ w => wordDefined (longBits 0x50 5 w)
  | .collBroadcast _ w => wordDefined (longBits 0x50 5 w)
  | .collShardGather _ w => wordDefined (longBits 0x50 5 w)
  | .waitc _ ctr ka imm => wordDefined (waitcBits ctr ka imm)
  | .sigc _ r t ctr inc => wordDefined (sigcBits r t ctr inc)
  | .switch _ e => wordDefined (shortBits 0x70 7 { imm := e.zeroExtend 64 })
  | .fence _ m mask => wordDefined (shortBits 0x71 7 { flag := m, imm := mask.zeroExtend 64 })
  | .trap _ code => wordDefined (shortBits 0x72 7 { imm := code.zeroExtend 64 })
  | .halt _ => wordDefined (shortBits 0x73 7 {})
  | .coreArriveWrite _ _ _ _ same => incrementsOk same
  | .registerWrite _ size _ _ => sizeOk size
  | .iadd _ _ w => threadDefined 0x01 w
  | .isub _ _ w => threadDefined 0x02 w
  | .imul _ _ w => threadDefined 0x03 w
  | .imad _ _ w => threadDefined 0x04 w
  | .imin _ _ w => threadDefined 0x05 w
  | .imax _ _ w => threadDefined 0x06 w
  | .umin _ _ w => threadDefined 0x07 w
  | .umax _ _ w => threadDefined 0x08 w
  | .andT _ _ w => threadDefined 0x09 w
  | .orT _ _ w => threadDefined 0x0A w
  | .xorT _ _ w => threadDefined 0x0B w
  | .shl _ _ w => threadDefined 0x0C w
  | .shr _ _ w => threadDefined 0x0D w
  | .sra _ _ w => threadDefined 0x0E w
  | .mov _ _ w => threadDefined 0x0F w
  | .sel _ _ w => threadDefined 0x10 w
  | .icmp _ _ w => threadDefined 0x11 w
  | .iadd64 _ _ w => threadDefined 0x12 w
  | .fadd _ _ w => threadDefined 0x20 w
  | .fsub _ _ w => threadDefined 0x21 w
  | .fmul _ _ w => threadDefined 0x22 w
  | .ffma _ _ w => threadDefined 0x23 w
  | .fmin _ _ w => threadDefined 0x24 w
  | .fmax _ _ w => threadDefined 0x25 w
  | .fabs _ _ w => threadDefined 0x26 w
  | .fcmp _ _ w => threadDefined 0x27 w
  | .fdiv _ _ w => threadDefined 0x28 w
  | .fsqrt _ _ w => threadDefined 0x29 w
  | .frcp _ _ w => threadDefined 0x2A w
  | .frsq _ _ w => threadDefined 0x2B w
  | .fex2 _ _ w => threadDefined 0x2C w
  | .flg2 _ _ w => threadDefined 0x2D w
  | .cvt _ _ w => threadDefined 0x30 w
  | .cvtMx _ _ w => threadDefined 0x31 w
  | .rngU32 _ _ w => threadDefined 0x34 w
  | .bmask _ _ w => threadDefined 0x35 w
  | .shfl _ _ w => threadDefined 0x38 w
  | .vote _ _ w => threadDefined 0x39 w
  | .wru _ _ w => threadDefined 0x3A w
  | .ld _ _ w => threadDefined 0x40 w
  | .st _ _ w => threadDefined 0x41 w
  | .ldt _ _ w => threadDefined 0x42 w
  | .stt _ _ w => threadDefined 0x43 w
  | .atom _ _ w => threadDefined 0x44 w
  | .cpya _ _ w => threadDefined 0x45 w
  | .kernelFence _ _ w => threadDefined 0x46 w
  | .brx _ _ w => threadDefined 0x50 w
  | .join _ _ w => threadDefined 0x51 w
  | .jmp _ _ w => threadDefined 0x52 w
  | .bar _ _ w => threadDefined 0x53 w
  | .kernelWaitc _ _ w => threadDefined 0x54 w
  | .kernelSigc _ _ w => threadDefined 0x55 w
  | .exit _ _ w => threadDefined 0x56 w
  | .combRead _ _ us => upsetsOk us
  | .combWrite _ _ _ _ us => upsetsOk us
  | .patrolScrubVisit _ _ us => upsetsOk us
  | .atomicApply _ _ op w lanes => atomicOk op w lanes
  | .reduceContribution _ _ op fmt es => reduceOk op fmt es
  | .exactContribution _ _ fmt _ es => exactOk fmt es
  | .greqReceived p _ => packetOk p
  | .gdataReceived p => packetOk p
  | .gsuperReceived p => packetOk p
  | .gcorruptReceived p => packetOk p
  | .packetReceived _ p => packetOk p
  | .packetForward _ _ p => packetOk p
  | .ethFrameReceived _ f => frameLengthOk f
  | .eackReceived p => packetOk p
  | .readyReceived p => packetOk p
  | .dataReceived p => packetOk p
  | .doneReceived p => packetOk p
  | .abortReceived p => packetOk p
  | .layerReady r _ => distinct r
  | .startUp r => startRunOk r
  | .programLoad q => loadRequestOk q
  | .currentSample cur => samplesOk cur
  | .thermalCrossCheck ls => loadsOk ls
  | .fwBegin _ _ h _ => requestOk h.length
  | .fwWrite _ _ _ data _ => requestOk (8 + data.length)
  | .cadRemove _ es => removalsOk es
  | .regulatorHealthCheck rs => readingsOk rs
  | .managementPortFrame f => frameLengthOk f
  | .moveChannelStart _ _ _ | .moveFaultRaise _ _ | .arrayPassStart _ _ _ | .streamSlotArrival _ _ _
  | .checksumPacketArrival _ _ | .arrayRowCommit _ _ _ _ _ | .arrayRowReplay _ _ _ _ | .arrayPassEnd _ _ _
  | .kernelGroupStart _ _ | .kernelComplete _ | .updChunkPass _ _ _ | .collAccept _ _ | .sigcReleaseSend _
  | .sigcArrival _ | .switchTakesEffect _ | .coreEnterHalted _ | .scoreboardIssue _ | .eventPulse _ _
  | .coreEnterFaulted _ | .watchdogExpired _ | .coreStart _ _ _ | .coreHaltRequest _ _ _ | .coreImemDataAccess _ _ _
  | .coreDescDataAccess _ _ _ | .coreKregAccess _ _ _ _ | .regionTableWrite _ _ _ _ _ | .coreAccDataAccess _ _ _
  | .coreFpctlWrite _ _ _ | .coreSeedWrite _ _ _ _ | .cpyaComplete _ _ | .hostOwnershipRequest _ _
  | .hostWriteBack _ _ _ | .missFillComplete _ _ | .invalidationAck _ _ | .hostRecallResponse _ _ _
  | .requestReissue _ _ | .sliceWake _ | .wakeSweepComplete _ | .splitChange _ _ | .reduceWayWaitTimeout _
  | .greqRetry _ | .digestSweepPeriod | .digestSweepChunk | .hbmRead _ _ _ _ _ | .hbmWrite _ _ _ _ _
  | .hbmTempRead _ _ | .hbmPatrolRead _ _ _ _ _ | .selfRefreshEntry _ | .regulatorWindowBoundary
  | .requestAdmission _ _ _ _ _ _ | .deadlineExpiry _ | .requestAgeing _ | .reservationAdmission _ _ _
  | .laneSwap _ _ _ | .flitReceived _ _ _ _ | .replayTimeout _ | .recoverEntry _ | .recoverTimeout _
  | .cutThroughTimeout _ _ _ | .linkEnable _ _ _ | .equalisationLock _ _ | .alignLock _ _ _ _ | .downRetry _
  | .linkAdaptation _ _ _ _ _ | .eackTimer _ _ | .retransmissionTimeout _ _ | .collectiveTimeout _ _
  | .lnkRtDataAccess _ _ | .seqReset _ _ | .ctxReset _ _ | .bypassOpen _ | .bypassClose _ | .mailboxDataWrite _ _ _ _
  | .mailboxSend _ _ _ | .mailboxRelease _ _ | .mailboxAck _ _ _ | .mbxCcntWrite _ _ _ _ | .post _ | .crystalGood
  | .crystalTrip | .droopCrossing _ _ _ | .droopRelease _ _ _ | .peripheralGate _ _ | .coldReset _ _ | .warmReset _ _
  | .layerReset _ _ | .layerDrainEnd | .layerResetRelease | .regionReset _ _ | .coreReset _ _ | .coreResetComplete _
  | .resetNAssert | .resetNRelease | .alwaysOnReady | .hostBootTimeout | .swarmSend _ _ | .swarmTally _ _
  | .swarmDigestCheck _ _ | .chunkPacketReceived _ _ _ | .rgnSwarmSecWrite _ _ _ | .learnedListWrite _
  | .feedOutOfRange _ _ | .feedReconnect _ _ | .feedIntegrityCheck _ _ _ _ | .verticalSupplyCheck _ _ _
  | .baselineCapture _ _ | .phaseFail _ _ | .sleepCompute _ _ _ | .sleepComb0 _ _ _ | .sleepComb1 _ _ _
  | .headroomRecheck _ _ | .headroomTimeout _ | .rampEnd _ _ | .standbyEntry | .standbyExit | .thmTempRead _ _
  | .conversionComplete _ _ | .comparatorTrip _ _ | .comparatorRelease _ _ | .throttleStepRaise _
  | .throttleStepFall _ _ | .thermalShutdown _ _ | .thermalRestart | .thermalRelease _ _ | .wearSave | .token _ _ _
  | .debugLock _ _ | .debugLevelSet _ _ | .freezeRequest _ | .freezeClockStop | .measurementExtend _ _
  | .entropyRestart _ _ _ | .entropyHealthFail | .entropyBlockRead _ | .nonce _ _ | .attest _ _ _ | .logRead _ _ _
  | .fwCommit _ _ _ | .fwUpdateTimeout | .enrol _ _ _ _ | .returnDevice _ _ | .cfgWrite _ _ _ _ _
  | .controlWarmReset _ | .controlColdReset _ | .controlEnterStandby _ | .controlLeaveStandby _
  | .controlThermalRelease _ | .controlRecaptureBaselines _ | .controlFullTraining _ | .fragmentTimeout
  | .redfishRequest _ _ | .mpWatchdogExpiry | .logCopy _ | .logSelect _ _ | .stepIntClear _ _
  | .backgroundWorkDropped _ | .commitGate _ _ _ | .recoverComplete _ | .lossOfSignal _
  | .managementFrameFragment _ _ | .effectiveLimitEnforcement _ _ => true

end Sys2Proof
end

