-- ==== Sys2Proof/Tests/Slice0.lean ====
section
/-! SUPPORT. Tests of the model: the smoke of WellFormed, and for the statements states and operands that meet their hypotheses. Expected
values are worked out from the rules named. -/
namespace Sys2Proof.Tests
open Sys2Proof Sys2Proof.Machine

set_option Elab.async false

/-! ### Helpers -/

/-- Runs a command and asks something of the next state. -/
def runs (x : Instr) (s : State) (f : State → Bool) : Bool := match exec x s with | .next t => f t | _ => false

/-- A device at work: power on, clocks running, start-up ended, hosts released. -/
def on : State :=
  { pwr := { st := .on }
    boot := { ready := true, step := 9, hostHeld := false, everReady := true }
    pins := { alwaysOn := true, pwrGood := true } }

/-- The device at work with one core. -/
def withCore (c : Nat) (k : Core) : State := { on with cores := [(c, k)] }

/-- A core that runs with one control word at offset 0 and zeros behind it. -/
def coreAt0 (b : BitVec 128) : Core := { st := .run, validA := true, bankA := memWrite {} 0 16 b.toNat }

/-- A core that runs with a control word at offset 0 and a HALT behind it. -/
def coreTwo (b : BitVec 128) : Core :=
  { st := .run, validA := true, bankA := memWrite {} 0 32 (b.toNat + (shortBits 0x73 7 {}).toNat * 2 ^ 128) }

/-- A long word that reads and writes no page. -/
def plainLong : LongWord :=
  { tag := 0, flags := 0, rdaFirst := 0, rdaCount := 0, rdbFirst := 0, rdbCount := 0, wrFirst := 0, wrCount := 0, desc := 0, ka := 0, kb := 0
    low := 0 }

/-- A thread word of registers 1, 2, 3 without predicate. -/
def plainThread : ThreadWord := { dst := 1, a := 2, b := 3, c := 0, p := 0, n := false, m := 0 }

/-! ### WellFormed: what each check refuses -/

theorem test_wf_accepts_addk : wellFormed (.addk 0 1 2 3 false 0) = true := by decide +kernel
theorem test_wf_refuses_undefined_condition : wellFormed (.bc 0 1 2 6 false 0 0) = false := by decide +kernel
theorem test_wf_refuses_pages_above_95 :
    wellFormed (.move 0 { plainLong with rdaFirst := 95, rdaCount := 2 }) = false := by decide +kernel
theorem test_wf_refuses_operation_of_another_form : wellFormed (.flushKeep 0 { plainLong with low := 2 ^ 44 }) = false := by decide +kernel
theorem test_wf_accepts_flush_invalidate : wellFormed (.flushInvalidate 0 { plainLong with low := 2 ^ 44 }) = true := by decide +kernel
theorem test_wf_refuses_odd_pair : wellFormed (.iadd64 0 0 { plainThread with dst := 1 }) = false := by decide +kernel
theorem test_wf_refuses_increment_of_17_bits : wellFormed (.coreArriveWrite .mp 0 0 0 [65536]) = false := by decide +kernel
theorem test_wf_refuses_size_3 : wellFormed (.registerWrite .mp 3 0 (some 0)) = false := by decide +kernel
theorem test_wf_refuses_misaligned_atomic_lane :
    wellFormed (.atomicApply { agent := 0, master := 0, cls := 0 } 0 0 4 [{ off := 2, val := 1 }]) = false := by decide +kernel
theorem test_wf_refuses_slot_twice :
    wellFormed (.reduceContribution { agent := 0, master := 0, cls := 0 } 0 0 0 [(1, 0), (1, 0)]) = false := by decide +kernel
theorem test_wf_refuses_exact_slot_16 :
    wellFormed (.exactContribution { agent := 0, master := 0, cls := 0 } 0 0 0 [(16, 0)]) = false := by decide +kernel
theorem test_wf_refuses_short_frame : wellFormed (.managementPortFrame (List.replicate 13 0)) = false := by decide +kernel
theorem test_wf_refuses_phase_named_twice : wellFormed (.startUp { phases := [3, 3] }) = false := by decide +kernel
theorem test_wf_refuses_removal_of_kind_8 : wellFormed (.cadRemove { src := .port, id := 0, nonce := 0, sig := [] } [(8, 0, 0)]) = false := by
  decide +kernel
theorem test_wf_refuses_byte_upset_twice :
    wellFormed (.combRead { agent := 0, master := 0, cls := 0 } 0 [⟨1, 1⟩, ⟨1, 2⟩]) = false := by decide +kernel

theorem test_wf_refuses_payload_of_4097_bytes :
    wellFormed (.packetForward 0 false { dst := 1, src := 2, typ := 0, payload := List.replicate 4097 0 }) = false := by decide +kernel
theorem test_wf_refuses_request_above_4096_fragments :
    wellFormed (.fwBegin .port 0 (List.replicate 1 0) true) = true ∧ requestOk (4096 * 1408 + 1) = false := by decide +kernel
theorem test_wf_refuses_domain_twice : wellFormed (.currentSample [(4, 1), (4, 2)]) = false := by decide +kernel
theorem test_wf_refuses_phase_read_twice : wellFormed (.regulatorHealthCheck [(4, 1, 0), (4, 2, 0)]) = false := by decide +kernel
theorem test_wf_refuses_core_named_twice : wellFormed (.programLoad { image := [], map := [5, 5] }) = false := by decide +kernel
theorem test_wf_refuses_footprint_twice :
    wellFormed (.thermalCrossCheck [⟨1, 0, 0, 0⟩, ⟨1, 1, 1, 1⟩]) = false := by decide +kernel

/-! ### The control stream -/

theorem test_step_takes_the_front :
    (match step { withCore 0 (coreAt0 (shortBits 0x73 7 {})) with pending := [.halt 0, .b 0 0] } with
      | .next t => decide (t.pending = [.b 0 0] ∧ (getCore t 0).stall = .halt)
      | _ => false) = true := by decide +kernel

/-- ADDK of the largest value and 1 wraps to zero; ADDK into k0 writes nothing. -/
theorem test_addk_wraps :
    let w : ShortWord := { flag := true, kd := 31, ka := 30, imm := 1 }
    let s := withCore 1199 { coreTwo (shortBits 0x01 0 w) with k := [(30, BitVec.allOnes 64)] }
    atWord s 1199 (shortBits 0x01 0 w) = true
      ∧ runs (.addk 1199 31 30 0 true 1) s (fun t => kGet (getCore t 1199) 31 == 0 && (getCore t 1199).pc == 16) = true := by decide +kernel
theorem test_addk_discards_k0 :
    let w : ShortWord := { flag := true, kd := 0, ka := 30, imm := 1 }
    let s := withCore 3 (coreTwo (shortBits 0x01 0 w))
    atWord s 3 (shortBits 0x01 0 w) = true
      ∧ runs (.addk 3 0 30 0 true 1) s (fun t => kGet (getCore t 3) 0 == 0 && !(getCore t 3).faulting) = true := by decide +kernel
theorem test_subk_of_registers :
    let w : ShortWord := { flag := false, kd := 1, ka := 2, kb := 3 }
    let s := withCore 0 { coreTwo (shortBits 0x02 0 w) with k := [(2, 5), (3, 7)] }
    atWord s 0 (shortBits 0x02 0 w) = true
      ∧ runs (.subk 0 1 2 3 false 0) s (fun t => kGet (getCore t 0) 1 == 0xFFFFFFFFFFFFFFFE) = true := by decide +kernel

/-- A branch by -1 word from offset 0 goes to the last word of the bank; -1 is signed below 0 and no smaller unsigned. -/
theorem test_b_goes_back :
    let w : ShortWord := { imm := 0xFFFF }
    let s := withCore 0 (coreAt0 (shortBits 0x05 0 w))
    atWord s 0 (shortBits 0x05 0 w) = true ∧ runs (.b 0 0xFFFF) s (fun t => (getCore t 0).pc == 0x7FF0) = true := by decide +kernel
theorem test_bc_signed_below_is_taken :
    let w : ShortWord := { flag := true, ka := 1, cond := 2, imm := 3 }
    let s := withCore 0 { coreAt0 (shortBits 0x06 0 w) with k := [(1, BitVec.allOnes 64)] }
    atWord s 0 (shortBits 0x06 0 w) = true ∧ runs (.bc 0 1 0 2 true 0 3) s (fun t => (getCore t 0).pc == 48) = true := by decide +kernel
theorem test_bc_unsigned_at_least_immediate_minus_one :
    let w : ShortWord := { flag := true, ka := 1, cond := 5, imm := (0xFFFFFFFFFFFF : BitVec 48) ++ (3 : BitVec 16) }
    let s := withCore 0 { coreAt0 (shortBits 0x06 0 w) with k := [(1, 5)] }
    atWord s 0 (shortBits 0x06 0 w) = true
      ∧ runs (.bc 0 1 0 5 true 0xFFFFFFFFFFFF 3) s (fun t => (getCore t 0).pc == 16) = true := by decide +kernel
theorem test_loop_leaves_at_zero :
    let w : ShortWord := { kd := 1, imm := 4 }
    let s := withCore 0 (coreAt0 (shortBits 0x07 0 w))
    atWord s 0 (shortBits 0x07 0 w) = true ∧ runs (.loop 0 1 4) s (fun t => (getCore t 0).pc == 64) = true := by decide +kernel
theorem test_loop_counts :
    let w : ShortWord := { kd := 1, imm := 4 }
    let s := withCore 0 { coreAt0 (shortBits 0x07 0 w) with k := [(1, 1)] }
    atWord s 0 (shortBits 0x07 0 w) = true
      ∧ runs (.loop 0 1 4) s (fun t => (getCore t 0).pc == 16 && kGet (getCore t 0) 1 == 0) = true := by decide +kernel

/-- Region 1: base 0x10000, length 0x1000, permissions r and w. -/
def rwRegion : BitVec 128 := BitVec.ofNat 128 (0x10000 + 0x1000 * 2 ^ 48 + 3 * 2 ^ 88)

/-- A line of the comb, clean, with no sharer. -/
def combClean (way : Nat) (d : Line) : CombLine := mkLine way d { st := .clean } none

/-- LDK of a line that the L1 holds, eight bytes at 0x10038: the last that lie in one line. -/
def ldkState (off : Word64) : State :=
  withCore 0 { coreTwo (shortBits 0x03 0 { kd := 1, ka := 2, region := 1, imm := off }) with
    regions := [(1, rwRegion)], l1 := [(0x400, BitVec.ofNat 512 (0x1122334455667788 * 2 ^ 448))] }
theorem test_ldk_misaligned :
    atWord (ldkState 4) 0 (shortBits 0x03 0 { kd := 1, ka := 2, region := 1, imm := 4 }) = true
      ∧ runs (.ldk 0 1 2 1 4) (ldkState 4) (fun t => (getCore t 0).faulting && (getCore t 0).regs.faultInfo == 0x22) = true := by decide +kernel
theorem test_ldk_above_the_region :
    atWord (ldkState 0x1000) 0 (shortBits 0x03 0 { kd := 1, ka := 2, region := 1, imm := 0x1000 }) = true
      ∧ regionCheck (getCore (ldkState 0x1000) 0) 1 permR 0x1000 8 = some 0x01
      ∧ runs (.ldk 0 1 2 1 0x1000) (ldkState 0x1000) (fun t =>
          (getCore t 0).regs.faultInfo == 0x01 && (getCore t 0).regs.faultDetail == 1) = true := by decide +kernel
theorem test_ldk_meets_a_dead_range :
    let s := modCore (ldkState 0x38) 0 fun k => { k with dead := [⟨0, 0x1003F, 1⟩] }
    atWord s 0 (shortBits 0x03 0 { kd := 1, ka := 2, region := 1, imm := 0x38 }) = true
      ∧ regionCheck (getCore s 0) 1 permR 0x38 8 = none ∧ deadHit (getCore s 0).dead 0x10038 8 = true
      ∧ runs (.ldk 0 1 2 1 0x38) s (fun t => (getCore t 0).regs.faultInfo == 0x03) = true := by decide +kernel
theorem test_ldk_reads_the_l1 :
    atWord (ldkState 0x38) 0 (shortBits 0x03 0 { kd := 1, ka := 2, region := 1, imm := 0x38 }) = true
      ∧ regionCheck (getCore (ldkState 0x38) 0) 1 permR 0x38 8 = none ∧ (l1Find (getCore (ldkState 0x38) 0) 0x400).isSome = true
      ∧ runs (.ldk 0 1 2 1 0x38) (ldkState 0x38) (fun t => kGet (getCore t 0) 1 == 0x1122334455667788) = true := by decide +kernel
/-- A cold line: the read goes to the home and from there to HBM, which nothing has written. -/
theorem test_ldk_reads_hbm :
    let s := modCore (ldkState 0x38) 0 fun k => { k with l1 := [], k := [(1, 7)] }
    (match coreReadLines 0 0 (spanLines 0x10038 8) s with | (_, .ok got) => got.length == 1 | _ => false) = true
      ∧ runs (.ldk 0 1 2 1 0x38) s (fun t => kGet (getCore t 0) 1 == 0) = true := by decide +kernel

/-- STK at 0x103C in a region based at 0x10000 - 4 + 8: its bytes stand in one line at its home. -/
def stkState (off : Word64) : State :=
  { withCore 0 { coreTwo (shortBits 0x04 0 { ka := 2, kb := 3, region := 1, imm := off }) with
      regions := [(1, rwRegion)], k := [(3, 0x1122334455667788)] } with
    comb := { on.comb with lines := [(0x400, combClean 3 0)] } }
theorem test_stk_misaligned :
    atWord (stkState 1) 0 (shortBits 0x04 0 { ka := 2, kb := 3, region := 1, imm := 1 }) = true
      ∧ runs (.stk 0 2 3 1 1) (stkState 1) (fun t => (getCore t 0).regs.faultInfo == 0x22) = true := by decide +kernel
theorem test_stk_needs_write_permission :
    let s := modCore (stkState 8) 0 fun k => { k with regions := [(1, BitVec.ofNat 128 (0x10000 + 0x1000 * 2 ^ 48 + 2 ^ 88))] }
    atWord s 0 (shortBits 0x04 0 { ka := 2, kb := 3, region := 1, imm := 8 }) = true
      ∧ regionCheck (getCore s 0) 1 permW 8 8 = some 0x02
      ∧ runs (.stk 0 2 3 1 8) s (fun t => (getCore t 0).regs.faultInfo == 0x02) = true := by decide +kernel
theorem test_stk_writes_its_bytes :
    let s := stkState 8
    atWord s 0 (shortBits 0x04 0 { ka := 2, kb := 3, region := 1, imm := 8 }) = true
      ∧ regionCheck (getCore s 0) 1 permW 8 8 = none ∧ spanLines 0x10008 8 = [0x400]
      ∧ (∃ n l, atHome s 0x400 n l)
      ∧ runs (.stk 0 2 3 1 8) s (fun t => byteAt t 0x10008 == 0x88 && byteAt t 0x1000F == 0x11 && byteAt t 0x10010 == 0) = true := by
  refine ⟨by decide +kernel, by decide +kernel, by decide +kernel, ⟨_, combClean 3 0, rfl, ⟨?_, ?_, ?_⟩, ?_, ?_, ?_⟩, ?_⟩ <;> decide +kernel

/-! ### Waiting, sending, fences, switches, long instructions and the end of a stream -/

/-- The wrap-safe difference: 2^31 - 1 counts as reached, 2^31 does not. -/
theorem test_waitc_at_the_boundary :
    let b := waitcBits 15 0 1
    let s (v : Word32) := withCore 0 { coreTwo b with arrive := [(15, v)] }
    atWord (s 0x80000000) 0 b = true
      ∧ runs (.waitc 0 15 0 1) (s 0x80000000) (fun t => (getCore t 0).pc == 16) = true
      ∧ atWord (s 0x80000001) 0 b = true
      ∧ runs (.waitc 0 15 0 1) (s 0x80000001) (fun t => (getCore t 0).stall == .waitc 15 1) = true := by decide +kernel
theorem test_sigc_to_itself_and_back :
    let b := sigcBits false 0x7FF 2 0xFFFF
    let s := withCore 0 { coreTwo b with arrive := [(2, 1)] }
    atWord s 0 b = true
      ∧ runs (.sigc 0 false 0x7FF 2 0xFFFF) s (fun t => (t.sigs.map fun x => (x.target, x.counter, x.inc, x.gen)) == [(0, 2, 0xFFFF, none)]
          && runs (.sigcArrival 0) t (fun u => ctrOf (getCore u 0) 2 == 0x10000 && u.sigs.isEmpty)) = true := by decide +kernel
theorem test_sigc_release_waits_for_flights :
    let b := sigcBits true 0x7FF 2 1
    let f : Flight := { tag := 4, eng := 1, word := 0, pc := 0, desc := 0, ka := 0, kb := 0, fpctl := 0, seed := 0, ph := .started }
    let s := withCore 0 { coreTwo b with flights := [f] }
    atWord s 0 b = true ∧ runs (.sigc 0 true 0x7FF 2 1) s (fun t => (getCore t 0).stall == .sigc 0x7FF 2 1 && t.sigs.isEmpty) = true
      ∧ runs (.sigcReleaseSend 0) (withCore 0 { coreTwo b with stall := .sigc 0x7FF 2 1 }) (fun t => t.sigs.length == 1) = true := by
  decide +kernel
theorem test_sigc_to_a_core_without_power :
    let b := sigcBits false 7 2 1
    let s := { withCore 0 { coreTwo b with xlat := [(7, 55, 3)] } with pwr := { on.pwr with fps := [(1, { compute := .off })] } }
    atWord s 0 b = true ∧ coreUp s 55 = false
      ∧ runs (.sigc 0 false 7 2 1) s (fun t => (getCore t 0).regs.faultInfo == 0x60D) = true := by decide +kernel
/-- A pulse of generation 3 finds its target in generation 4: it is dropped, marked at its sender and counted. -/
theorem test_sigc_of_another_generation_is_dropped :
    let s := { withCore 0 {} with sigs := [{ target := 55, counter := 2, inc := 1, gen := some 3, sender := 0 }] }
    coreEnd s 55 = false ∧ (some (3 : Byte) ≠ some (coreGen s 55)) ∧ siteOf s 55 = some 59
      ∧ runs (.sigcArrival 0) s (fun t => (getCore t 0).regs.cause == 0x10 && (getRgn t 1).genDrop == 1 && ctrOf (getCore t 55) 2 == 0) = true := by
  decide +kernel
theorem test_fence_waits_for_its_tags :
    let b := shortBits 0x71 7 { flag := false, imm := 0x80000000 }
    let f (tag : Nat) : Flight :=
      { tag := tag, eng := 1, word := 0, pc := 0, desc := 0, ka := 0, kb := 0, fpctl := 0, seed := 0, ph := .done }
    let s (tag : Nat) := withCore 0 { coreTwo b with flights := [f tag] }
    atWord (s 31) 0 b = true ∧ runs (.fence 0 false 0x80000000) (s 31) (fun t => (getCore t 0).stall == .fence 0x80000000 false
          && runs (.eventPulse 0 31) t (fun u => (getCore u 0).pc == 16 && (getCore u 0).flights.isEmpty)) = true
      ∧ runs (.fence 0 false 0x80000000) (s 30) (fun t => (getCore t 0).pc == 16
          && runs (.eventPulse 0 30) t (fun u => (getCore u 0).flights.isEmpty && (getCore u 0).pc == 16)) = true := by decide +kernel
theorem test_switch_swaps_valid_banks :
    let b := shortBits 0x70 7 { imm := 0x30 }
    let s := withCore 0 { coreTwo b with validB := true }
    atWord s 0 b = true ∧ runs (.switch 0 0x30) s (fun t => (getCore t 0).stall == .switch 0x30 && groupsBusy (getCore t 0) == false
        && writesBank (getCore t 0) true == false
        && runs (.switchTakesEffect 0) t (fun u => (getCore u 0).active && (getCore u 0).pc == 0x30)) = true := by decide +kernel
theorem test_switch_to_an_invalid_bank_faults :
    let s := withCore 0 { coreTwo 0 with stall := .switch 0x30 }
    standbyValid (getCore s 0) = false
      ∧ runs (.switchTakesEffect 0) s (fun t => (getCore t 0).regs.faultInfo == 0x724 && !(getCore t 0).active) = true := by decide +kernel
theorem test_trap_carries_its_code :
    let b := shortBits 0x72 7 { imm := 0xFFFF }
    let s := withCore 0 (coreTwo b)
    atWord s 0 b = true ∧ runs (.trap 0 0xFFFF) s (fun t =>
      (getCore t 0).regs.faultInfo == 0x721 && (getCore t 0).regs.faultDetail == 0xFFFF && (getCore t 0).regs.faultPc == 0) = true := by
  decide +kernel
theorem test_halt_then_halted :
    let b := shortBits 0x73 7 {}
    let s := withCore 0 (coreTwo b)
    atWord s 0 b = true ∧ runs (.halt 0) s (fun t => (getCore t 0).stall == .halt && (getCore t 0).pc == 16
      && runs (.coreEnterHalted 0) t (fun u => (getCore u 0).st == .halted && (getCore u 0).regs.cause == 2)) = true := by decide +kernel
/-- The descriptor of a MOVE, its type in the low byte. -/
def moveDescMem : ByteMem := memWrite {} 0 64 1
theorem test_move_issues :
    let b := longBits 0x10 1 { plainLong with tag := 9 }
    let s := withCore 0 { coreTwo b with descMem := moveDescMem }
    atWord s 0 b = true ∧ descFits (getCore s 0) b = true ∧ blockReason (getCore s 0) b = none
      ∧ (atIssue none (getCore s 0) (newFlight (getCore s 0) b)).2.flt = none
      ∧ runs (.move 0 { plainLong with tag := 9 }) s (fun t => ((getCore t 0).flights.map fun f => f.tag) == [9] && (getCore t 0).pc == 16) = true := by
  decide +kernel
theorem test_move_with_another_descriptor_faults :
    let b := longBits 0x10 1 { plainLong with tag := 9 }
    let s := withCore 0 (coreTwo b)
    atWord s 0 b = true ∧ descFits (getCore s 0) b = false
      ∧ runs (.move 0 { plainLong with tag := 9 }) s (fun t => (getCore t 0).regs.faultInfo == BitVec.ofNat 18 (0x0E + 0x100 + 9 * 4096 + 131072)) = true := by
  decide +kernel
/-- A word that reads k1 waits for the LDK of k1, whose line another operation holds; when the line has come, it issues. -/
theorem test_reader_waits_for_its_load :
    let b := shortBits 0x01 0 { flag := true, kd := 2, ka := 1, imm := 5 }
    let x : ScalarAcc := { pc := 0, kd := some 1, region := 1, addr := 0x10000, cls := 0, value := 0 }
    let s := withCore 0 { coreTwo b with scalarq := [x] }
    let held := { s with comb := { s.comb with slices := [((homeSlice s 0x400).getD 0, { miss := [{ line := 0x400, op := .recall 1200 true, waiters := [{ agent := 0, master := 0, cls := 0, op := .again }] }] })] } }
    let here := modCore s 0 fun k => { k with l1 := [(0x400, 9)], stall := .ldk }
    kReads b = [1] ∧ atWord s 0 b = true
      ∧ (match scalarTry 0 x held with | (t, .wait) => t.comb == held.comb && t.cores == held.cores | _ => false) = true
      ∧ runs (.addk 0 2 1 0 true 5) held (fun t => (getCore t 0).stall == .ldk && (getCore t 0).pc == 0 && (getCore t 0).scalarq.length == 1) = true
      ∧ runs (.scoreboardIssue 0) here (fun t => kGet (getCore t 0) 1 == 9 && (getCore t 0).stall == .none
          && runs (.addk 0 2 1 0 true 5) t (fun u => kGet (getCore u 0) 2 == 14)) = true := by decide +kernel
theorem test_move_stalls_at_a_busy_tag_and_issues_later :
    let b := longBits 0x10 1 { plainLong with tag := 9 }
    let f : Flight := { tag := 9, eng := 4, word := 0, pc := 0, desc := 0, ka := 0, kb := 0, fpctl := 0, seed := 0, ph := .done }
    let s := withCore 0 { coreTwo b with descMem := moveDescMem, flights := [f] }
    atWord s 0 b = true ∧ blockReason (getCore s 0) b = some 2
      ∧ runs (.move 0 { plainLong with tag := 9 }) s (fun t => (getCore t 0).stall == .issue 2
          && runs (.scoreboardIssue 0) t (fun u => (getCore u 0).stall == .issue 2)
          && runs (.eventPulse 0 9) t (fun u => (getCore u 0).flights.isEmpty && (getCore u 0).stall == .issue 2
            && runs (.scoreboardIssue 0) u (fun v => (getCore v 0).flights.length == 1 && (getCore v 0).pc == 16))) = true := by decide +kernel
theorem test_faulted_core_enters_faulted :
    let s := withCore 0 { coreTwo 0 with faulting := true }
    runs (.coreEnterFaulted 0) s (fun t => (getCore t 0).st == .faulted && (getCore t 0).regs.cause == 1 && !(getCore t 0).faulting) = true := by
  decide +kernel
theorem test_watchdog_at_a_wait :
    let s := withCore 0 { coreTwo 0 with stall := .waitc 3 1, regs := { wdog := 1 } }
    stallCode (getCore s 0) ≠ 0 ∧ runs (.watchdogExpired 0) s (fun t => (getCore t 0).faulting && (getCore t 0).regs.faultInfo.toNat % 256 == 0x20) = true := by
  decide +kernel

/-! ### Thread words -/

/-- The LAUNCH, tag 5, that claims pages 0 and 1 to read and page 2 to write. -/
def launchFlight : Flight :=
  { tag := 5, eng := 3
    word := longBits 0x30 3 { plainLong with tag := 5, rdaFirst := 0, rdaCount := 2, wrFirst := 2, wrCount := 1 }
    pc := 0x40, desc := 4, ka := 0, kb := 0, fpctl := 0, seed := 0, ph := .started }

/-- A core that runs a kernel whose group `g` stands at a word with the lanes `act`. -/
def groupCore (g opc : Nat) (w : ThreadWord) (gr : Group) : Core :=
  { st := .run, validA := true, bankA := memWrite {} 0 16 ((threadBits opc w).toNat + (threadBits 0x51 { plainThread with dst := 0, a := 0, b := 0 }).toNat * 2 ^ 64)
    flights := [launchFlight]
    tg := { groups := [(g, { gr with alive := true })], kernels := [{ tag := 5, seq := 0, entry := 0, u := [], started := 0xFFFF }] } }

/-- A group with lanes 0 and 31: v2 holds 7 and 0xFFFFFFFF, v3 holds 1 and 1. -/
def twoLanes : Group := { act := 0x80000001, v := [(64, 7), (95, 0xFFFFFFFF), (96, 1), (127, 1)] }

/-- The word whose registers every lane word takes. -/
def laneWord : ThreadWord := { plainThread with dst := 4, a := 2, b := 0 }

/-- Every word of laneWords and fpWords, and ICMP and FCMP, can stand before a group. -/
theorem test_lane_words_are_ready :
    ∀ opc ∈ laneWords.map (fun e => e.2.1) ++ fpWords.map (fun e => e.2.1) ++ [0x11, 0x27],
      (let s := withCore 0 (groupCore 15 opc laneWord twoLanes)
       atThreadWord s 0 15 (threadBits opc laneWord) && !(drainWait (getCore s 0) 15 opc laneWord)) = true := by decide +kernel
theorem test_iadd_wraps_in_a_lane :
    runs (.iadd 0 15 plainThread) (withCore 0 (groupCore 15 0x01 plainThread twoLanes)) (fun t =>
      let gr := getGroup (getCore t 0) 15
      vGet gr 1 0 == 8 && vGet gr 1 31 == 0 && vGet gr 1 1 == 0 && gr.pc == 1 && (getCore t 0).tg.issued == 1) = true := by decide +kernel
/-- A predicate keeps lane 31 as it is. -/
theorem test_isub_under_a_predicate :
    let w := { plainThread with p := 3 }
    runs (.isub 0 0 w) (withCore 0 (groupCore 0 0x02 w { twoLanes with p := [(3, 1)] })) (fun t =>
      let gr := getGroup (getCore t 0) 0
      vGet gr 1 0 == 6 && vGet gr 1 31 == 0) = true := by decide +kernel
theorem test_sra_of_minus_one :
    runs (.sra 0 0 plainThread) (withCore 0 (groupCore 0 0x0E plainThread twoLanes)) (fun t => vGet (getGroup (getCore t 0) 0) 1 31 == 0xFFFFFFFF
      && vGet (getGroup (getCore t 0) 0) 1 0 == 3) = true := by decide +kernel
theorem test_umax_and_imax_differ :
    runs (.umax 0 0 plainThread) (withCore 0 (groupCore 0 0x08 plainThread twoLanes)) (fun t => vGet (getGroup (getCore t 0) 0) 1 31 == 0xFFFFFFFF) = true
      ∧ runs (.imax 0 0 plainThread) (withCore 0 (groupCore 0 0x06 plainThread twoLanes)) (fun t => vGet (getGroup (getCore t 0) 0) 1 31 == 1) = true := by
  decide +kernel
/-- 1.5 + (-0.5) = 1; the largest number doubled overflows to infinity with overflow and inexact, and is counted. -/
theorem test_fadd :
    let g : Group := { act := 0x80000001, v := [(64, 0x3FC00000), (95, 0x7F7FFFFF), (96, 0xBF000000), (127, 0x7F7FFFFF)] }
    runs (.fadd 0 0 plainThread) (withCore 0 (groupCore 0 0x20 plainThread g)) (fun t =>
      let gr := getGroup (getCore t 0) 0
      vGet gr 1 0 == 0x3F800000 && vGet gr 1 31 == 0x7F800000) = true := by decide +kernel
/-- 1/0 is infinity; 0/0 is the NaN 0x7FC00000. -/
theorem test_fdiv_by_zero :
    let g : Group := { act := 0x80000001, v := [(64, 0x3F800000)] }
    runs (.fdiv 0 0 plainThread) (withCore 0 (groupCore 0 0x28 plainThread g)) (fun t =>
      let gr := getGroup (getCore t 0) 0
      vGet gr 1 0 == 0x7F800000 && vGet gr 1 31 == 0x7FC00000) = true := by decide +kernel
/-- sqrt 4 = 2; sqrt of -1 is invalid. -/
theorem test_fsqrt :
    let g : Group := { act := 0x80000001, v := [(64, 0x40800000), (95, 0xBF800000)] }
    runs (.fsqrt 0 0 laneWord) (withCore 0 (groupCore 0 0x29 laneWord g)) (fun t =>
      let gr := getGroup (getCore t 0) 0
      vGet gr 4 0 == 0x40000000 && vGet gr 4 31 == 0x7FC00000) = true := by decide +kernel
theorem test_icmp_signed_below :
    let w := { plainThread with dst := 7, m := BitVec.ofNat 28 (2 * 2 ^ 19) }
    let s := withCore 0 (groupCore 0 0x11 w twoLanes)
    atThreadWord s 0 0 (threadBits 0x11 w) = true
      ∧ runs (.icmp 0 0 w) s (fun t => pGet (getGroup (getCore t 0) 0) 7 == 0x80000000) = true := by decide +kernel
/-- -0 equals +0, and a NaN compares unordered. -/
theorem test_fcmp_equal_zeros :
    let g : Group := { act := 0x80000001, v := [(64, 0x80000000), (95, 0x7FC00000)] }
    runs (.fcmp 0 0 { plainThread with dst := 1 }) (withCore 0 (groupCore 0 0x27 { plainThread with dst := 1 } g)) (fun t =>
      pGet (getGroup (getCore t 0) 0) 1 == 1) = true := by decide +kernel
/-- The pair 0x00000000FFFFFFFF plus the immediate 1, and minus 1. -/
theorem test_iadd64_carries :
    let w : ThreadWord := { plainThread with dst := 4, a := 2, b := 0, m := BitVec.ofNat 28 (2 ^ 27 + 1) }
    let s := withCore 0 (groupCore 0 0x12 w { act := 1, v := [(64, 0xFFFFFFFF)] })
    atThreadWord s 0 0 (threadBits 0x12 w) = true
      ∧ runs (.iadd64 0 0 w) s (fun t => vPair (getGroup (getCore t 0) 0) 4 0 == 0x100000000) = true := by decide +kernel
theorem test_wru_takes_the_lowest_active_lane :
    let w : ThreadWord := { plainThread with dst := 15, a := 2, b := 0 }
    let s := withCore 0 (groupCore 0 0x3A w { act := 0x80000000, v := [(95, 9)] })
    atThreadWord s 0 0 (threadBits 0x3A w) = true
      ∧ runs (.wru 0 0 w) s (fun t => uGet (getGroup (getCore t 0) 0) 15 == 9) = true := by decide +kernel
/-- FP32 3.0 to BF16 is 0x4040. -/
theorem test_cvt_to_bf16 :
    let w : ThreadWord := { plainThread with dst := 4, a := 2, b := 0, m := BitVec.ofNat 28 (1 * 2 ^ 12 + 0 * 2 ^ 8) }
    let s := withCore 0 (groupCore 0 0x30 w { act := 1, v := [(64, 0x40400000)] })
    atThreadWord s 0 0 (threadBits 0x30 w) = true
      ∧ runs (.cvt 0 0 w) s (fun t => vGet (getGroup (getCore t 0) 0) 4 0 == 0x4040) = true := by decide +kernel
/-- A NaN in a group of CVT.MX: scale 0xFF and zero elements. -/
theorem test_cvt_mx_of_a_nan :
    let w : ThreadWord := { plainThread with dst := 4, a := 2, b := 0, c := 5, m := BitVec.ofNat 28 (2 * 2 ^ 12) }
    let s := withCore 0 (groupCore 0 0x31 w { act := 3, v := [(64, 0x40400000), (65, 0x7FC00000), (128, 1)] })
    atThreadWord s 0 0 (threadBits 0x31 w) = true ∧ execLanes (getGroup (getCore s 0) 0) w ≠ 0
      ∧ runs (.cvtMx 0 0 w) s (fun t => uGet (getGroup (getCore t 0) 0) 5 == 0xFF && vGet (getGroup (getCore t 0) 0) 4 0 == 0) = true := by decide +kernel

/-! ### Memory words of a kernel -/

/-- Width 4 and region 1. -/
def memMod (off : Nat) : BitVec 28 := BitVec.ofNat 28 (1 * 2 ^ 22 + 2 * 2 ^ 19 + off)
/-- LD and ATOM and ST of lanes 0 and 31 at offsets 7 and 0xFFFFFFFF: both fail. -/
theorem test_ld_misaligned_lane :
    let w : ThreadWord := { plainThread with dst := 4, a := 2, b := 0, m := memMod 0 }
    let s := withCore 0 { groupCore 0 0x40 w twoLanes with regions := [(1, rwRegion)] }
    atThreadWord s 0 0 (threadBits 0x40 w) = true
      ∧ laneChecks (getCore s 0) (getGroup (getCore s 0) 0) w permR (lanesIn (execLanes (getGroup (getCore s 0) 0) w)) = some (0, 0x28)
      ∧ runs (.ld 0 0 w) s (fun t => (getCore t 0).faulting && (getCore t 0).regs.faultInfo == BitVec.ofNat 18 (0x328 + 5 * 4096 + 131072)
          && (getCore t 0).regs.faultPc == 0x40) = true := by decide +kernel
theorem test_st_outside_its_region :
    let w : ThreadWord := { plainThread with dst := 0, a := 2, b := 4, m := memMod 0 }
    let s := withCore 0 { groupCore 0 0x41 w { act := 4, v := [(66, 0x1000)] } with regions := [(1, rwRegion)] }
    atThreadWord s 0 0 (threadBits 0x41 w) = true
      ∧ laneChecks (getCore s 0) (getGroup (getCore s 0) 0) w permW (lanesIn (execLanes (getGroup (getCore s 0) 0) w)) = some (2, 0x01)
      ∧ runs (.st 0 0 w) s (fun t => (getCore t 0).regs.faultDetail == 1 && (getCore t 0).tg.fault == BitVec.ofNat 23 (2 ^ 22 + 2 * 2 ^ 17)) = true := by
  decide +kernel
theorem test_atom_needs_permission_a :
    let w : ThreadWord := { plainThread with dst := 4, a := 2, b := 6, c := 0, m := memMod 0 }
    let s := withCore 0 { groupCore 0 0x44 w { act := 1, v := [(64, 8)] } with regions := [(1, rwRegion)] }
    atThreadWord s 0 0 (threadBits 0x44 w) = true
      ∧ laneChecks (getCore s 0) (getGroup (getCore s 0) 0) w permA (lanesIn (execLanes (getGroup (getCore s 0) 0) w)) = some (0, 0x02)
      ∧ runs (.atom 0 0 w) s (fun t => (getCore t 0).regs.faultInfo.toNat % 256 == 2) = true := by decide +kernel
/-- Page 2 is claimed to write only: LDT there faults, STT writes; page 1 is claimed to read only. -/
theorem test_tile_claims :
    let w : ThreadWord := { plainThread with dst := 4, a := 2, b := 0, m := BitVec.ofNat 28 (2 * 2 ^ 19) }
    let v : ThreadWord := { plainThread with dst := 0, a := 2, b := 4, m := BitVec.ofNat 28 (2 * 2 ^ 19) }
    let s (o : Word32) := withCore 0 { groupCore 0 0x42 w { act := 1, v := [(64, o)] } with tile := memWrite {} 0x1FFC 4 0x11223344 }
    let u (o : Word32) := withCore 0 (groupCore 0 0x43 v { act := 1, v := [(64, o), (128, 0x55667788)] })
    atThreadWord (s 0x2000) 0 0 (threadBits 0x42 w) = true
      ∧ tileChecks (getCore (s 0x2000) 0) 0 (getGroup (getCore (s 0x2000) 0) 0) w false [0] = some (0, 0x23)
      ∧ runs (.ldt 0 0 w) (s 0x2000) (fun t => (getCore t 0).regs.faultInfo.toNat % 256 == 0x23) = true
      ∧ tileChecks (getCore (s 0x1FFC) 0) 0 (getGroup (getCore (s 0x1FFC) 0) 0) w false [0] = none
      ∧ runs (.ldt 0 0 w) (s 0x1FFC) (fun t => vGet (getGroup (getCore t 0) 0) 4 0 == 0x11223344) = true
      ∧ atThreadWord (u 0x2000) 0 0 (threadBits 0x43 v) = true
      ∧ tileChecks (getCore (u 0x1FFC) 0) 0 (getGroup (getCore (u 0x1FFC) 0) 0) v true [0] = some (0, 0x23)
      ∧ runs (.stt 0 0 v) (u 0x1FFC) (fun t => (getCore t 0).regs.faultInfo.toNat % 256 == 0x23) = true
      ∧ memWf (getCore (u 0x2000) 0).tile = true
      ∧ runs (.stt 0 0 v) (u 0x2000) (fun t => memRead (getCore t 0).tile 0x2000 4 == 0x55667788) = true := by decide +kernel
/-- A load through the L1 in lane 0, of the last word of a line. -/
theorem test_ld_reads_its_block :
    let w : ThreadWord := { plainThread with dst := 4, a := 2, b := 0, m := memMod 0 }
    let s := withCore 0 { groupCore 0 0x40 w { act := 1, v := [(64, 0x3C)] } with
      regions := [(1, rwRegion)], l1 := [(0x400, BitVec.ofNat 512 (0x11223344 * 2 ^ 480))] }
    atThreadWord s 0 0 (threadBits 0x40 w) = true ∧ w.m.getLsbD 18 = false
      ∧ laneChecks (getCore s 0) (getGroup (getCore s 0) 0) w permR [0] = none
      ∧ (match readEach 0 0 [0x400] s with | (_, some [(0x400, .ok _)]) => true | _ => false) = true
      ∧ runs (.ld 0 0 w) s (fun t => vGet (getGroup (getCore t 0) 0) 4 0 == 0x11223344) = true := by decide +kernel
/-- Lanes 0 and 1 store to one word: the higher lane's value remains. -/
theorem test_st_highest_lane_remains :
    let w : ThreadWord := { plainThread with dst := 0, a := 2, b := 4, m := memMod 0 }
    let s := { withCore 0 { groupCore 0 0x41 w { act := 3, v := [(64, 8), (65, 8), (128, 0x11111111), (129, 0x22222222)] } with
        regions := [(1, rwRegion)] } with comb := { on.comb with lines := [(0x400, combClean 3 0)] } }
    atThreadWord s 0 0 (threadBits 0x41 w) = true
      ∧ laneChecks (getCore s 0) (getGroup (getCore s 0) 0) w permW [0, 1] = none
      ∧ laneLines (laneAddr (getCore s 0) (getGroup (getCore s 0) 0) w) 4 [0, 1] = [0x400] ∧ (∃ n l, atHome s 0x400 n l)
      ∧ runs (.st 0 0 w) s (fun t => byteAt t 0x10008 == 0x22 && byteAt t 0x1000C == 0) = true := by
  refine ⟨by decide +kernel, by decide +kernel, by decide +kernel, ⟨_, combClean 3 0, rfl, ⟨?_, ?_, ?_⟩, ?_, ?_, ?_⟩, ?_⟩ <;> decide +kernel
/-- Compare and swap at the last word of a line: the old value equals the compare value. -/
theorem test_atom_compare_and_swap :
    let w : ThreadWord := { plainThread with dst := 4, a := 2, b := 6, c := 9, m := memMod 0 }
    let s := { withCore 0 { groupCore 0 0x44 w { act := 1, v := [(64, 0x3C), (128, 5), (192, 6)] } with
        regions := [(1, BitVec.ofNat 128 (0x10000 + 0x1000 * 2 ^ 48 + 11 * 2 ^ 88))] } with
      comb := { on.comb with lines := [(0x400, combClean 3 (BitVec.ofNat 512 (5 * 2 ^ 480)))] } }
    atThreadWord s 0 0 (threadBits 0x44 w) = true
      ∧ laneChecks (getCore s 0) (getGroup (getCore s 0) 0) w permA [0] = none
      ∧ (∃ n, atHome s 0x400 n (combClean 3 (BitVec.ofNat 512 (5 * 2 ^ 480))))
      ∧ runs (.atom 0 0 w) s (fun t => byteAt t 0x1003C == 6 && vGet (getGroup (getCore t 0) 0) 4 0 == 5) = true := by
  refine ⟨by decide +kernel, by decide +kernel, ⟨_, rfl, ⟨?_, ?_, ?_⟩, ?_, ?_, ?_⟩, ?_⟩ <;> decide +kernel
/-- CPYA of 64 bytes into page 2 goes in flight; when it lands, counter 3 counts. -/
theorem test_cpya_goes_and_lands :
    let w : ThreadWord := { plainThread with dst := 4, a := 2, b := 6, c := 0, m := BitVec.ofNat 28 (1 * 2 ^ 22 + 3 * 2 ^ 18) }
    let s := withCore 0 { groupCore 0 0x45 w { act := 1, u := [(4, 0x2000), (6, 64)] } with
      regions := [(1, rwRegion)], l1 := [(0x400, 0x77)] }
    atThreadWord s 0 0 (threadBits 0x45 w) = true ∧ regionCheck (getCore s 0) 1 permR 0 64 = none
      ∧ launchOf (getCore s 0) 0 = some launchFlight ∧ inWriteSet launchFlight.word 0x2000 64 = true
      ∧ runs (.cpya 0 0 w) s (fun t => (getCore t 0).tg.copies.length == 1
        && runs (.cpyaComplete 0 0) t (fun u => memGet (getCore u 0).tile 0x2000 == 0x77 && ctrOf (getCore u 0) 3 == 1)) = true := by decide +kernel
theorem test_cpya_outside_its_region :
    let w : ThreadWord := { plainThread with dst := 4, a := 2, b := 6, c := 0, m := BitVec.ofNat 28 (1 * 2 ^ 22) }
    let s := withCore 0 { groupCore 0 0x45 w { act := 1, u := [(2, 0xFC1), (4, 0x2000), (6, 64)] } with regions := [(1, rwRegion)] }
    atThreadWord s 0 0 (threadBits 0x45 w) = true ∧ regionCheck (getCore s 0) 1 permR 0xFC1 64 = some 1
      ∧ runs (.cpya 0 0 w) s (fun t => (getCore t 0).regs.faultInfo.toNat % 256 == 1) = true := by decide +kernel
theorem test_kernel_fence_goes_on :
    let w : ThreadWord := { plainThread with dst := 0, a := 0, b := 0, m := 3 }
    let s := withCore 0 (groupCore 0 0x46 w { act := 1 })
    atThreadWord s 0 0 (threadBits 0x46 w) = true ∧ runs (.kernelFence 0 0 w) s (fun t => (getGroup (getCore t 0) 0).pc == 1) = true := by
  decide +kernel
theorem test_kernel_waitc_at_the_boundary :
    let w : ThreadWord := { plainThread with dst := 0, a := 2, b := 0, m := BitVec.ofNat 28 (15 * 2 ^ 24 + 1) }
    let s (v : Word32) := withCore 0 { groupCore 0 0x54 w { act := 1 } with arrive := [(15, v)] }
    atThreadWord (s 1) 0 0 (threadBits 0x54 w) = true
      ∧ runs (.kernelWaitc 0 0 w) (s 1) (fun t => (getGroup (getCore t 0) 0).pc == 1) = true
      ∧ runs (.kernelWaitc 0 0 w) (s 0) (fun t => (getGroup (getCore t 0) 0).wait == .waitc 15 1) = true := by decide +kernel
theorem test_kernel_sigc_adds :
    let w : ThreadWord := { plainThread with dst := 0, a := 0, b := 0, m := BitVec.ofNat 28 (15 * 2 ^ 24 + 2 ^ 23 + 0xFFFF) }
    let s := withCore 0 (groupCore 0 0x55 w { act := 1 })
    atThreadWord s 0 0 (threadBits 0x55 w) = true ∧ coreEnd s 0 = false
      ∧ runs (.kernelSigc 0 0 w) s (fun t => ctrOf (getCore t 0) 15 == 0xFFFF) = true := by decide +kernel

/-! ### Divergence, barriers, exits, kernels -/

/-- BRX to word 8, joining at word 12. -/
def brxWord : ThreadWord := { plainThread with dst := 0, a := 0, b := 0, p := 1, m := BitVec.ofNat 28 (8 * 2 ^ 12 + 12) }
theorem test_brx_divides :
    let s := withCore 0 (groupCore 0 0x50 brxWord { act := 3, p := [(1, 1)] })
    atThreadWord s 0 0 (threadBits 0x50 brxWord) = true
      ∧ runs (.brx 0 0 brxWord) s (fun t =>
          let gr := getGroup (getCore t 0) 0
          gr.pc == 8 && gr.act == 1 && gr.stack == [(2, 1), (3, 12)]) = true := by decide +kernel
theorem test_brx_above_16_entries :
    let s := withCore 0 (groupCore 0 0x50 brxWord { act := 3, p := [(1, 1)], stack := List.replicate 15 (3, 0) })
    atThreadWord s 0 0 (threadBits 0x50 brxWord) = true
      ∧ runs (.brx 0 0 brxWord) s (fun t => (getCore t 0).regs.faultInfo.toNat % 256 == 0x26) = true
      ∧ runs (.brx 0 0 brxWord) (withCore 0 (groupCore 0 0x50 brxWord { act := 3, p := [(1, 3)], stack := List.replicate 15 (3, 0) })) (fun t =>
          (getGroup (getCore t 0) 0).stack.length == 16) = true := by decide +kernel
theorem test_join_skips_empty_entries :
    let w : ThreadWord := { plainThread with dst := 0, a := 0, b := 0 }
    let s := withCore 0 (groupCore 0 0x51 w { act := 1, stack := [(0, 5), (2, 1), (3, 12)] })
    atThreadWord s 0 0 (threadBits 0x51 w) = true
      ∧ runs (.join 0 0 w) s (fun t => (getGroup (getCore t 0) 0).act == 2 && (getGroup (getCore t 0) 0).pc == 1
          && (getGroup (getCore t 0) 0).stack == [(3, 12)]) = true
      ∧ runs (.join 0 0 w) (withCore 0 (groupCore 0 0x51 w { act := 1, stack := [(0, 5)] })) (fun t =>
          (getCore t 0).regs.faultInfo.toNat % 256 == 0x27) = true := by decide +kernel
theorem test_jmp :
    let w : ThreadWord := { plainThread with dst := 0, a := 0, b := 0, m := BitVec.ofNat 28 (4095 * 2 ^ 12) }
    let s := withCore 0 (groupCore 0 0x52 w { act := 1 })
    atThreadWord s 0 0 (threadBits 0x52 w) = true ∧ runs (.jmp 0 0 w) s (fun t => (getGroup (getCore t 0) 0).pc == 4095) = true := by decide +kernel
/-- Barrier 7: one path parks, then the last path completes it. -/
theorem test_bar_parks_and_completes :
    let w : ThreadWord := { plainThread with dst := 0, a := 0, b := 0, m := 7 }
    let s := withCore 0 (groupCore 0 0x53 w { act := 1, stack := [(0xFFFFFFFE, 9)] })
    let u := withCore 0 (groupCore 0 0x53 w { act := 0xFFFFFFF0, exited := 0xE, arrive := [(7, 1)], parked := [(7, 1, 1)] })
    atThreadWord s 0 0 (threadBits 0x53 w) = true
      ∧ runs (.bar 0 0 w) s (fun t =>
          let gr := getGroup (getCore t 0) 0
          gr.pc == 9 && gr.act == 0xFFFFFFFE && gr.parked == [(7, 1, 1)] && gr.arrive == [(7, 1)]) = true
      ∧ atThreadWord u 0 0 (threadBits 0x53 w) = true
      ∧ runs (.bar 0 0 w) u (fun t =>
          let gr := getGroup (getCore t 0) 0
          gr.pc == 1 && gr.stack == [(1, 1)] && gr.parked.isEmpty) = true := by decide +kernel
/-- Barrier 7 with lanes parked at barrier 2 and no path left (R170). -/
theorem test_bar_blocks_every_lane :
    let w : ThreadWord := { plainThread with dst := 0, a := 0, b := 0, m := 7 }
    let s := withCore 0 (groupCore 0 0x53 w { act := 1, stack := [(0, 9)], parked := [(2, 8, 3)] })
    atThreadWord s 0 0 (threadBits 0x53 w) = true
      ∧ runs (.bar 0 0 w) s (fun t => (getCore t 0).regs.faultInfo.toNat % 256 == 7 && (getCore t 0).regs.faultDetail == 0x84 && (getCore t 0).faulting) = true := by
  decide +kernel
theorem test_exit_of_some_lanes_and_of_the_last :
    let w : ThreadWord := { plainThread with dst := 0, a := 0, b := 0, p := 1 }
    let s := withCore 0 (groupCore 0 0x56 w { act := 3, p := [(1, 1)], stack := [(3, 5)] })
    let u := withCore 0 (groupCore 0 0x56 w { act := 1, p := [(1, 1)], exited := 0xFFFFFFFE })
    atThreadWord s 0 0 (threadBits 0x56 w) = true
      ∧ runs (.exit 0 0 w) s (fun t => (getGroup (getCore t 0) 0).act == 2 && (getGroup (getCore t 0) 0).stack == [(2, 5)]) = true
      ∧ atThreadWord u 0 0 (threadBits 0x56 w) = true ∧ drainPending (getCore u 0) 0 = false
      ∧ runs (.exit 0 0 w) u (fun t => !((getGroup (getCore t 0) 0).alive) && ((getCore t 0).tg.kernels.map fun x => x.exited) == [1]) = true := by
  decide +kernel
theorem test_group_starts :
    let s := withCore 0 { st := .run, tg := { kernels := [{ tag := 5, seq := 2, entry := 7, u := List.replicate 14 3 }] } }
    runs (.kernelGroupStart 0 15) s (fun t =>
      let gr := getGroup (getCore t 0) 15
      gr.alive && gr.pc == 7 && vGet gr 0 31 == 31 && uGet gr 13 == 3 && uGet gr 14 == 15 && gr.act == 0xFFFFFFFF) = true := by decide +kernel
theorem test_kernel_completes :
    let s := withCore 0 { st := .run, flights := [launchFlight], tg := { kernels := [{ tag := 5, seq := 2, entry := 7, u := [], exited := 0xFFFF }] } }
    runs (.kernelComplete 0) s (fun t => (getCore t 0).tg.kernels.isEmpty && ((getCore t 0).flights.map fun f => f.ph) == [.done]
      && runs (.eventPulse 0 5) t (fun u => (getCore u 0).flights.isEmpty)) = true := by decide +kernel

/-! ### Control space -/

/-- The outcomes of an access, in the order of R27, at a core's block and at the entropy block. -/
theorem test_access_outcomes :
    runs (.coreFpctlWrite .mp 0 1) { on with pins := {} } (fun t => t.answers == [.error 0x0D]) = true
      ∧ runs (.coreFpctlWrite .mp 0 1) { on with rst := { on.rst with layerOp := some { layer := 3, force := false, phase := .hold } } } (fun t => t.answers == [.error 0x0A]) = true
      ∧ runs (.entropyBlockRead .mp) { on with clk := { on.clk with periphEn := 0x37 } } (fun t => t.answers == [.value 0]) = true
      ∧ runs (.coreFpctlWrite .mp 0 1) { on with clk := { on.clk with stopped := true } } (fun t => t.answers == []) = true
      ∧ runs (.coreFpctlWrite .debug 0 1) { on with sec := { on.sec with level := 1 } } (fun t => t.answers == [.busError]) = true
      ∧ runs (.coreFpctlWrite .debug 0 1) { on with sec := { on.sec with level := 2 } } (fun t => t.answers == [.done]) = true := by decide +kernel
theorem test_access_of_another_size_or_place :
    runs (.registerWrite .mp 8 0x020000000000 (some 0)) on (fun t => t.answers == [.busError] && t.mgt.ring.isEmpty) = true
      ∧ runs (.registerWrite .mp 4 0x020000000002 none) on (fun t => t.answers == [.busError]) = true
      ∧ blockDecodes 9 0 0 = false
      ∧ runs (.registerWrite .mp 4 0x020090000000 (some 0)) on (fun t => t.answers == [.busError] && (t.mgt.ring.map fun e => e.code) == [0x10F]) = true := by
  decide +kernel
/-- The hypothesis that the register statements share: the access is performed. -/
theorem test_core_is_reached : coreReached .mp 1199 on ∧ coreReached (.host 0) 0 on :=
  ⟨⟨1291, by decide +kernel, by unfold performed; decide +kernel⟩, ⟨0, by decide +kernel, by unfold performed; decide +kernel⟩⟩
theorem test_core_without_site : siteOf { on with boot := { on.boot with badSites := [0, 1, 2, 3, 4] } } 49 = none
    ∧ runs (.coreFpctlWrite .mp 49 1) { on with boot := { on.boot with badSites := [0, 1, 2, 3, 4] } } (fun t => t.answers == [.error 0x0D]) = true := by
  decide +kernel
theorem test_start_from_loaded_swaps :
    runs (.coreStart .mp 0 0x7FF1) (withCore 0 { st := .loaded, validB := true }) (fun t =>
      (getCore t 0).st == .run && (getCore t 0).active && (getCore t 0).pc == 0x7FF0) = true := by decide +kernel
theorem test_start_from_halted_goes_on :
    runs (.coreStart .mp 0 0x33) (withCore 0 { coreTwo 0 with st := .halted, pc := 16 }) (fun t =>
      (getCore t 0).st == .run && (getCore t 0).pc == 16 && !(getCore t 0).haltReq) = true := by decide +kernel
theorem test_halt_request_in_run_only :
    runs (.coreHaltRequest .mp 0 2) (withCore 0 (coreTwo 0)) (fun t => (getCore t 0).haltReq) = true
      ∧ runs (.coreHaltRequest .mp 0 2) (withCore 0 {}) (fun t => !(getCore t 0).haltReq && t.answers == [.done]) = true
      ∧ runs (.coreStart .mp 0 1) (withCore 0 { st := .faulted }) (fun t => (getCore t 0).st == .faulted) = true := by decide +kernel
/-- The last word of the standby bank; the index wraps. -/
theorem test_imem_data_at_the_last_word :
    let s := withCore 0 { regs := { imemBank := true, imemWord := 0x1FFF } }
    (getCore s 0).regs.imemBank ≠ (getCore s 0).active ∧ memWf (bankMem (getCore s 0) true) = true
      ∧ runs (.coreImemDataAccess .mp 0 (some 0x11223344)) s (fun t =>
          memRead (getCore t 0).bankB 0x7FFC 4 == 0x11223344 && (getCore t 0).regs.imemWord == 0 && !(getCore t 0).validB) = true
      ∧ runs (.coreImemDataAccess .mp 0 none) s (fun t => t.answers == [.value 0]) = true := by decide +kernel
theorem test_imem_data_of_the_active_bank_is_refused :
    runs (.coreImemDataAccess .mp 0 (some 1)) (withCore 0 {}) (fun t =>
      t.answers == [.busError] && (getCore t 0).regs.cause == 8 && (t.mgt.ring.map fun e => e.code) == [8]) = true := by decide +kernel
theorem test_desc_data :
    let s := withCore 0 { regs := { descWord := 0x3FF } }
    memWf (getCore s 0).descMem = true
      ∧ runs (.coreDescDataAccess .mp 0 (some 0x01000000)) s (fun t =>
          memGet (getCore t 0).descMem 0xFFF == 1 && (getCore t 0).regs.descWord == 0) = true := by decide +kernel
theorem test_kreg_high_half_outside_run :
    let s := withCore 0 { k := [(3, 5)], regs := { kregSel := 3 } }
    runs (.coreKregAccess .mp 0 true (some 7)) s (fun t => kGet (getCore t 0) 3 == 0x700000005) = true
      ∧ runs (.coreKregAccess .mp 0 true (some 7)) (modCore s 0 fun k => { k with st := .run }) (fun t => t.answers == [.busError]) = true := by
  decide +kernel
theorem test_acc_data :
    let s := withCore 0 { arr := { accAddr := 0x3FFF } }
    runs (.coreAccDataAccess .mp 0 (some 7)) s (fun t => tblGet 0 (getCore t 0).arr.acc 0x3FFF == 7 && (getCore t 0).arr.accAddr == 0) = true := by
  decide +kernel
theorem test_arrive_write_keeps_same_cycle_arrivals :
    coreEnd on 0 = false ∧ runs (.coreArriveWrite .mp 0 15 0xFFFFFFFF [2]) on (fun t => ctrOf (getCore t 0) 15 == 1) = true := by decide +kernel
theorem test_region_table_write :
    runs (.regionTableWrite .mp 0 63 3 0xAABBCCDD) on (fun t => regionOf (getCore t 0) 63 == BitVec.ofNat 128 (0xC4DD * 2 ^ 96)) = true
      ∧ runs (.regionTableWrite .mp 0 63 3 1) (withCore 0 (coreTwo 0)) (fun t => t.answers == [.busError]) = true := by decide +kernel
theorem test_fpctl_stores_its_fields :
    runs (.coreFpctlWrite .mp 0 0xFFFFFFFF) on (fun t => (getCore t 0).regs.fpctl == 0x703) = true
      ∧ runs (.coreFpctlWrite .mp 0 0xFFFFFF4F) on (fun t => (getCore t 0).regs.fpctl == 0x743) = true := by decide +kernel
theorem test_waggle_area :
    runs (.mbxCcntWrite .mp 0 0 0x12345678) on (fun t => (getBox t 0).carea == 0x12345600) = true
      ∧ (twoEqual 0x80003210 = false ∧ inWindows (getBox on 0).carea.toNat 256 = true)
      ∧ runs (.mbxCcntWrite .mp 0 2 0x80003210) on (fun t => (getBox t 0).ccnt == 0x80003210) = true
      ∧ runs (.mbxCcntWrite .mp 0 2 0x80003210) (withCore 0 (coreTwo 0)) (fun t => t.answers == [.busError]) = true := by decide +kernel
/-- Two equal fields of CCNT, or an area outside the windows: a write that sets valid is refused, and valid is clear. -/
theorem test_waggle_count_is_refused :
    let s := { on with mbx := { on.mbx with boxes := [(0, { ccnt := 0x80003210, carea := 0xFFFFFFFFFF00 })] } }
    twoEqual 0x80003310 = true ∧ inWindows (getBox s 0).carea.toNat 256 = false
      ∧ runs (.mbxCcntWrite .mp 0 2 0x80003310) s (fun t => t.answers == [.busError] && (getBox t 0).ccnt == 0x3210) = true
      ∧ runs (.mbxCcntWrite .mp 0 2 0x80003210) s (fun t => t.answers == [.busError] && (getBox t 0).ccnt == 0x3210) = true := by decide +kernel
theorem test_seed_halves :
    runs (.coreSeedWrite .mp 1199 true 7) on (fun t => (getCore t 1199).regs.seedHi == 7 && (getCore t 1199).regs.seedLo == 0) = true := by
  decide +kernel
/-! ### Moves, array passes, stream feed, chunks -/

/-- A MOVE flight, tag 9, with a descriptor and claims of page 0 to read and page 1 to write. -/
def moveFl (d : Nat) : Flight :=
  { tag := 9, eng := 1, word := longBits 0x10 1 { plainLong with tag := 9, rdaFirst := 0, rdaCount := 1, wrFirst := 1, wrCount := 1 }
    pc := 0x20, desc := BitVec.ofNat 512 d, ka := 0, kb := 0, fpctl := 0, seed := 0, aux := .move {} }
/-- A copy inside the tile buffer, of `n` bytes from `src` to `dst`. -/
def tileCopy (src dst n n1 : Nat) : Nat :=
  1 + 1 * 2 ^ 20 + 1 * 2 ^ 22 + src * 2 ^ 32 + dst * 2 ^ 72 + n * 2 ^ 112 + n1 * 2 ^ 136 + 1 * 2 ^ 152
/-- A core with that MOVE. -/
def moveState (d : Nat) : State := withCore 0 { coreTwo 0 with flights := [moveFl d], tile := memWrite {} 0xFFF 1 0x5A }
theorem test_move_copies_a_run :
    let s := moveState (tileCopy 0xFFF 0x1000 1 1)
    let m := moveDesc (moveFl (tileCopy 0xFFF 0x1000 1 1))
    flightOf (getCore s 0) 9 = some (moveFl (tileCopy 0xFFF 0x1000 1 1)) ∧ moveForm (moveFl (tileCopy 0xFFF 0x1000 1 1)).desc m 0 = none
      ∧ moveChecks (getCore s 0) (moveFl (tileCopy 0xFFF 0x1000 1 1)) m = none ∧ memWf (getCore s 0).tile = true
      ∧ m.srcKind = 1 ∧ m.dstKind = 1 ∧ m.src + m.len0 ≤ m.dst
      ∧ runs (.moveChannelStart 0 9 1) s (fun t => memGet (getCore t 0).tile 0x1000 == 0x5A && (getCore t 0).regs.dmaLines == 1
          && ((getCore t 0).flights.map fun f => f.ph) == [.done]) = true := by decide +kernel
theorem test_move_malformed_outside_and_empty :
    moveForm (moveFl (tileCopy 0 0 1 1 + 2 ^ 511)).desc (moveDesc (moveFl (tileCopy 0 0 1 1 + 2 ^ 511))) 0 = some 483
      ∧ runs (.moveChannelStart 0 9 1) (moveState (tileCopy 0 0x1000 1 1 + 2 ^ 511)) (fun t =>
          (getCore t 0).regs.faultInfo == BitVec.ofNat 18 (0x10E + 9 * 4096 + 131072) && (getCore t 0).regs.faultDetail == 483) = true
      ∧ runs (.moveChannelStart 0 9 1) (moveState (tileCopy 0 0xFFF 1 1)) (fun t => (getCore t 0).regs.faultInfo.toNat % 256 == 0x23) = true
      ∧ moveEmpty (moveDesc (moveFl (tileCopy 0 0x1000 1 0))) = true
      ∧ runs (.moveChannelStart 0 9 1) (moveState (tileCopy 0 0x1000 1 0)) (fun t => ((getCore t 0).flights.map fun f => f.ph) == [.done]
          && (getCore t 0).regs.dmaLines == 0) = true := by decide +kernel
theorem test_move_fault_is_raised :
    let s := withCore 0 { coreTwo 0 with validB := true, flights := [{ moveFl 1 with ph := .started, flt := some (0x29, 7), aux := .move { bank := some true } }] }
    runs (.moveFaultRaise 0 9) s (fun t => (getCore t 0).regs.faultDetail == 7 && !(getCore t 0).validB) = true := by decide +kernel

/-- An MMA of INT8 operands, one row, one column, into accumulator entry 3, its tile in pages 0 and 1. -/
def mmaFl (stream : Bool) : Flight :=
  { tag := 2, eng := 2
    word := longBits 0x20 2 { plainLong with
      tag := 2, flags := if stream then 5 else 1, rdaFirst := 0, rdaCount := 2
      low := BitVec.ofNat 46 (8 * 2 ^ 42 + 8 * 2 ^ 38 + 3 * 2 ^ 29 + 1 * 2 ^ 19) }
    pc := 0, desc := BitVec.ofNat 512 (2 + 4096 * 2 ^ 35 + (2 ^ 64 - 1) * 2 ^ 92 + 1 * 2 ^ 156), ka := 0, kb := 0, fpctl := 0, seed := 0
    ord := if stream then 1 else 0 }
/-- Row 0 of A holds 2 in lane 0, column 0 of B holds -3 in lane 0. -/
def mmaState (aux : Aux) (arr : Arr) : State :=
  withCore 0 { coreTwo 0 with flights := [{ mmaFl false with aux }], tile := memWrite (memWrite {} 0 1 2) 0x1000 1 0xFD, arr }
theorem test_pass_starts :
    let s := mmaState .none {}
    let d := passDesc (mmaFl false)
    execOf (getCore s 0) 2 = none ∧ d.stream = false ∧ passForm (mmaFl false) d = false
      ∧ firstOutside (mmaFl false).word (passReads (mmaFl false) d 0) = none
      ∧ runs (.arrayPassStart 0 2 100) s (fun t => (getCore t 0).arr.execs == [{ tag := 2, t0 := 100 }]) = true := by decide +kernel
/-- Without page 1 the first byte outside the read set is B's. -/
theorem test_pass_outside_its_read_set :
    let fl := { mmaFl false with word := longBits 0x20 2 { plainLong with
      tag := 2, flags := 1, rdaFirst := 0, rdaCount := 1, low := BitVec.ofNat 46 (8 * 2 ^ 42 + 8 * 2 ^ 38 + 3 * 2 ^ 29 + 1 * 2 ^ 19) } }
    let s := withCore 0 { coreTwo 0 with flights := [fl] }
    firstOutside fl.word (passReads fl (passDesc fl) 0) = some 0x1000
      ∧ runs (.arrayPassStart 0 2 0) s (fun t => (getCore t 0).regs.faultInfo == BitVec.ofNat 18 (0x223 + 2 * 4096 + 131072)
          && (getCore t 0).regs.faultDetail == 0x1000) = true := by decide +kernel
/-- 2 times -3 is -6 in accumulator entry 3, column 0. -/
theorem test_row_commits :
    let s := mmaState .none { execs := [{ tag := 2, t0 := 0 }] }
    rowsTurn (getCore s 0) (mmaFl false) = true ∧ (passDesc (mmaFl false)).rows = 1
      ∧ runs (.arrayRowCommit 0 2 0 {} false) s (fun t => accGet (getCore t 0).arr 3 0 == 0xFFFFFFFA
          && ((getCore t 0).arr.execs.map fun x => x.committed) == [[0]]
          && runs (.arrayPassEnd 0 2 []) t (fun u => ((getCore u 0).flights.map fun f => f.ph) == [.done] && (getCore u 0).arr.execs.isEmpty)) = true := by
  decide +kernel
theorem test_row_waits_or_is_replayed_or_lost :
    let s := mmaState .none { execs := [{ tag := 2, t0 := 0 }] }
    runs (.arrayRowCommit 0 2 0 {} true) s (fun t => ((getCore t 0).arr.execs.map fun x => x.waitingRows.map Prod.fst) == [[0]]
          && ((getCore t 0).arr.execs.flatMap fun x => x.waitingRows.map fun e => e.2.lookup 0) == [some 0xFFFFFFFA]) = true
      ∧ runs (.arrayRowCommit 0 2 0 { check := 1 } false) s (fun t => ((getCore t 0).arr.execs.map fun x => x.heldRows) == [[0]]
          && (getCore t 0).arr.check == BitVec.ofNat 18 (2 ^ 17 + 0x3F * 2 ^ 9 + 3)
          && runs (.arrayRowReplay 0 2 0 {}) t (fun u => accGet (getCore u 0).arr 3 0 == 0xFFFFFFFA && (getCore u 0).arr.retry == 1)
          && runs (.arrayRowReplay 0 2 0 { check := 1 }) t (fun u => ((getCore u 0).arr.execs.map fun x => x.lostRow) == [some 0])) = true := by decide +kernel
/-- A row that was waiting commits once its access is free. -/
theorem test_waiting_row_commits :
    let s := mmaState .none { execs := [{ tag := 2, t0 := 0, waitingRows := [(0, [(0, 0xFFFFFFFA)])], sums := [(0, [(0, -6)])] }] }
    runs (.arrayRowCommit 0 2 0 {} false) s (fun t => accGet (getCore t 0).arr 3 0 == 0xFFFFFFFA
      && ((getCore t 0).arr.execs.map fun x => (x.committed, x.waitingRows)) == [([0], [])]) = true := by decide +kernel
/-- Without zero, a pass reads its entries; one that is uncorrectable faults with the entry. -/
theorem test_row_reads_an_uncorrectable_entry :
    let fl := { mmaFl false with word := longBits 0x20 2 { plainLong with
      tag := 2, flags := 0, rdaFirst := 0, rdaCount := 2, low := BitVec.ofNat 46 (8 * 2 ^ 42 + 8 * 2 ^ 38 + 3 * 2 ^ 29 + 1 * 2 ^ 19) } }
    let s := withCore 0 { coreTwo 0 with flights := [fl], arr := { execs := [{ tag := 2, t0 := 0 }] } }
    badEntry (passDesc fl) { tag := 2, t0 := 0 } { acc := some 0 } = some 0 ∧ badEntry (passDesc fl) { tag := 2, t0 := 0 } { acc := some 1 } = none
      ∧ runs (.arrayRowCommit 0 2 0 { acc := some 0 } false) s (fun t =>
          (getCore t 0).regs.faultInfo == BitVec.ofNat 18 (0x209 + 2 * 4096 + 131072) && (getCore t 0).regs.faultDetail == 3) = true := by
  decide +kernel
theorem test_bad_column_ends_the_pass :
    let s := mmaState .none { execs := [{ tag := 2, t0 := 0, committed := [0], sums := [(0, [(0, -6)])] }] }
    (passDesc (mmaFl false)).colMask ≠ 0
      ∧ runs (.arrayPassEnd 0 2 [(31, 1)]) s (fun t => ((getCore t 0).flights.map fun f => f.ph) == [.done]) = true
      ∧ runs (.arrayPassEnd 0 2 [(0, 1)]) s (fun t => (getCore t 0).regs.faultInfo == BitVec.ofNat 18 (0x206 + 2 * 4096 + 131072)
          && (getCore t 0).regs.faultDetail == BitVec.ofNat 32 (2 ^ 15)) = true := by decide +kernel

/-- A stream-feed MOVE of one row of 64 lanes, in front of its MMA. -/
def feedFl (next : Nat) : Flight :=
  { moveFl (1 + 3 * 2 ^ 22 + 1 * 2 ^ 27 + 64 * 2 ^ 112 + 1 * 2 ^ 136 + 1 * 2 ^ 152 + 8 * 2 ^ 428 + 1 * 2 ^ 451 + 64 * 2 ^ 467) with
    ph := .started, ord := 1, aux := .move { slot := next, rows := [7] } }
theorem test_slots_come_in_time_late_early_and_before :
    let s (fls : List Flight) (next : Nat) (arr : Arr) := withCore 0 { coreTwo 0 with flights := feedFl next :: fls, arr }
    let x : Arr := { execs := [{ tag := 2, t0 := 100 }], feedPasses := 1 }
    (moveDesc (feedFl 0)).slots = 64
      ∧ runs (.streamSlotArrival 0 9 100) (s [mmaFl true] 0 x) (fun t => ((getCore t 0).arr.execs.map fun e => e.got) == [[(0, 7)]]) = true
      ∧ runs (.streamSlotArrival 0 9 92) (s [mmaFl true] 0 x) (fun t => ((getCore t 0).arr.execs.map fun e => e.got) == [[(0, 7)]]) = true
      ∧ runs (.streamSlotArrival 0 9 91) (s [mmaFl true] 0 x) (fun t => ((getCore t 0).arr.execs.map fun e => e.early) == [[0]]) = true
      ∧ runs (.streamSlotArrival 0 9 101) (s [mmaFl true] 0 x) (fun t => (getCore t 0).arr.late == 1) = true
      ∧ runs (.streamSlotArrival 0 9 5) (s [] 0 {}) (fun t => (getCore t 0).arr.inq == [⟨1, 0, 5, 7⟩]
          && runs (.streamSlotArrival 0 9 5) t (fun u => (getCore u 0).arr.inq.length == 1)
          && runs (.streamSlotArrival 0 9 6) t (fun u => (getCore u 0).arr.inq.length == 2)) = true
      ∧ runs (.streamSlotArrival 0 9 5) (s [] 0 { feedPasses := 1 }) (fun t => (getCore t 0).arr.late == 1 && (getCore t 0).regs.dmaLines == 1) = true
      ∧ (moveDesc (feedFl 64)).crcMode = 0
      ∧ runs (.checksumPacketArrival 0 9) (s [] 64 {}) (fun t => (getCore t 0).arr.packets == [⟨1, 7 :: List.replicate 63 0 ++ 7 :: List.replicate 63 0⟩] && (getCore t 0).regs.dmaLines == 8) = true := by
  decide +kernel

/-- The owner's entry of a shard of one chunk, recipe 0, BF16 gradients, no master: weights at 0x100000, moments at 0x200000,
gradients at 0x300000, tags at 0x400000. -/
def shardEntry : BitVec 1024 :=
  BitVec.ofNat 1024 (3 + 1 * 2 ^ 64 + 0x100000 * 2 ^ 192 + 0x200000 * 2 ^ 256 + 0x300000 * 2 ^ 320 + 0x400000 * 2 ^ 384)
/-- An UPD, tag 6, of its chunk 0 with step `n`. -/
def updFl (n : Nat) : Flight :=
  { tag := 6, eng := 4, word := longBits 0x42 4 { plainLong with tag := 6 }, pc := 0
    desc := BitVec.ofNat 512 (6 + 1 * 2 ^ 56 + n * 2 ^ 88), ka := 0, kb := 0, fpctl := 0, seed := 0, ph := .started
    aux := .upd { shard := 0, entry := shardEntry, todo := [0], fails := [] } }
/-- Memory of zeros but for the tag entry: moment tag, weight tag and weight digest. -/
def tagsMem (mt wt wd : Nat) : ByteMem := memWrite {} 0x400000 16 (mt + wt * 2 ^ 32 + wd * 2 ^ 64)
/-- The device with that UPD and that tag entry. -/
def updState (n mt wt wd : Nat) : State :=
  { withCore 0 { coreTwo 0 with flights := [updFl n] } with hbm := { on.hbm with mem := tagsMem mt wt wd } }
set_option maxRecDepth 200000 in
/-- A verify pass: both tags are n + 1, and the digest of zeros is 0. -/
theorem test_chunk_verify_pass :
    shRecipe shardEntry ≠ 2 ∧ (updEngine (updState 0 1 1 0) shardEntry 0).isSome = true
      ∧ runs (.updChunkPass 0 6 0) (updState 0 1 1 0) (fun t => (getCore t 0).flights.map (fun f => match f.aux with
          | .upd p => (p.verify, p.outcome, p.todo, f.ph) | _ => (0, 0, [0], .queued)) == [(1, 1, [], .done)]) = true := by decide +kernel
theorem test_chunk_with_other_tags :
    runs (.updChunkPass 0 6 0) (updState 5 1 1 0) (fun t => (getCore t 0).regs.faultInfo.toNat % 256 == 0x0F && (getCore t 0).regs.faultDetail == 0
      && (t.mgt.ring.map fun e => e.code) == [0x102]) = true := by
  decide +kernel
theorem test_chunk_without_a_slice :
    let s := updState 0 1 1 0
    let f := { s with pwr := { s.pwr with fps := (List.range 24).map fun n => (n, { comb0 := .off, comb1 := .off }) } }
    updEngine f shardEntry 0 = none
      ∧ runs (.updChunkPass 0 6 0) f (fun t => (getCore t 0).regs.faultInfo.toNat % 256 == 0x0D) = true := by decide +kernel

/-- A pass whose last write has been accepted is counted; its chunk is done. -/
theorem test_chunk_whose_writes_are_done :
    let o : OpenPass := { chunk := 0, kind := 2, nonfinite := true, tagLine := 0x10000, writes := [] }
    let f := { updFl 0 with aux := .upd { shard := 0, entry := shardEntry, todo := [0, 1], fails := [], passes := [o] } }
    runs (.updChunkPass 0 6 0) { updState 0 1 1 0 with cores := [(0, { coreTwo 0 with flights := [f] })] } (fun t =>
      (getCore t 0).flights.map (fun f => match f.aux with
        | .upd p => (p.full, p.nonfinite, p.todo, p.passes.length) | _ => (0, false, [], 9)) == [(1, true, [1], 0)]) = true := by decide +kernel

/-- The digest sweep over a table of one shard at 0x500000 whose entry is `e`. -/
def sweepState (e : BitVec 1024) (wd : Nat) : State :=
  let m := memWrite (tagsMem 1 1 wd) 0x500000 128 e.toNat
  { on with hbm := { on.hbm with mem := m }
            comb := { on.comb with dsweepOn := true, shardBase := 0x500000, shardCnt := 1, sweep := { running := true, active := true } } }
theorem test_sweep_reads_an_owners_chunk :
    let s := sweepState shardEntry 1
    (match readParts 1204 0 { chunkAt shardEntry 0 with gLen := 0 } true false s with | (_, .ok _) => true | _ => false) = true := by decide +kernel
set_option maxRecDepth 200000 in
/-- A replica with an FP32 master has 2,048 bytes of weights in a chunk. -/
theorem test_sweep_marks_a_stale_replica :
    runs .digestSweepChunk (sweepState (shardEntry - 2 + 16) 1) (fun t => (t.mgt.ring.map fun e => e.code) == [0x103]
      && byteAt t 0x400004 == 0xFF && byteAt t 0x400000 == 1) = true := by decide +kernel
set_option maxRecDepth 200000 in
/-- A weight line that a host core owns: the sweep waits at the chunk. -/
theorem test_sweep_waits_for_a_weight_line :
    let s := sweepState shardEntry 1
    let h := { s with comb := { s.comb with lines := [((chunkAt shardEntry 0).w / 64, mkLine 0 0 { st := .hostown, ptrs := [1200] } none)] } }
    (match sweepChunk shardEntry 0 0 h with | (_, .wait) => true | _ => false) = true
      ∧ runs .digestSweepChunk h (fun t => t.comb.sweep.chunk == 0 && t.comb.sweep.shard == 0 && t.comb.sweep.active) = true := by decide +kernel
theorem test_sweep_period_drops_an_unfinished_pass :
    runs .digestSweepPeriod (sweepState shardEntry 0) (fun t => t.comb.dsweepDropped == 1) = true := by decide +kernel
theorem test_sweep_of_an_invalid_entry :
    runs .digestSweepChunk (sweepState 0 0) (fun t => t.comb.sweep.shard == 1 && t.mgt.ring.isEmpty) = true := by decide +kernel

/-! ### Links, packets, contexts -/

/-- The device with link 0 in a state. -/
def linkState (k : Link) : State := { on with net := { on.net with links := [(0, k)] } }
/-- Saved settings of a link: logical lane 2 of the receive direction on the spare. -/
def savedAs (dev : BitVec 16) (lnk : BitVec 6) : SavedLink :=
  { partner := (dev, lnk, 1), rxMap := 0x708, txMap := 0x688, rxBad := 4, eq := 9 }
/-- A link in service that expects sequence number 255, with a packet under assembly on VC 2. -/
def activeLink : Link := { st := .active, ctl := 0x10000001, rxSeq := 255, rx := [{ vc := 2, cls := false, bytes := [1] }], txSlot := 5
                           saved := some (savedAs 7 3) }
theorem test_net_runs : netRuns (linkState activeLink) :=
  ⟨rfl, rfl, fun l => .inl (by
    show (tblGet {} [(0, activeLink)] l).frames = []
    unfold tblGet; split <;> rfl)⟩
theorem test_training_found_failed_and_in_full :
    let m : LaneMaps := { rx := 0x68C, tx := 0x688, bad := 2 }
    runs (.equalisationLock 0 (some m)) (linkState { st := .train, restoring := true, fullNext := true }) (fun t =>
        (getLink t 0).st == .align && (getLink t 0).rxSpare && !(getLink t 0).txSpare && (getLink t 0).fullNext) = true
      ∧ runs (.equalisationLock 0 (some m)) (linkState { st := .train, restoring := true, saved := some (savedAs 5 7) }) (fun t =>
        (getLink t 0).rxMap == 0x708 && (getLink t 0).rxBad == 4 && (getLink t 0).eq == 9 && (getLink t 0).savedUsed) = true
      ∧ runs (.equalisationLock 0 none) (linkState { st := .train, restoring := true }) (fun t => (getLink t 0).st == .train && !(getLink t 0).restoring) = true
      ∧ runs (.equalisationLock 0 none) (linkState { st := .train }) (fun t => (getLink t 0).st == .down) = true := by decide +kernel
theorem test_align_gives_credits :
    runs (.alignLock 0 5 6 7) (linkState { st := .align, savedUsed := true, saved := some (savedAs 5 7) }) (fun t =>
      (getLink t 0).st == .active && tblGet 0 (getLink t 0).credits 5 == 48 && (getLink t 0).partner == some (5, 6, 7) && (getLink t 0).fullNext
        && (t.mgt.ring.map fun e => e.code) == [0x10A]) = true := by decide +kernel
theorem test_down_retries :
    runs (.downRetry 0) (linkState { st := .down, saved := some (savedAs 1 1) }) (fun t => (getLink t 0).st == .train && (getLink t 0).restoring) = true := by
  decide +kernel
/-- The third entry within a second takes the link down; one exactly a second after the first does not. -/
theorem test_third_recover_within_a_second :
    let s (now : Nat) := { linkState { activeLink with recTimes := [20, 10] } with mgt := { on.mgt with time := now } }
    runs (.recoverEntry 0) (s 450000009) (fun t => (getLink t 0).st == .down && (getLink t 0).saved == some (savedAs 7 3)) = true
      ∧ runs (.recoverEntry 0) (s 450000010) (fun t => (getLink t 0).st == .recover && (getLink t 0).recovers == 1) = true := by decide +kernel
theorem test_recover_ends :
    let k := { activeLink with st := .recover }
    runs (.recoverComplete 0) (linkState k) (fun t => (getLink t 0).st == .active) = true
      ∧ runs (.recoverTimeout 0) (linkState k) (fun t => (getLink t 0).st == .down && (getLink t 0).drop == 1 && (getLink t 0).cause == 9) = true
      ∧ runs (.lossOfSignal 0) (linkState activeLink) (fun t => (getLink t 0).st == .down && (getLink t 0).rx.isEmpty) = true := by decide +kernel
theorem test_link_enable :
    performed .mp false 4 31 0 (linkState {}) ∧
      runs (.linkEnable .mp 0 0xFFFFFFFD) (linkState { saved := some (savedAs 1 1) }) (fun t =>
        (getLink t 0).st == .train && (getLink t 0).ctl == 0xFFFF0005 && !(getLink t 0).restoring) = true
      ∧ runs (.linkEnable .mp 0 1) (linkState activeLink) (fun t => (getLink t 0).st == .active && (getLink t 0).ctl == 1) = true
      ∧ runs (.linkEnable .mp 0 0) (linkState activeLink) (fun t => (getLink t 0).st == .disabled && (getLink t 0).cause.getLsbD 0) = true := by
  unfold performed; decide +kernel

/-- A data flit in order, in the middle of a packet on VC 2, with one credit of pool 0. -/
def dataBits : BitVec 2048 := flitBits { kind := 1, seq := 255, vc := 2, bytes := 244, pool := 0, credits := 24, data := [9] }
set_option maxRecDepth 20000 in
theorem test_flit_in_order :
    ((flitOf dataBits).2 = true ∧ (flitOf dataBits).1.kind = 1 ∧ (flitOf dataBits).1.seq = 255 ∧ (flitOf dataBits).1.pool = 0
        ∧ (flitOf dataBits).1.credits = 24 ∧ (flitOf dataBits).1.sop = false ∧ (flitOf dataBits).1.eop = false ∧ (flitOf dataBits).1.vc = 2)
      ∧ runs (.flitReceived 0 77 0 dataBits) (linkState activeLink) (fun t =>
          (getLink t 0).rxSeq == 0 && ((getLink t 0).rx.map fun r => r.bytes.length) == [245] && tblGet 0 (getLink t 0).credits 0 == 24) = true := by
  decide +kernel
theorem test_damaged_flit_is_told_once :
    (flitOf 1).2 = false
      ∧ runs (.flitReceived 0 1 0 1) (linkState activeLink) (fun t => (getLink t 0).nakOut
          && t.answers == [.flit 0 (flitBits { kind := 2, ack := 254 })]) = true
      ∧ runs (.flitReceived 0 1 0 1) (linkState { activeLink with nakOut := true }) (fun t => t.answers.isEmpty && (getLink t 0).rxSeq == 255) = true := by
  decide +kernel
theorem test_replay_of_the_unacknowledged :
    let f : TxFlit := { vc := 1, cls := true, sop := true, eop := true, bytes := [3] }
    runs (.replayTimeout 0) (linkState { activeLink with replayBuf := [(4, f), (5, f)], replayRow := 30 }) (fun t =>
        t.answers.length == 2 && (getLink t 0).replays == 1 && (getLink t 0).replayRow == 31) = true
      ∧ runs (.replayTimeout 0) (linkState activeLink) (fun t => t.answers.isEmpty && (getLink t 0).replays == 0) = true := by decide +kernel
theorem test_cut_through_timeout :
    let p : TxPkt := { vc := 3, cls := false, begun := true, flits := [{ vc := 3, cls := false, sop := false, eop := false, bytes := [1] }] }
    runs (.cutThroughTimeout 0 3 false) (linkState { activeLink with tx := [p] }) (fun t =>
        ((getLink t 0).tx.map fun q => q.flits.map fun f => f.abort) == [[true]] && (getLink t 0).drop == 1) = true
      ∧ runs (.cutThroughTimeout 0 3 false) (linkState { activeLink with tx := [{ p with begun := false }] }) (fun t => (getLink t 0).tx.isEmpty) = true := by
  decide +kernel
/-- 0x1001 corrected symbols on lane 0 are above the threshold 0x1000; the partner repeats the lane, and lane 4 takes it from the named
control slot on: at once where that has passed, else with slot 9 × 78. -/
theorem test_lane_goes_to_the_spare :
    runs (.linkAdaptation 0 0x1001 0 0 0) (linkState activeLink) (fun t => (getLink t 0).rxRequest == some 0 && (getLink t 0).fecCorr == 0x1001
        && t.answers.length == 1
        && runs (.laneSwap 0 0 0) t (fun u => (getLink u 0).rxMap == 0x68C && (getLink u 0).rxBad == 1 && (getLink u 0).rxSpare && (getLink u 0).cause == 4)
        && runs (.laneSwap 0 0 9) t (fun u => (getLink u 0).rxMap == 0x688 && (getLink u 0).rxSwap == some (0, 9)
            && runs (.flitReceived 0 701 0 1) u (fun v => (getLink v 0).rxMap == 0x688)
            && runs (.flitReceived 0 702 0 1) u (fun v => (getLink v 0).rxMap == 0x68C && (getLink v 0).rxSwap == none))) = true
      ∧ runs (.linkAdaptation 0 0x1000 0 0 0) (linkState activeLink) (fun t => (getLink t 0).rxRequest == none && t.answers.isEmpty) = true := by
  decide +kernel
theorem test_second_faulty_lane_takes_the_link_down :
    runs (.linkAdaptation 0 0 0x1001 0 0) (linkState { activeLink with rxRequest := some 0 }) (fun t => (getLink t 0).st == .down) = true
      ∧ runs (.linkAdaptation 0 0x1001 0 0 0) (linkState { activeLink with rxSpare := true }) (fun t => (getLink t 0).st == .down) = true := by
  decide +kernel
/-- Slot 2 lies in codewords 0 and 1; codeword 0 has been counted with slot 1. -/
theorem test_uncorrectable_codewords_are_counted_once :
    lostCodewords 2 3 = [0, 1]
      ∧ runs (.flitReceived 0 2 3 dataBits) (linkState { activeLink with fecSeen := 1 }) (fun t =>
          (getLink t 0).fecUncorr == 1 && (getLink t 0).fecSeen == 2 && (getLink t 0).nakOut && (getLink t 0).rxSeq == 255) = true := by decide +kernel
/-- A set of links 11 and 12 crosses a link die: stored not valid. The index wraps. -/
theorem test_routing_entries :
    let s := { on with net := { on.net with rtAddr := 0xFFF } }
    performed .mp false 0 31 64 s
      ∧ runs (.lnkRtDataAccess .mp (some (BitVec.ofNat 32 (2 ^ 31 + 11 * 2 ^ 23 + 2 * 2 ^ 19)))) s (fun t => !(rtValid (rtEntry t 0xFFF)) && t.net.rtAddr == 0
          && (t.mgt.ring.map fun e => e.code) == [0x10E]) = true
      ∧ runs (.lnkRtDataAccess .mp (some (BitVec.ofNat 32 (2 ^ 31 + 36 * 2 ^ 23 + 12 * 2 ^ 19)))) s (fun t => rtValid (rtEntry t 0xFFF)
          && runs (.lnkRtDataAccess .mp none) { t with net := { t.net with rtAddr := 0xFFF } } (fun u =>
              u.answers == [.value (BitVec.ofNat 32 (2 ^ 31 + 36 * 2 ^ 23 + 12 * 2 ^ 19))])) = true := by
  unfold performed; decide +kernel
theorem test_resets_of_sequences_and_contexts :
    let s := { on with net := { on.net with seqs := [(255, 3), (254, 4)], ctxs := [(4095 * 4 + 1, { txSeq := 5 })] } }
    runs (.seqReset .mp 0x1000FF) s (fun t => tblGet 0 t.net.seqs 255 == 0 && tblGet 0 t.net.seqs 254 == 4) = true
      ∧ runs (.ctxReset .mp 0x2FFF00) s (fun t => (getCtx t (4095 * 4 + 1)).txSeq == 0) = true := by decide +kernel
theorem test_bypass :
    performed .mp false 8 31 2 on
      ∧ runs (.bypassOpen .mp) { on with net := { on.net with bypHold := true } } (fun t => !t.net.bypOpen) = true
      ∧ runs (.bypassOpen .mp) on (fun t => t.net.bypOpen && !t.net.bypClosed
          && runs (.bypassClose .mp) { t with net := { t.net with links := [(46, activeLink)] } } (fun u => (getLink u 46).st == .disabled && u.net.bypClosed)) = true
      ∧ runs (.bypassClose .mp) on (fun t => t.answers == [.done]) = true := by
  unfold performed; decide +kernel

/-- A management packet for device 0 of one byte. -/
def mframe : Packet := sealPacket { dst := 0, src := 9, typ := 0x20, payload := [5] }
theorem test_packet_arrives :
    packetBad false mframe = false
      ∧ runs (.packetReceived 0 mframe) (linkState activeLink) (fun t => t.frames.inbox == [(9, [5])]) = true
      ∧ packetBad false { mframe with crc := 0 } = true
      ∧ runs (.packetReceived 0 { mframe with crc := 0 }) (linkState activeLink) (fun t => t.net.drop == 1 && t.frames.inbox.isEmpty) = true
      ∧ runs (.packetReceived 0 { mframe with dgen := 3 }) (linkState activeLink) (fun t => t.net.drop == 1) = true := by decide +kernel
/-- Device 4 lies behind link 1, whose partner has given no credits; hop limit 1 is the last that is forwarded. -/
theorem test_packet_is_forwarded :
    let p := { mframe with dst := 4, hop := 1 }
    let s := { linkState activeLink with net := { on.net with links := [(0, activeLink), (1, { st := .active })],
                                                              rt := [(4, BitVec.ofNat 32 (2 ^ 31 + 1 * 2 ^ 23 + 1 * 2 ^ 19))] } }
    forwardRoute 4 s = .native 1 4 false
      ∧ (getLink s 1).credits = []
      ∧ runs (.packetForward 0 true p) s (fun t => ((getLink t 1).tx.map fun q => (q.vc, q.cls, q.flits.length)) == [(3, true, 1)]) = true
      ∧ runs (.packetForward 0 true { p with hop := 0 }) s (fun t => (getLink t 0).drop == 1 && (getLink t 1).tx.isEmpty) = true
      ∧ rtValid (rtEntry s 5) = false
      ∧ runs (.packetForward 0 true { p with dst := 5 }) s (fun t => (getLink t 0).drop == 1) = true := by decide +kernel

/-- Device 4 is peer 0 behind Ethernet link 0. -/
def ethState (c : Ctx) : State :=
  { on with net := { on.net with
      links := [(0, { st := .active, eth := true, port := BitVec.ofNat 512 (0x0A000001 * 2 ^ 128) })], ctxs := [(ctxKey 0 1, c)]
      rt := [(4, BitVec.ofNat 32 (2 ^ 31 + 2 ^ 29 + 1 * 2 ^ 19))] } }
/-- An EACK that names sequence number `cum`. -/
def eack (cum echo : Nat) : Packet := sealPacket { dst := 0, src := 4, typ := 0x30, vc := 1, fields := pFields cum echo 0 0 }
theorem test_eack_frees_and_opens_the_window :
    let c : Ctx := { unacked := [⟨{ mframe with seq := 1 }, none⟩, ⟨{ mframe with seq := 2 }, none⟩], window := 6, sinceGrow := 5, txSeq := 3 }
    peerOf (ethState c) 4 = some 0 ∧ (eack 1 0).vc = 1 ∧ pField (eack 1 1) 0x18 1 % 2 = 1
      ∧ runs (.eackReceived (eack 1 0)) (ethState c) (fun t =>
          let d := getCtx t (ctxKey 0 1)
          (d.unacked.map fun e => e.pkt.seq) == [2] && d.window == 7 && d.sinceGrow == 0) = true
      ∧ runs (.eackReceived (eack 1 1)) (ethState c) (fun t => (getCtx t (ctxKey 0 1)).window == 4 && (getCtx t (ctxKey 0 1)).cut) = true
      ∧ runs (.eackReceived (eack 3 0)) (ethState {}) (fun t => (getCtx t (ctxKey 0 1)).dups == 1) = true := by decide +kernel
theorem test_context_timers :
    let key := ctxKey 0 1
    runs (.eackTimer 0 1) (ethState {}) (fun t => decide (t = ethState {})) = true
      ∧ runs (.eackTimer 0 1) (ethState { rxUnacked := 3, dev := 4, entry := some 0 }) (fun t => (getCtx t key).rxUnacked == 3 && t.answers.isEmpty) = true
      ∧ runs (.eackTimer 0 1) (ethState { rxUnacked := 3, ceSeen := true, dev := 4, entry := some 1 }) (fun t =>
          (getCtx t key).rxUnacked == 0 && !(getCtx t key).ceSeen && t.answers.length == 1) = true
      ∧ runs (.retransmissionTimeout 0 1) (ethState { unacked := [⟨mframe, none⟩], expiries := 10, rto := 600 }) (fun t =>
          (getCtx t key).rto == 1024 && (getCtx t key).expiries == 11) = true
      ∧ runs (.retransmissionTimeout 0 1) (ethState { unacked := [⟨mframe, none⟩], expiries := 11 }) (fun t => (getCtx t key).failed && t.net.cause == 16) = true
      ∧ runs (.retransmissionTimeout 0 1) (ethState { failed := true, unacked := [⟨mframe, none⟩] }) (fun t => !(getCtx t key).unacked.isEmpty && t.net.cause == 0) = true := by
  decide +kernel
/-- An ARP request for 1.0.0.10 as the port entry lays it out; a frame of another type. -/
theorem test_ethernet_frames :
    let arp : List Byte := List.replicate 12 0 ++ [8, 6] ++ [0, 1, 8, 0, 6, 4, 0, 1] ++ List.replicate 16 0 ++ [1, 0, 0, 10]
    withoutFcs (withFcs arp) = some arp ∧ withoutFcs (arp ++ [0, 0, 0, 0]) = none ∧ beAt arp 12 2 = 0x0806 ∧ beAt (arp.drop 14) 0 8 = 0x0001080006040001
      ∧ ((arp.drop 14).drop 24).take 4 = entryIp (getLink (ethState {}) 0).port ∧ entryV6 (getLink (ethState {}) 0).port = false
      ∧ runs (.ethFrameReceived 0 (withFcs arp)) (ethState {}) (fun t => t.answers.length == 1 && (getLink t 0).drop == 0) = true
      ∧ runs (.ethFrameReceived 0 (withFcs (List.replicate 14 1))) (ethState {}) (fun t => (getLink t 0).drop == 1) = true
      ∧ runs (.ethFrameReceived 0 (arp ++ [0, 0, 0, 0])) (ethState {}) (fun t => (getLink t 0).drop == 1) = true := by decide +kernel
/-- The check value of the IEEE CRC-32: 0xCBF43926 for the digits 1 to 9. -/
theorem test_fcs_check_value : fcsBytes [0x31, 0x32, 0x33, 0x34, 0x35, 0x36, 0x37, 0x38, 0x39] = [0x26, 0x39, 0xF4, 0xCB] := by decide +kernel
/-- A pause of priority 3 for 1,000 quanta, which the port honours and uses: an ARP reply waits, and a pause of zero sends it. -/
theorem test_priority_flow_control :
    let port : BitVec 512 := BitVec.ofNat 512 (0x0A000001 * 2 ^ 128 + 2 ^ 7 + 2 ^ 2 + 3 * 2 ^ 45)
    let s := { ethState {} with net := { (ethState {}).net with links := [(0, { st := .active, eth := true, port })] } }
    let arp : List Byte := List.replicate 12 0 ++ [8, 6] ++ [0, 1, 8, 0, 6, 4, 0, 1] ++ List.replicate 16 0 ++ [1, 0, 0, 10]
    let pfc (hi lo : Byte) : List Byte := withFcs ([1, 0x80, 0xC2, 0, 0, 1] ++ List.replicate 6 0 ++ [0x88, 8, 1, 1, 0, 8]
      ++ [0, 0, 0, 0, 0, 0, hi, lo] ++ List.replicate 36 0)
    runs (.ethFrameReceived 0 (pfc 3 0xE8)) s (fun t => tblGet 0 (getLink t 0).paused 3 == 576 && portPaused t 0
      && runs (.ethFrameReceived 0 (withFcs arp)) t (fun u => u.answers.isEmpty && (getLink u 0).frames.length == 1
        && runs (.ethFrameReceived 0 (pfc 0 0)) u (fun v => v.answers.length == 1 && (getLink v 0).frames.isEmpty))) = true := by decide +kernel
/-! ### Collectives and gathers -/

/-- A COLL, tag 3: a broadcast of group 1 from `root`, schedule `sched`, of `count` FP32 elements from region 1 to region `dst`. -/
def collFl (sched root dst count : Nat) : Flight :=
  { tag := 3, eng := 5, word := longBits 0x50 5 { plainLong with tag := 3 }, pc := 0
    desc := BitVec.ofNat 512 (7 + 4 * 2 ^ 8 + sched * 2 ^ 11 + 1 * 2 ^ 13 + root * 2 ^ 21 + (if count = 0 then 0 else 1) * 2 ^ 37 + dst * 2 ^ 43 + count * 2 ^ 175)
    ka := 0, kb := 0, fpctl := 0, seed := 0 }
/-- Group 1 of devices 0, which is this one, and 4; its entry at 0x600040, its list at 0x601000. -/
def groupMem : ByteMem := memWrite (memWrite {} 0x600040 16 (1 + 2 * 2 ^ 32 + 0x601000 * 2 ^ 64)) 0x601000 8 (4 * 2 ^ 32)
/-- The device with that COLL queued. -/
def collState (f : Flight) (colls : List Coll) (m : ByteMem) : State :=
  { withCore 0 { coreTwo 0 with flights := [f], regions := [(1, rwRegion)] } with
    hbm := { on.hbm with mem := m }, net := { on.net with grpBase := 0x600000, colls } }
/-- What its acceptance came to: the fault's code, the phase of the flight, the records. -/
def accepted (s : State) (code : Nat) (ph : Phase) (n : Nat) : Bool :=
  runs (.collAccept 0 3) s fun t => (getCore t 0).regs.faultInfo.toNat % 256 == code && ((getCore t 0).flights.map fun f => f.ph) == [ph]
    && t.net.colls.length == n
theorem test_coll_group_is_read :
    (match readGroup 0 1 (clearAnswers (collState (collFl 2 0 1 16) [] groupMem)) with
      | (s1, .ok (some (0, m))) => decide (m = [(0, 0), (4, 0)]) && decide (s1.net = (collState (collFl 2 0 1 16) [] groupMem).net)
      | _ => false) = true := by decide +kernel
theorem test_coll_refusals :
    collMalformed (collFl 3 0 1 16) = true ∧ collMalformed (collFl 2 2 1 16) = false
      ∧ accepted (collState (collFl 3 0 1 16) [] groupMem) 0x0E .faulted 0 = true
      ∧ accepted (collState (collFl 2 0 1 16) [] {}) 0x0E .faulted 0 = true
      ∧ accepted (collState (collFl 2 2 1 16) [] groupMem) 0x0E .faulted 0 = true
      ∧ accepted (collState (collFl 2 0 2 16) [] groupMem) 0x01 .faulted 0 = true := by decide +kernel
theorem test_coll_of_no_elements_and_one_that_waits :
    let k (tag : Nat) : Coll := { core := 7, tag := tag, group := some 1, active := true, steps := [.ready] }
    accepted (collState (collFl 2 0 1 0) [] groupMem) 0 .done 0 = true
      ∧ runs (.collAccept 0 3) (collState (collFl 2 0 1 0) [] groupMem) (fun t => tblGet 0 t.net.seqs 1 == 1) = true
      ∧ accepted (collState (collFl 2 0 1 16) [k 1, k 2, k 4, k 5] groupMem) 0 .started 5 = true := by decide +kernel
/-- Of two cores with a COLL the one after the last accepted has its turn. -/
theorem test_cores_take_turns :
    let s := collState (collFl 2 0 1 16) [] groupMem
    let both (n : Nat) := { s with cores := s.cores ++ [(5, { coreTwo 0 with flights := [collFl 2 0 1 16] })], net := { s.net with lastCore := n } }
    (collNext (both 0) 0 = false ∧ collNext (both 0) 5 = true ∧ collNext (both 5) 0 = true)
      ∧ runs (.collAccept 0 3) (both 0) (fun t => decide (t = both 0)) = true := by decide +kernel
/-- An abort of device 4 has come before its collective. -/
theorem test_aborted_before_its_acceptance :
    let s := collState (collFl 2 0 1 16) [] groupMem
    runs (.collAccept 0 3) { s with net := { s.net with aborts := [(1, 1, 4)] } } (fun t =>
      (getCore t 0).regs.faultInfo.toNat % 256 == 0x30 && (getCore t 0).regs.faultDetail == 1 && t.net.colls.isEmpty) = true := by decide +kernel
/-- A gather of shard 0, `count` chunks. -/
def gatherFl (count : Nat) : Flight :=
  { collFl 0 0 0 0 with desc := BitVec.ofNat 512 (7 + 5 * 2 ^ 8 + 2 * 2 ^ 11 + count * 2 ^ 175) }
/-- The replica's entry of a shard of one chunk whose owner is device 9, with an FP32 master at the owner. -/
def replicaEntry : BitVec 1024 := shardEntry - 2 + 16 + BitVec.ofNat 1024 (9 * 2 ^ 32)
/-- A shard table of one entry. -/
def tableState (e : BitVec 1024) (count : Nat) : State :=
  let s := collState (gatherFl count) [] (memWrite {} 0x500000 128 e.toNat)
  { s with comb := { s.comb with shardBase := 0x500000, shardCnt := 1 } }
theorem test_gather_needs_a_foreign_shard_and_its_chunks :
    collMalformed (gatherFl 1) = false ∧ (shValid replicaEntry = true ∧ shOwned replicaEntry = false ∧ shChunks replicaEntry = 1)
      ∧ accepted (tableState shardEntry 1) 0x0E .faulted 0 = true ∧ accepted (tableState replicaEntry 2) 0x01 .faulted 0 = true := by decide +kernel

/-- An active broadcast of devices 0, 4 and 5 that waits to send to rank 2. -/
def openColl : Coll :=
  { core := 0, tag := 3, group := some 1, seq := 1, rank := 0, members := [(0, 0), (4, 0), (5, 0)], hash := 77, active := true
    steps := [.send 2 1 2 0 16 0], sendTo := [1, 2], expect := [(1, 1, 0, 16)], readySent := [1] }
/-- The device in that broadcast. -/
def openState (k : Coll) : State := collState { collFl 2 0 1 16 with ph := .started } [k] groupMem
/-- A packet of it from device 4. -/
def collPacket (typ : Byte) (phase last : Nat) (bs : List Byte) : Packet :=
  sealPacket { dst := 0, src := 4, typ, fields := pFields 1 1 phase last, payload := bs }
theorem test_open_collective :
    collOf (openState openColl) 1 1 = some openColl ∧ rankOf openColl 4 = some 1 ∧ onlyColl openColl (openState openColl)
      ∧ sendBlocked openColl 1 ∧ noDoneDue openColl ∧ noDoneDue { openColl with got := [(1, 1, 12, 4)] } := by
  refine ⟨by decide +kernel, by decide +kernel, ⟨by decide +kernel, by decide +kernel⟩, ⟨by decide +kernel, 2, 1, 2, 0, 16, 0, [], by decide +kernel⟩,
    by unfold noDoneDue; decide +kernel, by unfold noDoneDue; decide +kernel⟩
theorem test_ready_and_done :
    runs (.readyReceived (collPacket 0x01 0 77 [])) (openState openColl) (fun t => (t.net.colls.map fun k => k.readys) == [[1]]) = true
      ∧ runs (.readyReceived (collPacket 0x01 0 78 [])) (openState openColl) (fun t => (getCore t 0).regs.faultInfo.toNat % 256 == 0x31 && t.net.colls.isEmpty) = true
      ∧ runs (.doneReceived (collPacket 0x03 0 0 [])) (openState openColl) (fun t => (t.net.colls.map fun k => k.dones) == [[1]]) = true
      ∧ runs (.doneReceived (collPacket 0x03 0 0 [])) (openState { openColl with steps := [], dones := [2], doneSent := [1] }) (fun t =>
          ((getCore t 0).flights.map fun f => f.ph) == [.done] && t.net.colls.isEmpty) = true := by decide +kernel
/-- The last four of 16 awaited elements; one more element is not awaited. -/
theorem test_data_within_what_is_awaited :
    runs (.dataReceived (collPacket 0x02 1 12 (List.replicate 16 5))) (openState openColl) (fun t =>
        (t.net.colls.map fun k => k.got) == [[(1, 1, 12, 4)]] && byteAt t 0x10030 == 5 && byteAt t 0x1002F == 0) = true
      ∧ runs (.dataReceived (collPacket 0x02 1 13 (List.replicate 16 5))) (openState openColl) (fun t => decide (t = openState openColl)) = true := by
  decide +kernel
theorem test_abort_and_timeout :
    runs (.abortReceived (collPacket 0x04 0 0x31 [])) (openState openColl) (fun t => (getCore t 0).regs.faultInfo.toNat % 256 == 0x31 && t.net.cause == 12) = true
      ∧ runs (.abortReceived (collPacket 0x04 0 0x30 [])) (openState openColl) (fun t => (getCore t 0).regs.faultInfo.toNat % 256 == 0x30
          && (getCore t 0).regs.faultDetail == 1) = true
      ∧ runs (.collectiveTimeout 0 3) (openState openColl) (fun t => (getCore t 0).regs.faultInfo.toNat % 256 == 0x2F && t.net.cause == 2
          && (getCore t 0).regs.faultDetail == 0xFFFF) = true := by decide +kernel
/-- Packets of a collective not accepted yet: the fourth one ahead is remembered, the fifth not. -/
theorem test_packets_before_their_collective :
    let s (n : Word32) := { on with net := { on.net with seqs := [(1, n)] } }
    collOf (s 0) 1 1 = none
      ∧ runs (.readyReceived (collPacket 0x01 0 77 [])) (s 0) (fun t => t.net.early == [(1, 1, 4, 77)]) = true
      ∧ runs (.abortReceived (collPacket 0x04 0 0x30 [])) (s 0xFFFFFFFD) (fun t => t.net.aborts == [(1, 1, 4)]) = true
      ∧ runs (.abortReceived (collPacket 0x04 0 0x30 [])) (s 0xFFFFFFFC) (fun t => t.net.aborts == [] && t.net.cause == 4) = true
      ∧ runs (.dataReceived (collPacket 0x02 1 0 [1])) (s 0) (fun t => decide (t = s 0)) = true := by decide +kernel

/-- A gather that waits for chunk 0 under request tag 8, with a packet kept back. -/
def openGather (tries : Nat) (waits : Bool) (held : List Packet) : Coll :=
  { core := 0, tag := 3, group := none, active := true, entry := replicaEntry, gathers := [{ chunk := 0, tag := 8, tries, waits }], held }
/-- The device in that gather; device 9 lies behind link 1, which has no credits. -/
def gatherState (k : Coll) : State :=
  let s := collState { gatherFl 1 with ph := .started } [k] (tagsMem 1 1 0)
  { s with net := { s.net with links := [(1, { st := .active })], rt := [(9, BitVec.ofNat 32 (2 ^ 31 + 1 * 2 ^ 23 + 1 * 2 ^ 19))] } }
/-- An answer of device 9 to that request. -/
def gatherPacket (typ : Byte) (bs : List Byte) : Packet :=
  { dst := 0, src := 9, typ, tag := 8, fields := BitVec.ofNat 96 (6 * 2 ^ 64), len := BitVec.ofNat 13 bs.length, payload := bs }
theorem test_gather_is_known :
    gatherOf (gatherState (openGather 1 false [mframe])) (gatherPacket 0x12 []) = some (openGather 1 false [mframe], { chunk := 0, tag := 8, tries := 1 }) := by
  decide +kernel
theorem test_gsuper_waits_and_the_fifth_gives_up :
    runs (.gsuperReceived (gatherPacket 0x12 [])) (gatherState (openGather 4 false [mframe])) (fun t => (t.net.colls.map fun k => k.gathers.map fun g => g.waits) == [[true]]) = true
      ∧ runs (.gsuperReceived (gatherPacket 0x12 [])) (gatherState (openGather 5 false [mframe])) (fun t => (t.net.colls.map fun k => (k.gathers.length, k.stale)) == [(0, [0])]
          && byteAt t 0x400004 == 0xFF) = true
      ∧ runs (.gcorruptReceived (gatherPacket 0x13 [])) (gatherState (openGather 1 false [mframe])) (fun t => (t.net.colls.map fun k => k.stale) == [[0]]) = true
      ∧ runs (.gdataReceived (gatherPacket 0x11 [1])) (gatherState (openGather 1 false [mframe])) (fun t => (t.net.colls.map fun k => k.stale) == [[0]]) = true := by
  decide +kernel
theorem test_greq_goes_again :
    runs (.greqRetry 8) (gatherState (openGather 1 true [])) (fun t => (getLink t 1).tx.length == 1
      && (t.net.colls.map fun k => k.gathers.map fun g => (g.tries, g.waits)) == [[(2, false)]]) = true := by decide +kernel
set_option maxRecDepth 200000 in
/-- 2,048 bytes of zeros, whose digest is 0, with the owner's weight tag 6. -/
theorem test_gdata_is_taken :
    runs (.gdataReceived (gatherPacket 0x11 (List.replicate 2048 0))) (gatherState (openGather 1 false [mframe])) (fun t =>
      (t.net.colls.map fun k => (k.gathers.length, k.stale)) == [(0, [])] && byteAt t 0x400004 == 6) = true := by decide +kernel
/-- Behind an Ethernet entry the chunk may come in parts. -/
theorem test_gdata_in_parts :
    let s := gatherState (openGather 1 false [mframe])
    let t := { s with net := { s.net with rt := [(9, BitVec.ofNat 32 (2 ^ 31 + 2 ^ 29 + 1 * 2 ^ 19))] } }
    (peerOf t 9).isSome = true ∧ peerOf s 9 = none
      ∧ runs (.gdataReceived (gatherPacket 0x11 [7, 8])) t (fun u => (u.net.colls.map fun k => k.gathers.map fun g => g.part) == [[[7, 8]]]) = true := by
  decide +kernel
/-- A request for shard 0, chunk `ch`, of device 9. -/
def greq (ch : Nat) : Packet := { dst := 0, src := 9, typ := 0x10, tag := 8, fields := BitVec.ofNat 96 (ch * 2 ^ 32) }
/-- The owner of that shard. -/
def ownerState : State :=
  let s := gatherState (openGather 1 false [])
  { s with net := { s.net with colls := [] }, comb := { s.comb with shardBase := 0x500000, shardCnt := 1 }
           hbm := { s.hbm with mem := memWrite (tagsMem 1 1 0) 0x500000 128 shardEntry.toNat } }
theorem test_owner_answers :
    runs (.greqReceived (greq 0) true) ownerState (fun t => (getLink t 1).tx.length == 1) = true
      ∧ runs (.greqReceived (greq 1) true) ownerState (fun t => (getLink t 1).tx.length == 0) = true := by decide +kernel
set_option maxRecDepth 200000 in
/-- The shard's digest fails: the owner answers GCORRUPT, logs it and counts it at the chunk's engine. A table line that a host core owns makes
the request wait. -/
theorem test_owner_finds_corruption_or_waits :
    let m (wd : Nat) := memWrite (tagsMem 1 1 wd) 0x500000 128 shardEntry.toNat
    let s := { ownerState with hbm := { ownerState.hbm with mem := m 1 } }
    runs (.greqReceived (greq 0) false) s (fun t => (t.mgt.ring.map fun e => e.code) == [0x102] && (getLink t 1).tx.length == 1) = true
      ∧ runs (.greqReceived (greq 0) false)
          { s with comb := { s.comb with lines := [(0x14000, mkLine 0 0 { st := .hostown, ptrs := [1200] } none)] } } (fun t =>
            t.net.greqs == [greq 0] && (getLink t 1).tx.isEmpty) = true := by decide +kernel
/-! ### The comb -/

/-- The home slice of line 0x400. -/
def homeN : Nat := hashHome on 0x400
/-- A requester: the L1 of core 5. -/
def core5 : Requester := { agent := 5, master := 5, cls := 0 }
/-- The device with line 0x400 and the registers of its home. -/
def homeState (l : List (Nat × CombLine)) (x : Slice) : State := { on with comb := { on.comb with lines := l, slices := [(homeN, x)] } }
/-- Line 0x400 with a byte 0 and a directory entry. -/
def lineWith (b : Nat) (dir : Dir) : CombLine := mkLine 3 (BitVec.ofNat 512 b) dir none
theorem test_home_is_a_cache :
    homeOf (homeState [(0x400, lineWith 7 {})] {}) 0x400 = .cache homeN ∧ checkLine (lineWith 7 {}) = .good
      ∧ checkLine (lineWith 7 { st := .hostown, ptrs := [1215] }) = .good := by decide +kernel
theorem test_read_records_the_sharer :
    runs (.combRead core5 0x400 []) (homeState [(0x400, lineWith 7 {})] {}) (fun t => t.answers == [.line 5 0x400 7]
      && (t.comb.lines.map fun e => e.2.dir.ptrs) == [[5]]) = true := by decide +kernel
/-- A flipped bit of byte 63 is corrected by the check byte; two wrong bytes of a DIRTY line are a loss. -/
theorem test_wrong_bytes :
    let us : List Upset := [⟨63, 0x80⟩]
    let two : List Upset := [⟨0, 1⟩, ⟨63, 0x80⟩]
    (match checkLine (us.foldl applyUpset (lineWith 7 {})) with | .fixed l' b => decide (l' = lineWith 7 {} ∧ b = 63) | _ => false) = true
      ∧ runs (.combRead core5 0x400 us) (homeState [(0x400, lineWith 7 {})] {}) (fun t => t.answers == [.line 5 0x400 7]
          && (getSlice t homeN).corr == 1 && (getSlice t homeN).cause == 1) = true
      ∧ checkLine (two.foldl applyUpset (lineWith 7 { st := .dirty })) = .bad
      ∧ runs (.combRead core5 0x400 two) (homeState [(0x400, lineWith 7 { st := .dirty })] {}) (fun t => t.answers == [.fail 5 0x400 9]
          && t.comb.lines.isEmpty && t.mgt.stepInt.getLsbD 31) = true := by decide +kernel
/-- Byte 1 is written; the writer alone shares the line, then another core does. -/
theorem test_write_waits_for_the_other_sharers :
    ackers { ptrs := [5] } (some 5) = [] ∧ ackers { ptrs := [5, 9] } (some 5) ≠ []
      ∧ runs (.combWrite core5 0x400 2 0xAABB []) (homeState [(0x400, lineWith 7 { ptrs := [5] })] {}) (fun t => t.answers == [.ack 5 0x400]
          && (t.comb.lines.map fun e => e.2.data) == [0xAA07] && (t.comb.lines.map fun e => e.2.dir.st) == [.dirty]) = true
      ∧ runs (.combWrite core5 0x400 2 0xAABB []) (homeState [(0x400, lineWith 7 { ptrs := [5, 9] })] {}) (fun t => t.answers.isEmpty
          && ((getSlice t homeN).miss.map fun m => m.op) == [.invalidate [9] (some 5)]
          && runs (.invalidationAck 0x400 9) t (fun u => u.answers == [.ack 5 0x400] && (u.comb.lines.map fun e => e.2.data) == [0xAA07])) = true := by
  decide +kernel
theorem test_first_of_two_acknowledgements :
    let q : Req := { agent := 5, master := 5, cls := 0, op := .write 2 0xAABB }
    runs (.invalidationAck 0x400 9) (homeState [(0x400, lineWith 7 { ptrs := [9, 11] })] { miss := [{ line := 0x400, op := .invalidate [9, 11] (some 5), waiters := [q] }] })
      (fun t => ((getSlice t homeN).miss.map fun m => m.op) == [.invalidate [11] (some 5)] && t.answers.isEmpty) = true := by decide +kernel
/-- Host 15 owns the line: a read recalls it, and its unmodified answer makes it CLEAN; a modified one DIRTY. -/
theorem test_owner_is_recalled :
    let l := lineWith 7 { st := .hostown, ptrs := [1215] }
    runs (.combRead core5 0x400 []) (homeState [(0x400, l)] {}) (fun t => ((getSlice t homeN).miss.map fun m => m.op) == [.recall 1215 true]) = true
      ∧ runs (.hostRecallResponse 15 0x400 (some 9)) (homeState [(0x400, l)] { miss := [{ line := 0x400, op := .recall 1215 true, waiters := [] }] }) (fun t =>
          (t.comb.lines.map fun e => (e.2.data, e.2.dir.st, e.2.dir.ptrs)) == [(9, .dirty, [1215])]) = true
      ∧ runs (.hostWriteBack 15 0x400 9) (homeState [(0x400, l)] {}) (fun t => (t.comb.lines.map fun e => (e.2.data, e.2.dir.ptrs)) == [(9, [])]
          && t.answers == [.ack 1215 0x400]) = true := by decide +kernel
theorem test_host_takes_a_line :
    ackers { ptrs := [1215] } (some 1215) = []
      ∧ runs (.hostOwnershipRequest 15 0x400) (homeState [(0x400, lineWith 7 { ptrs := [1215] })] {}) (fun t => t.answers == [.line 1215 0x400 7]
          && (t.comb.lines.map fun e => (e.2.dir.st, e.2.dir.ptrs)) == [(.hostown, [1215])]) = true := by decide +kernel
theorem test_fill_from_hbm :
    let q : Req := { agent := 5, master := 5, cls := 0, op := .read }
    let s := homeState [] { miss := [{ line := 0x400, op := .fetch, waiters := [q] }] }
    hbmAnswers s (sliceDie homeN) 0x400 ∧ setLines s homeN (hashSet 0x400) = []
      ∧ runs (.missFillComplete 0x400 none) s (fun t => t.answers == [.line 5 0x400 0] && (t.comb.lines.map fun e => e.2.dir.ptrs) == [[5]]) = true := by
  unfold hbmAnswers; decide +kernel
/-- A line marked bad, and a stack in self-refresh: nothing is allocated, and both waiters get the error. -/
theorem test_failed_fetch_goes_to_every_waiter :
    let q : Req := { agent := 5, master := 5, cls := 0, op := .read }
    let s := homeState [] { miss := [{ line := 0x400, op := .fetch, waiters := [q, { q with agent := 6 }] }] }
    let bad := { s with hbm := { s.hbm with bad := [0x400] } }
    let asleep := { s with hbm := { s.hbm with ctrls := (List.range 12).map fun i => (i, { selfRefresh := true }) } }
    hbmFails bad (sliceDie homeN) 0x400 9 ∧ hbmFails asleep (sliceDie homeN) 0x400 0xD
      ∧ runs (.missFillComplete 0x400 none) bad (fun t => t.answers == [.fail 5 0x400 9, .fail 6 0x400 9] && t.comb.lines.isEmpty) = true
      ∧ runs (.missFillComplete 0x400 none) asleep (fun t => t.answers == [.fail 5 0x400 0xD, .fail 6 0x400 0xD]) = true := by
  unfold hbmFails; decide +kernel
theorem test_refusal_and_reissue :
    let q : Req := { agent := 5, master := 5, cls := 0, op := .read }
    let m : Miss := { line := 0x400, op := .fetch, waiters := List.replicate 33 q, starter := true }
    runs (.combRead core5 0x400 []) (homeState [] { miss := [m] }) (fun t => t.answers == [.refusedAt 5 0x400] && (getSlice t homeN).refuse == 1
        && (getSlice t homeN).refusals == [{ agent := 5, master := 5, line := 0x400, count := 1, req := some q }]) = true
      ∧ runs (.requestReissue 5 0x400) (homeState [(0x400, lineWith 7 {})] { refusals := [{ agent := 5, master := 5, line := 0x400, count := 1, req := some q }] }) (fun t =>
          t.answers == [.line 5 0x400 7] && (getSlice t homeN).refusals.isEmpty) = true := by decide +kernel

/-- A bad read whose retry is good, and two bad reads. -/
theorem test_strikes_of_a_fetch :
    let q : Req := { agent := 5, master := 5, cls := 0, op := .read }
    let s := homeState [] { miss := [{ line := 0x400, op := .fetch, waiters := [q] }] }
    runs (.missFillComplete 0x400 (some .once)) s (fun t => t.answers == [.line 5 0x400 0] && (getStack t (stackOf s 0x400)).retries == 1) = true
      ∧ runs (.missFillComplete 0x400 (some .twice)) s (fun t => t.answers == [.fail 5 0x400 9] && t.comb.lines.isEmpty) = true := by decide +kernel
/-- The debug port reads an array of a frozen device at FULL, once its die has been swept, and outside a freeze only at FULL. -/
theorem test_debug_port_at_the_comb :
    let s := homeState [(0x400, lineWith 7 {})] {}
    let f (swept : List Nat) := { s with sec := { s.sec with level := 2, frozen := true }, comb := { s.comb with swept } }
    let q : Requester := { agent := 1216, master := 1204, cls := 0, debug := true }
    scanLineReady 0x400 (f [sliceDie homeN]) = true ∧ runs (.combRead q 0x400 []) (f [sliceDie homeN]) (fun t => t.answers == [.line 1216 0x400 7]) = true
      ∧ runs (.combRead q 0x400 []) (f []) (fun t => t.answers == [.refused]) = true
      ∧ windowReach q { s with sec := { s.sec with level := 1 } } = false
      ∧ runs (.combRead q 0x400 []) { s with sec := { s.sec with level := 1 } } (fun t => t.answers == [.refused]) = true := by decide +kernel
/-- A layer reset has taken the line from its home; the host's data go to HBM. -/
theorem test_host_data_of_a_line_that_has_left :
    let s := { on with comb := { on.comb with hostLeft := [(0x400, 1215)] } }
    hbmAnswers s (sliceDie (hashHome s 0x400)) 0x400
      ∧ runs (.hostWriteBack 15 0x400 9) s (fun t => t.answers == [.ack 1215 0x400] && t.comb.hostLeft.isEmpty && byteAt t 0x10000 == 9) = true := by
  unfold hbmAnswers; decide +kernel
/-- Two lanes add at the last word: the second sees the first's sum. -/
theorem test_atomic_lanes_in_order :
    runs (.atomicApply core5 0x400 0 4 [{ off := 60, val := 0xFFFFFFFF }, { off := 60, val := 2 }]) (homeState [(0x400, lineWith 7 {})] {}) (fun t =>
      t.answers == [.olds 5 0x400 [0, 0xFFFFFFFF]] && byteAt t 0x1003C == 1 && byteAt t 0x10000 == 7) = true := by decide +kernel
/-- The first line of scratch, in way 0 of slice 0. -/
def scratchLn : BitVec 42 := 0x400000000
/-- The device with two scratch ways and lines. -/
def scratchState (l : List (Nat × CombLine)) : State := { on with comb := { on.comb with lines := l, split := 2 } }
/-- 1.5 + 2.25 = 3.75 in slot 15 of FP32 slots. -/
theorem test_contribution_combines :
    let t0 : RedTag := { exact := false, op := 0, fmt := 0, e := 0 }
    let l (t : Option RedTag) := mkLine 0 (BitVec.ofNat 512 (0x3FC00000 * 2 ^ 480)) {} t
    homeOf (scratchState []) 0x400000000 = .scratch 0 0
      ∧ runs (.reduceContribution core5 scratchLn 0 0 [(15, 0x40100000)]) (scratchState [(0x400000000, l (some t0))]) (fun t =>
          (t.comb.lines.map fun e => e.2.data) == [BitVec.ofNat 512 (0x40700000 * 2 ^ 480)]) = true
      ∧ runs (.reduceContribution core5 scratchLn 0 0 [(15, 0x40100000)]) (scratchState []) (fun t =>
          (t.comb.lines.map fun e => e.2.red) == [some t0]) = true
      ∧ runs (.reduceContribution core5 scratchLn 1 0 [(15, 0x40100000)]) (scratchState [(0x400000000, l (some t0))]) (fun t =>
          t.answers == [.fail 5 0x400000000 0x2B] && (getSlice t 0).redCause == 2) = true := by decide +kernel
theorem test_contribution_takes_a_line_into_reduce :
    let s (dir : Dir) (r : Option RedTag) := homeState [(0x400, mkLine 3 0 dir r)] {}
    reduceWays (s {} none) homeN 0x400 = 0
      ∧ runs (.reduceContribution core5 0x400 0 0 [(0, 0x3F800000)]) (s {} none) (fun t => (t.comb.lines.map fun e => (e.2.dir.st, e.2.data)) == [(.reduce, 0x3F800000)]
          && runs (.reduceContribution core5 0x400 0 0 [(0, 0x3F800000)]) t (fun u => (u.comb.lines.map fun e => e.2.data) == [0x40000000])) = true := by
  decide +kernel
theorem test_exact_contribution :
    let tg : RedTag := { exact := true, op := 0, fmt := 0, e := 0 }
    let l := mkLine 0 0 {} (some tg)
    let s := scratchState [(0x400000000, l), (0x400000001, l), (0x400000002, l), (0x400000003, l)]
    (exApply (toSigned 9 0) (accOf l.data 15) ((redSrc 0).decode 0x3F800000)).2 = false
      ∧ runs (.exactContribution core5 scratchLn 0 0 [(15, 0x3F800000)]) s (fun t => t.answers == [.ack 5 0x400000000]
          && (t.comb.lines.map fun e => decide (e.2.data = 0)) == [true, true, true, false]) = true
      ∧ runs (.exactContribution core5 0x400 0 0 [(0, 0)]) s (fun t => t.answers == [.fail 5 0x400 0x2C]) = true := by decide +kernel

theorem test_slice_upkeep :
    homeSlice (homeState [] {}) 0x400 = some homeN ∧ homeN < 2592 ∧ sliceUp (homeState [] {}) 0 = true
      ∧ runs (.reduceWayWaitTimeout 0x400) (homeState [] { miss := [{ line := 0x400, op := .wayWait, waiters := [] }] }) (fun t => (getSlice t homeN).redCause == 16) = true
      ∧ runs (.patrolScrubVisit 0 true []) { on with comb := { on.comb with slices := [(0, { scrubPos := 32767 })] } } (fun t =>
          (getSlice t 0).scrubPos == 0 && (getSlice t 0).scrubDrop == 1 && (getSlice t 0).cause == 16) = true
      ∧ runs (.patrolScrubVisit 0 false []) on (fun t => (getSlice t 0).scrubPos == 1 && (getSlice t 0).scrubDrop == 0) = true
      ∧ runs (.sliceWake 0) on (fun t => (getSlice t 0).gen == 1 && (getSlice t 0).sweeping
          && runs (.wakeSweepComplete 0) t (fun u => !(getSlice u 0).sweeping && u.comb.swept == [0])) = true := by decide +kernel
theorem test_scrub_of_a_good_line :
    let s := homeState [(0x400, lineWith 7 {})] { scrubPos := storageLine 0x400 3 }
    ((sliceLines s homeN).find? fun e => storageLine e.1 e.2.way == storageLine 0x400 3) = some (0x400, lineWith 7 {})
      ∧ lineHeld s homeN 0x400 = false
      ∧ runs (.patrolScrubVisit (Fin.ofNat 2592 homeN) false []) s (fun t => t.comb.lines == [(0x400, lineWith 7 {})] && (getSlice t homeN).corr == 0) = true := by
  decide +kernel
theorem test_split_change :
    performed .mp false 1 31 0 on
      ∧ runs (.splitChange .mp 3) (withCore 0 { st := .loaded }) (fun t => t.answers == [.busError] && t.comb.split == 0) = true
      ∧ runs (.splitChange .mp 3) { on with comb := { on.comb with lines := [(0x400000000, lineWith 1 {}), (0x400, lineWith 7 {})] } } (fun t =>
          t.comb.split == 3 && t.comb.lines.map Prod.fst == [0x400] && t.comb.splitTo == none) = true
      ∧ runs (.splitChange .mp 2) (scratchState [(0x400000000, lineWith 1 {})]) (fun t =>
          t.comb.split == 2 && t.comb.lines.map Prod.fst == [0x400000000]) = true := by
  unfold performed; decide +kernel

/-! ### Stacks and the regulator -/

/-- The stack of line 0x400. -/
def stackN : Nat := stackOf on 0x400
/-- The device with the registers of that stack, and lines that read bad. -/
def stackState (k : Stack) (bad : List Nat) : State := { on with hbm := { on.hbm with ctrls := [(stackN, k)], bad, mem := memWrite {} 0x10000 1 7 } }
theorem test_stack_reads :
    inHbm (64 * 0x400) = true ∧ layerDown (stackState {} []) 0 = false ∧ memWf (stackState {} []).hbm.mem = true
      ∧ runs (.hbmRead core5 0x400 true false 3) (stackState {} []) (fun t => t.answers == [.line 5 0x400 7] && (getStack t stackN).eccCorr == 3
          && tblGet 0 t.reg.counts 5 == 64) = true
      ∧ runs (.hbmRead core5 0x400 false true 0) (stackState {} []) (fun t => t.answers == [.line 5 0x400 7] && (getStack t stackN).retries == 1) = true
      ∧ runs (.hbmRead core5 0x400 false false 0) (stackState {} []) (fun t => t.answers == [.fail 5 0x400 9] && t.hbm.bad == [0x400]
          && (getStack t stackN).failAddr == some (0x400, false)) = true
      ∧ runs (.hbmRead core5 0x400 true true 0) (stackState { selfRefresh := true } []) (fun t => t.answers == [.fail 5 0x400 0x0D]) = true := by decide +kernel
/-- A request of level 2 waits at the stack: a read that is not it has no turn, and its own read takes it from the queue. -/
theorem test_turns_at_a_stack :
    let s := { stackState {} [] with reg := { on.reg with waiting := [{ id := 1, master := 9, cls := 0, line := 0x400, level := 2, droppable := false }] } }
    takeTurn core5 0x400 (clearAnswers s) = none ∧ runs (.hbmRead core5 0x400 true false 3) s (fun t => decide (t = s)) = true
      ∧ runs (.hbmRead { core5 with master := 9 } 0x400 true false 0) s (fun t => t.reg.waiting.isEmpty && t.answers == [.line 5 0x400 7]
          && tblGet 0 t.reg.counts 9 == 0) = true := by decide +kernel
/-- The first line above the HBM window. -/
theorem test_stack_address_above_hbm :
    inHbm (64 * 12884901888) = false
      ∧ runs (.hbmWrite core5 12884901888 1 1 true) on (fun t => t.answers == [.fail 5 12884901888 2]) = true := by decide +kernel
theorem test_stack_writes :
    runs (.hbmWrite core5 0x400 2 0xBBAA true) (stackState {} [0x400]) (fun t => memRead t.hbm.mem 0x10000 2 == 0xBB07 && t.hbm.bad.isEmpty
        && t.answers == [.ack 5 0x400]) = true
      ∧ runs (.hbmWrite core5 0x400 2 0xBBAA false) (stackState {} []) (fun t => memRead t.hbm.mem 0x10000 2 == 7 && (getStack t stackN).cause == 8
          && t.mgt.stepInt.getLsbD 31) = true := by decide +kernel
/-- 85 °C does not double the refresh and 86 does; 94 does not throttle and 95 does; at 90 throttling stays. -/
theorem test_stack_temperatures :
    let at_ (k : Stack) (c : Byte) (f : Stack → Bool) := runs (.hbmTempRead 3 c) { on with hbm := { on.hbm with ctrls := [(3, k)] } } fun t => f (getStack t 3)
    (at_ {} 85 fun k => !k.refreshX2) = true ∧ (at_ {} 86 fun k => k.refreshX2) = true ∧ (at_ { refreshX2 := true } 80 fun k => k.refreshX2) = true
      ∧ (at_ { refreshX2 := true } 79 fun k => !k.refreshX2) = true
      ∧ (at_ {} 94 fun k => !k.throttled) = true ∧ (at_ {} 95 fun k => k.throttled && k.cause == 2) = true
      ∧ (at_ { throttled := true } 90 fun k => k.throttled) = true ∧ (at_ { throttled := true } 89 fun k => !k.throttled) = true := by decide +kernel
theorem test_stack_patrol_and_self_refresh :
    runs (.hbmPatrolRead 3 true true true 0) { on with hbm := { on.hbm with ctrls := [(3, { patrolPos := 268435455 })] } } (fun t =>
        (getStack t 3).patrolPos == 268435456 && (getStack t 3).patrolDrop == 1
        && runs (.hbmPatrolRead 3 false true true 0) t (fun u => decide (u = t)) && (getStack t 3).cause == 16) = true
      ∧ runs (.hbmPatrolRead 3 false true true 2) on (fun t => (getStack t 3).patrolPos == 1 && (getStack t 3).eccCorr == 2) = true
      ∧ runs (.selfRefreshEntry 3) on (fun t => (getStack t 3).selfRefresh) = true := by decide +kernel

/-- A reservation in force of masters 0 to 9 in class 2, with 1 times 64 bytes for each master. -/
def rsvState : State :=
  { on with reg := { on.reg with rsv := [(0, { lo := BitVec.ofNat 32 (9 * 2 ^ 11 + 2 * 2 ^ 22), budget := 1, admitted := true, eff := 1, effNext := 1, inForce := true, now := BitVec.ofNat 32 (9 * 2 ^ 11 + 2 * 2 ^ 22) })] } }
theorem test_request_levels :
    runs (.requestAdmission 7 9 2 false none 0x400) rsvState (fun t => t.reg.waiting == [{ id := 7, master := 9, cls := 2, line := 0x400, level := 2, droppable := false }]
        && tblGet 0 t.reg.counts 9 == 64
        && runs (.requestAdmission 8 9 2 false none 0x400) t (fun u => (u.reg.waiting.map fun r => r.level) == [2, 0])) = true
      ∧ runs (.requestAdmission 7 10 2 false none 0x400) rsvState (fun t => (t.reg.waiting.map fun r => r.level) == [1]) = true
      ∧ runs (.requestAdmission 7 9 5 true (some 0) 0x400) rsvState (fun t => t.reg.waiting.isEmpty && tblGet 0 t.reg.clsDrop 5 == 1 && t.answers == [.dropped 7]) = true
      ∧ runs (.requestAdmission 7 9 2 true (some 0) 0x400) rsvState (fun t => (t.reg.waiting.map fun r => r.level) == [3]) = true
      ∧ (hbmClass rsvState 5).getLsbD 31 = true ∧ (hbmClass rsvState 2).getLsbD 30 = false := by decide +kernel
theorem test_deadline_and_age :
    let s (drop : Bool) := { on with reg := { on.reg with waiting := [{ id := 7, master := 9, cls := 5, line := 0x400, level := 1, droppable := drop }] } }
    runs (.deadlineExpiry 7) (s true) (fun t => t.reg.waiting.isEmpty && tblGet 0 t.reg.clsDrop 5 == 1 && t.answers == [.dropped 7]) = true
      ∧ runs (.deadlineExpiry 7) (s false) (fun t => (t.reg.waiting.map fun r => r.level) == [3]) = true
      ∧ runs (.requestAgeing 7) (s false) (fun t => (t.reg.waiting.map fun r => r.level) == [2]) = true
      ∧ runs .regulatorWindowBoundary { rsvState with reg := { rsvState.reg with counts := [(9, 64)] } } (fun t => t.reg.counts.isEmpty
          && (t.reg.rsv.map fun e => e.2.eff) == [1]) = true := by decide +kernel
/-- A range that ends above master 1,204, one that meets the entry at master 9, one above the limit, and a good one. -/
theorem test_reservations :
    let w (first last cls : Nat) : Word32 := BitVec.ofNat 32 (first + last * 2 ^ 11 + cls * 2 ^ 22 + 2 ^ 31)
    let big := { rsvState with reg := { rsvState.reg with rsv := rsvState.reg.rsv ++ [(1, { budget := 0xFFFFF })] } }
    performed .mp false 0 31 96 rsvState
      ∧ runs (.reservationAdmission .mp 1 (w 0 1205 1)) rsvState (fun t => t.reg.reason == 3 && !(getRsv t 1).admitted) = true
      ∧ runs (.reservationAdmission .mp 1 (w 9 20 2)) rsvState (fun t => t.reg.reason == 2 && t.reg.cause == 2) = true
      ∧ runs (.reservationAdmission .mp 1 (w 10 20 2)) big (fun t => t.reg.reason == 1) = true
      ∧ runs (.reservationAdmission .mp 1 (w 10 20 2)) rsvState (fun t => (getRsv t 1).admitted && (getRsv t 0).admitted && t.reg.reason == 0) = true := by
  unfold performed; decide +kernel

/-! ### Boxes and posts -/

theorem test_box_is_reached :
    boxReached (.via (.host 0)) 0 on ∧ boxReached .controller 2408 on ∧ boxReached (.via .mp) 2455 on :=
  ⟨⟨3, 0, 0, by decide +kernel, by unfold performed; decide +kernel⟩, ⟨3, 0, 64, by decide +kernel, by decide +kernel⟩,
    ⟨3, 23, 64, by decide +kernel, by unfold performed; decide +kernel⟩⟩
/-- The device with a box. -/
def boxState (i : Nat) (b : Box) : State := { on with mbx := { on.mbx with boxes := [(i, b)] } }
theorem test_box_fills_and_tells :
    let msi : Word32 := BitVec.ofNat 32 (2 ^ 31 + 3 * 2 ^ 26 + 255)
    runs (.mailboxDataWrite (.via .mp) (.c2h 0) 15 9) (boxState 1200 {}) (fun t => (getBox t 1200).data == BitVec.ofNat 512 (9 * 2 ^ 480)) = true
      ∧ runs (.mailboxSend (.via .mp) (.c2h 0) 64) (boxState 1200 { intFull := true, msi }) (fun t => (getBox t 1200).full
          && t.mbx.eip == [(3 * 4096 + 255, true)]) = true
      ∧ runs (.mailboxSend (.via .mp) (.c2h 0) 65) (boxState 1200 {}) (fun t => t.answers == [.busError] && !(getBox t 1200).full) = true
      ∧ runs (.mailboxSend (.via .mp) (.c2h 0) 1) (boxState 1200 { full := true }) (fun t => (t.mgt.ring.map fun e => e.code) == [0x0C]) = true := by
  decide +kernel
theorem test_box_empties :
    coreEnd on 0 = false
      ∧ runs (.mailboxRelease (.via (.host 0)) (.c2h 0)) (boxState 1200 { full := true }) (fun t => !(getBox t 1200).full && t.answers == [.done]) = true
      ∧ runs (.mailboxRelease (.via .mp) (.h2m 0)) (boxState 2400 { full := true }) (fun t => (getBox t 2400).full && t.answers == [.busError]) = true
      ∧ runs (.mailboxAck (.via .mp) (.h2m 0) 0x12345) (boxState 2400 { full := true }) (fun t => (getBox t 2400).ack == 0x2345 && (getBox t 2400).ackValid) = true
      ∧ runs (.mailboxAck (.via .mp) (.c2h 0) 1) (boxState 1200 { full := true }) (fun t => t.answers == [.busError]) = true := by decide +kernel
theorem test_posts :
    let p : PostMsg := { handle := 4, box := 7, hdr := 3, data := 9 }
    (on.mbx.posts.length < postLimit ∧ boxReachable on 7 = true ∧ coreEnd on 7 = false)
      ∧ runs (.post (.post (.h2c 7) 3 9)) on (fun t => t.answers == [.handle 0] && (getBox t 7).full && (getBox t 7).data == 9 && t.mbx.posts.isEmpty) = true
      ∧ runs (.post (.post (.h2c 7) 3 9)) (boxState 7 { full := true }) (fun t => t.mbx.posts == [{ handle := 0, box := 7, hdr := 3, data := 9 }]) = true
      ∧ runs (.post (.post (.c2h 7) 3 9)) on (fun t => t.answers == [.refused]) = true
      ∧ runs (.post (.withdraw 4)) { on with mbx := { on.mbx with posts := [p] } } (fun t => t.mbx.posts.isEmpty && t.answers == [.done]) = true
      ∧ runs (.post (.withdraw 5)) { on with mbx := { on.mbx with posts := [p] } } (fun t => t.answers == [.refused]) = true
      ∧ runs (.post (.retry (.h2c 7))) { on with mbx := { on.mbx with posts := [p] } } (fun t => (getBox t 7).full && (getBox t 7).hdr == 3) = true := by
  refine ⟨⟨Nat.succ_pos _, by decide +kernel, by decide +kernel⟩, ?_, ?_, ?_, ?_, ?_, ?_⟩ <;> decide +kernel

/-! ### Resets -/

theorem test_reset_keys :
    performed .mp false 0 31 176 on
      ∧ runs (.coldReset .mp 0x5A000001) on (fun t => t.boot.ready && t.answers == [.done]) = true
      ∧ runs (.coldReset .mp 0xA5000001) (withCore 4 { st := .run }) (fun t => !t.boot.ready && (getCore t 4).st == .empty && t.rst.cause == 0x2003
          && t.rst.cold == 1 && (t.mgt.ring.map fun e => e.code) == [0x10C]) = true
      ∧ runs (.warmReset (.host 3) 0xA5000002) on (fun t => t.rst.cause == 0x1110 && t.rst.warm == 1 && (getStack t 11).selfRefresh) = true
      ∧ runs (.warmReset (.host 3) 0xA5000002) { on with boot := { on.boot with everReady := false } } (fun t => t.rst.cause == 0x1010 && t.rst.cold == 1) = true := by
  unfold performed; decide +kernel
theorem test_resets_without_a_requester :
    runs .mpWatchdogExpiry on (fun t => t.rst.cause == 0x05) = true ∧ runs .resetNAssert on (fun t => t.rst.cause == 0x02 && t.pins.reset) = true
      ∧ runs .resetNAssert {} (fun t => t.pins.reset && t.rst.cold == 0) = true
      ∧ runs .alwaysOnReady { pwr := { feeds := [(1, { inUse := true })] } } (fun t => t.pins.alwaysOn && t.rst.cause == 0x01) = true
      ∧ runs .resetNRelease { pins := { reset := true } } (fun t => !t.pins.reset) = true := by decide +kernel
/-- A layer reset in a phase. -/
def layerState (l : Nat) (phase : LayerPhase) : State := { on with rst := { on.rst with layerOp := some { layer := l, force := false, phase } } }
theorem test_layer_reset_is_taken_up :
    runs (.layerReset .mp 0x27) on (fun t => t.rst.layerOp == some { layer := 7, force := true, phase := .drain, by_ := 2 } && t.answers == [.done]) = true
      ∧ runs (.layerReset .mp 8) on (fun t => t.rst.layerOp == none && (t.mgt.ring.map fun e => e.code) == [0x10C]) = true
      ∧ runs (.layerReset (.host 0) 0) on (fun t => t.rst.layerOp == none) = true
      ∧ runs (.layerReset .mp 0) on (fun t => (getStack t 11).selfRefresh) = true := by decide +kernel
theorem test_layer_drain_ends :
    let q : Req := { agent := 5, master := 5, cls := 0, op := .read }
    let s (m : List Miss) := { layerState 1 .drain with comb := { on.comb with slices := [(7, { miss := m })] } }
    runs .layerDrainEnd (layerState 3 .drain) (fun t => t.rst.layerOp == some { layer := 3, force := false, phase := .hold }) = true
      ∧ runs .layerDrainEnd (s []) (fun t => t.rst.layerOp == some { layer := 1, force := false, phase := .hold } && !t.rst.lost) = true
      ∧ dieLayer 7 = 1
      ∧ runs .layerDrainEnd (s [{ line := 9, op := .fetch, waiters := [q] }]) (fun t => t.rst.lost && t.answers == [.fail 5 9 0x0B] && (getSlice t 7).miss.isEmpty) = true := by
  decide +kernel
theorem test_layer_release_of_the_base :
    runs .layerResetRelease { layerState 0 .hold with reg := rsvState.reg } (fun t => t.reg.rsv.isEmpty) = true := by decide +kernel
theorem test_layer_release_of_a_die_witness :
    frozen (layerState 1 .hold) = false ∧ (layerState 1 .hold).rst.layerOp = some { layer := 1, force := false, phase := .hold } := by decide
theorem test_layer_release_of_the_cores : regionCores.coreUp (layerState 3 .hold) 1199 = true := by decide +kernel
theorem test_layer_release_of_a_link_die :
    runs .layerResetRelease { layerState 7 .hold with net := { on.net with links := [(47, activeLink)] } } (fun t => (getLink t 47).st == .disabled
          && (getLink t 47).saved == some (savedAs 7 3)) = true := by decide +kernel
theorem test_layer_ready :
    runs (.layerReady [] false) (layerState 4 .restore) (fun t => t.rst.layerOp == none && (t.mgt.ring.map fun e => e.code) == [0x10C]) = true
      ∧ runs (.layerReady [] true) (layerState 0 .restore) (fun t => t.rst.cause == 0x2003) = true
      ∧ runs (.layerReady [] false) { layerState 0 .restore with hbm := { on.hbm with mem := memWrite {} 5 1 5 } } (fun t => memGet t.hbm.mem 5 == 5) = true
      ∧ runs (.layerReady [3] false) (layerState 0 .restore) (fun t => t.hbm.mem.epoch != 0 && t.mgt.stepInt.getLsbD 31) = true := by decide +kernel
theorem test_region_reset :
    runs (.regionReset .mp 23) { on with cores := [(1199, { st := .run, xlat := [(1, 2, 3)] })] } (fun t => (getCore t 1199).resetting && (getCore t 1199).xlat.isEmpty
        && t.rst.regionBusy == [23]) = true
      ∧ runs (.regionReset .mp 24) on (fun t => t.rst.regionBusy.isEmpty && (t.mgt.ring.map fun e => e.code) == [0x10C]) = true
      ∧ runs (.regionReset .mp 23) { on with boot := { on.boot with badSites := (List.range 54).map fun i => 1242 + i } } (fun t =>
          t.rst.regionBusy.isEmpty && (t.mgt.ring.map fun e => e.detail) == [BitVec.ofNat 80 (3 + 23 * 2 ^ 16 + 2 * 2 ^ 40)]) = true := by decide +kernel
theorem test_core_reset :
    runs (.coreReset .mp 1199) (withCore 1199 { st := .run }) (fun t => (getCore t 1199).resetting && (getCore t 1199).st == .run
        && runs (.coreResetComplete 1199) t (fun u => (getCore u 1199).st == .empty && tblGet 0 u.pwr.siteGen 1291 == 1 && (u.mgt.ring.map fun e => (e.code, e.detail)) == [(0x10C, BitVec.ofNat 80 (4 + 1199 * 2 ^ 16 + 2 * 2 ^ 40))])) = true
      ∧ runs (.coreReset .mp 1200) on (fun t => (t.mgt.ring.map fun e => e.code) == [0x10C]) = true
      ∧ runs (.coreResetComplete 0) { on with cores := [(0, { resetting := true }), (1, { resetting := true })], rst := { on.rst with regionBusy := [0] } } (fun t =>
          t.rst.regionBusy == [0] && t.mgt.ring.isEmpty) = true := by decide +kernel
/-- R306: the two rows of its table. -/
theorem test_capacity_and_limit :
    (regCapacity on, regLimit on) = (1494216, 1344794)
      ∧ let s := { on with hbm := { on.hbm with ctrls := (List.range 12).map fun i => (i, { refreshX2 := true }) } }
        (regCapacity s, regLimit s) = (1415568, 1274011) := by decide +kernel

/-! ### Clocks and start-up -/

/-- The device at work, the firmware of MP running. -/
def mpOn : State := { on with pins := { on.pins with alertLive := true } }
theorem test_crystal_good :
    runs .crystalGood { on with clk := {} } (fun t => t.clk.datum && t.clk.pllLock && !t.boot.hostHeld) = true
      ∧ runs .crystalGood { on with pwr := { on.pwr with st := .standby, xtalHold := true } } (fun t => t.rst.cause == 0x2112 && !t.pwr.xtalHold) = true
      ∧ runs .crystalGood { on with boot := { on.boot with everReady := false }, pwr := { on.pwr with xtalHold := true } } (fun t => t.rst.cause == 0x2012) = true := by
  decide +kernel
theorem test_crystal_trip :
    runs .crystalTrip { on with clk := { on.clk with datum := true } } (fun t => t.clk.stopped && t.clk.cause == 3 && t.pwr.xtalHold && t.pwr.st == .standby
        && (getStack t 11).selfRefresh) = true
      ∧ runs .crystalTrip { on with clk := { on.clk with datum := true }, sec := { on.sec with frozen := true } } (fun t => t.clk.stopped && t.pwr.st == .on
          && !t.pwr.xtalHold && t.pins.pwrGood && (getStack t 0).selfRefresh) = true
      ∧ runs .crystalTrip { on with clk := { on.clk with datum := true } } (fun t => !t.pins.pwrGood && t.boot.hostHeld) = true
      ∧ runs .crystalTrip { on with clk := { on.clk with datum := false } } (fun t => !t.clk.stopped && !t.pwr.xtalHold) = true := by decide +kernel
theorem test_droop_levels :
    runs (.droopCrossing 23 2 true) on (fun t => levelOf t 23 2 == 2 && levelOf t 23 1 == 0 && levelOf t 22 2 == 0 && t.clk.cause == 4
        && runs (.droopCrossing 23 2 false) t (fun u => levelOf u 23 2 == 2)
        && runs (.droopRelease 23 2 9) t (fun u => levelOf u 23 2 == 1 && (tblGet {} u.clk.rgn 23).swallow == 0)) = true
      ∧ runs (.droopRelease 0 0 9) on (fun t => levelOf t 0 0 == 0 && (tblGet {} t.clk.rgn 0).swallow == 9) = true := by decide +kernel
theorem test_swallowed_edges_saturate :
    runs (.effectiveLimitEnforcement 4 9) { on with pwr := { on.pwr with fps := [(4, { compute := .on })] }, clk := { on.clk with rgn := [(4, { swallow := 0xFFFFFFFA })] } }
        (fun t => (tblGet {} t.clk.rgn 4).swallow == 0xFFFFFFFF) = true
      ∧ runs (.effectiveLimitEnforcement 4 9) { on with pwr := { on.pwr with fps := [(4, { compute := .asleep })] } } (fun t => (tblGet {} t.clk.rgn 4).swallow == 0) = true := by
  decide +kernel
theorem test_peripheral_gate :
    runs (.peripheralGate .mp 0xFFFFFFD5) on (fun t => t.clk.periphEn == 0x15 && t.answers == [.done]) = true := by decide +kernel

/-- A powered device before start-up. -/
def dark : State := { pins := { alwaysOn := true, pwrEn := true }, pwr := { feeds := [(0, { inUse := true })] } }
theorem test_start_up_without_rails :
    mayStart dark = true ∧ mayStart on = false
      ∧ runs (.startUp { rails := false }) dark (fun t => t.boot.failed && t.boot.reason == 1 && t.boot.step == 10 && t.boot.gen == 1
        && (t.mgt.ring.map fun e => e.code) == [0x10B]) = true := by decide +kernel
/-- Erased slots (R457): no slot is valid. -/
theorem test_start_up_without_slot :
    runs (.startUp {}) { dark with boot := { gen := 255 } } (fun t => t.boot.failed && t.boot.reason == 2 && t.boot.gen == 1) = true := by decide +kernel
theorem test_host_boot_timeout :
    runs .hostBootTimeout { on with boot := { ready := false, step := 9, hostHeld := false } } (fun t => t.boot.failed && t.boot.reason == 6 && t.boot.hostHeld
        && t.boot.step == 10) = true
      ∧ runs .hostBootTimeout on (fun t => !t.boot.failed) = true
      ∧ mpUp mpOn = true ∧ mpUp on = false
      ∧ runs (.learnedListWrite true) { mpOn with boot := { mpOn.boot with learned := [{ kind := 5, index := 3, bad := true, origin := 1 }] } } (fun t =>
          t.boot.learnedNvm.length == 1 && t.boot.learnedSeq == 1) = true
      ∧ runs (.learnedListWrite false) mpOn (fun t => t.boot.learnedNvm.isEmpty && (t.mgt.ring.map fun e => e.code) == [0x10E]) = true := by decide +kernel

/-! ### A slot that boots

The signature check is an opaque function of Config (log 12), so the witness of the start-up that ends ready takes its answer as a premise. -/

theorem memGet_below (bs : List Byte) : ∀ (m : ByteMem) (a x : Nat), x < a → memGet (memWriteBytes m a bs) x = memGet m x := by
  induction bs with
  | nil => intros; rfl
  | cons b r ih =>
    intro m a x h
    rw [memWriteBytes, ih _ _ _ (by omega), memGet_memPut_other _ _ _ _ (by omega)]
theorem memGet_written (bs : List Byte) : ∀ (m : ByteMem) (a i : Nat) (h : i < bs.length), memWf m = true → memGet (memWriteBytes m a bs) (a + i) = bs[i] := by
  induction bs with
  | nil => intro m a i h; simp at h
  | cons b r ih =>
    intro m a i h w
    cases i with
    | zero => rw [memWriteBytes, memGet_below _ _ _ _ (by omega), Nat.add_zero, memGet_memPut_same _ _ _ w]; rfl
    | succ i =>
      have := ih (memPut m a b) (a + 1) i (by simpa using h) (memWf_memPut _ _ _ w)
      rw [memWriteBytes, show a + (i + 1) = a + 1 + i by omega, this]; rfl

/-- A flash image at the start of slot A, of which the slot's bytes are the complement. -/
theorem fwBytes_image (fl : List Byte) (s : State) (h : s.sec.slotA = memWriteBytes {} 0 (fl.map fun x => ~~~x)) (off n : Nat)
    (hn : off + n ≤ fl.length) : fwBytes s false off n = (fl.drop off).take n := by
  apply List.ext_getElem
  · simp [fwBytes, memBytes]; omega
  · intro i h1 h2
    have hi : i < n := by simpa [fwBytes, memBytes] using h1
    have hl : off + i < (fl.map fun x => ~~~x).length := by simp; omega
    have := memGet_written (fl.map fun x => ~~~x) {} 0 (off + i) hl memWf_empty
    simp [fwBytes, memBytes, slotMem, h]
    rw [Nat.zero_add] at this
    simp [this]

/-- SHA3-512 of the empty message, from FIPS 202's published value. -/
def emptyDigest : BitVec 512 :=
  0x26CD1D2886857501E3D3B6959D1900F558C53A2C40E9E3114CF9F5F13A12B215A6805C47C1DCD1E05958E24F1682C9976E755A18DC67B5C8C59A3AA2CC739FA6
theorem test_sha3_of_nothing : sha3 [] = emptyDigest := by decide +kernel
/-- A header with five empty components, signed by the root key, whose key and signature fields are zero. -/
def slotHead : List Byte :=
  leBytes 64 0x157465644 ++ (([1, 2, 3, 4, 5] : List Nat).flatMap fun t => leBytes 8 t ++ leBytes 24 0x4000 ++ leBytes 64 emptyDigest.toNat) ++ leBytes 480 0
/-- The whole header. -/
def slotHeader0 : List Byte := slotHead ++ List.replicate 0x2C00 0
/-- A slot's first bytes: the header, no trial counted, the confirm word zero. -/
def slotImage : List Byte := slotHeader0 ++ List.replicate 8 0xFF ++ List.replicate 8 0
/-- The slot's memory. -/
def slotCells : ByteMem := memWriteBytes {} 0 (slotImage.map fun x => ~~~x)
/-- A device with a slot and a root key. -/
def withSlot (s : State) (m : ByteMem) (k : BitVec 512) (b : Bool) : State := { s with sec := { slotA := m, otp := { rootHash := k }, slot := b } }
/-- A device with that slot, signed by its root key. -/
def bootable (s : State) (b : Bool) : State := withSlot s slotCells (slotKey slotHeader0) b
theorem withSlot_otp (s : State) (m : ByteMem) (k : BitVec 512) (b : Bool) : (withSlot s m k b).sec.otp = { rootHash := k } := rfl
theorem withSlot_slot (s : State) (m : ByteMem) (k : BitVec 512) (b : Bool) : (withSlot s m k b).sec.slotA = m := rfl
theorem bootable_otp (s : State) (b : Bool) : (bootable s b).sec.otp = { rootHash := slotKey slotHeader0 } := by rw [bootable, withSlot_otp]
theorem bootable_slot (s : State) (b : Bool) : (bootable s b).sec.slotA = slotCells := by rw [bootable, withSlot_slot]

theorem slotHead_length : slotHead.length = 0x400 := by decide +kernel
theorem slotHeader0_length : slotHeader0.length = 0x3000 := by rw [slotHeader0]; simp only [List.length_append, List.length_replicate, slotHead_length]
theorem slotImage_length : slotImage.length = 0x3010 := by rw [slotImage]; simp only [List.length_append, List.length_replicate, slotHeader0_length]
theorem slot_header (s : State) (h : s.sec.slotA = slotCells) : slotHeader s false = slotHeader0 := by
  rw [slotHeader, fwBytes_image slotImage s h 0 0x3000 (by have := slotImage_length; omega)]
  rw [List.drop_zero, slotImage, List.append_assoc slotHeader0, List.take_left' slotHeader0_length]
theorem slot_confirm (s : State) (h : s.sec.slotA = slotCells) : confirmWord s false = 0 := by
  rw [confirmWord, fwBytes_image slotImage s h _ 8 (by have := slotImage_length; omega)]
  rw [slotImage, List.drop_left' (by simp only [List.length_append, List.length_replicate, slotHeader0_length])]
  decide
theorem slot_not_rejected (s : State) (h : s.sec.slotA = slotCells) : slotRejected s false = false := by
  have e : trialWord s false = leNat (List.replicate 8 0xFF) := by
    rw [trialWord, fwBytes_image slotImage s h _ 8 (by have := slotImage_length; omega)]
    rw [slotImage, List.append_assoc slotHeader0, List.drop_left' slotHeader0_length]
    decide
  simp only [slotRejected, slot_confirm s h, e]
  decide
theorem slotHeader0_components : ∀ t : Fin 6, 1 ≤ t.val → componentOf slotHeader0 t.val = some (t.val, 0x4000, 0, emptyDigest) := by decide +kernel
theorem no_bytes (s : State) (b : Bool) (a : Nat) : fwBytes s b a 0 = [] := by simp only [fwBytes, memBytes, List.range_zero, List.map_nil]
theorem slot_components (s : State) (h : s.sec.slotA = slotCells) (t : Nat) (h1 : 1 ≤ t) (h2 : t ≤ 5) : digestOk s false t = true := by
  have e : componentOf (slotHeader s false) t = some (t, 0x4000, 0, emptyDigest) := by
    rw [slot_header s h]; exact slotHeader0_components ⟨t, by omega⟩ h1
  unfold digestOk
  rw [e]
  simp only [no_bytes, test_sha3_of_nothing, beq_self_eq_true]
/-- What the opaque signature check would have to answer for that header. -/
def slotAccepted : Prop := Config.verify "druov-fw" (slotKey slotHeader0) (slotHeader0.take 0x400) ((slotHeader0.drop 0xE20).take 4627) = true
theorem slot_signed (s : State) (h : slotAccepted) (ho : s.sec.otp = { rootHash := slotKey slotHeader0 }) : headerSigned s slotHeader0 = true := by
  have r : isRootKey s (slotKey slotHeader0) = true := by rw [isRootKey, ho, beq_self_eq_true]
  have p : s.sec.otp.policy = 0 := by rw [ho]
  have v : arbValue s.sec.otp 0 = 0 := by rw [ho]; rfl
  have w : bytesAt slotHeader0 0x18 1 = 0 := by decide +kernel
  simp only [slotAccepted] at h
  rw [headerSigned, h, r, w, v, p, if_neg (by decide)]
  decide +kernel
/-- What StartUpEndsReadyOrFailed asks of the slots for a start that ends ready is met when the signature check accepts the header. -/
theorem test_start_up_chooses_a_signed_slot (h : slotAccepted) :
    let s := bootable dark false
    mayStart s = true ∧ slotChoice s = some false ∧ confirmWord s false = 0 ∧ (∀ t, 1 ≤ t → t ≤ 5 → digestOk s false t = true)
      ∧ s.boot.fuseBad = [] ∧ s.boot.learnedNvm = [] ∧ (s.rst.cause.toNat / 256) % 16 ≠ 1 ∧ lifecycle s ≠ 3 := by
  intro s
  have b : slotValid s true = false := by decide +kernel
  have c : slotValid s false = true := by
    rw [slotValid, slot_header s (bootable_slot _ _), slot_signed s h (bootable_otp _ _), slot_components s (bootable_slot _ _) 1 (by omega) (by omega)]; rfl
  refine ⟨by decide +kernel, ?_, slot_confirm s (bootable_slot _ _), slot_components s (bootable_slot _ _), rfl, rfl, by decide +kernel, by decide +kernel⟩
  simp only [slotChoice, b, c, slot_not_rejected s (bootable_slot _ _)]
  decide
/-- Step 3 with a UCIe loopback failed ends with reason 0x03, the port's cause kept; step 5 with stack 7 untrained names it in the event. -/
theorem test_start_up_names_what_failed :
    (match step3 { ucie := [2] } dark with | .stop t => t.boot.reason == 3 && t.boot.ucieCause == [2] | _ => false) = true
      ∧ (match step3 { hosts := [4], ports := [8] } dark with
          | .on t => t.boot.badHosts == [4] && t.boot.portCause == [8] && t.mgt.cause.getLsbD 1 | _ => false) = true
      ∧ (match step5 { untrained := [7] } dark with
          | .stop t => t.boot.reason == 4 && !(getStack t 7).trained && (getStack t 6).trained && (t.mgt.ring.map fun e => e.detail) == [0x8004] | _ => false) = true := by
  decide +kernel

/-! ### Swarm load and the loader -/

/-- The bytes of a chunk list in memory: the digest table at 0x1000, two entries at most. -/
def swarmMem (cells : ByteMem) : State := { on with hbm := { on.hbm with mem := cells } }
/-- One entry: chunk 0 of section 5, 16 bytes at 0x2000, for logical core 1199. -/
def oneEntry : ByteMem :=
  memWrite (memWrite (memWrite (memWrite {} 0 24 (0x1000 + 1 * 2 ^ 128)) 64 16 (0x2000 + 16 * 2 ^ 48 + 5 * 2 ^ 64 + 1199 * 2 ^ 96)) 0x1280 8 16) 0x2000 1 0xAB
theorem test_swarm_send :
    runs (.swarmSend .mp 0xBEEF) (swarmMem oneEntry) (fun t => t.answers == [.done] && t.swarm.op == 1 && t.swarm.loadId == 0xBEEF
        && t.swarm.packets.map (fun p => (p.sect, p.chunk, p.len, p.target, p.size, p.dest)) == [(5, 0, 16, 1199, 16, [23])]
        && t.swarm.packets.map (fun p => (p.data.take 2, p.data.length)) == [([0xAB, 0], 16)]
        && runs (.swarmSend .mp 1) t (fun u => u.answers == [.busError] && u.swarm.loadId == 0xBEEF)) = true := by decide +kernel
theorem test_swarm_send_ends :
    runs (.swarmSend .mp 1) (swarmMem {}) (fun t => t.swarm.op == 0 && t.swarm.packets.isEmpty) = true
      ∧ runs (.swarmSend .mp 1) { swarmMem {} with swarm := { list := 0xFFFFFFFFFFC0 } } (fun t => t.swarm.op == 0 && t.answers == [.done]) = true
      ∧ (match (readSpan 1204 (mgtClass on) 0xFFFFFFFFFFC0 64 on).2 with | .err _ => true | _ => false) = true := by decide +kernel
/-- A list whose line a host core owns makes the operation wait. -/
theorem test_swarm_waits_for_its_list :
    let s := { swarmMem oneEntry with comb := { on.comb with lines := [(0, mkLine 0 0 { st := .hostown, ptrs := [1200] } none)] } }
    runs (.swarmSend .mp 1) s (fun t => t.swarm.op == 1 && t.swarm.waits && t.answers == [.done]) = true
      ∧ runs (.swarmTally .mp 1) s (fun t => t.swarm.op == 2 && t.swarm.waits) = true
      ∧ (match (readSpan 1204 (mgtClass on) 0 64 s).2 with | .wait => true | _ => false) = true := by decide +kernel
/-- A swarm with a site enabled. -/
def siteState (k : SwarmSite) (m : ByteMem) : State := { swarmMem m with swarm := { sites := [(1295, k)] } }
theorem test_swarm_site_write :
    runs (.rgnSwarmSecWrite .mp 1295 0x80000005) on (fun t => getSite t 1295 == { enable := true, sect := 5 }) = true
      ∧ runs (.rgnSwarmSecWrite .mp 1295 3) (siteState { enable := true, done := true, got := 1 } {}) (fun t => getSite t 1295 == { done := true, got := 1, sect := 3 }) = true
      ∧ runs (.rgnSwarmSecWrite .mp 1295 0) { on with swarm := { op := 1 } } (fun t => t.answers == [.busError]) = true := by decide +kernel
/-- An empty section fails the check (R413). -/
theorem test_swarm_check_fails_an_empty_section :
    runs (.swarmDigestCheck .mp 1) (siteState { enable := true, sect := 5 } {}) (fun t => (getSite t 1295).failed && !(getSite t 1295).done && t.swarm.op == 0) = true := by
  decide +kernel
/-- A chunk packet for every core of region 23. -/
def pkt (dest : List Nat) : ChunkPkt := { loadId := 7, sect := 5, chunk := 1, len := 4, target := 0xFFFF, size := 4100, data := [1, 2, 3, 4], dest }
/-- The packet under way. -/
def pktState (p : ChunkPkt) (k : SwarmSite) : State := { on with swarm := { loadId := 7, op := 1, packets := [p], sites := [(1291, k)] } }
theorem test_chunk_reaches_its_bank :
    (takers (pktState (pkt [23]) { enable := true, sect := 5 }) 23 (pkt [23])).length = 1
      ∧ coreAt (pktState (pkt [23]) {}) 1291 = some 1199
      ∧ runs (.chunkPacketReceived 23 0 true) (pktState (pkt [23]) { enable := true, sect := 5 }) (fun t => t.swarm.packets.isEmpty && t.swarm.op == 0
          && (getSite t 1291).got == 2 && memRead (bankMem (getCore t 1199) true) 4096 4 == 0x04030201 && memGet (bankMem (getCore t 1199) true) 4100 == 0) = true
      ∧ runs (.chunkPacketReceived 23 0 true) (pktState (pkt [3, 23]) { enable := true, sect := 5 }) (fun t => (t.swarm.packets.map fun p => p.dest) == [[3]]
          && t.swarm.op == 1) = true := by decide +kernel
theorem test_chunk_is_dropped :
    runs (.chunkPacketReceived 23 0 false) (pktState (pkt [23]) { enable := true, sect := 5 }) (fun t => tblGet 0 t.swarm.drops 23 == 1 && (getSite t 1291).got == 0) = true
      ∧ runs (.chunkPacketReceived 22 0 true) (pktState (pkt [22]) { enable := true, sect := 5 }) (fun t => tblGet 0 t.swarm.drops 22 == 1) = true
      ∧ runs (.chunkPacketReceived 23 0 true) (pktState (pkt [23]) { enable := true, sect := 5, gen := 1 }) (fun t => (getRgn t 23).genDrop == 1 && (getSite t 1291).got == 0) = true
      ∧ runs (.chunkPacketReceived 23 0 true) (pktState { pkt [23] with len := 5 } { enable := true, sect := 5 }) (fun t => tblGet 0 t.swarm.drops 23 == 1) = true := by decide +kernel

/-- An image of one core whose bank holds a HALT, with the digest it should have (R119): seed 9, watchdog limit 77. -/
def haltImageWith (d : Nat) : List Byte :=
  leBytes 8 0x2000132315644 ++ leBytes 8 9 ++ leBytes 4 1 ++ leBytes 4 77 ++ leBytes 8 0x110 ++ leBytes 32 0 ++ leBytes 64 d
    ++ leBytes 8 1 ++ leBytes 8 0xC0 ++ leBytes 16 16 ++ leBytes 8 5 ++ leBytes 8 0x100 ++ leBytes 16 16
    ++ leBytes 16 (shortBits 0x73 7 {}).toNat ++ leBytes 48 0 ++ leBytes 16 0xFFFFFFFFFFFF0000
/-- The image, its digest worked out apart from the model. -/
@[irreducible] def haltImage : List Byte :=
  haltImageWith 0x6B2B93914095726CA7C7960F5E81F0CCC6877D2FE10FD206EA28E7183B75A595FE229FF0DB0CC7387FEE7981682FC04DB5D124A64F5C6E8A34895D770B86B3BE
theorem test_verifier_accepts : verifyImage haltImage [] = none := by decide +kernel
/-- The load of it onto a core. -/
def haltLoad (c : CoreNo) : LoadRequest := { image := haltImage, map := [c] }
theorem haltLoad_verified (c : CoreNo) : verifyImage (haltLoad c).image (haltLoad c).places = none := test_verifier_accepts
theorem runs_load (q : LoadRequest) (s : State) (f : State → Bool) (h : verifyImage q.image q.places = none)
    (hs : (frozen s || !s.boot.ready || s.boot.hostHeld) = false) (hf : f (loadVerified q (clearAnswers s)) = true) : runs (.programLoad q) s f = true := by
  have e : exec (.programLoad q) s = .next (loadVerified q (clearAnswers s)) := by
    show execProgramLoad q s = _
    unfold execProgramLoad loadProgram
    rw [h, hs]; rfl
  unfold runs
  rw [e]
  exact hf
theorem test_verifier_rejects : verifyImage [] [] = some { reason := 1, sect := 0, off := 0 } := by decide +kernel
theorem test_program_load :
    runs (.programLoad (haltLoad 3)) on (fun t => let k := getCore t 3
        t.answers == [.done] && k.st == .loaded && k.prog == 1 && k.image == some 0 && standbyValid k && k.regs.wdog == 77 && k.regs.seedLo == 9) = true := by
  exact runs_load _ _ _ (haltLoad_verified _) (by decide +kernel) (by decide +kernel)
theorem test_program_load_refused :
    runs (.programLoad { haltLoad 3 with image := [] }) on (fun t => t.answers == [.verdict 1 0 0]) = true
      ∧ runs (.programLoad (haltLoad 3)) { on with boot := { on.boot with hostHeld := true } } (fun t => t.answers == []) = true := by decide +kernel
theorem test_program_load_conflict :
    runs (.programLoad (haltLoad 3)) { withCore 9 { st := .loaded } with comb := { on.comb with split := 4 } } (fun t => t.answers == [.splitConflict]) = true := by
  exact runs_load _ _ _ (haltLoad_verified _) (by decide +kernel) (by decide +kernel)
theorem test_program_load_onto_a_running_core :
    runs (.programLoad (haltLoad 3)) (withCore 3 { st := .run }) (fun t => t.answers == [.refused]) = true := by
  exact runs_load _ _ _ (haltLoad_verified _) (by decide +kernel) (by decide +kernel)

/-! ### Feeds, rails and standby -/

/-- The device of MP with a feed. -/
def feedState (k : Feed) : State := { mpOn with pwr := { mpOn.pwr with feeds := [(0, k), (1, { inUse := true })] } }
/-- The bounds of a feed: 44.0 V and 60.0 V are inside (R419). -/
theorem test_feed_bounds :
    runs (.feedOutOfRange 0 440) (feedState { inUse := true }) (fun t => (getFeed t 0).inUse && (getFeed t 0).dVolts == 440 && t.mgt.ring.isEmpty) = true
      ∧ runs (.feedOutOfRange 0 600) (feedState { inUse := true }) (fun t => (getFeed t 0).inUse) = true
      ∧ runs (.feedOutOfRange 0 439) (feedState { inUse := true }) (fun t => !(getFeed t 0).inUse && t.pwr.feedCause == 1 && (t.mgt.ring.map fun e => e.code) == [0x105]
          && t.pwr.st == .on) = true
      ∧ runs (.feedOutOfRange 0 601) { feedState {} with pwr := { mpOn.pwr with feeds := [(0, { inUse := true })] } } (fun t => !t.pins.alwaysOn && t.pwr.st == .emptyStandby
          && !(getFeed t 0).inUse) = true := by decide +kernel
theorem test_feed_reconnects :
    runs (.feedReconnect 0 440) (feedState {}) (fun t => (getFeed t 0).inUse && (t.mgt.ring.map fun e => e.code) == [0x105]) = true
      ∧ runs (.feedReconnect 0 439) (feedState {}) (fun t => !(getFeed t 0).inUse && (getFeed t 0).dVolts == 439) = true := by decide +kernel
/-- At 10 A and a baseline of 100 µV/A, 1.3 times the baseline is 1,300 µV. -/
theorem test_feed_integrity :
    runs (.feedIntegrityCheck 0 480 100 1301) (feedState { inUse := true, base := some 100, high := 98 }) (fun t => (getFeed t 0).high == 99 && !(getFeed t 0).integrity) = true
      ∧ runs (.feedIntegrityCheck 0 480 100 1301) (feedState { inUse := true, base := some 100, high := 99 }) (fun t => (getFeed t 0).integrity && t.pwr.feedCause == 4
          && (t.mgt.ring.map fun e => e.code) == [0x106]) = true
      ∧ runs (.feedIntegrityCheck 0 480 100 1300) (feedState { inUse := true, base := some 100, high := 99, integrity := true, low := 999 }) (fun t =>
          (getFeed t 0).high == 0 && !(getFeed t 0).integrity) = true
      ∧ runs (.feedIntegrityCheck 0 480 100 1300) (feedState { inUse := true, base := some 100, integrity := true, low := 998 }) (fun t => (getFeed t 0).integrity) = true
      ∧ runs (.feedIntegrityCheck 0 480 99 9999) (feedState { inUse := true, base := some 100, high := 9 }) (fun t => (getFeed t 0).high == 9 && (getFeed t 0).dAmps == 99) = true := by
  decide +kernel
/-- The device of MP with a footprint's rails. -/
def fpState (n : Nat) (k : Fp) : State := { mpOn with pwr := { mpOn.pwr with fps := [(n, k)] } }
theorem test_vertical_check :
    runs (.verticalSupplyCheck 7 131 1000) (fpState 7 { vBase := some 100, vHigh := 98 }) (fun t => (getFp t 7).vHigh == 0) = true
      ∧ runs (.verticalSupplyCheck 7 130001 1000) (fpState 7 { vBase := some 100, vHigh := 98 }) (fun t => (getFp t 7).vHigh == 99 && !(getFp t 7).vfault) = true
      ∧ runs (.verticalSupplyCheck 7 130001 1000) (fpState 7 { vBase := some 100, vHigh := 99, step := 2 }) (fun t => (getFp t 7).vfault && (getFp t 7).step == 5
          && (getFp t 7).cause == 8) = true
      ∧ runs (.verticalSupplyCheck 7 130001 999) (fpState 7 { vBase := some 100, vHigh := 99 }) (fun t => !(getFp t 7).vfault) = true := by decide +kernel
theorem test_baselines_and_samples :
    runs (.baselineCapture (.feed 0) 9) (feedState {}) (fun t => (getFeed t 0).base == some 9) = true
      ∧ runs (.baselineCapture (.feed 0) 9) (feedState { base := some 4 }) (fun t => (getFeed t 0).base == some 4) = true
      ∧ runs (.baselineCapture (.vertical 7) 9) (fpState 7 {}) (fun t => (getFp t 7).vBase == some 9) = true
      ∧ runs (.baselineCapture (.vertical 7) 9) (fpState 7 { vBase := some 4 }) (fun t => (getFp t 7).vBase == some 4) = true
      ∧ runs (.currentSample [(3, 1), (3, 2), (89, 5)]) mpOn (fun t => tblGet 0 t.pwr.cur 3 == 2 && tblGet 0 t.pwr.cur 89 == 5 && tblGet 0 t.pwr.cur 4 == 0) = true := by
  decide +kernel

/-- The device at work with a footprint's rails, MP's firmware not running. -/
def railState (n : Nat) (k : Fp) : State := { on with pwr := { on.pwr with fps := [(n, k)] } }
theorem test_phase_fails_alone :
    deadOf on 23 0 = 0 ∧ phaseGroup 0 = 0 ∧ phaseGroup 8 ≠ 0
      ∧ runs (.phaseFail 23 0) on (fun t => (getFp t 23).failed == [0] && (getFp t 23).compute == .on && (getFp t 23).cause == 1
        && (t.mgt.ring.map fun e => e.code) == [0x108] && t.boot.learned.map (fun e => (e.kind, e.index, e.bad)) == [(7, 276, true)]
        && runs (.phaseFail 23 0) t (fun u => u.mgt.ring.length == 1)) = true := by decide +kernel
theorem test_phase_fails_twice :
    1 ≤ deadOf (railState 23 { failed := [1] }) 23 0
      ∧ runs (.phaseFail 23 0) { railState 23 { failed := [1] } with cores := [(1199, { st := .loaded })] } (fun t => (getFp t 23).compute == .lost
          && (getCore t 1199).st == .empty && t.boot.degraded && (getFp t 23).ramps == [(0, false)]) = true := by decide +kernel
theorem test_sleep_words :
    runs (.sleepCompute .mp 23 true) (withCore 1199 { st := .halted }) (fun t => t.answers == [.busError] && (getFp t 23).ctl == 0) = true
      ∧ runs (.sleepCompute .mp 23 true) on (fun t => (getFp t 23).compute == .asleep && (getFp t 23).ctl == 1 && (getFp t 23).ramps == [(0, false)]) = true
      ∧ runs (.sleepCompute .mp 23 false) (railState 23 { compute := .asleep, ctl := 1 }) (fun t => (getFp t 23).waiting && (getFp t 23).ctl == 0) = true
      ∧ runs (.sleepComb1 .mp 23 false) (railState 23 { comb1 := .asleep, ctl := 4 }) (fun t => (getFp t 23).comb1 == .asleep && (getFp t 23).ramps == [(2, true)]) = true
      ∧ runs (.sleepComb0 .mp 23 true) { on with pwr := { on.pwr with st := .standby } } (fun t => t.answers == [.done] && (getFp t 23).ctl == 2 && (getFp t 23).comb0 == .on) = true := by
  decide +kernel
theorem test_sleep_of_slices :
    (groupSlices 23 0).length = 54
      ∧ runs (.sleepComb0 .mp 23 true) on (fun t => (getFp t 23).comb0 == .asleep && (getFp t 23).ramps == [(1, false)]) = true
      ∧ runs (.sleepComb0 .mp 23 true) { on with comb := { on.comb with slices := [((groupSlices 23 0).headD 0, { miss := [{ line := 9, op := .fetch, waiters := [] }] })] } }
          (fun t => (getFp t 23).comb0 == .on && (getFp t 23).pend == [(1, true)]) = true := by decide +kernel
/-- The headroom rule at its bound: 100 W of headroom units. -/
theorem test_headroom :
    runs (.headroomRecheck 23 184000) (railState 23 { waiting := true, compute := .asleep }) (fun t => !(getFp t 23).waiting && (getFp t 23).ramps == [(0, true)]) = true
      ∧ runs (.headroomRecheck 23 184001) (railState 23 { waiting := true, compute := .asleep }) (fun t => (getFp t 23).waiting) = true
      ∧ runs (.headroomTimeout 23) (railState 23 { waiting := true, compute := .asleep }) (fun t => !(getFp t 23).waiting && (getFp t 23).cause == 16
          && (neighbours 23).all (fun m => (getFp t m).step == 1) && (getFp t 0).step == 0) = true := by decide +kernel
theorem test_ramp_ends :
    runs (.rampEnd 23 0) (railState 23 { compute := .asleep, ramps := [(0, true)], vfault := true }) (fun t => (getFp t 23).compute == .on && (getFp t 23).step == 5
        && (getFp t 23).ramps.isEmpty) = true
      ∧ runs (.rampEnd 23 0) (railState 23 { compute := .asleep, ramps := [(0, false)] }) (fun t => (getFp t 23).compute == .asleep && (getFp t 23).ramps.isEmpty) = true
      ∧ runs (.rampEnd 23 0) (railState 23 { compute := .asleep, ramps := [(0, false)], pend := [(0, false)] }) (fun t => (getFp t 23).waiting && (getFp t 23).pend.isEmpty) = true
      ∧ runs (.rampEnd 23 1) (railState 23 { compute := .asleep, ramps := [(0, false)] }) (fun t => (getFp t 23).ramps == [(0, false)]) = true := by decide +kernel
theorem test_ramp_of_slices_ends :
    runs (.rampEnd 23 2) (railState 23 { comb1 := .asleep, ramps := [(2, true)] }) (fun t => (getFp t 23).comb1 == .on
        && (getSlice t ((groupSlices 23 1).headD 0)).sweeping && (getSlice t ((groupSlices 23 1).headD 0)).gen == 1) = true := by decide +kernel
theorem test_standby :
    runs .standbyEntry mpOn (fun t => t.pwr.st == .standby && !t.pins.pwrGood && t.boot.hostHeld && (getStack t 11).selfRefresh) = true
      ∧ runs .standbyEntry { on with pwr := { on.pwr with st := .thermalOff } } (fun t => t.pwr.st == .thermalOff && !t.pins.pwrEn) = true
      ∧ runs .standbyExit { mpOn with pwr := { mpOn.pwr with st := .standby } } (fun t => t.rst.cause == 0x2110 && t.pins.pwrEn) = true
      ∧ runs .standbyExit mpOn (fun t => t.pins.pwrEn && t.pwr.st == .on) = true := by decide +kernel

/-! ### Temperature -/

/-- The device of MP with sensors. -/
def thmState (l : List (Nat × Sensor)) : State := { mpOn with thm := { mpOn.thm with sensors := l } }
theorem test_temperature_read :
    runs (.thmTempRead .mp (.tower 3 23)) (thmState [(95, { valid := true, seq := 0xFF, temp := 0x0550 })]) (fun t =>
        t.answers == [.value 0x80FF0550] && (getSensor t 95).busy
        && runs (.conversionComplete (.tower 3 23) 0xFFF0) t (fun u => getSensor u 95 == { valid := true, seq := 0, temp := 0xFFF0 })) = true
      ∧ runs (.conversionComplete (.stack 11) 1) (thmState []) (fun t => !(getSensor t 111).valid) = true
      ∧ runs (.thmTempRead .mp (.linkDie 3)) mpOn (fun t => t.answers == [.value 0]) = true := by decide +kernel
/-- The event code of a warning is a free value, so the witness shows the sensor and that an event came. -/
theorem test_warning : runs (.comparatorTrip (.linkDie 2) .warning) mpOn (fun t => (getSensor t 98).warning && (getSensor t 98).cause == 1 && t.mgt.ring.length == 1
        && runs (.comparatorTrip (.linkDie 2) .warning) t (fun u => u.mgt.ring.length == 1)) = true
      ∧ runs (.comparatorRelease (.linkDie 2) .warning) (thmState [(98, { warning := true, throttle := true })]) (fun t => getSensor t 98 == { throttle := true }) = true := by
  decide +kernel
theorem test_throttle_inputs :
    runs (.comparatorTrip (.tower 3 23) .throttle) mpOn (fun t => (getFp t 23).step == 1 && (getSensor t 95).cause == 2
        && runs (.comparatorTrip (.tower 2 23) .throttle) t (fun u => (getFp u 23).step == 1)
        && runs (.throttleStepRaise 23) t (fun u => (getFp u 23).step == 2)
        && runs (.throttleStepFall 23 true) t (fun u => (getFp u 23).step == 1)) = true
      ∧ runs (.throttleStepRaise 23) (fpState 23 { step := 4 }) (fun t => (getFp t 23).step == 4) = true
      ∧ runs (.throttleStepFall 23 true) (fpState 23 { step := 5, vfault := true }) (fun t => (getFp t 23).step == 5) = true
      ∧ runs (.throttleStepFall 23 true) (fpState 23 { step := 5 }) (fun t => (getFp t 23).step == 4) = true
      ∧ runs (.throttleStepFall 23 false) (fpState 23 { step := 5 }) (fun t => (getFp t 23).step == 5) = true
      ∧ runs (.throttleStepRaise 23) { thmState [(95, { throttle := true })] with pwr := { on.pwr with fps := [(23, { step := 16 })] } } (fun t => (getFp t 23).step == 16) = true := by
  decide +kernel
theorem test_shutdown :
    runs (.comparatorTrip (.stack 11) .shutdown) { mpOn with thm := { mpOn.thm with shutdowns := 0xFFFF, restarts := [0, 0, 0] } } (fun t => t.pwr.st == .thermalOff
        && t.thm.shutdowns == 0xFFFF && t.thm.held && !t.pins.pwrGood && t.hbm.mem.epoch != 0 && (t.mgt.ring.map fun e => e.code) == [0x107]
        && runs .thermalRestart t (fun u => u.pwr.st == .thermalOff)) = true
      ∧ runs (.thermalShutdown .mp 0) mpOn (fun t => t.pwr.st == .thermalOff && !t.thm.held && t.thm.shutdowns == 1
        && runs .thermalRestart t (fun u => u.pwr.st == .emptyStandby && u.rst.cause == 0x2004 && u.thm.restarts == [0])) = true
      ∧ runs (.thermalShutdown (.host 0) 2) mpOn (fun t => t.answers == [.busError] && t.pwr.st == .on) = true := by decide +kernel
theorem test_thermal_release :
    runs (.thermalRelease .mp 0) { mpOn with thm := { mpOn.thm with held := true } } (fun t => !t.thm.held && t.answers == [.done]) = true
      ∧ runs (.thermalRelease .debug 0) mpOn (fun t => t.answers == [.busError]) = true := by decide +kernel
/-- Footprint 0: the base at 50 °C and the compute die at 60 °C, comb 0 reading 20 °C and comb 1 reading 55 °C, no power: comb 0's estimate is
(55 + 50) / 2 = 52.5 °C, more than 8 °C above its reading, comb 1's (60 + 20) / 2 = 40 °C. -/
def crossState (dev : Nat) : State :=
  thmState [(0, { valid := true, temp := 800 }), (24, { valid := true, temp := 320, dev }), (48, { valid := true, temp := 880 }), (72, { valid := true, temp := 960 })]
theorem test_cross_check :
    sensorsValid (crossState 0) 0 = true
      ∧ runs (.thermalCrossCheck [{ n := 0, comb0 := 0, comb1 := 0, compute := 0 }]) (crossState 1) (fun t => (getSensor t 24).est == 5250000 && (getSensor t 24).dev == 2
          && !(getSensor t 24).distrusted && (getSensor t 48).est == 4000000 && (getSensor t 48).dev == 0 && (getWear t 0).peak == 5750000) = true
      ∧ runs (.thermalCrossCheck [{ n := 0, comb0 := 0, comb1 := 0, compute := 0 }]) (crossState 2) (fun t => (getSensor t 24).distrusted && (getSensor t 24).cause == 4) = true
      ∧ runs (.thermalCrossCheck [{ n := 1, comb0 := 0, comb1 := 0, compute := 0 }]) (thmState []) (fun t => t.thm.wear.isEmpty) = true
      ∧ sensorsValid (thmState []) 1 = false := by decide +kernel
theorem test_wear_saved :
    runs .wearSave { mpOn with thm := { mpOn.thm with wear := [(0, { count := 7 })] } } (fun t => (tblGet {} t.thm.wearSaved 0).count == 7) = true
      ∧ runs .wearSave { on with thm := { on.thm with wear := [(0, { count := 7 })] } } (fun t => t.thm.wearSaved.isEmpty) = true := by decide +kernel
/-- R440: 40 °C below the peak begins a trough, and 40 °C above it counts one cycle. -/
theorem test_wear_counts : wearStep 2000000 { peak := 6000000 } = { peak := 6000000 } ∧ wearStep 1999999 { peak := 6000000 } = { rising := false, peak := 6000000, trough := 1999999 }
      ∧ wearStep 6000000 { rising := false, peak := 6000000, trough := 1999999 } = { peak := 6000000, trough := 1999999, count := 1 } := by decide +kernel

/-! ### Debug levels, freezes and entropy -/

/-- The device of MP in a lifecycle state, at a debug level. -/
def secState (life : BitVec 3) (level : BitVec 2) : State := { mpOn with sec := { mpOn.sec with level, otp := { lifecycle := life } } }
theorem test_token_refused :
    runs (.token .debug 1 []) (secState 3 0) (fun t => t.sec.level == 0 && t.sec.cause == 4 && t.sec.nonce == 0 && t.free == 1 && (t.mgt.ring.map fun e => e.code) == [0x10D]) = true
      ∧ runs (.token .port 1 []) (secState 3 0) (fun t => t.answers == [.reply 3 []]) = true
      ∧ runs (.token .debug 1 []) { secState 3 0 with pins := on.pins } (fun t => t.sec.cause == 0) = true
      ∧ tokenOk [] (secState 3 0) = false := by decide +kernel
theorem test_levels :
    runs (.debugLock .debug 0) on (fun t => t.sec.level == 0 && t.sec.cause == 2) = true
      ∧ runs (.debugLock .mp 0) (secState 3 1) (fun t => t.sec.level == 0 && t.answers == [.done] && (t.mgt.ring.map fun e => e.code) == [0x10D]) = true
      ∧ runs (.debugLock .mp 0) (secState 3 0) (fun t => t.sec.cause == 0 && t.answers == [.done]) = true
      ∧ runs (.debugLevelSet .mp 0x10) on (fun t => t.sec.level == 2) = true
      ∧ runs (.debugLevelSet .debug 0x10) on (fun t => t.sec.level == 1 && t.sec.cause == 2) = true
      ∧ runs (.debugLevelSet .debug 0x20) (secState 0 0) (fun t => t.sec.level == 2) = true
      ∧ runs (.debugLevelSet .debug 0x10) (secState 3 1) (fun t => t.sec.level == 1 && t.sec.cause == 0) = true := by decide +kernel
theorem test_freeze :
    runs (.freezeRequest .jtag) on (fun t => t.sec.frozen && t.sec.freezing && t.sec.cause == 32 && (getStack t 11).selfRefresh
        && runs .freezeClockStop t (fun u => u.clk.stopped && !u.sec.freezing && u.sec.frozen)
        && runs (.freezeRequest .jtag) t (fun u => u.mgt.ring.isEmpty)) = true
      ∧ runs (.freezeRequest .pin) on (fun t => t.pins.freeze && t.sec.frozen) = true
      ∧ runs (.freezeRequest (.ctl .debug 0x20)) on (fun t => t.sec.frozen && t.answers == [.done]) = true
      ∧ runs (.freezeRequest .jtag) (secState 3 1) (fun t => !t.sec.frozen && (t.mgt.ring.map fun e => e.code) == [0x10D]) = true
      ∧ runs .freezeClockStop on (fun t => !t.clk.stopped) = true := by decide +kernel
theorem test_entropy :
    runs (.entropyRestart .mp 0 true) on (fun t => t.sec.rngValid && t.sec.rngBlock == 0 && t.free == 1 && t.answers == [.done]
        && runs (.entropyBlockRead .mp) t (fun u => u.sec.rngBlocks == 1 && u.sec.rngBlock == 1)
        && runs .entropyHealthFail t (fun u => !u.sec.rngValid && u.sec.rngFail && u.sec.cause == 8 && (u.mgt.ring.map fun e => e.code) == [0x111])) = true
      ∧ runs (.entropyRestart .mp 0 false) on (fun t => !t.sec.rngValid) = true
      ∧ runs (.entropyRestart (.host 0) 0 true) on (fun t => t.answers == [.busError]) = true
      ∧ runs (.entropyBlockRead .mp) on (fun t => t.answers == [.value 0]) = true := by decide +kernel
/-- R376, R381, R469: behind its gate the source reads zero and ignores a write; without the crystal MP hears the JTAG port alone; the debug
port reads the token nonce at every level. -/
theorem test_gates_and_lines :
    runs (.entropyBlockRead .mp) { on with clk := { on.clk with periphEn := 0x37 }, sec := { on.sec with rngValid := true } } (fun t =>
        t.answers == [.value 0] && t.sec.rngBlocks == 0) = true
      ∧ runs (.entropyRestart .mp 0 true) { on with clk := { on.clk with periphEn := 0x37 } } (fun t => t.answers == [.done] && !t.sec.rngValid) = true
      ∧ (let s := { mpOn with clk := { mpOn.clk with stopped := true, xtalOk := false } }
         mpHears .debug s = true ∧ mpHears .port s = false ∧ mpHears (.device 1) s = false)
      ∧ mpHears .port { mpOn with clk := { mpOn.clk with periphEn := 0x39 } } = false ∧ nvmRuns { mpOn with clk := { mpOn.clk with periphEn := 0x3A } } = false
      ∧ runs (.registerWrite .debug 4 0x02000F8C0000 none) { on with sec := { on.sec with level := 0 } } (fun t => t.answers == [.busError]) = true
      ∧ runs (.registerWrite .debug 4 0x02000F8C0040 none) { on with sec := { on.sec with level := 0 } } (fun t => t.answers != [.busError]) = true
      ∧ runs (.logRead .debug 1 0) { mpOn with sec := { mpOn.sec with level := 0 } } (fun t => t.answers == [.reply 5 []]) = true := by decide +kernel
theorem test_measurement_extends_only_7 :
    runs (.measurementExtend .mp 0) on (fun t => getMeas t 6 == 0 && t.sec.meas.length == 1 && t.answers == [.done]) = true := by decide +kernel

/-! ### The management port -/

/-- A device of MP that runs, with a nonce issued and the root key enrolled for nothing: PROVISIONED, or DEPLOYED with an owner. -/
def portState (life : BitVec 3) (enrolled : Bool) : State :=
  { mpOn with sec := { mpOn.sec with level := 0, otp := { lifecycle := life, enrolled } }, frames := { nonces := [(5, 100)] }, mgt := { mpOn.mgt with time := 27000000100 } }
theorem test_requests_busy_and_dead :
    runs (.nonce .port 1) on (fun t => t.answers == []) = true
      ∧ runs (.nonce .port 1) { mpOn with frames := { asm := some { id := 2, code := 1, count := 2, parts := [] } } } (fun t => t.answers == [.reply 6 []]) = true
      ∧ runs (.nonce .port 2) { mpOn with frames := { asm := some { id := 2, code := 1, count := 2, parts := [] } } } (fun t => t.answers == [.reply 5 []]
          && t.frames.asm == none) = true
      ∧ runs (.controlColdReset { src := .port, id := 1, nonce := 0, sig := [] }) on (fun t => t.answers == []) = true := by decide +kernel
/-- What a nonce is stays open: the witness shows that it is taken and recorded. -/
theorem test_nonce :
    runs (.nonce .port 1) { mpOn with sec := { mpOn.sec with rngValid := true } } (fun t => t.free == 1 && t.frames.nonces == [(0, 0)] && t.answers.length == 1) = true
      ∧ runs (.attest .port 1 0) mpOn (fun t => t.answers == [.reply 5 []]) = true := by decide +kernel
theorem test_log_read :
    runs (.logRead .port 1 5) { mpOn with mgt := { mpOn.mgt with ring := [
        { time := 9, seq := 6, code := 0x10C, sev := 1, gen := 2, src := 0, detail := 0, repeats := 0, copied := false },
        { time := 8, seq := 4, code := 0x10C, sev := 1, gen := 2, src := 0, detail := 0, repeats := 0, copied := false }] } } (fun t =>
      match t.answers with | [.reply 0 p] => p.length == 32 && bytesAt p 0 8 == 9 | _ => false) = true := by decide +kernel
/-- The device of MP with an update under way into slot B. -/
def fwState (w : Option FwUpdate) : State := { mpOn with frames := { fw := w } }
theorem test_firmware_begin :
    runs (.fwBegin .port 1 [] true) (fwState none) (fun t => t.answers == [.reply 1 []]) = true
      ∧ runs (.fwBegin .port 1 [] true) { fwState none with boot := {} } (fun t => t.answers == [.reply 5 []]) = true
      ∧ runs (.fwBegin .port 1 [] true) (fwState (some { header := [], lapsed := true })) (fun t => t.answers == [.reply 5 []] && t.frames.fw == none) = true
      ∧ runs .fwUpdateTimeout (fwState (some { header := [] })) (fun t => t.frames.fw == some { header := [], lapsed := true }) = true := by decide +kernel
theorem test_firmware_write :
    runs (.fwWrite .port 1 0x4000 [0xF0, 0x0F] true) (fwState (some { header := [] })) (fun t => t.answers == [.reply 0 []] && fwBytes t true 0x4000 3 == [0xF0, 0x0F, 0xFF]
        && fwBytes t false 0x4000 1 == [0xFF] && runs (.fwWrite .port 1 0x4000 [0x3C] true) t (fun u => fwBytes u true 0x4000 1 == [0x30])) = true
      ∧ runs (.fwWrite .port 1 0x3FFF [0] true) (fwState (some { header := [] })) (fun t => t.answers == [.reply 1 []]) = true
      ∧ runs (.fwWrite .port 1 50331648 [0] true) (fwState (some { header := [] })) (fun t => t.answers == [.reply 1 []]) = true
      ∧ runs (.fwWrite .port 1 50331647 [0] true) (fwState (some { header := [] })) (fun t => t.answers == [.reply 0 []]) = true
      ∧ runs (.fwWrite .port 1 0x4000 [0] false) (fwState (some { header := [] })) (fun t => t.answers == [.reply 7 []] && t.frames.fw == none && t.sec.slotB.epoch != 0
          && (t.mgt.ring.map fun e => e.code) == [0x10E]) = true
      ∧ runs (.fwWrite .port 1 0x4000 [0] true) (fwState none) (fun t => t.answers == [.reply 5 []]) = true := by decide +kernel
theorem test_firmware_commit_of_nothing :
    runs (.fwCommit .port 1 true) (fwState (some { header := [] })) (fun t => t.answers == [.reply 3 []] && t.frames.fw == none) = true := by decide +kernel
/-- A header that FW_BEGIN takes, and a slot that FW_COMMIT finds whole, when the signature check accepts the header. -/
theorem test_firmware_signed (h : slotAccepted) :
    let s := bootable mpOn true
    slotHeader0.length = 0x3000 ∧ headerSigned s slotHeader0 = true ∧ slotValid s false = true ∧ ∀ i, 2 ≤ i → i ≤ 5 → digestOk s false i = true := by
  intro s
  refine ⟨slotHeader0_length, slot_signed s h (bootable_otp _ _), ?_, fun i h1 h2 => slot_components s (bootable_slot _ _) i (by omega) h2⟩
  rw [slotValid, slot_header s (bootable_slot _ _), slot_signed s h (bootable_otp _ _), slot_components s (bootable_slot _ _) 1 (by omega) (by omega)]; rfl

/-! ### Signed commands -/

/-- A command with the nonce issued by the free value 5. -/
def signedCmd : Signed := { src := .port, id := 1, nonce := Config.freeBits256 5, sig := [] }
/-- A nonce is fresh for 60 s, 27,000,000,000 cycles; what SignedCommandsAct asks before the signature is met by these states. -/
theorem test_signed_commands_witness :
    nonceFresh signedCmd.nonce (portState 1 false) ∧ mpFree signedCmd.src signedCmd.id (portState 1 false) ∧ lifecycle (portState 1 false) = 1 ∧ lifecycle (portState 3 true) = 2
      ∧ ownerSlot (portState 3 true).sec.otp = 1 ∧ (portState 1 false).boot.ready = true ∧ (portState 1 false).pwr.st = .on ∧ (portState 1 false).sec.frozen = false
      ∧ (portState 1 false).sec.otp.policy = 0 ∧ (portState 1 false).sec.otp.ownerHash = 0 :=
  ⟨⟨(5, 100), .head _, rfl, by decide +kernel⟩, ⟨by decide +kernel, fun _ h => nomatch h⟩, by decide +kernel, by decide +kernel, by decide +kernel,
    by decide +kernel, by decide +kernel, by decide +kernel, by decide +kernel, by decide +kernel⟩
theorem test_nonce_lapses : ¬ nonceFresh signedCmd.nonce { portState 1 false with mgt := { time := 27000000101 } } := by
  rintro ⟨e, h, _, g⟩
  simp only [portState, List.mem_singleton] at h
  subst h
  exact absurd g (by decide)
theorem test_signed_commands_refused :
    runs (.controlColdReset { signedCmd with nonce := 0 }) mpOn (fun t => t.answers == [.reply 4 []] && t.boot.ready) = true
      ∧ runs (.controlEnterStandby { signedCmd with nonce := 0 }) { mpOn with pwr := { mpOn.pwr with st := .thermalOff } } (fun t => t.answers == [.reply 5 []]) = true
      ∧ runs (.enrol { signedCmd with nonce := 0 } [] 0 {}) mpOn (fun t => t.answers == [.reply 5 []]) = true
      ∧ runs (.enrol { signedCmd with nonce := 0, src := .device 1 } [] 0 {}) (secState 1 0) (fun t => t.answers == [.reply 5 []]) = true
      ∧ runs (.cadRemove { signedCmd with nonce := 0 } []) (secState 3 0) (fun t => t.answers == [.reply 5 []]) = true := by decide +kernel
/-- A configuration block that is well formed, its digest worked out apart from the model. -/
def cfgBlock : BitVec 2048 :=
  BitVec.ofNat 2048 (0x147464344 + 0xA3638FE9C35A69DE5A5E99EED5BF2BE1962361D217D337BE67FFD20647095CCF3AB069B72643FB17C850321200D5DE6351999028055E1A50F8B4A57D0956C15A * 2 ^ 512)
theorem test_configuration_block : cfgForm cfgBlock = true ∧ cfgForm (cfgBlock + 1) = false ∧ cfgForm 0 = false := by decide +kernel
theorem test_configuration_write :
    runs (.cfgWrite .port 1 0 [] true) mpOn (fun t => t.answers == [.reply 1 []]) = true
      ∧ runs (.cfgWrite .port 1 0 [] true) { mpOn with boot := {} } (fun t => t.answers == [.reply 5 []]) = true := by decide +kernel

/-! ### MP's own work -/

/-- A frame of a request: code 1, fragment `k` of `n`, one byte of payload. -/
def frag (code k n : Nat) : List Byte := leBytes 2 0x4D46 ++ [1] ++ leBytes 1 code ++ leBytes 4 9 ++ leBytes 2 k ++ leBytes 2 n ++ leBytes 2 1 ++ leBytes 2 0 ++ [0xAA]
theorem test_fragments :
    runs (.managementFrameFragment .port (frag 1 1 3)) mpOn (fun t => (t.frames.asm.map fun a => (a.id, a.code, a.count, a.parts)) == some (9, 1, 3, [(1, [0xAA])])
        && runs (.managementFrameFragment .port (frag 1 0 3)) t (fun u => (u.frames.asm.map fun a => a.parts.length) == some 2)
        && runs (.managementFrameFragment .port (frag 2 0 3)) t (fun u => u.answers == [.reply 1 []])
        && runs .fragmentTimeout t (fun u => u.frames.asm == none)) = true
      ∧ runs (.managementFrameFragment .port (frag 1 0 1)) mpOn (fun t => t.frames.asm == none && t.answers == []) = true
      ∧ runs (.managementFrameFragment .port (frag 0x13 0 1)) mpOn (fun t => t.answers == [.reply 2 []]) = true
      ∧ runs (.managementFrameFragment .port []) mpOn (fun t => t.answers == [.reply 1 []]) = true
      ∧ runs (.managementFrameFragment .port (frag 1 0 1)) { mpOn with frames := { asm := some { id := 2, code := 1, count := 2, parts := [] } } } (fun t =>
          t.answers == [.reply 6 []]) = true
      ∧ runs (.managementFrameFragment .port []) on (fun t => t.answers == []) = true := by decide +kernel
/-- The device of MP whose management port has a MAC and the address 10.0.0.1 in its configuration, Redfish on. -/
def netPort : State := { mpOn with boot := { mpOn.boot with cfg := some (BitVec.ofNat 2048 (0x060504030201 * 2 ^ 320 + 4 * 2 ^ 368 + 0x0100000A * 2 ^ 384)) } }
/-- An ARP request for 10.0.0.1 from 02:…:07 at 10.0.0.2. -/
def arpFrame : List Byte :=
  List.replicate 6 0xFF ++ [2, 0, 0, 0, 0, 7] ++ [8, 6, 0, 1, 8, 0, 6, 4, 0, 1] ++ [2, 0, 0, 0, 0, 7, 10, 0, 0, 2] ++ [0, 0, 0, 0, 0, 0, 10, 0, 0, 1]
theorem test_arp :
    runs (.managementPortFrame arpFrame) netPort (fun t => match t.answers with
      | [.frame 48 f] => f.take 12 == [2, 0, 0, 0, 0, 7, 1, 2, 3, 4, 5, 6] && (f.drop 20).take 12 == [0, 2, 1, 2, 3, 4, 5, 6, 10, 0, 0, 1] | _ => false) = true
      ∧ runs (.managementPortFrame (List.replicate 64 0)) netPort (fun t => t.answers == []) = true
      ∧ runs (.managementPortFrame arpFrame) on (fun t => t.answers == []) = true := by decide +kernel
/-- An ICMP echo request to 10.0.0.1; the reply's identification is free, so the witness shows that there is one. -/
def echoFrame : List Byte :=
  [1, 2, 3, 4, 5, 6] ++ [2, 0, 0, 0, 0, 7] ++ [8, 0] ++ [0x45, 0, 0, 30, 0, 0, 0, 0, 64, 1, 0, 0, 10, 0, 0, 2, 10, 0, 0, 1] ++ [8, 0, 0, 0, 0x12, 0x34, 0, 1, 0xAB, 0xCD]
theorem test_echo :
    (echoReply (mgtPort netPort) [2, 0, 0, 0, 0, 7] 0 (echoFrame.drop 14)).isSome = true
      ∧ runs (.managementPortFrame echoFrame) netPort (fun t => t.free == 1 && t.answers.length == 1) = true := by decide +kernel
theorem test_redfish :
    runs (.redfishRequest false .chassis) netPort (fun t => t.answers == [.http 405 []]) = true
      ∧ runs (.redfishRequest true .status) netPort (fun t => match t.answers with | [.http 200 _] => true | _ => false) = true
      ∧ runs (.redfishRequest true .status) on (fun t => t.answers == []) = true := by decide +kernel
/-- An entry of the event log. -/
def entry (seq : Word32) (copied : Bool) : LogEntry := { time := 9, seq, code := 0x10C, sev := 1, gen := 2, src := 0, detail := 0, repeats := 0, copied }
/-- The device of MP with a log. -/
def logState (l : List LogEntry) : State := { mpOn with mgt := { mpOn.mgt with ring := l } }
theorem test_log_copy :
    runs (.logCopy true) (logState [entry 3 false, entry 2 false, entry 1 true]) (fun t => t.mgt.ring.map (fun e => e.copied) == [false, true, true]
        && (t.mgt.nvm.map fun e => e.seq) == [2]) = true
      ∧ runs (.logCopy false) (logState [entry 2 false]) (fun t => t.mgt.nvm.isEmpty && (t.mgt.ring.head?.map fun e => e.code) == some 0x10E) = true
      ∧ runs (.logCopy true) (logState [entry 2 true]) (fun t => t.mgt.nvm.isEmpty) = true := by decide +kernel
theorem test_log_select :
    runs (.logSelect .mp 2) (logState [entry 3 false, entry 2 false]) (fun t => t.mgt.logData == some (entry 2 false) && t.mgt.logSel == 2) = true
      ∧ runs (.logSelect .mp 4) (logState [entry 3 false]) (fun t => t.mgt.logData == none) = true := by decide +kernel
theorem test_background_work :
    runs (.backgroundWorkDropped 7) mpOn (fun t => tblGet 0 t.mgt.bgStat 7 == 1 && t.mgt.cause == 16 && (t.mgt.ring.map fun e => e.code) == [0x110]
        && runs (.backgroundWorkDropped 7) t (fun u => tblGet 0 u.mgt.bgStat 7 == 2 && u.mgt.ring.length == 1)) = true
      ∧ runs (.backgroundWorkDropped 7) on (fun t => t.mgt.bgStat.isEmpty) = true := by decide +kernel
theorem test_step_integrity_and_the_gate :
    runs (.stepIntClear .mp 0) { on with mgt := { on.mgt with stepInt := 0x80000001 } } (fun t => t.mgt.stepInt == 0) = true
      ∧ runs (.commitGate 7 false 5) on (fun t => t.answers == [.value 1] && tblGet 0 t.mgt.census 7 == 5) = true
      ∧ runs (.commitGate 7 true 5) on (fun t => t.answers == [.value 0]) = true
      ∧ runs (.commitGate 7 false 5) { on with mgt := { on.mgt with stepInt := 0x80000000, census := [(7, 0xFFFFFFFE)] } } (fun t => t.answers == [.value 0]
          && tblGet 0 t.mgt.census 7 == 0xFFFFFFFF) = true
      ∧ runs (.commitGate 7 false 5) { on with boot := { on.boot with hostHeld := true } } (fun t => t.answers == []) = true := by decide +kernel
/-- Phase 11 of footprint 23 by its temperature, at the bound and above. -/
theorem test_regulator_check :
    let at_ (deg : Nat) := checkPhase { mpOn with pwr := { mpOn.pwr with phStat := [(287, BitVec.ofNat 32 (10 * 65536 + deg * 256))] } } 287
    (at_ 121).boot.learned.map (fun e => (e.kind, e.index, e.suspect)) = [(7, 287, true)] ∧ ((at_ 121).mgt.ring.map fun e => e.code) = [0x108]
      ∧ (at_ 120).boot.learned = [] := by decide +kernel

/-! ### Registers, OTP and the whole -/

/-- A register write that decodes to a block's offset. -/
def wr (layer region block off : Nat) (v : Word32) : Instr :=
  .registerWrite .mp 4 (BitVec.ofNat 48 (0x0200 * 2 ^ 32 + layer * 2 ^ 28 + region * 2 ^ 23 + block * 2 ^ 12 + off)) (some v)
theorem test_core_register_writes :
    coreAt on (54 * 23 + 49) = some 1199
      ∧ runs (wr 3 23 49 0x010 2) (withCore 1199 { regs := { cause := 3 } }) (fun t => (getCore t 1199).regs.cause == 1 && t.answers == [.done]) = true
      ∧ runs (wr 3 23 49 0x014 0xFFFFFFF5) (withCore 1199 {}) (fun t => (getCore t 1199).regs.causeMask == 0x15) = true
      ∧ runs (wr 3 23 49 0x028 0x12345) (withCore 1199 {}) (fun t => (getCore t 1199).regs.wdog == 0x2345) = true
      ∧ runs (wr 3 23 49 0x0C4 1) (withCore 1199 { regs := { fpstat := 3 } }) (fun t => (getCore t 1199).regs.fpstat == 2) = true := by decide +kernel
theorem test_register_writes :
    runs (wr 1 31 0 0x04C 5) on (fun t => !t.comb.dsweepOn && t.comb.dsweepPeriod == 60) = true
      ∧ runs (wr 1 31 0 0x048 0x1FFF) on (fun t => t.comb.shardCnt == 4096) = true
      ∧ runs (wr 0 31 96 0x018 0xFFFFF123) on (fun t => t.reg.cfg == 0x123) = true
      ∧ runs (wr 0 31 64 0x014 0) on (fun t => t.net.timeout == 1) = true
      ∧ runs (wr 0 31 64 0x00C 0x15555) on (fun t => t.net.devid == 0x5555) = true
      ∧ runs (wr 0 31 64 0x00C 1) { on with net := { on.net with links := [(47, activeLink)] } } (fun t => t.answers == [.busError]) = true
      ∧ runs (wr 0 31 134 0 0x00210123) on (fun t => t.pwr.inrush == 0x21 && t.pwr.railLimit == 0x123) = true := by decide +kernel
theorem test_cause_writes :
    runs (wr 0 31 160 0x004 1) { on with clk := { on.clk with cause := 3 } } (fun t => t.clk.cause == 2) = true
      ∧ runs (wr 8 31 1 0x008 1) { on with pwr := { on.pwr with feedCause := 5 } } (fun t => t.pwr.feedCause == 4) = true
      ∧ runs (wr 0 31 128 0x010 0x10) { on with mgt := { on.mgt with cause := 0x18 } } (fun t => t.mgt.cause == 8) = true
      ∧ runs (wr 0 31 128 0x014 0xFF) on (fun t => t.mgt.causeMask == 0x3F) = true
      ∧ runs (wr 0 31 192 0x004 2) { on with sec := { on.sec with cause := 6 } } (fun t => t.sec.cause == 4) = true
      ∧ runs (.registerWrite (.host 0) 4 0x02000FC00004 (some 2)) on (fun t => t.answers == [.busError]) = true
      ∧ runs (wr 0 31 128 0x7FC 9) on (fun t => t.answers == [.done]) = true := by decide +kernel
/-- What EveryStepKeepsMemoriesCanonical asks is met by a memory that lists a byte, and fails of one that lists a zero. -/
theorem test_canonical_witness : MemoriesCanonical State.reset ∧ memWf { cells := [(5, 1), (9, 2)] } = true ∧ memWf { cells := [(5, 0)] } = false
    ∧ memWf { cells := [(9, 2), (5, 1)] } = false := by
  refine ⟨?_, by decide, by decide, by decide⟩
  simp [MemoriesCanonical, State.reset, coreCanonical, memWf, tblSorted]
/-- Some commands answer a next state, so NoCommandTouchesTheQueue and OtpBitsAreNeverCleared speak of something. -/
theorem test_queue_and_otp :
    runs (.feedOutOfRange 0 0) { feedState {} with pending := [.crystalGood], pwr := { mpOn.pwr with feeds := [(0, { inUse := true })] } } (fun t =>
        t.pending == [.crystalGood] && !t.pins.alwaysOn) = true
      ∧ otpKept { lifecycle := 1, arb0 := [1] } { lifecycle := 3, arb0 := [1, 2] } ∧ ¬ otpKept { lifecycle := 1 } { lifecycle := 2 } := by
  refine ⟨by decide +kernel, ⟨by decide, by decide, by decide +kernel, by decide, by decide, ⟨[2], rfl⟩, ⟨[], rfl⟩, rfl, rfl, rfl⟩, fun h => absurd h.1 (by decide)⟩
end Sys2Proof.Tests
end

/-! ### The word behind the last one

`groupGo` continues a group at `w % 4096` (log 49; a bank holds the words 0 to 4,095), while `groupMoves` asks whether word `w` itself is
an undefined encoding. For a group that goes on behind word 4,095 the statements therefore look at the eight bytes behind the end of the
bank, where the machine looks at word 0. -/
namespace Sys2Proof.Machine

/-- A thread word all of whose fields are zero. -/
def plainWord : ThreadWord := { dst := 0, a := 0, b := 0, c := 0, p := 0, n := false, m := 0 }

/-- The same under predicate p1. -/
def plainWordP1 : ThreadWord := { plainWord with p := 1 }

/-- An instruction bank with EXIT as word 0 and `w` as word 4,095, its last. -/
def wrapBank (w : Word64) : ByteMem := memWrite (memWrite {} 0 8 (threadBits 0x56 plainWord).toNat) (8 * 4095) 8 w.toNat

/-- A group of core 0 with all lanes active stands at word 4,095 of a bank, where `w` stands. -/
def atLastWord (w : Word64) : State :=
  { cores := [(0, { st := .run, validA := true, bankA := wrapBank w
                    tg := { groups := [(0, { alive := true, act := BitVec.allOnes 32, pc := 4095 })] } })]
    pwr := { st := .on } }

/-- Moving to word 4,096, where the bytes spell no thread word, is said to fault a live group. -/
theorem faulting_of_groupMoves_past_end {c g : Nat} {s t : State} (h : groupMoves c g 4096 s t)
    (hlive : (getGroup (getCore s c) g).alive = true) (hundef : threadUndefined (threadWordAt (getCore s c) 4096) = true) :
    (getCore t c).faulting = true := by
  obtain ⟨-, -, -, -, -, -, hfault, -⟩ := h
  rw [hfault, hlive, hundef]; rfl

theorem memGet_wrapBank_behind (w : Word64) {x : Nat} (h : 8 * 4096 ≤ x) : memGet (wrapBank w) x = 0 := by
  rw [wrapBank, memGet_memWrite_other _ _ _ _ _ (by omega), memGet_memWrite_other _ _ _ _ _ (by omega)]
  rfl

/-- The eight bytes behind the bank are zero, which is an undefined encoding. -/
theorem threadUndefined_behind_atLastWord (w : Word64) :
    threadUndefined (threadWordAt (getCore (atLastWord w) 0) 4096) = true := by
  have hzero : threadWordAt (getCore (atLastWord w) 0) 4096 = 0 := by
    have hbank : activeBank (getCore (atLastWord w) 0) = wrapBank w := by simp [activeBank, getCore, atLastWord, tblGet]
    simp [threadWordAt, hbank, memRead, memGet_wrapBank_behind]
  rw [hzero]; decide +kernel

/-- A command that leaves the core running does not move its group to word 4,096 as `groupMoves` says. -/
theorem not_completes_of_wrap {i : Instr} {w : Word64} {P : State → Prop} (hmoves : ∀ t, P t → groupMoves 0 0 4096 (atLastWord w) t)
    (hruns : Completes i (atLastWord w) fun t => (getCore t 0).faulting = false) : ¬ Completes i (atLastWord w) P := by
  rintro ⟨t, ht, hP⟩
  obtain ⟨t', ht', hrunning⟩ := hruns
  obtain rfl : t = t' := Host.Outcome.next.inj (ht.symm.trans ht')
  have hfault := faulting_of_groupMoves_past_end (hmoves t hP) rfl (threadUndefined_behind_atLastWord w)
  exact Bool.false_ne_true (hrunning.symm.trans hfault)

/-- Refutes O8: IADD at word 4,095 goes on at word 0, an EXIT, and nothing faults; the statement reads word 4,096, behind the bank, whose
zero bytes are an undefined encoding, and has the core fault. -/
theorem not_laneWordsWriteTheirDestination : ¬ Obligations.LaneWordsWriteTheirDestination := by
  unfold Obligations.LaneWordsWriteTheirDestination
  intro h
  have hready : threadReady (atLastWord (threadBits 0x01 plainWord)) 0 0 0x01 plainWord := ⟨by decide +kernel, by decide +kernel⟩
  have hadd := h _ (List.mem_cons_self ..) 0 0 plainWord _ hready
  exact not_completes_of_wrap (fun t ht => ht.1.1) ⟨_, rfl, by decide +kernel⟩ hadd

/-- Refutes O17: a BRX at word 4,095 that no lane takes (p1 is zero) goes on at word 0, an EXIT, and nothing faults; the statement reads
word 4,096, behind the bank, and has the core fault. -/
theorem not_divergenceKeepsAMaskStack : ¬ Obligations.DivergenceKeepsAMaskStack := by
  unfold Obligations.DivergenceKeepsAMaskStack
  intro h
  have hready : threadReady (atLastWord (threadBits 0x50 plainWordP1)) 0 0 0x50 plainWordP1 := ⟨by decide +kernel, by decide +kernel⟩
  have hnone : execLanes (getGroup (getCore (atLastWord (threadBits 0x50 plainWordP1)) (0 : CoreNo).val) (0 : GroupNo).val) plainWordP1 = 0 :=
    by decide +kernel
  have hbrx := (h 0 0 plainWordP1 _).1 hready (by decide +kernel)
  rw [if_pos hnone] at hbrx
  exact not_completes_of_wrap (fun t ht => ht.1) ⟨_, rfl, by decide +kernel⟩ hbrx

/-- Refutes O18: a BAR at word 4,095 at which all 32 lanes arrive completes and goes on at word 0, an EXIT, and nothing faults; the
statement reads word 4,096, behind the bank, and has the core fault. -/
theorem not_barriersAndExits : ¬ Obligations.BarriersAndExits := by
  unfold Obligations.BarriersAndExits
  intro h
  have hready : threadReady (atLastWord (threadBits 0x53 plainWord)) 0 0 0x53 plainWord := ⟨by decide +kernel, by decide +kernel⟩
  have hbar := (h 0 0 plainWord _).1 hready (by decide +kernel)
  exact not_completes_of_wrap (fun t ht => ht.1) ⟨_, rfl, by decide +kernel⟩ hbar

end Sys2Proof.Machine

/-! ### The regulator's capacity and limit

`regCapacity` is read off the stacks' modes in whatever state it is asked for; nothing stored can lag behind a change of mode. What R306
says is therefore proved of every state, and of the state after a reading of a temperature as of any other. -/
namespace Sys2Proof.Machine

/-- The four rows of the table of R300. -/
theorem stackCapacity_of_modes {k : Stack} {thr x2 : Bool} (hthr : k.throttled = thr) (hx2 : k.refreshX2 = x2) :
    stackCapacity k = if thr = true then (if x2 = true then 58982 else 62259) else if x2 = true then 117964 else 124518 := by
  subst hthr hx2; rfl

/-- The capacity rests on the capacities of the stacks 0 to 11 alone. -/
theorem regCapacity_eq_sum {s : State} {f : Nat → Nat} (h : ∀ i, i < 12 → stackCapacity (getStack s i) = f i) :
    regCapacity s = ((List.range 12).map f).sum :=
  congrArg List.sum (List.map_congr_left fun i hi => h i (List.mem_range.mp hi))

theorem regCapacity_eq_mul {s : State} {n : Nat} (h : ∀ i, i < 12 → stackCapacity (getStack s i) = n) : regCapacity s = 12 * n := by
  rw [regCapacity_eq_sum h, List.map_const', List.sum_replicate_nat, List.length_range]

/-- The limit is nine tenths of the capacity, rounded down. -/
theorem regLimit_bounds (s : State) : 10 * regLimit s ≤ 9 * regCapacity s ∧ 9 * regCapacity s < 10 * (regLimit s + 1) := by
  rw [regLimit]; omega

/-- A row of the table of R306: all twelve stacks have the derated capacity `n`. -/
theorem capacity_and_limit_of_uniform {s : State} {n : Nat} (h : ∀ i, i < 12 → stackCapacity (getStack s i) = n) :
    regCapacity s = 12 * n ∧ regLimit s = 12 * n * 9 / 10 := by
  rw [regLimit, regCapacity_eq_mul h]; exact ⟨rfl, rfl⟩

/-- Settles O40: the capacity and the limit are functions of the present modes, so they follow them in every state. -/
theorem capacityAndLimitFollowTheModes : Obligations.CapacityAndLimitFollowTheModes := by
  unfold Obligations.CapacityAndLimitFollowTheModes
  intro follow
  have hfollow : ∀ u, follow u := by
    intro u thr x2 hmodes derated
    have hderated : ∀ i, i < 12 → stackCapacity (getStack u i) = derated i := fun i hi =>
      stackCapacity_of_modes (hmodes i hi).1 (hmodes i hi).2
    obtain ⟨hlow, hhigh⟩ := regLimit_bounds u
    refine ⟨regCapacity_eq_sum hderated, hlow, hhigh, fun hnormal => ?_, fun hdoubled => ?_⟩
    · have huniform : ∀ i, i < 12 → stackCapacity (getStack u i) = 124518 := fun i hi => by
        simp [hderated i hi, derated, hnormal i hi]
      exact capacity_and_limit_of_uniform huniform
    · have huniform : ∀ i, i < 12 → stackCapacity (getStack u i) = 117964 := fun i hi => by
        simp [hderated i hi, derated, hdoubled i hi]
      exact capacity_and_limit_of_uniform huniform
  exact fun st temp s => ⟨hfollow s, fun _ => ⟨_, rfl, hfollow _⟩⟩

end Sys2Proof.Machine
